-- ==== Sys2Proof/Word.lean ====
section
/-! DEFINITION. The two widths of the ECE: 32-bit registers (R25) and 8-bit buffer cells (R60). -/

namespace Sys2Proof

/-- A register value: every register is 32 bits wide (R25). -/
abbrev Word := BitVec 32

/-- One cell of the block buffer (R60). -/
abbrev Byte := BitVec 8

end Sys2Proof
end

