-- ==== Sys2Proof/Config.lean ====
section
/-! DEFINITION. What an instance of the ECE fixes (R9), and the values the spec leaves open. The
constants that R10 fixes for every instance (polynomials, coefficient rule, RaptorQ scheme, opcodes,
error codes, register map) stand where they are used, not here. -/

namespace Sys2Proof

/-- The two capacities of an instance (R9): `nslot` slots of `slotb` bytes each. -/
structure Config.Instance where
  nslot : Nat
  slotb : Nat
deriving DecidableEq, Repr

/-- The largest number of slots an instance may have (R9). -/
def Config.maxSlots : Nat := 65536

/-- The largest number of bytes a slot may have (R9). -/
def Config.maxSlotBytes : Nat := 16777216

/-- `PPM`: the unit in which every ratio is counted, millionths (R12). -/
def Config.ppm : Nat := 1000000

/-- FREE VALUE (R50, U2; log 5): the byte that address `addr` of the block buffer holds after the
`resets`-th reset until something is written there. No body: nothing can be proved about it. -/
opaque Config.unwrittenByte (resets addr : Nat) : Byte

/-- FREE VALUE (R118, U1; log 8): `inv(0)` in the field of 2 ^ `bits` elements. No rule uses it. -/
opaque Config.undefinedInverse (bits : Nat) : Nat

/-- FREE VALUE (R117, U1; log 8): `a (/) 0` in the field of 2 ^ `bits` elements. No rule uses it. -/
opaque Config.undefinedQuotient (bits a : Nat) : Nat

/-- FREE VALUE (R112, U1; log 8): `LOG[0]`, which does not exist. No rule uses it. -/
opaque Config.undefinedLog (bits : Nat) : Nat

end Sys2Proof
end

