-- ==== Sys2Proof/Syntax.lean ====
section
/-! DEFINITION. The twenty commands of the opcode map R92. A command word carries no operand (R94),
so no constructor has an argument. -/

namespace Sys2Proof

/-- One constructor per row of spec/opcode_table.json, in the table's order. -/
inductive Instr where
  | nop       -- NOP, R285
  | gf8Add    -- GF8.ADD, R122
  | gf8Mul    -- GF8.MUL, R123
  | gf8Div    -- GF8.DIV, R124
  | gf8Inv    -- GF8.INV, R125
  | gf8Log    -- GF8.LOG, R126
  | gf8Exp    -- GF8.EXP, R127
  | gf16Add   -- GF16.ADD, R128
  | gf16Mul   -- GF16.MUL, R129
  | gf16Div   -- GF16.DIV, R130
  | gf16Inv   -- GF16.INV, R131
  | gf16Log   -- GF16.LOG, R132
  | gf16Exp   -- GF16.EXP, R133
  | rsEnc     -- RS.ENC, R158
  | rsDec     -- RS.DEC, R166
  | rqEnc     -- RQ.ENC, R208
  | rqDec     -- RQ.DEC, R252
  | sel       -- SEL, R276
  | encAuto   -- ENC.AUTO, R280
  | dec       -- DEC, R282
deriving DecidableEq, Repr

end Sys2Proof
end

