-- ==== Sys2Proof/WellFormed.lean ====
section
/-! DEFINITION. What a well-formed command, instance and host access are. -/

namespace Sys2Proof

/-- Every command is well formed: a command has no operand that could be out of range (R94, R97). -/
def Instr.wf : Instr → Bool := fun _ => true

/-- The bounds of the two instance parameters (R9). -/
def Config.Instance.wf (c : Config.Instance) : Bool :=
  decide (1 ≤ c.nslot ∧ c.nslot ≤ Config.maxSlots ∧ 1 ≤ c.slotb ∧ c.slotb ≤ Config.maxSlotBytes)

/-- An R-space offset at which a 32-bit access is defined (R25, R63): a multiple of 4 below 0x3000. -/
def wfOffset (off : Nat) : Bool := decide (off % 4 = 0 ∧ off < 0x3000)

/-- A B-space address of the instance (R60): below NSLOT * SLOTB. -/
def Config.Instance.wfAddress (c : Config.Instance) (addr : Nat) : Bool :=
  decide (addr < c.nslot * c.slotb)

end Sys2Proof
end

