-- ==== Sys2Proof/Decode.lean ====
section
/-! DEFINITION. Decoding of a command word (R91, R92, R96), total on any word, and the encoder. -/

namespace Sys2Proof

/-- Why a word is no command (R92): its field ZERO is not zero, or its byte OP is not listed. -/
inductive IllegalWord where
  | zeroFieldSet  -- bits [31:8] are not all zero
  | unlistedOp    -- bits [7:0] are not one of the twenty opcodes
deriving DecidableEq, Repr

/-- Field ZERO of format C, bits [31:8] (R91). -/
def wordZero (w : Word) : BitVec 24 := w.extractLsb' 8 24

/-- Field GRP of format C, bits [7:4]: the unit group (R91). -/
def wordGrp (w : Word) : BitVec 4 := w.extractLsb' 4 4

/-- Field FN of format C, bits [3:0]: the function within the group (R91). -/
def wordFn (w : Word) : BitVec 4 := w.extractLsb' 0 4

/-- The opcode map by unit group and function (R92, R93). -/
def decodeOp (grp fn : Nat) : Option Instr :=
  match grp, fn with
  | 0, 0 => some .nop
  | 1, 0 => some .gf8Add
  | 1, 1 => some .gf8Mul
  | 1, 2 => some .gf8Div
  | 1, 3 => some .gf8Inv
  | 1, 4 => some .gf8Log
  | 1, 5 => some .gf8Exp
  | 2, 0 => some .gf16Add
  | 2, 1 => some .gf16Mul
  | 2, 2 => some .gf16Div
  | 2, 3 => some .gf16Inv
  | 2, 4 => some .gf16Log
  | 2, 5 => some .gf16Exp
  | 3, 0 => some .rsEnc
  | 3, 1 => some .rsDec
  | 4, 0 => some .rqEnc
  | 4, 1 => some .rqDec
  | 5, 0 => some .sel
  | 5, 1 => some .encAuto
  | 5, 2 => some .dec
  | _, _ => none

/-- Decoding of a command word is total (R92): the command the table names, or the reason there is none. -/
def decode (w : Word) : Except IllegalWord Instr :=
  if wordZero w = 0 then
    match decodeOp (wordGrp w).toNat (wordFn w).toNat with
    | some i => .ok i
    | none => .error .unlistedOp
  else .error .zeroFieldSet

/-- Group and function of a command, from the same map (R92, R93). -/
def opOf : Instr → BitVec 4 × BitVec 4
  | .nop => (0, 0)
  | .gf8Add => (1, 0)
  | .gf8Mul => (1, 1)
  | .gf8Div => (1, 2)
  | .gf8Inv => (1, 3)
  | .gf8Log => (1, 4)
  | .gf8Exp => (1, 5)
  | .gf16Add => (2, 0)
  | .gf16Mul => (2, 1)
  | .gf16Div => (2, 2)
  | .gf16Inv => (2, 3)
  | .gf16Log => (2, 4)
  | .gf16Exp => (2, 5)
  | .rsEnc => (3, 0)
  | .rsDec => (3, 1)
  | .rqEnc => (4, 0)
  | .rqDec => (4, 1)
  | .sel => (5, 0)
  | .encAuto => (5, 1)
  | .dec => (5, 2)

/-- The command word of a command, ZERO || GRP || FN (R91). -/
def encode (i : Instr) : Word := (0#24 ++ (opOf i).1 ++ (opOf i).2 : BitVec 32)

/-- The host's question about a row of the opcode table: the instruction this decoder reads from the
row's word. A command is one 32-bit word (R90), so the bits of `w` above `nbits` are dropped, and a
number that is no 32-bit word is no command. -/
def decodeTableWord (nbits w : Nat) : Option Instr :=
  if w % 2 ^ nbits < 2 ^ 32 then
    match decode (BitVec.ofNat 32 (w % 2 ^ nbits)) with
    | .ok i => some i
    | .error _ => none
  else none

end Sys2Proof
end

