-- ==== Sys2Proof/Machine/Instance.lean ====
section
/-! DEFINITION. The instance that `State.reset` is the reset state of. -/

namespace Sys2Proof.Machine

/-- DESIGN CHOICE (R9, U14; log 4): the capacities of the one instance that `State.reset` describes, the
largest the spec allows. Every other instance is `State.resetOf nslot slotb`, and no meaning reads this
constant: a command reads the capacities from State. -/
def resetInstance : Config.Instance := ⟨Config.maxSlots, Config.maxSlotBytes⟩

end Sys2Proof.Machine
end

