-- ==== Sys2Proof/Machine/State.lean ====
section
/-! DEFINITION. The state of the ECE (R21), the inputs that can reach it, and the state after reset (R49). -/

namespace Sys2Proof.Machine

/-- The outcome of a command, one value of the table R300; nothing else is ever written to `ERR`. -/
inductive ErrCode where
  | ok                  -- 0x00, the command ended with `done`
  | decodingFailed      -- 0x01, R301
  | insufficientBlocks  -- 0x02, R302
  | invalidRedundancy   -- 0x03, reserved, never raised (R306)
  | illegal             -- 0x10, E_ILLEGAL, R96
  | gfUndef             -- 0x11, E_GFUNDEF, R119
  | capacity            -- 0x12, E_CAPACITY, R303
  | oddLen              -- 0x13, E_ODDLEN, R156
  | badMode             -- 0x14, E_BADMODE, R282
deriving DecidableEq, Repr

/-- The ECE has no fault: a command ends with `done` or with `raise`, and in no other way (R17, R305,
R308); both are next states. The type is empty, so that no step can answer a fault. -/
inductive Fault where
deriving DecidableEq, Repr

/-- Why the model gives no next state. All but the first are the host accesses to which the spec gives
no meaning and which it asks a model to refuse (U4). -/
inductive Refusal where
  /-- Raised by `exec` for a command without a meaning; no arm of `exec` uses it. Safe. -/
  | notModelled (mnemonic : String)
  /-- Raised by a 32-bit R-space access at an offset that is no multiple of 4 (R63, U4 a). Safe. -/
  | unalignedOffset
  /-- Raised by an R-space access at offset 0x3000 or above (R43, U4 b). Safe. -/
  | outsideRSpace
  /-- Raised by a B-space access at address NSLOT * SLOTB or above (R61, U4 b). Safe. -/
  | outsideBSpace
  /-- Raised by an R-space access that is not 32 bits wide (R63, U4 a). Safe. -/
  | registerWidth
  /-- Raised by a B-space access wider than one byte (R61, U4 c). Safe. -/
  | bufferWidth
  /-- Raised by a host access made while reset is applied (R330, U4 d). Safe. -/
  | accessDuringReset
deriving DecidableEq, Repr

/-- What the outside world does to the ECE, one at a time (R20, R61, R63, R98, R330). Offsets are those of
R-space, addresses those of B-space (R48). -/
inductive HostInput where
  | wr (off : Nat) (v : Word)         -- 32-bit register write; at 0x04 it executes a command (R28)
  | rd (off : Nat)                    -- 32-bit register read
  | wrb (addr : Nat) (v : Byte)       -- byte write of the buffer
  | rdb (addr : Nat)                  -- byte read of the buffer
  | regOther (off bits : Nat)         -- a register access of `bits` bits, not 32: no meaning (R63)
  | bufOther (addr bytes : Nat)       -- a buffer access of `bytes` bytes, not 1: no meaning (R61)
  | reset                             -- the platform applies reset and releases it (R330)
  | accessInReset                     -- a host access while reset is applied: not accepted (R330)
deriving DecidableEq, Repr

/-- A value that a host read returned. -/
inductive Reply where
  | reg (off : Nat) (v : Word)
  | byte (addr : Nat) (v : Byte)
deriving DecidableEq, Repr

/-- Contents of the block buffer: (address, byte) for every address written since reset, addresses
strictly rising (`Memory.wf`). -/
abbrev Memory := List Host.Cell

/-- The architectural state (R21), and three fields of the model's own: `resets`, `script`, `replies`. -/
structure State where
  /-- NSLOT, read as `NSLOT_R` (R9, R41). -/
  nslot : Nat
  /-- SLOTB, read as `SLOTB_R` (R9, R42). -/
  slotb : Nat
  /-- `CMD` (R28). -/
  cmd : Word
  /-- `ERR` (R32). -/
  err : ErrCode
  /-- `STATUS.ERRF` (R24, R29). -/
  errf : Bool
  /-- `STATUS.RQ_RDY` (R31). -/
  rqRdy : Bool
  /-- `OPA` (R22). -/
  opa : Word
  /-- `OPB` (R22). -/
  opb : Word
  /-- `RES` (R22). -/
  res : Word
  /-- `K` (R33). -/
  k : Word
  /-- `N` (R34). -/
  n : Word
  /-- `BLEN` (R35). -/
  blen : Word
  /-- `REDUN` (R36). -/
  redun : Word
  /-- `LOSS` (R37). -/
  loss : Word
  /-- `MODE` (R38). -/
  mode : Word
  /-- `THR8` (R39). -/
  thr8 : Word
  /-- `THR16` (R40). -/
  thr16 : Word
  /-- `PRES` (R44): the slots whose presence bit is 1, strictly rising. -/
  pres : List Nat
  /-- The block buffer (R45). -/
  buf : Memory
  /-- The model's own (log 5): how many resets this instance has had after its first. -/
  resets : Nat
  /-- The model's own (log 1): the inputs still to arrive, in arrival order (R72). -/
  script : List HostInput
  /-- The model's own (log 3): the values host reads have returned, oldest first. -/
  replies : List Reply
deriving DecidableEq, Repr

/-- The state right after the first reset of an instance with the given parameters (R26, R49, R330). -/
def State.resetOf (nslot slotb : Nat) : State where
  nslot := nslot
  slotb := slotb
  cmd := 0
  err := .ok
  errf := false
  rqRdy := false
  opa := 0
  opb := 0
  res := 0
  k := 0
  n := 0
  blen := 0
  redun := 0
  loss := 0
  mode := 0
  thr8 := 80000
  thr16 := 30000
  pres := []
  buf := []
  resets := 0
  script := []
  replies := []

/-- The state right after reset of the instance `resetInstance` (log 4). -/
def State.reset : State := State.resetOf resetInstance.nslot resetInstance.slotb

end Sys2Proof.Machine
end

