-- ==== Sys2Proof/Machine/Ops.lean ====
section
/-! DEFINITION. The named operations over the buffer, the presence bits and the registers, and the two ways
a command ends: `done` and `raise` (R15, R305). -/

namespace Sys2Proof.Machine

/-! ### The block buffer -/

/-- What is written at an address; `none` where nothing has been written since reset. -/
def Memory.find : Memory → Nat → Option Byte
  | [], _ => none
  | (b, v) :: m, a => if b = a then some v else Memory.find m a

/-- Writes one cell, keeping the addresses strictly rising. -/
def Memory.store : Memory → Nat → Byte → Memory
  | [], a, v => [(a, v)]
  | (b, w) :: m, a, v =>
    if a < b then (a, v) :: (b, w) :: m
    else if a = b then (a, v) :: m
    else (b, w) :: Memory.store m a v

/-- Writes consecutive cells, the first at the lowest address. -/
def Memory.storeBytes : Memory → Nat → List Byte → Memory
  | m, _, [] => m
  | m, a, v :: vs => Memory.storeBytes (Memory.store m a v) (a + 1) vs

/-- The canonical form: addresses strictly rising. An unlisted address is one that was never written, and
no listed byte equals that, so equal contents are equal lists. -/
def Memory.wf (m : Memory) : Bool := decide (m.Pairwise (fun x y => x.1 < y.1))

/-- The byte at a B-space address (R60): the byte written there, else the unspecified byte of R50. This is
the one definition of what an unlisted address reads as (log 5). -/
def State.byteAt (s : State) (addr : Nat) : Byte :=
  match Memory.find s.buf addr with
  | some v => v
  | none => Config.unwrittenByte s.resets addr

/-- A host byte write (R61). -/
def State.setByte (s : State) (addr : Nat) (v : Byte) : State :=
  { s with buf := Memory.store s.buf addr v }

/-- `MemRead(addr, n)` (R15, R77): n consecutive bytes, lowest address first. -/
def State.memRead (s : State) (addr n : Nat) : List Byte :=
  (List.range n).map (fun t => s.byteAt (addr + t))

/-- `MemWrite(addr, n, v)` (R15, R77): writes exactly n bytes. `v` has n bytes wherever a rule writes. -/
def State.memWrite (s : State) (addr n : Nat) (v : List Byte) : State :=
  { s with buf := Memory.storeBytes s.buf addr ((List.range n).map (fun t => v.getD t 0)) }

/-- The B-space address of slot `i` (R60, R77). -/
def State.slotAddr (s : State) (i : Nat) : Nat := i * s.slotb

/-- `Blk(i)`: the block held in slot i at the current block length (R15, R62). -/
def State.blk (s : State) (i : Nat) : List Byte := s.memRead (s.slotAddr i) s.blen.toNat

/-- `Blk(i) <- v` (R15, R62). -/
def State.setBlk (s : State) (i : Nat) (v : List Byte) : State :=
  s.memWrite (s.slotAddr i) s.blen.toNat v

/-- Several blocks, each with the slot it goes to, in order. -/
def State.setBlks (s : State) (bs : List (Nat × List Byte)) : State :=
  bs.foldl (fun t b => t.setBlk b.1 b.2) s

/-! ### The presence bitmap -/

/-- `PRES[i]` (R44). -/
def State.presAt (s : State) (i : Nat) : Bool := decide (i ∈ s.pres)

/-- The number of present entries among the first `n` (R160). -/
def State.presentBelow (s : State) (n : Nat) : Nat :=
  ((List.range n).filter (fun i => s.presAt i)).length

/-- `PRES[i] <- 1` for i < n and `PRES[i] <- 0` for all other slots (R44). -/
def State.setPresBelow (s : State) (n : Nat) : State := { s with pres := List.range n }

/-- Bits [31:0] of `PRESW[w]`: bit b is `PRES[32w + b]`; bits of slots at or above NSLOT read 0 (R44). -/
def State.presWord (s : State) (w : Nat) : Word :=
  BitVec.ofNat 32 (((List.range 32).map (fun b =>
    if 32 * w + b < s.nslot ∧ 32 * w + b ∈ s.pres then 2 ^ b else 0)).sum)

/-- A write of `PRESW[w]`; bits of slots at or above NSLOT are ignored (R44). -/
def State.setPresWord (s : State) (w : Nat) (v : Word) : State :=
  { s with pres :=
      s.pres.filter (fun i => i < 32 * w)
        ++ (((List.range 32).filter (fun b => v.getLsbD b && decide (32 * w + b < s.nslot))).map (32 * w + ·)
        ++ s.pres.filter (fun i => 32 * w + 32 ≤ i)) }

/-! ### Registers that commands write -/

/-- `x[RES] <- v`, v below 2 ^ 32. -/
def State.setRes (s : State) (v : Nat) : State := { s with res := BitVec.ofNat 32 v }

/-- `x[N] <- v`, v below 2 ^ 32. -/
def State.setN (s : State) (v : Nat) : State := { s with n := BitVec.ofNat 32 v }

/-- `x[MODE] <- v`, v below 2 ^ 32. -/
def State.setMode (s : State) (v : Nat) : State := { s with mode := BitVec.ofNat 32 v }

/-- What every successful encode and decode does last (R44): `N` <- n, the first n slots present, all
others absent. -/
def State.publish (s : State) (n : Nat) : State := (s.setN n).setPresBelow n

/-! ### The two ways a command ends -/

/-- `done` (R15, R305): success. -/
def State.done (s : State) : State := { s with err := .ok, errf := false }

/-- `raise E(code)` (R15, R305): the ECE's whole exception entry. `ERR` <- code and `ERRF` <- 1; no control
is transferred, nothing is saved, no mode changes (R308), and there is no return from it: the next command
overwrites both (R309). -/
def State.raise (s : State) (code : ErrCode) : State := { s with err := code, errf := true }

/-- Ends a command: with `done` on the state its pseudocode produced, or with `raise` on the state `s` it
started from, so that an error leaves no partial result (R17, R305). -/
def conclude (s : State) (r : Except ErrCode State) : Host.Outcome State Fault Refusal :=
  match r with
  | .ok t => .next t.done
  | .error code => .next (s.raise code)

end Sys2Proof.Machine
end

