-- ==== Sys2Proof/Machine/Operands.lean ====
section
/-! DEFINITION. Every operand form of the ECE (R94, R95): operands are implicit, slices or whole values of
registers; signedness belongs to the command that reads. -/

namespace Sys2Proof.Machine

/-- `w[7:0]` as an unsigned integer (R14, R22). -/
def byteSlice (w : Word) : Nat := (w.extractLsb' 0 8).toNat

/-- `w[15:0]` as an unsigned integer (R14, R22). -/
def halfSlice (w : Word) : Nat := (w.extractLsb' 0 16).toNat

/-- `unsigned(w)` (R14). -/
def unsignedWord (w : Word) : Nat := w.toNat

/-- `signed(w)` (R14). -/
def signedWord (w : Word) : Int := w.toInt

/-- k: `x[K]`, always unsigned (R33, R94). -/
def State.kVal (s : State) : Nat := unsignedWord s.k

/-- n: `x[N]`, always unsigned (R34, R94). -/
def State.nVal (s : State) : Nat := unsignedWord s.n

/-- `x[BLEN]`, always unsigned (R35, R94). -/
def State.blenVal (s : State) : Nat := unsignedWord s.blen

/-- `x[REDUN]`, always signed, millionths (R36, R94). -/
def State.redunVal (s : State) : Int := signedWord s.redun

/-- `ceil(k * r / 1000000)` for k >= 0 and r >= 0, exact (R12, R14, R152). -/
def ceilPpm (k r : Nat) : Nat := (k * r + (Config.ppm - 1)) / Config.ppm

end Sys2Proof.Machine
end

