-- ==== Sys2Proof/Machine/Flags.lean ====
section
/-! DEFINITION. The three flags of `STATUS` (R24, R29) and the code numbers of `ERR` (R300). The ECE has no
arithmetic condition code: no command computes a flag from its result. -/

namespace Sys2Proof.Machine

/-- The code written to `ERR` (R300). -/
def ErrCode.code : ErrCode → Nat
  | .ok => 0x00
  | .decodingFailed => 0x01
  | .insufficientBlocks => 0x02
  | .invalidRedundancy => 0x03
  | .illegal => 0x10
  | .gfUndef => 0x11
  | .capacity => 0x12
  | .oddLen => 0x13
  | .badMode => 0x14

/-- What a read of `ERR` returns; bits [31:8] are 0 (R32). -/
def errWord (e : ErrCode) : Word := BitVec.ofNat 32 e.code

/-- What a read of `STATUS` returns: bit 0 `TBL_RDY`, constant 1 (R30), bit 1 `RQ_RDY`, bit 2 `ERRF`, all
other bits 0 (R29). -/
def State.statusWord (s : State) : Word :=
  (0#29 ++ BitVec.ofBool s.errf ++ BitVec.ofBool s.rqRdy ++ 1#1 : BitVec 32)

/-- `STATUS.RQ_RDY` <- 1, at every dispatch to the RaptorQ unit, before any check (R31). -/
def State.constructRq (s : State) : State := { s with rqRdy := true }

end Sys2Proof.Machine
end

