-- ==== Sys2Proof/Machine/Galois.lean ====
section
/-! DEFINITION. The field arithmetic unit: the two fields R110, R111, their tables R112 and operations R115
to R118. An element is the unsigned integer whose bit i is the coefficient of x^i (R16).

The product is the polynomial product reduced by POLY, which R116 says is the same element the table method
gives; the inverse is the power q - 2 and `EXP[i]` the i-th power of x. Sys2Proof/Laws/Galois.lean shows
that they obey the table construction R112 and the table formulas of R116 to R118 (log 7). -/

namespace Sys2Proof.Machine

/-- A field GF(2^bits) with its polynomial written as an integer (R16). -/
structure Gf where
  bits : Nat
  poly : Nat
deriving DecidableEq, Repr

/-- GF(256), POLY8 = 0x11D (R110). -/
def gf8 : Gf := ⟨8, 0x11D⟩

/-- GF(65536), POLY16 = 0x1100B (R111). -/
def gf16 : Gf := ⟨16, 0x1100B⟩

/-- The number of elements, Q (R110, R111). -/
def Gf.size (F : Gf) : Nat := 2 ^ F.bits

/-- The order of the multiplicative group, N = Q - 1 (R110, R111). -/
def Gf.order (F : Gf) : Nat := F.size - 1

/-- The last two lines of the table loop R112: v <- v << 1, and v <- v ^ POLY when that sets bit `bits`.
This is multiplication by alpha (R120). -/
def xtime (F : Gf) (v : Nat) : Nat := (2 * v) ^^^ (F.poly * ((2 * v) >>> F.bits))

/-- `a (+) b` (R115). -/
def gfAdd (a b : Nat) : Nat := a ^^^ b

/-- The polynomial product of `a` and the low `n` bits of `b`, reduced by POLY. -/
def mulBits (F : Gf) (a : Nat) : Nat → Nat → Nat
  | 0, _ => 0
  | n + 1, b => (b % 2 * a) ^^^ xtime F (mulBits F a n (b / 2))

/-- `a (x) b` (R116): 0 if an operand is 0, else the product of the two polynomials modulo POLY. -/
def gfMul (F : Gf) (a b : Nat) : Nat :=
  if a = 0 ∨ b = 0 then 0 else mulBits F a F.bits b

/-- `a` to the power given by the low `n` bits of `e`. -/
def powBits (F : Gf) : Nat → Nat → Nat → Nat
  | 0, _, _ => 1
  | n + 1, a, e =>
    if e % 2 = 1 then gfMul F a (powBits F n (gfMul F a a) (e / 2))
    else powBits F n (gfMul F a a) (e / 2)

/-- `EXP[i]` = alpha^i for 0 <= i <= N - 1 (R112). -/
def gfExp (F : Gf) (i : Nat) : Nat := powBits F F.bits 2 i

/-- Walks the table loop R112 from index `i`, where it holds the element `v`, for at most `n` turns, up to
the index at which it holds `a`. -/
def logFrom (F : Gf) (a : Nat) : Nat → Nat → Nat → Nat
  | 0, i, _ => i
  | n + 1, i, v => if v = a then i else logFrom F a n (i + 1) (xtime F v)

/-- `LOG[a]` for a non-zero `a` (R112): the index i below N with `EXP[i]` = a. `LOG[0]` does not exist. -/
def gfLog (F : Gf) (a : Nat) : Nat :=
  if a = 0 then Config.undefinedLog F.bits else logFrom F a F.order 0 1

/-- `inv(a)` (R118), undefined for 0: the power Q - 2, which is the power N - 1 of the group of order N. -/
def gfInv (F : Gf) (a : Nat) : Nat :=
  if a = 0 then Config.undefinedInverse F.bits else powBits F F.bits a (F.size - 2)

/-- `a (/) b` (R117, R120), undefined for b = 0. -/
def gfDiv (F : Gf) (a b : Nat) : Nat :=
  if b = 0 then Config.undefinedQuotient F.bits a else gfMul F a (gfInv F b)

end Sys2Proof.Machine
end

