-- ==== Sys2Proof/Machine/Linear.lean ====
section
/-! DEFINITION. Linear systems over a field whose unknowns are blocks: rows (42_raptorq_encode.md section 3),
row operations (R240), and "ordinary Gaussian elimination" (R246), which the Reed–Solomon decoder (R165),
the precode (R205, R206) and phase 2 of the RaptorQ decoder (R246) share. -/

namespace Sys2Proof.Machine

/-- A vector of field elements; a block is the vector of its symbols (R153). -/
abbrev Vec := List Nat

/-- Symbol-wise `a (+) b` (R16). -/
def vecAdd (a b : Vec) : Vec := List.zipWith (fun x y => gfAdd x y) a b

/-- Symbol-wise `c (x) a` (R16). -/
def vecScale (F : Gf) (c : Nat) (a : Vec) : Vec := a.map (fun x => gfMul F c x)

/-- The XOR of a list of vectors of `n` elements. -/
def vecSum (n : Nat) (vs : List Vec) : Vec := vs.foldl vecAdd (List.replicate n 0)

/-- One equation: the sum over columns c of `coef[c] (x) C[c]` is `rhs`. -/
structure EqRow where
  coef : Vec
  rhs : Vec
deriving DecidableEq, Repr

/-- The coefficient in column `c`. -/
def EqRow.at (r : EqRow) (c : Nat) : Nat := r.coef.getD c 0

/-- Multiplies a row by `f`. -/
def EqRow.scale (F : Gf) (f : Nat) (r : EqRow) : EqRow := ⟨vecScale F f r.coef, vecScale F f r.rhs⟩

/-- Adds `f` times row `a` to row `b` (R240). -/
def EqRow.addMul (F : Gf) (f : Nat) (a b : EqRow) : EqRow :=
  ⟨vecAdd b.coef (vecScale F f a.coef), vecAdd b.rhs (vecScale F f a.rhs)⟩

/-- Makes the coefficient of `b` in column `c` zero with the row `p`, whose coefficient there is 1. -/
def EqRow.clear (F : Gf) (c : Nat) (p b : EqRow) : EqRow :=
  if b.at c = 0 then b else EqRow.addMul F (b.at c) p b

/-- The first row with a non-zero coefficient in column `c`, and the other rows after it has been exchanged
with the first of them all (R246); `none` if there is no such row. -/
def takePivot (c : Nat) : List EqRow → Option (EqRow × List EqRow)
  | [] => none
  | r :: rs =>
    if r.at c ≠ 0 then some (r, rs)
    else
      let pre := rs.takeWhile (fun x => x.at c = 0)
      match rs.drop pre.length with
      | [] => none
      | p :: post => some (p, pre ++ r :: post)

/-- R246: for each column of the list in turn, takes the first remaining row with a non-zero coefficient
there, scales it to 1, and clears the column in every other row, before and after. `done` are the rows
already placed, in order. `none` when some column has no such row (R247). -/
def gaussJordan (F : Gf) : List Nat → List EqRow → List EqRow → Option (List EqRow)
  | [], done, _ => some done
  | c :: cs, done, rest =>
    match takePivot c rest with
    | none => none
    | some (p, rest') =>
      let p1 := EqRow.scale F (gfInv F (p.at c)) p
      gaussJordan F cs (done.map (EqRow.clear F c p1) ++ [p1]) (rest'.map (EqRow.clear F c p1))

/-- The solution of a system in the unknowns of the columns `cols`: one block per column, in the order of
`cols`; `none` when the rows do not determine them (R246, R247). -/
def solveSystem (F : Gf) (cols : List Nat) (rows : List EqRow) : Option (List Vec) :=
  (gaussJordan F cols [] rows).map (fun done => done.map EqRow.rhs)

/-- A square matrix is non-singular when elimination finds a pivot in every column (R205). -/
def nonSingular (F : Gf) (size : Nat) (matrix : List Vec) : Bool :=
  (solveSystem F (List.range size) (matrix.map (fun v => ⟨v, []⟩))).isSome

/-- What is left of `v` after the vectors of `basis` have been subtracted: each has a 1 in its own lead
column and zeros in the lead columns of those before it. It is zero iff `v` is in their span. -/
def residue (F : Gf) : List (Nat × Vec) → Vec → Vec
  | [], v => v
  | (c, b) :: basis, v =>
    residue F basis (if v.getD c 0 = 0 then v else vecAdd v (vecScale F (v.getD c 0) b))

/-- The first column in which `v` is not zero. -/
def leadColumn (v : Vec) : Option Nat := v.findIdx? (fun x => x ≠ 0)

end Sys2Proof.Machine
end

