-- ==== Sys2Proof/Machine/Coding.lean ====
section
/-! DEFINITION. What the two coders share: symbols of a block (R153), the contract checks of a decode (R161,
R232), and the blocks of an operation. -/

namespace Sys2Proof.Machine

/-- The bytes of a block paired into 16-bit symbols, the byte at the lower address holding bits [7:0] (R65). -/
def pairBytes : List Byte → Vec
  | b0 :: b1 :: bs => (b0.toNat ||| (b1.toNat <<< 8)) :: pairBytes bs
  | _ => []

/-- The two bytes of each 16-bit symbol, v[7:0] first (R77). -/
def splitBytes : Vec → List Byte
  | [] => []
  | v :: vs => BitVec.ofNat 8 v :: BitVec.ofNat 8 (v >>> 8) :: splitBytes vs

/-- The symbols of a block (R153). -/
def symbolsOf (F : Gf) (bs : List Byte) : Vec :=
  if F.bits = 8 then bs.map BitVec.toNat else pairBytes bs

/-- The bytes of a vector of symbols (R153). -/
def bytesOf (F : Gf) (v : Vec) : List Byte :=
  if F.bits = 8 then v.map (BitVec.ofNat 8) else splitBytes v

/-- `nsym`: the number of symbols of a block of `blen` bytes (R153). -/
def symbolCount (F : Gf) (blen : Nat) : Nat := if F.bits = 8 then blen else blen / 2

/-- `Blk(i)` as a vector of symbols. -/
def State.symbols (s : State) (F : Gf) (i : Nat) : Vec := symbolsOf F (s.blk i)

/-- Writes blocks given as vectors of symbols, each to its slot. -/
def State.setSymbols (s : State) (F : Gf) (bs : List (Nat × Vec)) : State :=
  s.setBlks (bs.map (fun b => (b.1, bytesOf F b.2)))

/-- The erased source indices, ascending (R163). -/
def State.erased (s : State) (k : Nat) : List Nat := (List.range k).filter (fun i => !s.presAt i)

/-- How a decode goes on after its contract checks (R161). -/
inductive DecodePath where
  | direct   -- the empty result or the fast path: no block is read or written (R162)
  | general  -- some source block is erased and has to be recovered (R163)
deriving DecidableEq, Repr

/-- The contract checks a to f of R161, in that order, for k = `x[K]` and n = `x[N]`. -/
def decodeContract (s : State) : Except ErrCode DecodePath :=
  if s.kVal = 0 then .ok .direct
  else if s.nVal = 0 then .error .insufficientBlocks
  else if s.presentBelow s.nVal = 0 then .error .decodingFailed
  else if s.kVal > s.nVal ∨ s.presentBelow s.nVal < s.kVal then .error .insufficientBlocks
  else if s.erased s.kVal = [] then .ok .direct
  else .ok .general

end Sys2Proof.Machine
end

