-- ==== Sys2Proof/Machine/RaptorQ.lean ====
section
/-! DEFINITION. The RaptorQ coder: hash, parameters, constraint rows, symbol generator, precode, and the
encoder `RQ.ENC` (R190 to R209). All its arithmetic is byte-wise in GF(256) (R209). -/

namespace Sys2Proof.Machine

/-! ### The hash -/

/-- `fmix32` (R190). -/
def fmix32 (x : Word) : Word :=
  let x := x ^^^ (x >>> 16)
  let x := x * 0x85EBCA6B
  let x := x ^^^ (x >>> 13)
  let x := x * 0xC2B2AE35
  x ^^^ (x >>> 16)

/-- `Mix(u, v, w)` (R191). -/
def rqMix (u v w : Nat) : Nat :=
  (fmix32 (fmix32 (fmix32 (BitVec.ofNat 32 u + 0x9E3779B9) ^^^ BitVec.ofNat 32 v) ^^^ BitVec.ofNat 32 w)).toNat

/-! ### Parameters as functions of k -/

/-- The first number from `n` on, among the next `fuel`, that `p` holds of. -/
def leastFrom (p : Nat → Bool) : Nat → Nat → Nat
  | 0, n => n
  | fuel + 1, n => if p n then n else leastFrom p fuel (n + 1)

/-- No divisor of n among the next `fuel` numbers from d on whose square is at most n. -/
def noDivisorFrom (n : Nat) : Nat → Nat → Bool
  | 0, _ => true
  | fuel + 1, d => if d * d > n then true else if n % d = 0 then false else noDivisorFrom n fuel (d + 1)

/-- Primality by trial division. -/
def primeTest (n : Nat) : Bool := if n < 2 then false else noDivisorFrom n n 2

/-- The least prime at or above `n`; by Bertrand's postulate there is one below 2n + 2 (log 14). -/
def nextPrime (n : Nat) : Nat := leastFrom primeTest (n + 2) n

/-- The binomial coefficient C(n, r). -/
def binomial (n : Nat) : Nat → Nat
  | 0 => 1
  | r + 1 => binomial n r * (n - r) / (r + 1)

/-- `T(k)` (R192). -/
def rqT (k : Nat) : Nat := leastFrom (fun t => decide (t * (t - 1) ≥ 2 * k)) (k + 2) 1

/-- `S(k)`, the number of LDPC rows (R193). -/
def rqS (k : Nat) : Nat := nextPrime ((k + 99) / 100 + rqT k)

/-- `H(k)`, the number of HDPC rows (R194). -/
def rqH (k : Nat) : Nat := leastFrom (fun h => decide (binomial h ((h + 1) / 2) ≥ k + rqS k)) (k + rqS k) 1

/-- `W(k)`, the number of LT-addressable intermediate symbols (R195). -/
def rqW (k : Nat) : Nat := k + rqS k

/-- `L(k)`, the number of intermediate symbols (R195). -/
def rqL (k : Nat) : Nat := k + rqS k + rqH k

/-- `W'(k)` (R196). -/
def rqWPrime (k : Nat) : Nat := nextPrime (rqW k)

/-- `P1(k)` (R196). -/
def rqP1 (k : Nat) : Nat := nextPrime (rqH k)

/-! ### The constraint rows -/

/-- The coefficient of LDPC row `r` in column `c` (R197). -/
def ldpcCoef (k S r c : Nat) : Nat :=
  if c < k then
    let a := 1 + (c / S) % (S - 1)
    let b := c % S
    if r = b ∨ r = (b + a) % S ∨ r = ((b + a) % S + a) % S then 1 else 0
  else if c = k + r then 1
  else 0

/-- `HD(h, c)` (R199). -/
def hdCoef (h c : Nat) : Nat := gfExp gf8 (rqMix 0x48445043 h c % gf8.order)

/-- The coefficient of HDPC row `h` in column `c` (R198). -/
def hdpcCoef (W h c : Nat) : Nat := if c < W then hdCoef h c else if c = W + h then 1 else 0

/-- LDPC row `r` (R197). -/
def ldpcRow (k r : Nat) : Vec := (List.range (rqL k)).map (fun c => ldpcCoef k (rqS k) r c)

/-- HDPC row `h` (R198). -/
def hdpcRow (k h : Nat) : Vec := (List.range (rqL k)).map (fun c => hdpcCoef (rqW k) h c)

/-! ### The symbol generator -/

/-- `Deg(v)` (R201). -/
def rqDeg (v : Nat) : Nat :=
  if v ≤ 10240 then 1
  else if v ≤ 491581 then 2
  else if v ≤ 712793 then 3
  else if v ≤ 831694 then 4
  else if v ≤ 948445 then 10
  else if v ≤ 1032188 then 11
  else 40

/-- The tuple (d, a, b, d1, a1, b1) of an encoding symbol (R202). -/
structure RqTuple where
  d : Nat
  a : Nat
  b : Nat
  d1 : Nat
  a1 : Nat
  b1 : Nat
deriving DecidableEq, Repr

/-- `Tuple(k, J, sid)` (R202). -/
def rqTuple (k J sid : Nat) : RqTuple where
  d := rqDeg (rqMix k sid (8 * J) % 1048576)
  a := 1 + rqMix k sid (8 * J + 1) % (rqWPrime k - 1)
  b := rqMix k sid (8 * J + 2) % rqWPrime k
  d1 := 2 + rqMix k sid (8 * J + 3) % 2
  a1 := 1 + rqMix k sid (8 * J + 4) % (rqP1 k - 1)
  b1 := rqMix k sid (8 * J + 5) % rqP1 k

/-- `while b >= bound: b <- (b + a) mod m`, at most `fuel` turns. With m prime, 0 < a < m and
0 < bound <= m, fewer than m turns are enough (R203). -/
def skipTo (bound a m : Nat) : Nat → Nat → Nat
  | 0, b => b
  | fuel + 1, b => if b ≥ bound then skipTo bound a m fuel ((b + a) % m) else b

/-- The walk of R203: `b` (already below `bound`) and then `count` more columns. -/
def walkColumns (bound a m : Nat) : Nat → Nat → List Nat
  | 0, b => [b]
  | count + 1, b => b :: walkColumns bound a m count (skipTo bound a m m ((b + a) % m))

/-- `Cols(k, J, sid)` (R203): min(d, W) columns below W, then d1 HDPC columns. -/
def rqCols (k J sid : Nat) : List Nat :=
  let t := rqTuple k J sid
  walkColumns (rqW k) t.a (rqWPrime k) (min t.d (rqW k) - 1) (skipTo (rqW k) t.a (rqWPrime k) (rqWPrime k) t.b)
    ++ (walkColumns (rqH k) t.a1 (rqP1 k) (t.d1 - 1) (skipTo (rqH k) t.a1 (rqP1 k) (rqP1 k) t.b1)).map
      (fun b1 => rqW k + b1)

/-- `Row(k, J, sid)`: a 1 in each listed column (R203). -/
def rqRow (k J sid : Nat) : Vec :=
  let cols := rqCols k J sid
  (List.range (rqL k)).map (fun c => if c ∈ cols then 1 else 0)

/-- `Sym(C, k, J, sid)`: the XOR of the listed intermediate symbols, blocks of `blen` bytes (R203). -/
def rqSym (blen : Nat) (C : List Vec) (k J sid : Nat) : Vec :=
  vecSum blen ((rqCols k J sid).map (fun c => C.getD c []))

/-- `parityCountRQ(k, r)` (R204). -/
def parityCountRq (k : Nat) (r : Int) : Nat := if r ≤ 0 ∨ k = 0 then 0 else max 1 (ceilPpm k r.toNat)

/-! ### Systematic index and intermediate symbols -/

/-- The rows of the LDPC and HDPC constraints, in that order (R205, R233). -/
def constraintRows (k : Nat) : List Vec :=
  (List.range (rqS k)).map (ldpcRow k) ++ (List.range (rqH k)).map (hdpcRow k)

/-- The precode matrix `A(k, J)` (R205). -/
def precodeMatrix (k J : Nat) : List Vec := constraintRows k ++ (List.range k).map (rqRow k J)

/-- The systematic index `J(k)`: the least J in 0 .. 255 for which A(k, J) is non-singular (R205). -/
def systematicIndex (k : Nat) : Option Nat :=
  (List.range 256).find? (fun J => nonSingular gf8 (rqL k) (precodeMatrix k J))

/-- The equations of a system: the constraint rows with the zero block, then a row for each symbol
identifier of the list with its block (R206, R233). -/
def rqSystem (blen k J : Nat) (symbols : List (Nat × Vec)) : List EqRow :=
  (constraintRows k).map (fun v => ⟨v, List.replicate blen 0⟩)
    ++ symbols.map (fun x => ⟨rqRow k J x.1, x.2⟩)

/-- The intermediate symbols C[0 .. L-1] of the source blocks (R206). -/
def State.rqIntermediate (s : State) (k J : Nat) : Option (List Vec) :=
  solveSystem gf8 (List.range (rqL k))
    (rqSystem s.blenVal k J ((List.range k).map (fun i => (i, s.symbols gf8 i))))

/-! ### RQ.ENC -/

/-- The pseudocode of `RQ.ENC`, lines 2 to 11 (R208); line 1 is `State.constructRq`. Line 8 has a solution
whenever line 7 finds J, since A(k, J) is then non-singular. -/
def rqEncode (s : State) : Except ErrCode State :=
  let k := s.kVal
  let p := parityCountRq k s.redunVal
  if k > s.nslot ∨ s.blenVal > s.slotb then .error .capacity
  else if k = 0 then .ok (s.publish 0)
  else if k + p > s.nslot then .error .capacity
  else if p = 0 then .ok (s.publish k)
  else
    match systematicIndex k with
    | none => .error .capacity
    | some J =>
      match s.rqIntermediate k J with
      | none => .error .capacity
      | some C =>
        .ok ((s.setSymbols gf8 ((List.range p).map (fun j => (k + j, rqSym s.blenVal C k J (k + j))))).publish
          (k + p))

/-- `RQ.ENC` (R208). -/
def execRqEnc (s : State) : Host.Outcome State Fault Refusal :=
  conclude s.constructRq (rqEncode s.constructRq)

end Sys2Proof.Machine
end

