-- ==== Sys2Proof/Machine/RaptorQDecode.lean ====
section
/-! DEFINITION. The RaptorQ two-phase decoder, `RQ.DEC` (R230 to R252), with the pivot rules R240 to R248 that
are normative on every input (R237, U3). -/

namespace Sys2Proof.Machine

/-- The class of a column (R234, R240). -/
inductive ColClass where
  | unresolved
  | pivot
  | inactive
deriving DecidableEq, Repr

/-- The working state of the procedure (R240). -/
structure Work where
  rows : List EqRow            -- working copy of the M rows, in row order
  cls : List ColClass          -- the class of each column
  used : List Nat              -- the numbers of the sparse rows already used
  pivots : List (Nat × Nat)    -- (column, row), the last appended first
deriving DecidableEq, Repr

/-- Rows S .. S + H - 1 are the dense rows, all others the sparse rows (R233, R234). -/
def isSparse (S H r : Nat) : Bool := decide (r < S ∨ S + H ≤ r)

/-- The class of column `c`. -/
def Work.classOf (w : Work) (c : Nat) : ColClass := w.cls.getD c .inactive

/-- Row number `r` of the working copy. -/
def Work.row (w : Work) (r : Nat) : EqRow := w.rows.getD r ⟨[], []⟩

/-- The start of the procedure: columns below W unresolved, the HDPC columns inactive (R234, R240). -/
def Work.start (W L : Nat) (rows : List EqRow) : Work where
  rows := rows
  cls := (List.range L).map (fun c => if c < W then .unresolved else .inactive)
  used := []
  pivots := []

/-- The unresolved columns, ascending, in which a row's coefficient is non-zero (R241). -/
def Work.openColumns (w : Work) (row : EqRow) : List Nat :=
  (List.range w.cls.length).filter (fun c => w.classOf c = .unresolved && row.at c ≠ 0)

/-- r(row): the number of unresolved columns in which the row is non-zero (R241). -/
def Work.weight (w : Work) (row : EqRow) : Nat := (w.openColumns row).length

/-- The better of two candidate rows, given as (r, row number): the least r, among equals the first (R241). -/
def betterRow (best : Option (Nat × Nat)) (x : Nat × Nat) : Option (Nat × Nat) :=
  match best with
  | none => some x
  | some b => if x.1 < b.1 then some x else some b

/-- R241: among the sparse rows not in `used` with r >= 1, the one with the least r, the lowest row number
among equals; `none` ends phase 1. -/
def Work.chooseRow (S H : Nat) (w : Work) : Option Nat :=
  let candidates := (w.rows.zipIdx.filter (fun x => isSparse S H x.2 && !(w.used.contains x.2))).map
    (fun x => (w.weight x.1, x.2))
  ((candidates.filter (fun x => 1 ≤ x.1)).foldl betterRow none).map Prod.snd

/-- R242 and R243 for the chosen row: its lowest unresolved column becomes its pivot column, its other
unresolved columns become inactive, and the pivot column is cleared from every row not in `used`. -/
def Work.usePivot (w : Work) (r : Nat) : Work :=
  let A := w.row r
  match w.openColumns A with
  | [] => w
  | c0 :: others =>
    let g := gfInv gf8 (A.at c0)
    let used := r :: w.used
    { rows := w.rows.zipIdx.map (fun x =>
        if used.contains x.2 then x.1
        else if x.1.at c0 = 0 then x.1
        else EqRow.addMul gf8 (gfMul gf8 (x.1.at c0) g) A x.1)
      cls := w.cls.zipIdx.map (fun x =>
        if x.2 = c0 then .pivot else if x.2 ∈ others then .inactive else x.1)
      used := used
      pivots := (c0, r) :: w.pivots }

/-- Phase 1 (R241 to R243): each turn uses one sparse row, so as many turns as there are rows are enough
(R344). -/
def Work.phase1 (S H : Nat) : Nat → Work → Work
  | 0, w => w
  | fuel + 1, w =>
    match w.chooseRow S H with
    | none => w
    | some r => Work.phase1 S H fuel (w.usePivot r)

/-- R244: the inactive columns after every column still unresolved has become inactive, ascending. -/
def Work.inactiveColumns (w : Work) : List Nat :=
  (List.range w.cls.length).filter (fun c => w.classOf c ≠ .pivot)

/-- The rows of the dense system: sparse rows not in `used` and all dense rows, in row order (R245). -/
def Work.denseSystem (S H : Nat) (w : Work) : List EqRow :=
  (w.rows.zipIdx.filter (fun x => !(isSparse S H x.2) || !(w.used.contains x.2))).map Prod.fst

/-- The value of a solved column. -/
def solvedAt (sol : List (Nat × Vec)) (c : Nat) : Vec := (sol.lookup c).getD []

/-- R248 for one pivot (c0, A), given the values of the inactive columns. -/
def backSubstitute (blen : Nat) (inactive : List (Nat × Vec)) (c0 : Nat) (A : EqRow) : Vec :=
  vecScale gf8 (gfInv gf8 (A.at c0))
    (vecAdd A.rhs (vecSum blen
      ((inactive.filter (fun x => A.at x.1 ≠ 0)).map (fun x => vecScale gf8 (A.at x.1) x.2))))

/-- Phase 2 and back-substitution (R245 to R248): the values of all L columns, or `none` (R247). -/
def Work.finish (S H blen : Nat) (w : Work) : Option (List Vec) :=
  let cols := w.inactiveColumns
  match solveSystem gf8 cols (w.denseSystem S H) with
  | none => none
  | some X =>
    let inactive := List.zip cols X
    let pivots := w.pivots.map (fun x => (x.1, backSubstitute blen inactive x.1 (w.row x.2)))
    some ((List.range w.cls.length).map (solvedAt (pivots ++ inactive)))

/-- The two-phase solution of a system of L columns, W of them unresolved at the start, whose rows S to
S + H - 1 are dense (R240 to R248). -/
def twoPhase (S H W L blen : Nat) (rows : List EqRow) : Option (List Vec) :=
  Work.finish S H blen (Work.phase1 S H rows.length (Work.start W L rows))

/-- The decoding system: the constraint rows, then a row for each present entry, ascending (R233). -/
def State.rqReceived (s : State) (k J : Nat) : List EqRow :=
  rqSystem s.blenVal k J
    (((List.range s.nVal).filter (fun i => s.presAt i)).map (fun i => (i, s.symbols gf8 i)))

/-- Line 9 of R252. -/
def State.rqSolve (s : State) (k J : Nat) : Option (List Vec) :=
  twoPhase (rqS k) (rqH k) (rqW k) (rqL k) s.blenVal (s.rqReceived k J)

/-- The pseudocode of `RQ.DEC`, lines 2 to 12 (R252); line 1 is `State.constructRq`. -/
def rqDecode (s : State) : Except ErrCode State :=
  let k := s.kVal
  if s.nVal > s.nslot ∨ s.blenVal > s.slotb then .error .capacity
  else
    match decodeContract s with
    | .error code => .error code
    | .ok .direct => .ok (s.publish k)
    | .ok .general =>
      match systematicIndex k with
      | none => .error .capacity
      | some J =>
        match s.rqSolve k J with
        | none => .error .decodingFailed
        | some C =>
          .ok ((s.setSymbols gf8 ((s.erased k).map (fun i => (i, rqSym s.blenVal C k J i)))).publish k)

/-- `RQ.DEC` (R252). -/
def execRqDec (s : State) : Host.Outcome State Fault Refusal :=
  conclude s.constructRq (rqDecode s.constructRq)

end Sys2Proof.Machine
end

