-- ==== Sys2Proof/Machine/ReedSolomon.lean ====
section
/-! DEFINITION. The Reed–Solomon coder: `RS.ENC` (R158) and `RS.DEC` (R166). -/

namespace Sys2Proof.Machine

/-- The field of an operation, chosen by k alone (R151). -/
def rsField (k : Nat) : Gf := if k ≤ 255 then gf8 else gf16

/-- `parityCountRS(k, r)` (R152). -/
def parityCountRs (k : Nat) (r : Int) : Nat := if r ≤ 0 ∨ k = 0 then 0 else ceilPpm k r.toNat

/-- The column point `y(k, j)` (R154). -/
def rsPoint (F : Gf) (k j : Nat) : Nat := k + j % (F.size - k)

/-- The Cauchy coefficient of source block i in parity block j (R154). -/
def rsCoeff (F : Gf) (k i j : Nat) : Nat := gfInv F (i ^^^ rsPoint F k j)

/-- The sum over the source blocks i of the list of `coeff(k, i, j) (x) Blk(i)` (R157, R165). -/
def State.rsCombine (s : State) (F : Gf) (k j : Nat) (sources : List Nat) : Vec :=
  vecSum (symbolCount F s.blenVal) (sources.map (fun i => vecScale F (rsCoeff F k i j) (s.symbols F i)))

/-- Parity block j (R157). -/
def State.rsParity (s : State) (F : Gf) (k j : Nat) : Vec := s.rsCombine F k j (List.range k)

/-- An odd `BLEN` in a GF(65536) operation (R156). -/
def State.rsOddLen (s : State) : Bool := decide (256 ≤ s.kVal ∧ s.blenVal % 2 = 1)

/-- The pseudocode of `RS.ENC`, lines 1 to 8 (R158). -/
def rsEncode (s : State) : Except ErrCode State :=
  let k := s.kVal
  let p := parityCountRs k s.redunVal
  let F := rsField k
  if k > s.nslot ∨ s.blenVal > s.slotb then .error .capacity
  else if k = 0 then .ok (s.publish 0)
  else if s.rsOddLen then .error .oddLen
  else if k + p > s.nslot then .error .capacity
  else .ok ((s.setSymbols F ((List.range p).map (fun j => (k + j, s.rsParity F k j)))).publish (k + p))

/-- The present parity indices, ascending (R163). -/
def State.presentParity (s : State) (k : Nat) : List Nat :=
  (List.range (s.nVal - k)).filter (fun j => s.presAt (k + j))

/-- The reduced row v(j) over the erased source indices (R163). -/
def rsReducedRow (F : Gf) (k : Nat) (erased : List Nat) (j : Nat) : Vec :=
  erased.map (fun i => rsCoeff F k i j)

/-- The greedy row selection (R164): takes j from the list in order, keeps it when its reduced row is not in
the span of those kept before, and stops when `need` more have been kept. `basis` is the echelon form of the
rows kept so far. The list is returned, even when it is too short. -/
def rsSelect (F : Gf) (row : Nat → Vec) : Nat → List (Nat × Vec) → List Nat → List Nat
  | _, _, [] => []
  | 0, _, _ => []
  | need + 1, basis, j :: js =>
    let v := residue F basis (row j)
    match leadColumn v with
    | none => rsSelect F row (need + 1) basis js
    | some c =>
      j :: rsSelect F row need (basis ++ [(c, vecScale F (gfInv F (v.getD c 0)) v)]) js

/-- The rows the decoder uses (R164). -/
def State.rsChosen (s : State) (F : Gf) (k : Nat) : List Nat :=
  rsSelect F (rsReducedRow F k (s.erased k)) (s.erased k).length [] (s.presentParity k)

/-- The syndrome block of parity index j (R165). -/
def State.rsSyndrome (s : State) (F : Gf) (k j : Nat) : Vec :=
  vecAdd (s.symbols F (k + j)) (s.rsCombine F k j ((List.range k).filter (fun i => s.presAt i)))

/-- The recovered blocks, in the order of the erased indices (R164, R165); `none` when the present parity
rows span too few dimensions. -/
def State.rsRecover (s : State) (F : Gf) (k : Nat) : Option (List Vec) :=
  let E := s.erased k
  let chosen := s.rsChosen F k
  if chosen.length < E.length then none
  else solveSystem F (List.range E.length)
    (chosen.map (fun j => ⟨rsReducedRow F k E j, s.rsSyndrome F k j⟩))

/-- The pseudocode of `RS.DEC`, lines 1 to 10 (R166). -/
def rsDecode (s : State) : Except ErrCode State :=
  let k := s.kVal
  let F := rsField k
  if s.nVal > s.nslot ∨ s.blenVal > s.slotb then .error .capacity
  else if s.rsOddLen then .error .oddLen
  else
    match decodeContract s with
    | .error code => .error code
    | .ok .direct => .ok (s.publish k)
    | .ok .general =>
      match s.rsRecover F k with
      | none => .error .decodingFailed
      | some X => .ok ((s.setSymbols F (List.zip (s.erased k) X)).publish k)

/-- `RS.ENC` (R158). -/
def execRsEnc (s : State) : Host.Outcome State Fault Refusal := conclude s (rsEncode s)

/-- `RS.DEC` (R166). -/
def execRsDec (s : State) : Host.Outcome State Fault Refusal := conclude s (rsDecode s)

end Sys2Proof.Machine
end

