-- ==== Sys2Proof/Machine/Facade.lean ====
section
/-! DEFINITION. The mode selector and the engine facade: `SEL`, `ENC.AUTO`, `DEC`, `NOP` (R270 to R285). -/

namespace Sys2Proof.Machine

/-- `CodingMode` (R277). -/
inductive CodingMode where
  | rs8    -- ReedSolomon(GF256)
  | rs16   -- ReedSolomon(GF65536)
  | rq     -- RaptorQ
deriving DecidableEq, Repr

/-- The integer of a `CodingMode` in `RES` and `MODE` (R277). -/
def CodingMode.value : CodingMode → Nat
  | .rs8 => 0
  | .rs16 => 1
  | .rq => 2

/-- Step 1 of the selector: the loss rate clamped to 0 .. 1000000 (R271). -/
def clampLoss (loss : Int) : Int := min (max loss 0) Config.ppm

/-- `Select(cnt, loss, t8, t16)` (R275). -/
def selectMode (cnt loss t8 t16 : Int) : CodingMode :=
  if cnt ≤ 0 then .rs8
  else if cnt ≤ 255 then (if clampLoss loss ≥ t8 then .rq else .rs8)
  else if clampLoss loss ≥ t16 then .rq
  else .rs16

/-- `NOP` (R285). -/
def execNop (s : State) : Host.Outcome State Fault Refusal := conclude s (.ok s)

/-- `SEL` (R276). -/
def execSel (s : State) : Host.Outcome State Fault Refusal :=
  conclude s (.ok (s.setRes
    (selectMode (signedWord s.opa) (signedWord s.opb) (signedWord s.thr8) (signedWord s.thr16)).value))

/-- Line 1 of `ENC.AUTO`: the chunk count is `x[K]`, unsigned (R280). -/
def State.autoMode (s : State) : CodingMode :=
  selectMode (s.kVal : Int) (signedWord s.loss) (signedWord s.thr8) (signedWord s.thr16)

/-- `ENC.AUTO` (R280): dispatches to the encoder the selector names, and writes `MODE` on success only. -/
def execEncAuto (s : State) : Host.Outcome State Fault Refusal :=
  match s.autoMode with
  | .rq => conclude s.constructRq ((rqEncode s.constructRq).map (fun t => t.setMode CodingMode.rq.value))
  | .rs8 => conclude s ((rsEncode s).map (fun t => t.setMode CodingMode.rs8.value))
  | .rs16 => conclude s ((rsEncode s).map (fun t => t.setMode CodingMode.rs16.value))

/-- `DEC` (R282): the decoder that `MODE` names; the field part of `MODE` is not used. -/
def execDec (s : State) : Host.Outcome State Fault Refusal :=
  let m := unsignedWord s.mode
  if m > 2 then conclude s (.error .badMode)
  else if m = 2 then conclude s.constructRq (rqDecode s.constructRq)
  else conclude s (rsDecode s)

end Sys2Proof.Machine
end

