-- ==== Sys2Proof/Machine/FieldUnit.lean ====
section
/-! DEFINITION. The twelve field commands (R122 to R133): one shared shape each, over the field, then one
meaning per command. -/

namespace Sys2Proof.Machine

/-- A field command that cannot fail: `RES` <- v, `done`. -/
def fieldDone (s : State) (v : Nat) : Host.Outcome State Fault Refusal :=
  conclude s (.ok (s.setRes v))

/-- A field command that is undefined when `x` is 0 (R119): it raises `E_GFUNDEF` and leaves `RES`, else it
writes v to `RES`. -/
def fieldPartial (s : State) (x v : Nat) : Host.Outcome State Fault Refusal :=
  conclude s (if x = 0 then .error .gfUndef else .ok (s.setRes v))

/-- `GF8.ADD` (R122). -/
def execGf8Add (s : State) : Host.Outcome State Fault Refusal :=
  fieldDone s (gfAdd (byteSlice s.opa) (byteSlice s.opb))

/-- `GF8.MUL` (R123). -/
def execGf8Mul (s : State) : Host.Outcome State Fault Refusal :=
  fieldDone s (gfMul gf8 (byteSlice s.opa) (byteSlice s.opb))

/-- `GF8.DIV` (R124). -/
def execGf8Div (s : State) : Host.Outcome State Fault Refusal :=
  fieldPartial s (byteSlice s.opb) (gfDiv gf8 (byteSlice s.opa) (byteSlice s.opb))

/-- `GF8.INV` (R125). -/
def execGf8Inv (s : State) : Host.Outcome State Fault Refusal :=
  fieldPartial s (byteSlice s.opa) (gfInv gf8 (byteSlice s.opa))

/-- `GF8.LOG` (R126). -/
def execGf8Log (s : State) : Host.Outcome State Fault Refusal :=
  fieldPartial s (byteSlice s.opa) (gfLog gf8 (byteSlice s.opa))

/-- `GF8.EXP` (R127): the index is all of `OPA`, taken modulo 255. -/
def execGf8Exp (s : State) : Host.Outcome State Fault Refusal :=
  fieldDone s (gfExp gf8 (unsignedWord s.opa % gf8.order))

/-- `GF16.ADD` (R128). -/
def execGf16Add (s : State) : Host.Outcome State Fault Refusal :=
  fieldDone s (gfAdd (halfSlice s.opa) (halfSlice s.opb))

/-- `GF16.MUL` (R129). -/
def execGf16Mul (s : State) : Host.Outcome State Fault Refusal :=
  fieldDone s (gfMul gf16 (halfSlice s.opa) (halfSlice s.opb))

/-- `GF16.DIV` (R130). -/
def execGf16Div (s : State) : Host.Outcome State Fault Refusal :=
  fieldPartial s (halfSlice s.opb) (gfDiv gf16 (halfSlice s.opa) (halfSlice s.opb))

/-- `GF16.INV` (R131). -/
def execGf16Inv (s : State) : Host.Outcome State Fault Refusal :=
  fieldPartial s (halfSlice s.opa) (gfInv gf16 (halfSlice s.opa))

/-- `GF16.LOG` (R132). -/
def execGf16Log (s : State) : Host.Outcome State Fault Refusal :=
  fieldPartial s (halfSlice s.opa) (gfLog gf16 (halfSlice s.opa))

/-- `GF16.EXP` (R133): the index is all of `OPA`, taken modulo 65535. -/
def execGf16Exp (s : State) : Host.Outcome State Fault Refusal :=
  fieldDone s (gfExp gf16 (unsignedWord s.opa % gf16.order))

end Sys2Proof.Machine
end

