-- ==== Sys2Proof/Machine/Dispatch.lean ====
section
/-! DEFINITION. The meaning of every command, one arm each. -/

namespace Sys2Proof.Machine

/-- Executes a command to its end (R20). -/
def exec (i : Instr) (s : State) : Host.Outcome State Fault Refusal :=
  match i with
  | .nop => Sys2Proof.Machine.execNop s
  | .gf8Add => Sys2Proof.Machine.execGf8Add s
  | .gf8Mul => Sys2Proof.Machine.execGf8Mul s
  | .gf8Div => Sys2Proof.Machine.execGf8Div s
  | .gf8Inv => Sys2Proof.Machine.execGf8Inv s
  | .gf8Log => Sys2Proof.Machine.execGf8Log s
  | .gf8Exp => Sys2Proof.Machine.execGf8Exp s
  | .gf16Add => Sys2Proof.Machine.execGf16Add s
  | .gf16Mul => Sys2Proof.Machine.execGf16Mul s
  | .gf16Div => Sys2Proof.Machine.execGf16Div s
  | .gf16Inv => Sys2Proof.Machine.execGf16Inv s
  | .gf16Log => Sys2Proof.Machine.execGf16Log s
  | .gf16Exp => Sys2Proof.Machine.execGf16Exp s
  | .rsEnc => Sys2Proof.Machine.execRsEnc s
  | .rsDec => Sys2Proof.Machine.execRsDec s
  | .rqEnc => Sys2Proof.Machine.execRqEnc s
  | .rqDec => Sys2Proof.Machine.execRqDec s
  | .sel => Sys2Proof.Machine.execSel s
  | .encAuto => Sys2Proof.Machine.execEncAuto s
  | .dec => Sys2Proof.Machine.execDec s

end Sys2Proof.Machine
end

