-- ==== Sys2Proof/Machine/Registers.lean ====
section
/-! DEFINITION. The register map R26 and the one read and one write operation of R-space. -/

namespace Sys2Proof.Machine

/-- The named registers of the map R26. -/
inductive Reg where
  | id | cmd | status | err | opa | opb | res | k | n | blen | redun | loss | mode | thr8 | thr16
  | nslotR | slotbR
deriving DecidableEq, Repr

/-- What stands at an R-space offset (R26, R43, R44). -/
inductive RegTarget where
  | named (r : Reg)
  | presWord (w : Nat)
  | reserved
deriving DecidableEq, Repr

/-- The named registers, one every four bytes from offset 0 (R26). -/
def namedRegs : List Reg :=
  [.id, .cmd, .status, .err, .opa, .opb, .res, .k, .n, .blen, .redun, .loss, .mode, .thr8, .thr16,
    .nslotR, .slotbR]

/-- What the instance with `nslot` slots has at offset `off`, a multiple of 4 below 0x3000: a named
register, a presence word that covers some slot, or reserved space (R26, R43). -/
def regAt (nslot off : Nat) : RegTarget :=
  if off < 0x1000 then
    match namedRegs[off / 4]? with
    | some r => .named r
    | none => .reserved
  else if 32 * ((off - 0x1000) / 4) < nslot then .presWord ((off - 0x1000) / 4)
  else .reserved

/-- The value a read of a named register returns (R26 to R42). No read has a side effect (R64). -/
def State.readNamed (s : State) : Reg → Word
  | .id => 0xECE00007
  | .cmd => s.cmd
  | .status => s.statusWord
  | .err => errWord s.err
  | .opa => s.opa
  | .opb => s.opb
  | .res => s.res
  | .k => s.k
  | .n => s.n
  | .blen => s.blen
  | .redun => s.redun
  | .loss => s.loss
  | .mode => s.mode
  | .thr8 => s.thr8
  | .thr16 => s.thr16
  | .nslotR => BitVec.ofNat 32 s.nslot
  | .slotbR => BitVec.ofNat 32 s.slotb

/-- The effect of a write of a named register on its stored value: read-only registers ignore it (R26).
Executing the command that a write of `CMD` holds is not here but in `State.command` (R28). -/
def State.writeNamed (s : State) (r : Reg) (v : Word) : State :=
  match r with
  | .id => s
  | .cmd => { s with cmd := v }
  | .status => s
  | .err => s
  | .opa => { s with opa := v }
  | .opb => { s with opb := v }
  | .res => s
  | .k => { s with k := v }
  | .n => { s with n := v }
  | .blen => { s with blen := v }
  | .redun => { s with redun := v }
  | .loss => { s with loss := v }
  | .mode => { s with mode := v }
  | .thr8 => { s with thr8 := v }
  | .thr16 => { s with thr16 := v }
  | .nslotR => s
  | .slotbR => s

/-- A defined 32-bit read of R-space; reserved offsets read 0 (R43). -/
def State.readReg (s : State) (off : Nat) : Word :=
  match regAt s.nslot off with
  | .named r => s.readNamed r
  | .presWord w => s.presWord w
  | .reserved => 0

/-- The stored effect of a defined 32-bit write of R-space; reserved offsets ignore it (R43). -/
def State.writeReg (s : State) (off : Nat) (v : Word) : State :=
  match regAt s.nslot off with
  | .named r => s.writeNamed r v
  | .presWord w => s.setPresWord w v
  | .reserved => s

end Sys2Proof.Machine
end

