-- ==== Sys2Proof/Machine/Access.lean ====
section
/-! DEFINITION. The effect of one input of the outside world (R20, R61, R63, R330), with the execution of the
command that a write of `CMD` holds (R28), and the host script helpers of R99. -/

namespace Sys2Proof.Machine

/-- The R-space offset of `CMD` (R26). -/
def cmdOffset : Nat := 0x04

/-- A write of `CMD` (R28): stores the word and executes the command it encodes; an illegal word executes as
`raise E(E_ILLEGAL)` (R92, R96). -/
def State.command (s : State) (w : Word) : Host.Outcome State Fault Refusal :=
  let t := s.writeReg cmdOffset w
  match decode w with
  | .ok i => exec i t
  | .error _ => conclude t (.error .illegal)

/-- A value a host read returned, added to the record of them. -/
def State.reply (s : State) (r : Reply) : State := { s with replies := s.replies ++ [r] }

/-- Reset applied and released again (R330, R49): every register and presence bit takes its reset value, the
buffer holds bytes unspecified anew (R50). The instance parameters are no state that reset could change; the
inputs still to come and the record of the replies are not the ECE's. -/
def State.applyReset (s : State) : State :=
  { State.resetOf s.nslot s.slotb with
    resets := s.resets + 1, script := s.script, replies := s.replies }

/-- A 32-bit register write (R63). -/
def hostWrite (s : State) (off : Nat) (v : Word) : Host.Outcome State Fault Refusal :=
  if off % 4 ≠ 0 then .refused .unalignedOffset
  else if off ≥ 0x3000 then .refused .outsideRSpace
  else if off = cmdOffset then s.command v
  else .next (s.writeReg off v)

/-- A 32-bit register read (R63). -/
def hostRead (s : State) (off : Nat) : Host.Outcome State Fault Refusal :=
  if off % 4 ≠ 0 then .refused .unalignedOffset
  else if off ≥ 0x3000 then .refused .outsideRSpace
  else .next (s.reply (.reg off (s.readReg off)))

/-- A byte write of the buffer (R61). -/
def hostWriteByte (s : State) (addr : Nat) (v : Byte) : Host.Outcome State Fault Refusal :=
  if addr ≥ s.nslot * s.slotb then .refused .outsideBSpace else .next (s.setByte addr v)

/-- A byte read of the buffer (R61). -/
def hostReadByte (s : State) (addr : Nat) : Host.Outcome State Fault Refusal :=
  if addr ≥ s.nslot * s.slotb then .refused .outsideBSpace
  else .next (s.reply (.byte addr (s.byteAt addr)))

/-- One input, performed to its end (R20, R69). -/
def perform (a : HostInput) (s : State) : Host.Outcome State Fault Refusal :=
  match a with
  | .wr off v => hostWrite s off v
  | .rd off => hostRead s off
  | .wrb addr v => hostWriteByte s addr v
  | .rdb addr => hostReadByte s addr
  | .regOther _ _ => .refused .registerWidth
  | .bufOther _ _ => .refused .bufferWidth
  | .reset => .next s.applyReset
  | .accessInReset => .refused .accessDuringReset

/-- The pseudo-line `cmd MNEMONIC` (R99). -/
def hostCmd (i : Instr) : HostInput := .wr cmdOffset (encode i)

/-- The line `wr REG, value` with a register name (R98). -/
def hostSet (r : Reg) (v : Word) : HostInput := .wr (4 * namedRegs.idxOf r) v

/-- The line `rd REG` with a register name (R98). -/
def hostGet (r : Reg) : HostInput := .rd (4 * namedRegs.idxOf r)

/-- The pseudo-line `blk s, b0 b1 ...` on an instance with `slotb` bytes per slot (R99). -/
def hostBlk (slotb s : Nat) (bs : List Byte) : List HostInput :=
  bs.zipIdx.map (fun x => .wrb (s * slotb + x.2) x.1)

/-- The pseudo-line `pres w, value` (R99). -/
def hostPres (w : Nat) (v : Word) : HostInput := .wr (0x1000 + 4 * w) v

end Sys2Proof.Machine
end

