-- ==== Sys2Proof/Machine/Step.lean ====
section
/-! DEFINITION. One step: the next input of the script, in arrival order (R72). The ECE has no program
counter and fetches nothing (R23); its commands are the host's writes of `CMD`. -/

namespace Sys2Proof.Machine

/-- One step. With an input to come, it is performed; with none, the engine "does nothing at any other time"
(R20) and the state stays as it is. -/
def step (s : State) : Host.Outcome State Fault Refusal :=
  match s.script with
  | [] => .next s
  | a :: rest => perform a { s with script := rest }

/-- `s` with the write of the command word `w` to `CMD` as its very next input (log 2). -/
def State.withFetchWord (s : State) (nbits w : Nat) : State :=
  { s with script := .wr cmdOffset (BitVec.ofNat 32 (w % 2 ^ nbits)) :: s.script }

end Sys2Proof.Machine
end

