-- ==== Sys2Proof/Safety.lean ====
section
/-! DEFINITION. What a well-formed state is, and the vocabulary that claims are stated in: operands that fit,
bytes and symbols of blocks, systems of equations, and the state after a successful encode or decode. Nothing of
it is used by a meaning. -/

namespace Sys2Proof.Machine

/-- The instance parameters of a state. -/
def State.inst (s : State) : Config.Instance := ⟨s.nslot, s.slotb⟩

/-- The invariant of the ECE: what holds after reset and after every step. -/
structure State.Wf (s : State) : Prop where
  /-- NSLOT and SLOTB are within the bounds of R9. -/
  params : s.inst.wf = true
  /-- The buffer is in its canonical form. -/
  bufCanonical : Memory.wf s.buf = true
  /-- Nothing is stored outside B-space (R60, R62). -/
  bufInside : ∀ x ∈ s.buf, s.inst.wfAddress x.1 = true
  /-- The presence bitmap is in its canonical form. -/
  presSorted : s.pres.Pairwise (· < ·)
  /-- Presence bits of slots at or above NSLOT are 0 (R44). -/
  presInside : ∀ i ∈ s.pres, i < s.nslot
  /-- `ERRF` equals (ERR != 0) (R29). -/
  flagIsErr : s.errf = decide (s.err ≠ .ok)
  /-- No command writes the reserved code 0x03 to `ERR` (R306). -/
  neverInvalidRedundancy : s.err ≠ .invalidRedundancy

/-- A safe outcome: the ECE goes on. -/
def Safe (r : Host.Outcome State Fault Refusal) : Prop := ∃ t, r = .next t

/-! ### Sums -/

/-- The XOR of `f` over a list. -/
def xorOver {α : Type} (l : List α) (f : α → Nat) : Nat := l.foldl (fun x i => x ^^^ f i) 0

/-! ### Bytes and symbols of the buffer -/

/-- Byte t of slot i (R60). -/
def State.slotByte (s : State) (i t : Nat) : Byte := s.byteAt (i * s.slotb + t)

/-- Symbol t of the block in slot i, in the field F (R65, R153). -/
def State.symbolAt (s : State) (F : Gf) (i t : Nat) : Nat :=
  if F.bits = 8 then (s.slotByte i t).toNat
  else (s.slotByte i (2 * t)).toNat + 256 * (s.slotByte i (2 * t + 1)).toNat

/-- The address `a` lies in the block of slot i: `Blk(i)` (R62). -/
def State.inBlock (s : State) (i a : Nat) : Prop := i * s.slotb ≤ a ∧ a < i * s.slotb + s.blenVal

/-- Two states read the same byte at every address outside the blocks of the slots that `written` holds of. -/
def SameBytesOutside (s t : State) (written : Nat → Prop) : Prop :=
  ∀ a, (∀ i, written i → ¬s.inBlock i a) → t.byteAt a = s.byteAt a

/-! ### The state after a command -/

/-- The state after a successful encode or decode that leaves `n` blocks and the buffer contents `m`: `N`, the
presence bits, the buffer, `ERR` and `ERRF` are written and nothing else is (R44, R95). -/
def State.coded (s : State) (n : Nat) (m : Memory) : State :=
  { s with n := BitVec.ofNat 32 n, pres := List.range n, buf := m, err := .ok, errf := false }

/-- The state after a command that succeeded and wrote `v` to `RES` and nothing else but `ERR` and `ERRF`. -/
def State.answered (s : State) (v : Nat) : State :=
  { s with res := BitVec.ofNat 32 v, err := .ok, errf := false }

/-- The state after a command that ended with an error: `ERR` and `ERRF` are written and nothing else (R305). -/
def State.failed (s : State) (code : ErrCode) : State := { s with err := code, errf := true }

/-- The state with `RQ_RDY` set (R31). -/
def State.rqReady (s : State) : State := { s with rqRdy := true }

/-- The state with other buffer contents. -/
def State.withBuf (s : State) (m : Memory) : State := { s with buf := m }

/-! ### Operands that fit -/

/-- `RS.ENC` can be carried out: lines 1, 3 and 5 of R158 raise nothing. -/
structure State.RsEncodeFits (s : State) : Prop where
  blenFits : s.blenVal ≤ s.slotb
  evenLength : 256 ≤ s.kVal → s.blenVal % 2 = 0
  slotsFit : s.kVal + parityCountRs s.kVal s.redunVal ≤ s.nslot

/-- `RQ.ENC` can be carried out: lines 2, 5 and 7 of R208 raise nothing. -/
structure State.RqEncodeFits (s : State) : Prop where
  blenFits : s.blenVal ≤ s.slotb
  slotsFit : s.kVal + parityCountRq s.kVal s.redunVal ≤ s.nslot
  indexExists : parityCountRq s.kVal s.redunVal ≠ 0 → (systematicIndex s.kVal).isSome = true

/-- A decode passes the capacity checks: line 1 of R166 and line 2 of R252 raise nothing. -/
structure State.DecodeFits (s : State) : Prop where
  blenFits : s.blenVal ≤ s.slotb
  slotsFit : s.nVal ≤ s.nslot

/-- The general path of a decode (R161 f, R163): enough entries are present and some source block is erased. -/
structure State.GeneralPath (s : State) : Prop where
  kPos : 1 ≤ s.kVal
  kLe : s.kVal ≤ s.nVal
  enough : s.kVal ≤ s.presentBelow s.nVal
  someErased : ∃ i, i < s.kVal ∧ s.presAt i = false

/-! ### Systems of equations -/

/-- The left side of a row of `n` coefficients at the values `x`. -/
def rowValue (F : Gf) (n : Nat) (v : Vec) (x : Nat → Nat) : Nat :=
  xorOver (List.range n) (fun c => gfMul F (v.getD c 0) (x c))

/-- The rows, of `n` coefficients each, have rank n: only zero satisfies them all (R205, R235). -/
def FullRank (F : Gf) (n : Nat) (rows : List Vec) : Prop :=
  ∀ x : Nat → Nat, (∀ c, x c < F.size) → (∀ v ∈ rows, rowValue F n v x = 0) → ∀ c, c < n → x c = 0

/-- A list of blocks as values: symbol t of block c. -/
def blockValue (C : List Vec) (t c : Nat) : Nat := (C.getD c []).getD t 0

/-- `Sym(C, k, J, sid)` at byte t (R203). -/
def symValue (C : List Vec) (k J sid t : Nat) : Nat := xorOver (rqCols k J sid) (fun c => blockValue C t c)

/-- `C` is a list of L blocks of `blen` bytes that satisfies every LDPC and HDPC row (R206). -/
structure MeetsConstraints (k blen : Nat) (C : List Vec) : Prop where
  count : C.length = rqL k
  lengths : ∀ v ∈ C, v.length = blen
  bytes : ∀ v ∈ C, ∀ x ∈ v, x < 256
  ldpc : ∀ r, r < rqS k → ∀ t, t < blen → rowValue gf8 (rqL k) (ldpcRow k r) (blockValue C t) = 0
  hdpc : ∀ h, h < rqH k → ∀ t, t < blen → rowValue gf8 (rqL k) (hdpcRow k h) (blockValue C t) = 0

/-- The coefficient rows of the decoding system of R233, for the present entries. -/
def State.receivedRows (s : State) (k J : Nat) : List Vec :=
  constraintRows k ++ ((List.range s.nVal).filter (fun i => s.presAt i)).map (rqRow k J)

/-- `v`, of n coefficients, is a linear combination of the rows. -/
def InSpan (F : Gf) (n : Nat) (rows : List Vec) (v : Vec) : Prop :=
  ∃ y : Nat → Nat, (∀ m, y m < F.size) ∧ ∀ c, c < n →
    v.getD c 0 = xorOver (List.range rows.length) (fun m => gfMul F (y m) ((rows.getD m []).getD c 0))

/-! ### What the coders compute -/

/-- The buffer contents `m` hold the p parity blocks of R157 in the slots k .. k+p-1, computed from the source
blocks of `s`, and are those of `s` at every address outside these blocks. -/
structure State.RsParityIn (s : State) (m : Memory) : Prop where
  parity : ∀ j, j < parityCountRs s.kVal s.redunVal → ∀ t, t < symbolCount (rsField s.kVal) s.blenVal →
    (s.withBuf m).symbolAt (rsField s.kVal) (s.kVal + j) t =
      xorOver (List.range s.kVal) (fun i =>
        gfMul (rsField s.kVal) (rsCoeff (rsField s.kVal) s.kVal i j) (s.symbolAt (rsField s.kVal) i t))
  elsewhere : SameBytesOutside s (s.withBuf m)
    (fun x => s.kVal ≤ x ∧ x < s.kVal + parityCountRs s.kVal s.redunVal)

/-- `C` are the intermediate symbols of the source blocks of `s` (R206). -/
structure State.Intermediate (s : State) (J : Nat) (C : List Vec) : Prop where
  constraints : MeetsConstraints s.kVal s.blenVal C
  sources : ∀ i, i < s.kVal → ∀ t, t < s.blenVal → symValue C s.kVal J i t = (s.slotByte i t).toNat

/-- The buffer contents `m` hold the p repair blocks of R207 in the slots k .. k+p-1, computed from the source
blocks of `s`, and are those of `s` at every address outside these blocks. -/
structure State.RqRepairIn (s : State) (m : Memory) : Prop where
  repair : parityCountRq s.kVal s.redunVal ≠ 0 → ∃ J C, systematicIndex s.kVal = some J ∧ s.Intermediate J C ∧
    ∀ j, j < parityCountRq s.kVal s.redunVal → ∀ t, t < s.blenVal →
      ((s.withBuf m).slotByte (s.kVal + j) t).toNat = symValue C s.kVal J (s.kVal + j) t
  elsewhere : SameBytesOutside s (s.withBuf m)
    (fun x => s.kVal ≤ x ∧ x < s.kVal + parityCountRq s.kVal s.redunVal)

/-- The equation that parity index `j` gives at symbol t for the erased source symbols, given as values `x` by
their place in the list E of erased indices (R165). -/
def State.SyndromeEq (s : State) (j t : Nat) (x : Nat → Nat) : Prop :=
  xorOver (List.range (s.erased s.kVal).length) (fun c =>
      gfMul (rsField s.kVal) (rsCoeff (rsField s.kVal) s.kVal ((s.erased s.kVal).getD c 0) j) (x c)) =
    s.symbolAt (rsField s.kVal) (s.kVal + j) t ^^^
      xorOver ((List.range s.kVal).filter (fun i => s.presAt i)) (fun i =>
        gfMul (rsField s.kVal) (rsCoeff (rsField s.kVal) s.kVal i j) (s.symbolAt (rsField s.kVal) i t))

/-- The slots a successful decode writes: the erased source slots (R68). -/
def State.erasedSlot (s : State) (x : Nat) : Prop := x < s.kVal ∧ s.presAt x = false

/-! ### The hash and the symbol generator, as the rules print them -/

/-- The five lines of R190 on numbers below 2^32. -/
def fmixRule (x : Nat) : Nat :=
  let x := x ^^^ x / 2 ^ 16
  let x := x * 0x85EBCA6B % 2 ^ 32
  let x := x ^^^ x / 2 ^ 13
  let x := x * 0xC2B2AE35 % 2 ^ 32
  x ^^^ x / 2 ^ 16

/-- `Mix` by the line of R191. -/
def mixRule (u v w : Nat) : Nat := fmixRule (fmixRule (fmixRule ((u + 0x9E3779B9) % 2 ^ 32) ^^^ v) ^^^ w)

/-- The rows of the degree table R201: first value, last value, degree. -/
def degreeTable : List (Nat × Nat × Nat) :=
  [(0, 10240, 1), (10241, 491581, 2), (491582, 712793, 3), (712794, 831694, 4), (831695, 948445, 10),
    (948446, 1032188, 11), (1032189, 1048575, 40)]

/-- Where a walk of R203 passes: from `start` on, always `a` further modulo m, m values in all. -/
def walkFrom (start a m : Nat) : List Nat := (List.range m).map (fun n => (start + n * a) % m)

/-! ### The two phases of the RaptorQ decoder, as the rules tell them -/

/-- A working state of L columns whose rows have L coefficients and m right-hand bytes, all elements of GF(256). -/
structure Work.Shaped (L m : Nat) (w : Work) : Prop where
  classes : w.cls.length = L
  rows : ∀ r ∈ w.rows, r.coef.length = L ∧ r.rhs.length = m ∧ (∀ x ∈ r.coef, x < 256) ∧ ∀ x ∈ r.rhs, x < 256

/-- Column c is unresolved and the coefficient of row r in it is not zero (R241). -/
def Work.openAt (w : Work) (r c : Nat) : Bool := decide (w.classOf c = .unresolved) && decide ((w.row r).at c ≠ 0)

/-- `r(row)` of row number r: in how many unresolved columns it is not zero (R241). -/
def Work.openCount (w : Work) (r : Nat) : Nat := (List.range w.cls.length).countP (w.openAt r)

/-- Row r is a sparse row (R233, R234), not in `used`, with `r(row)` at least 1 (R241). -/
structure Work.Candidate (S H : Nat) (w : Work) (r : Nat) : Prop where
  isRow : r < w.rows.length
  sparse : r < S ∨ S + H ≤ r
  unused : r ∉ w.used
  weight : 1 ≤ w.openCount r

/-- R241 chooses row r: the candidate with the least `r(row)`, among equals the one with the lowest number. -/
structure Work.Chosen (S H : Nat) (w : Work) (r : Nat) : Prop where
  candidate : w.Candidate S H r
  least : ∀ r', w.Candidate S H r' → w.openCount r < w.openCount r' ∨ (w.openCount r = w.openCount r' ∧ r ≤ r')

/-- c0 is the lowest unresolved column in which row r is not zero (R242). -/
structure Work.LowestOpen (w : Work) (r c0 : Nat) : Prop where
  isOpen : w.openAt r c0 = true
  lowest : ∀ c, c < c0 → w.openAt r c = false

/-- t is w after row r has been used with the pivot column c0: R242 for the classes, `used` and `pivots`, R243 for the
rows. `pivots` and `used` are held with the last entry first. -/
structure Work.Pivoted (w : Work) (r c0 : Nat) (t : Work) : Prop where
  used : t.used = r :: w.used
  pivots : t.pivots = (c0, r) :: w.pivots
  classes : ∀ c, t.classOf c =
    if c = c0 then .pivot else if w.openAt r c = true then .inactive else w.classOf c
  rowCount : t.rows.length = w.rows.length
  untouched : ∀ B, B = r ∨ B ∈ w.used ∨ (w.row B).at c0 = 0 → t.row B = w.row B
  added : ∀ B, B < w.rows.length → B ≠ r → B ∉ w.used → (w.row B).at c0 ≠ 0 →
    let f := gfMul gf8 ((w.row B).at c0) (gfInv gf8 ((w.row r).at c0))
    (∀ c, (t.row B).at c = (w.row B).at c ^^^ gfMul gf8 f ((w.row r).at c)) ∧
      (∀ o, (t.row B).rhs.getD o 0 = (w.row B).rhs.getD o 0 ^^^ gfMul gf8 f ((w.row r).rhs.getD o 0)) ∧
      (t.row B).at c0 = 0

/-- The row at position p of a dense system. -/
def denseRow (D : List EqRow) (p : Nat) : EqRow := D.getD p ⟨[], []⟩

/-- The rows at the positions t and q exchanged (R246). -/
def exchanged (D : List EqRow) (t q : Nat) : List EqRow := (D.set t (denseRow D q)).set q (denseRow D t)

/-- One turn of R246, for the column c at position t: the first row at position t or beyond that is not zero in c is
exchanged with the row at t and multiplied to have a 1 there, and c is cleared in all other rows. -/
def DenseTurn (c t : Nat) (D D' : List EqRow) : Prop :=
  ∃ q, t ≤ q ∧ q < D.length ∧ (denseRow D q).at c ≠ 0 ∧ (∀ p, t ≤ p → p < q → (denseRow D p).at c = 0) ∧
    D'.length = D.length ∧
    let E := exchanged D t q
    let A := EqRow.scale gf8 (gfInv gf8 ((denseRow E t).at c)) (denseRow E t)
    denseRow D' t = A ∧
      ∀ p, p < D.length → p ≠ t → denseRow D' p =
        if (denseRow E p).at c = 0 then denseRow E p else EqRow.addMul gf8 ((denseRow E p).at c) A (denseRow E p)

/-- `C` is what phase 2 and the back-substitution give after phase 1 has left `w` (R245, R246, R248): the dense system
is the rows that are dense or not in `used`, in row order; after a turn for every inactive column in ascending order
its rows give the inactive columns; each pivot column follows from the row of its pivot. -/
structure Work.PhaseTwo (S H m : Nat) (w : Work) (C : List Vec) : Prop where
  count : C.length = w.cls.length
  dense : ∃ D : Nat → List EqRow,
    D 0 = ((List.range w.rows.length).filter
      (fun r => decide (S ≤ r ∧ r < S + H) || decide (r ∉ w.used))).map w.row ∧
    ∀ t, t < w.inactiveColumns.length →
      DenseTurn (w.inactiveColumns.getD t 0) t (D t) (D (t + 1)) ∧
        C.getD (w.inactiveColumns.getD t 0) [] = (denseRow (D w.inactiveColumns.length) t).rhs
  pivotColumns : ∀ x ∈ w.pivots, ∀ o, o < m → blockValue C o x.1 =
    gfMul gf8 (gfInv gf8 ((w.row x.2).at x.1))
      ((w.row x.2).rhs.getD o 0 ^^^ xorOver w.inactiveColumns (fun c => gfMul gf8 ((w.row x.2).at c) (blockValue C o c)))

/-! ### Commands as a whole -/

/-- The opcode map R92: word and command. -/
def opcodeTable : List (Nat × Instr) :=
  [(0x00, .nop), (0x10, .gf8Add), (0x11, .gf8Mul), (0x12, .gf8Div), (0x13, .gf8Inv), (0x14, .gf8Log),
    (0x15, .gf8Exp), (0x20, .gf16Add), (0x21, .gf16Mul), (0x22, .gf16Div), (0x23, .gf16Inv), (0x24, .gf16Log),
    (0x25, .gf16Exp)]
  ++ [(0x30, .rsEnc), (0x31, .rsDec), (0x40, .rqEnc), (0x41, .rqDec), (0x50, .sel), (0x51, .encAuto),
    (0x52, .dec)]

/-- The encode commands. -/
def isEncode : Instr → Bool
  | .rsEnc | .rqEnc | .encAuto => true
  | _ => false

/-- The decode commands. -/
def isDecode : Instr → Bool
  | .rsDec | .rqDec | .dec => true
  | _ => false

/-- The commands that write `RES` (R22). -/
def writesRes : Instr → Bool
  | .gf8Add | .gf8Mul | .gf8Div | .gf8Inv | .gf8Log | .gf8Exp => true
  | .gf16Add | .gf16Mul | .gf16Div | .gf16Inv | .gf16Log | .gf16Exp => true
  | .sel => true
  | _ => false

/-- The commands that dispatch to the RaptorQ unit in a state (R31). -/
def dispatchesRq (s : State) : Instr → Bool
  | .rqEnc | .rqDec => true
  | .dec => decide (s.mode = 2)
  | .encAuto => decide (selectMode s.k.toNat s.loss.toInt s.thr8.toInt s.thr16.toInt = .rq)
  | _ => false

/-- The outcomes of the Reed–Solomon decoder in the table R300. -/
def rsDecodeOutcomes : List ErrCode := [.ok, .decodingFailed, .insufficientBlocks, .capacity, .oddLen]

/-- The outcomes of the RaptorQ decoder in the table R300. -/
def rqDecodeOutcomes : List ErrCode := [.ok, .decodingFailed, .insufficientBlocks, .capacity]

/-- The outcomes the table R300 gives each command in a state: `ENC.AUTO` and `DEC` have E_ODDLEN only when they
dispatch to Reed–Solomon, and `DEC` with a `MODE` above 2 dispatches to no decoder (R282). -/
def outcomesOf (s : State) : Instr → List ErrCode
  | .nop | .gf8Add | .gf8Mul | .gf8Exp | .gf16Add | .gf16Mul | .gf16Exp | .sel => [.ok]
  | .gf8Div | .gf8Inv | .gf8Log | .gf16Div | .gf16Inv | .gf16Log => [.ok, .gfUndef]
  | .rsEnc => [.ok, .capacity, .oddLen]
  | .rqEnc => [.ok, .capacity]
  | .encAuto => if dispatchesRq s .encAuto then [.ok, .capacity] else [.ok, .capacity, .oddLen]
  | .rsDec => rsDecodeOutcomes
  | .rqDec => rqDecodeOutcomes
  | .dec =>
    if dispatchesRq s .dec then rqDecodeOutcomes
    else if s.mode.toNat ≤ 1 then rsDecodeOutcomes
    else [.badMode]

/-- The slots a command may write, given the `N` it leaves (R68). -/
def mayWrite (i : Instr) (s : State) (n x : Nat) : Prop :=
  (isEncode i = true ∧ s.kVal ≤ x ∧ x < n) ∨ (isDecode i = true ∧ s.erasedSlot x)

/-! ### The tables, as the loop R112 builds them -/

/-- The state of the loop of R112 after `i` turns: (v, EXP, LOG), EXP and LOG as lists of (index, entry). -/
def tableLoop (F : Gf) : Nat → Nat × List (Nat × Nat) × List (Nat × Nat)
  | 0 => (1, [], [])
  | i + 1 =>
    let (v, expTable, logTable) := tableLoop F i
    let shifted := v <<< 1
    (if shifted &&& F.size ≠ 0 then shifted ^^^ F.poly else shifted, (i, v) :: expTable, (v, i) :: logTable)

/-- `EXP[i]` of the finished loop; 0 where there is no entry. -/
def tableExp (F : Gf) (i : Nat) : Nat := ((tableLoop F F.order).2.1.lookup i).getD 0

/-- `LOG[v]` of the finished loop; 0 where there is no entry. -/
def tableLog (F : Gf) (v : Nat) : Nat := ((tableLoop F F.order).2.2.lookup v).getD 0

/-- The two fields of the ECE (R110, R111). -/
def EceField (F : Gf) : Prop := F = gf8 ∨ F = gf16

end Sys2Proof.Machine
end

