-- ==== Sys2Proof/Certificates/Slice0/Obligations.lean ====
section
/-! DEFINITION. The statements about the ECE, for the provers. -/

open Sys2Proof Sys2Proof.Machine

/-! ### Reset, the host interface, one step -/

/-- R49, with the register map R26: what a read of every register returns after reset, for every instance; all
presence bits are 0 and the tables are those of R112. -/
def Obligations.ResetLeavesTheGivenValues : Prop :=
  ∀ nslot slotb : Nat,
    (State.resetOf nslot slotb).readReg 0x00 = 0xECE00007 ∧
    (State.resetOf nslot slotb).readReg 0x04 = 0 ∧
    (State.resetOf nslot slotb).readReg 0x08 = 1 ∧
    (State.resetOf nslot slotb).readReg 0x34 = 80000 ∧
    (State.resetOf nslot slotb).readReg 0x38 = 30000 ∧
    (State.resetOf nslot slotb).readReg 0x3C = BitVec.ofNat 32 nslot ∧
    (State.resetOf nslot slotb).readReg 0x40 = BitVec.ofNat 32 slotb ∧
    (∀ off, off % 4 = 0 → 0x0C ≤ off → off < 0x3000 → off ∉ [0x34, 0x38, 0x3C, 0x40] →
      (State.resetOf nslot slotb).readReg off = 0) ∧
    (∀ i, (State.resetOf nslot slotb).presAt i = false) ∧
    (∀ F, EceField F → (∀ i, i < F.order → gfExp F i = tableExp F i) ∧
      ∀ v, 1 ≤ v → v < F.size → gfLog F v = tableLog F v)

/-- Every instance within the bounds of R9 is well formed after reset, the one of `State.reset` among them
(log 4: the capacities of `State.reset` are the model's choice). -/
def Obligations.ResetStateIsWellFormed : Prop :=
  (∀ nslot slotb, 1 ≤ nslot → nslot ≤ 65536 → 1 ≤ slotb → slotb ≤ 16777216 → (State.resetOf nslot slotb).Wf) ∧
    State.reset.Wf

/-- Every step, whatever input comes, keeps a state well formed: the buffer's and the bitmap's canonical forms,
nothing stored outside B-space (R62), presence bits at or above NSLOT 0 (R44), ERRF equal to (ERR != 0) (R29),
code 0x03 never in ERR (R306). -/
def Obligations.EveryStepKeepsTheStateWellFormed : Prop :=
  ∀ s t : State, s.Wf → step s = .next t → t.Wf

/-- A reset of the platform (R330, R50): from any state the registers, the presence bits and the flags read as
after the first reset, and a byte of the buffer is a free value that depends on how many resets there were (the
counter is the model's own, log 5). -/
def Obligations.PlatformResetRestoresResetValues : Prop :=
  ∀ (s : State) (rest : List HostInput), s.script = .reset :: rest →
    ∃ t, step s = .next t ∧ t.script = rest ∧ t.nslot = s.nslot ∧ t.slotb = s.slotb ∧
      (∀ off, t.readReg off = (State.resetOf s.nslot s.slotb).readReg off) ∧
      (∀ i, t.presAt i = false) ∧ ∀ a, t.byteAt a = Config.unwrittenByte (s.resets + 1) a

/-- A step runs the decoded command: when the next input is a write of `CMD` and the word decodes to i, the step
is `exec` of i on the state with the input taken from the script and the word stored in `CMD` (R28); when no input
is left nothing happens (R20). The script is the model's own (log 1). -/
def Obligations.StepRunsTheDecodedCommand : Prop :=
  (∀ (s : State) (w : Word) (rest : List HostInput) (i : Instr), s.script = .wr 0x04 w :: rest → decode w = .ok i →
    step s = exec i { s with script := rest, cmd := w }) ∧
  (∀ s : State, s.script = [] → step s = .next s) ∧
  ∀ (s : State) (i : Instr), step (s.withFetchWord 32 (encode i).toNat) = exec i { s with cmd := encode i }

/-- R92, R96: decoding is total; a listed word is the command of the table, every other word ends as
`raise E(E_ILLEGAL)` with no other change but the word stored in `CMD`. -/
def Obligations.DecodingIsTheOpcodeMap : Prop :=
  ∀ w : Word,
    (∀ x ∈ opcodeTable, w = BitVec.ofNat 32 x.1 → decode w = .ok x.2) ∧
    ((∀ x ∈ opcodeTable, w ≠ BitVec.ofNat 32 x.1) →
      (∀ i, decode w ≠ .ok i) ∧ ∀ s : State, s.command w = .next ({ s with cmd := w }.failed .illegal))

/-- Decode and encode agree in both directions: every command is read from its word, and from no other. -/
def Obligations.DecodeAndEncodeAgree : Prop :=
  ∀ (w : Word) (i : Instr), decode w = .ok i ↔ w = encode i

/-- Sanity: words written out from the encodings of the rules decode to their commands, and neighbours do not. -/
def Obligations.SpecWordsDecode : Prop :=
  decode 0x00000000 = .ok .nop ∧ decode 0x00000015 = .ok .gf8Exp ∧ decode 0x00000022 = .ok .gf16Div ∧
    decode 0x00000031 = .ok .rsDec ∧ decode 0x00000040 = .ok .rqEnc ∧ decode 0x00000052 = .ok .dec ∧
    decode 0x00000016 = .error .unlistedOp ∧ decode 0x00000060 = .error .unlistedOp ∧
    decode 0x00000110 = .error .zeroFieldSet

/-- A register write other than of `CMD` (R26, R43, R44, R63): it always completes; a writable register then reads
the value, a presence word its bits below NSLOT, a read-only or reserved offset what it read before; every other
register and every byte of the buffer reads as before. -/
def Obligations.RegisterWritesReadBack : Prop :=
  ∀ (s : State) (off : Nat) (v : Word), off % 4 = 0 → off < 0x3000 → off ≠ 0x04 →
    ∃ t, perform (.wr off v) s = .next t ∧
      (∀ off', off' % 4 = 0 → off' < 0x3000 → off' ≠ off → t.readReg off' = s.readReg off') ∧
      (∀ a, t.byteAt a = s.byteAt a) ∧
      (off ∈ [0x10, 0x14, 0x1C, 0x20, 0x24, 0x28, 0x2C, 0x30, 0x34, 0x38] → t.readReg off = v) ∧
      (off ∈ [0x00, 0x08, 0x0C, 0x18, 0x3C, 0x40] → t = s) ∧
      (0x44 ≤ off → off < 0x1000 → t = s ∧ t.readReg off = 0) ∧
      (0x1000 ≤ off → s.nslot ≤ 32 * ((off - 0x1000) / 4) → t = s ∧ t.readReg off = 0) ∧
      (0x1000 ≤ off → 32 * ((off - 0x1000) / 4) < s.nslot → ∀ b, b < 32 →
        (t.readReg off).getLsbD b = (v.getLsbD b && decide (32 * ((off - 0x1000) / 4) + b < s.nslot)))

/-- What a register read returns (R26 to R44), in every state: the constant `ID`; the word last written to `CMD`;
`STATUS` with `TBL_RDY` constant 1 in bit 0 (R30), `RQ_RDY` in bit 1, `ERRF` in bit 2, which says whether `ERR` is
not 0, and 0 elsewhere (R29); every other register its field or capacity; reserved offsets 0. And a read has no effect
(R63, R64): it changes nothing but the model's own record of what reads returned (log 3). -/
def Obligations.RegisterReadsChangeNothing : Prop :=
  ∀ s : State,
    (∀ off, off % 4 = 0 → off < 0x3000 →
      perform (.rd off) s = .next { s with replies := s.replies ++ [.reg off (s.readReg off)] }) ∧
    (s.readReg 0x00 = 0xECE00007 ∧ s.readReg 0x04 = s.cmd ∧
      ∀ w t, perform (.wr 0x04 w) s = .next t → t.readReg 0x04 = w) ∧
    ((∀ b, (s.readReg 0x08).getLsbD b = (decide (b = 0) || decide (b = 1) && s.rqRdy || decide (b = 2) && s.errf)) ∧
      (s.Wf → (s.readReg 0x08).getLsbD 2 = decide (s.readReg 0x0C ≠ 0))) ∧
    (s.readReg 0x0C = errWord s.err ∧ s.readReg 0x10 = s.opa ∧ s.readReg 0x14 = s.opb ∧ s.readReg 0x18 = s.res) ∧
    (s.readReg 0x1C = s.k ∧ s.readReg 0x20 = s.n ∧ s.readReg 0x24 = s.blen ∧ s.readReg 0x28 = s.redun) ∧
    (s.readReg 0x2C = s.loss ∧ s.readReg 0x30 = s.mode ∧ s.readReg 0x34 = s.thr8 ∧ s.readReg 0x38 = s.thr16) ∧
    (s.Wf → (s.readReg 0x3C).toNat = s.nslot ∧ (s.readReg 0x40).toNat = s.slotb) ∧
    ∀ off, off % 4 = 0 → 0x44 ≤ off → off < 0x1000 → s.readReg off = 0

/-- A byte written to the buffer reads back until it is written again, and nothing else changes (R60, R61, R72);
a byte read changes nothing but the model's record of replies (log 3). -/
def Obligations.BufferBytesReadBack : Prop :=
  ∀ (s : State) (a : Nat) (v : Byte), a < s.nslot * s.slotb →
    (∃ t, perform (.wrb a v) s = .next t ∧ t = s.withBuf t.buf ∧ t.byteAt a = v ∧
      ∀ c, c ≠ a → t.byteAt c = s.byteAt c) ∧
    perform (.rdb a) s = .next { s with replies := s.replies ++ [.byte a (s.byteAt a)] }

/-- The host accesses to which R43, R61, R63 and R330 give no meaning are refused, as R61 and R63 ask of a model
(log 10). -/
def Obligations.MeaninglessAccessesAreRefused : Prop :=
  ∀ (s : State) (off addr bits : Nat) (v : Word) (b : Byte),
    (off % 4 ≠ 0 → perform (.wr off v) s = .refused .unalignedOffset ∧
      perform (.rd off) s = .refused .unalignedOffset) ∧
    (off % 4 = 0 → 0x3000 ≤ off → perform (.wr off v) s = .refused .outsideRSpace ∧
      perform (.rd off) s = .refused .outsideRSpace) ∧
    (s.nslot * s.slotb ≤ addr → perform (.wrb addr b) s = .refused .outsideBSpace ∧
      perform (.rdb addr) s = .refused .outsideBSpace) ∧
    perform (.regOther off bits) s = .refused .registerWidth ∧
    perform (.bufOther addr bits) s = .refused .bufferWidth ∧
    perform .accessInReset s = .refused .accessDuringReset

/-- The presence bitmap (R44): bit b of `PRESW[w]` is `PRES[32w + b]`, bits of slots at or above NSLOT read 0; and
every successful encode or decode leaves exactly the slots below the new `N` present. -/
def Obligations.PresenceWordsShowTheBitmap : Prop :=
  (∀ (s : State) (w b : Nat), w < 2048 → b < 32 →
    (s.readReg (0x1000 + 4 * w)).getLsbD b = (decide (32 * w + b < s.nslot) && s.presAt (32 * w + b))) ∧
  ∀ (i : Instr) (s t : State), s.Wf → isEncode i = true ∨ isDecode i = true → exec i s = .next t → t.err = .ok →
    ∀ x, t.presAt x = decide (x < t.nVal)

/-! ### Commands as a whole -/

/-- Every command, in every state, ends: with success, or with an error (R17, R344); `ERRF` says which (R29). -/
def Obligations.EveryCommandEnds : Prop :=
  ∀ (i : Instr) (s : State), ∃ t, exec i s = .next t ∧ t.errf = decide (t.err ≠ .ok)

/-- R305: a command that ends with an error leaves the state as it was before the `CMD` write but for `CMD`,
`ERR`, `ERRF` and possibly `RQ_RDY`, which is only ever set; one that ends with `done` clears `ERRF`. -/
def Obligations.AnErrorChangesNothingElse : Prop :=
  ∀ (s t : State) (w : Word), s.command w = .next t →
    (t.err ≠ .ok → t = { s with cmd := w, err := t.err, errf := true, rqRdy := t.rqRdy } ∧
      (s.rqRdy = true → t.rqRdy = true)) ∧
    (t.err = .ok → t.errf = false)

/-- R31: `RQ_RDY` is 0 after reset, is set by a command exactly when it dispatches to the RaptorQ unit, success or
not, and is changed by nothing else but a reset. -/
def Obligations.RqRdyIsSetExactlyAtDispatch : Prop :=
  (∀ nslot slotb, (State.resetOf nslot slotb).rqRdy = false) ∧
  (∀ (i : Instr) (s t : State), exec i s = .next t → t.rqRdy = (s.rqRdy || dispatchesRq s i)) ∧
  (∀ (s t : State) (w : Word), (∀ i, decode w ≠ .ok i) → perform (.wr 0x04 w) s = .next t → t.rqRdy = s.rqRdy) ∧
  (∀ (s t : State), perform .reset s = .next t → t.rqRdy = false) ∧
  ∀ (a : HostInput) (s t : State), a ≠ .reset → (∀ w, a ≠ .wr 0x04 w) → perform a s = .next t → t.rqRdy = s.rqRdy

/-- What the commands write (R22, R33 to R40, R95): no command writes an operand register, a ceiling or an instance
parameter; `RES` is written by the field commands and `SEL` only, `N`, the presence bits and the buffer by encode
and decode commands only, `MODE` by `ENC.AUTO` only. -/
def Obligations.CommandsWriteOnlyTheirOutputs : Prop :=
  ∀ (i : Instr) (s t : State), exec i s = .next t →
    (t.nslot = s.nslot ∧ t.slotb = s.slotb ∧ t.cmd = s.cmd ∧ t.opa = s.opa ∧ t.opb = s.opb ∧ t.k = s.k ∧
      t.blen = s.blen ∧ t.redun = s.redun ∧ t.loss = s.loss ∧ t.thr8 = s.thr8 ∧ t.thr16 = s.thr16 ∧
      t.resets = s.resets ∧ t.script = s.script ∧ t.replies = s.replies) ∧
    (writesRes i = false → t.res = s.res) ∧
    (isEncode i = false → isDecode i = false → t.n = s.n ∧ t.pres = s.pres ∧ t.buf = s.buf) ∧
    (i ≠ .encAuto → t.mode = s.mode)

/-- What the commands store (R45, R62, R68): a byte that a command changes lies in the first `BLEN` bytes of a slot
it may write, a parity slot for an encode and an erased source slot for a decode, and the command succeeded. -/
def Obligations.CommandsStoreOnlyInTheirBlocks : Prop :=
  ∀ (i : Instr) (s t : State) (a : Nat), s.Wf → exec i s = .next t → t.byteAt a ≠ s.byteAt a →
    t.err = .ok ∧ ∃ x, s.inBlock x a ∧ x < s.nslot ∧ mayWrite i s t.nVal x

/-- Errors are not sticky (R309) and no command reads `ERR` or `ERRF` (R24): whatever they hold, a command does the
same. -/
def Obligations.CommandsDoNotReadTheError : Prop :=
  ∀ (i : Instr) (s : State) (e : ErrCode) (f : Bool), exec i { s with err := e, errf := f } = exec i s

/-- R300, R306: the codes that a read of `ERR` returns, and which outcomes each command and an illegal word can
have; `ENC.AUTO` and `DEC` have E_ODDLEN only when they dispatch to Reed–Solomon. -/
def Obligations.OutcomesAreThoseOfTheTable : Prop :=
  ([ErrCode.ok, .decodingFailed, .insufficientBlocks, .invalidRedundancy, .illegal, .gfUndef, .capacity, .oddLen,
      .badMode].map (fun e => (errWord e).toNat) = [0x00, 0x01, 0x02, 0x03, 0x10, 0x11, 0x12, 0x13, 0x14]) ∧
  (∀ s : State, s.readReg 0x0C = errWord s.err) ∧
  (∀ (i : Instr) (s t : State), exec i s = .next t → t.err ∈ outcomesOf s i ∧ t.err ≠ .invalidRedundancy) ∧
  ∀ (s t : State) (w : Word), (∀ i, decode w ≠ .ok i) → s.command w = .next t → t.err = .illegal

/-! ### The field unit -/

/-- R112 with the properties of R113: the tables are those the loop builds, after which v is 1 again; `EXP` and
`LOG` undo each other; the entries R113 prints. -/
def Obligations.FieldTablesFollowTheLoop : Prop :=
  (∀ F, EceField F →
    (tableLoop F F.order).1 = 1 ∧
    (∀ i, i < F.order → gfExp F i = tableExp F i ∧ gfLog F (gfExp F i) = i ∧ 1 ≤ gfExp F i ∧ gfExp F i < F.size) ∧
    (∀ v, 1 ≤ v → v < F.size → gfLog F v = tableLog F v ∧ gfExp F (gfLog F v) = v ∧ gfLog F v < F.order) ∧
    ∀ i j, i < F.order → j < F.order → gfExp F i = gfExp F j → i = j) ∧
  (List.range 9).map (gfExp gf8) = [0x01, 0x02, 0x04, 0x08, 0x10, 0x20, 0x40, 0x80, 0x1D] ∧
  (List.range 17).map (gfExp gf16) = [0x0001, 0x0002, 0x0004, 0x0008, 0x0010, 0x0020, 0x0040, 0x0080, 0x0100,
    0x0200, 0x0400, 0x0800, 0x1000, 0x2000, 0x4000, 0x8000, 0x100B] ∧
  gfExp gf8 254 = 0x8E ∧ gfExp gf16 65534 = 0x8805

/-- R115 to R118: the four operations are the table formulas, a product is also the shift-and-reduce product of the
polynomials, a quotient is the only solution of `c (x) b = a`, and an inverse times its element is 1. -/
def Obligations.FieldOperationsFollowTheTables : Prop :=
  ∀ F, EceField F → ∀ a b, a < F.size → b < F.size →
    gfAdd a b = a ^^^ b ∧
    gfMul F a b = (if a = 0 ∨ b = 0 then 0 else tableExp F ((tableLog F a + tableLog F b) % F.order)) ∧
    gfMul F a b = xorOver (List.range F.bits) (fun i => if b.testBit i then (xtime F)^[i] a else 0) ∧
    (b ≠ 0 → gfDiv F a b =
      if a = 0 then 0 else tableExp F ((tableLog F a + F.order - tableLog F b) % F.order)) ∧
    (b ≠ 0 → ∀ c, c < F.size → (gfMul F c b = a ↔ c = gfDiv F a b)) ∧
    (a ≠ 0 → gfInv F a = tableExp F ((F.order - tableLog F a) % F.order) ∧ gfMul F (gfInv F a) a = 1)

/-- R120: the laws of a field, and multiplication by alpha. -/
def Obligations.FieldLawsHold : Prop :=
  ∀ F, EceField F → ∀ a b c, a < F.size → b < F.size → c < F.size →
    gfAdd a b < F.size ∧ gfMul F a b < F.size ∧
    gfAdd a b = gfAdd b a ∧ gfAdd (gfAdd a b) c = gfAdd a (gfAdd b c) ∧ gfAdd a 0 = a ∧ gfAdd a a = 0 ∧
    gfMul F a b = gfMul F b a ∧ gfMul F (gfMul F a b) c = gfMul F a (gfMul F b c) ∧ gfMul F 1 a = a ∧
    gfMul F a (gfAdd b c) = gfAdd (gfMul F a b) (gfMul F a c) ∧
    (a ≠ 0 → gfInv F a < F.size ∧ gfMul F (gfInv F a) a = 1) ∧
    (b ≠ 0 → gfDiv F a b = gfMul F a (gfInv F b)) ∧
    gfMul F 2 a = (if (a <<< 1) &&& F.size ≠ 0 then (a <<< 1) ^^^ F.poly else a <<< 1)

/-- R122, R123, R128, R129: the add and multiply commands complete in every state, write `RES` with the value of
the rules, clear the error and change nothing else. -/
def Obligations.AddAndMultiplyCommands : Prop :=
  ∀ s : State,
    exec .gf8Add s = .next (s.answered (s.opa.toNat % 256 ^^^ s.opb.toNat % 256)) ∧
    exec .gf16Add s = .next (s.answered (s.opa.toNat % 65536 ^^^ s.opb.toNat % 65536)) ∧
    exec .gf8Mul s = .next (s.answered (
      if s.opa.toNat % 256 = 0 ∨ s.opb.toNat % 256 = 0 then 0
      else tableExp gf8 ((tableLog gf8 (s.opa.toNat % 256) + tableLog gf8 (s.opb.toNat % 256)) % 255))) ∧
    exec .gf16Mul s = .next (s.answered (
      if s.opa.toNat % 65536 = 0 ∨ s.opb.toNat % 65536 = 0 then 0
      else tableExp gf16 ((tableLog gf16 (s.opa.toNat % 65536) + tableLog gf16 (s.opb.toNat % 65536)) % 65535)))

/-- R124, R125, R130, R131: the divide and inverse commands complete on every non-zero divisor, write `RES` with the
value of the rules, clear the error and change nothing else; on a zero divisor they end with `E_GFUNDEF` and change
nothing but `ERR` and `ERRF`. -/
def Obligations.DivideAndInverseCommands : Prop :=
  ∀ s : State,
    (s.opb.toNat % 256 ≠ 0 → exec .gf8Div s = .next (s.answered (
      if s.opa.toNat % 256 = 0 then 0
      else tableExp gf8 ((tableLog gf8 (s.opa.toNat % 256) + 255 - tableLog gf8 (s.opb.toNat % 256)) % 255)))) ∧
    (s.opb.toNat % 256 = 0 → exec .gf8Div s = .next (s.failed .gfUndef)) ∧
    (s.opa.toNat % 256 ≠ 0 → exec .gf8Inv s = .next (s.answered (
      tableExp gf8 ((255 - tableLog gf8 (s.opa.toNat % 256)) % 255)))) ∧
    (s.opa.toNat % 256 = 0 → exec .gf8Inv s = .next (s.failed .gfUndef)) ∧
    (s.opb.toNat % 65536 ≠ 0 → exec .gf16Div s = .next (s.answered (
      if s.opa.toNat % 65536 = 0 then 0
      else tableExp gf16
        ((tableLog gf16 (s.opa.toNat % 65536) + 65535 - tableLog gf16 (s.opb.toNat % 65536)) % 65535)))) ∧
    (s.opb.toNat % 65536 = 0 → exec .gf16Div s = .next (s.failed .gfUndef)) ∧
    (s.opa.toNat % 65536 ≠ 0 → exec .gf16Inv s = .next (s.answered (
      tableExp gf16 ((65535 - tableLog gf16 (s.opa.toNat % 65536)) % 65535)))) ∧
    (s.opa.toNat % 65536 = 0 → exec .gf16Inv s = .next (s.failed .gfUndef))

/-- R126, R127, R132, R133: the table commands complete, the logarithms on every non-zero argument, and write `RES`
with the table entry; the logarithm of zero ends with `E_GFUNDEF`. -/
def Obligations.TableCommands : Prop :=
  ∀ s : State,
    (s.opa.toNat % 256 ≠ 0 → exec .gf8Log s = .next (s.answered (tableLog gf8 (s.opa.toNat % 256)))) ∧
    (s.opa.toNat % 256 = 0 → exec .gf8Log s = .next (s.failed .gfUndef)) ∧
    exec .gf8Exp s = .next (s.answered (tableExp gf8 (s.opa.toNat % 255))) ∧
    (s.opa.toNat % 65536 ≠ 0 → exec .gf16Log s = .next (s.answered (tableLog gf16 (s.opa.toNat % 65536)))) ∧
    (s.opa.toNat % 65536 = 0 → exec .gf16Log s = .next (s.failed .gfUndef)) ∧
    exec .gf16Exp s = .next (s.answered (tableExp gf16 (s.opa.toNat % 65535)))

/-! ### The Reed–Solomon coder -/

/-- R152 (and R204): for positive k and r both parity counts are the least p with p millionths of k * r at least, that is
the exact ceiling of k * r / 1000000, at least 1; else they are 0. -/
def Obligations.ParityCountIsTheExactCeiling : Prop :=
  ∀ (k : Nat) (r : Int),
    ((r ≤ 0 ∨ k = 0) → parityCountRs k r = 0 ∧ parityCountRq k r = 0) ∧
    (0 < r → 1 ≤ k → parityCountRq k r = parityCountRs k r ∧ 1 ≤ parityCountRs k r ∧
      ∀ p : Nat, parityCountRs k r ≤ p ↔ (k : Int) * r ≤ (p : Int) * 1000000)

/-- R65, R77, R153: the symbols of a block are its bytes, or its little-endian byte pairs; a vector of symbols
written to a slot reads back. -/
def Obligations.SymbolsAreBytesOrLittleEndianPairs : Prop :=
  ∀ (s : State) (F : Gf) (i : Nat), EceField F →
    (s.symbols F i).length = symbolCount F s.blenVal ∧
    (∀ t, t < symbolCount F s.blenVal → (s.symbols F i).getD t 0 = s.symbolAt F i t) ∧
    ∀ v : Vec, v.length = symbolCount F s.blenVal → (∀ x ∈ v, x < F.size) →
      ∀ t, t < symbolCount F s.blenVal → (s.setSymbols F [(i, v)]).symbolAt F i t = v.getD t 0

/-- R154: the column point lies from k to q - 1, so it differs from i, and the coefficient is the inverse of their
XOR, which is not zero. -/
def Obligations.RsCoefficientsAreInverses : Prop :=
  ∀ k i j : Nat, i < k → k ≤ 65535 →
    rsPoint (rsField k) k j = k + j % ((rsField k).size - k) ∧
    k ≤ rsPoint (rsField k) k j ∧ rsPoint (rsField k) k j < (rsField k).size ∧
    i ^^^ rsPoint (rsField k) k j ≠ 0 ∧
    gfMul (rsField k) (rsCoeff (rsField k) k i j) (i ^^^ rsPoint (rsField k) k j) = 1 ∧
    rsCoeff (rsField k) k i j ≠ 0 ∧ rsCoeff (rsField k) k i j < (rsField k).size

/-- R154, R155: inside the MDS domain every square submatrix of the coefficient matrix is non-singular; a column
repeats after q - k, so outside it a parity block is byte-identical to the one q - k before it. -/
def Obligations.CauchySubmatricesAreNonSingular : Prop :=
  ∀ k : Nat, k ≤ 65535 →
    (∀ E J : List Nat, E.Nodup → J.Nodup → E.length = J.length → (∀ i ∈ E, i < k) →
      (∀ j ∈ J, k + j < (rsField k).size) →
      FullRank (rsField k) E.length (J.map (rsReducedRow (rsField k) k E))) ∧
    (∀ i j, i < k → rsCoeff (rsField k) k i (j + ((rsField k).size - k)) = rsCoeff (rsField k) k i j) ∧
    ∀ (s t : State) (j : Nat), s.Wf → s.kVal = k → s.RsEncodeFits → exec .rsEnc s = .next t →
      j + ((rsField k).size - k) < parityCountRs k s.redunVal → ∀ o, o < s.blenVal →
        t.slotByte (k + (j + ((rsField k).size - k))) o = t.slotByte (k + j) o

/-- R157 with lines 6 to 9 of R158: where the operands fit, `RS.ENC` completes, symbol t of parity block j is the XOR
over the source blocks of coefficient times symbol, `N` is k + p, exactly the first k + p slots are present, and
every other register and every byte outside the parity blocks is unchanged. -/
def Obligations.RsEncWritesTheParity : Prop :=
  ∀ s : State, s.Wf → s.RsEncodeFits →
    ∃ m, exec .rsEnc s = .next (s.coded (s.kVal + parityCountRs s.kVal s.redunVal) m) ∧ s.RsParityIn m

/-- R158, R208, R311: which error `RS.ENC` and `RQ.ENC` end with, in the order of their lines, and that an error
changes nothing but `ERR`, `ERRF` and, in `RQ.ENC`, `RQ_RDY`. -/
def Obligations.EncodeErrorsComeInOrder : Prop :=
  ∀ s : State,
    (∃ t, exec .rsEnc s = .next t ∧ (t.err ≠ .ok → t = s.failed t.err) ∧
      t.err =
        if s.kVal > s.nslot ∨ s.blenVal > s.slotb then .capacity
        else if s.kVal = 0 then .ok
        else if 256 ≤ s.kVal ∧ s.blenVal % 2 = 1 then .oddLen
        else if s.kVal + parityCountRs s.kVal s.redunVal > s.nslot then .capacity
        else .ok) ∧
    ∃ t, exec .rqEnc s = .next t ∧ (t.err ≠ .ok → t = s.rqReady.failed t.err) ∧
      t.err =
        if s.kVal > s.nslot ∨ s.blenVal > s.slotb then .capacity
        else if s.kVal = 0 then .ok
        else if s.kVal + parityCountRq s.kVal s.redunVal > s.nslot then .capacity
        else if parityCountRq s.kVal s.redunVal = 0 then .ok
        else if systematicIndex s.kVal = none then .capacity
        else .ok

/-- R159: after a success `N` is k, or k + ceil(k * r) for positive r; the source slots are unchanged; two encodes
of equal `K`, `BLEN`, `REDUN` and source blocks write equal parity bytes. -/
def Obligations.RsEncIsSystematicAndDeterministic : Prop :=
  ∀ s t : State, s.Wf → exec .rsEnc s = .next t → t.err = .ok →
    (t.nVal = if s.redun.toInt ≤ 0 then s.kVal else s.kVal + (s.kVal * s.redun.toNat + 999999) / 1000000) ∧
    (∀ i o, i < s.kVal → o < s.slotb → t.slotByte i o = s.slotByte i o) ∧
    ∀ s' t' : State, s'.Wf → exec .rsEnc s' = .next t' → t'.err = .ok →
      s'.k = s.k → s'.blen = s.blen → s'.redun = s.redun →
      (∀ i o, i < s.kVal → o < s.blenVal → s'.slotByte i o = s.slotByte i o) →
      t'.nVal = t.nVal ∧
        ∀ x o, s.kVal ≤ x → x < t.nVal → o < s.blenVal → t'.slotByte x o = t.slotByte x o

/-- R162, with R161 a: the fast path of the decode commands, and a decode of no blocks, complete, and read and write
no block; `N` becomes k and exactly the first k slots are present. -/
def Obligations.DecodeFastPath : Prop :=
  ∀ s : State, s.DecodeFits →
    s.kVal = 0 ∨ (s.kVal ≤ s.nVal ∧ ∀ i, i < s.kVal → s.presAt i = true) →
    ((256 ≤ s.kVal → s.blenVal % 2 = 0) →
      exec .rsDec s = .next (s.coded s.kVal s.buf) ∧
      (s.mode.toNat ≤ 1 → exec .dec s = .next (s.coded s.kVal s.buf))) ∧
    exec .rqDec s = .next (s.rqReady.coded s.kVal s.buf) ∧
    (s.mode = 2 → exec .dec s = .next (s.rqReady.coded s.kVal s.buf))

/-- R161, R166, R301, R302, R311: which error `RS.DEC` ends with, in the order of its lines, and that an error
changes nothing but `ERR` and `ERRF`. -/
def Obligations.RsDecErrorsComeInOrder : Prop :=
  ∀ s : State, s.Wf →
    ∃ t, exec .rsDec s = .next t ∧ (t.err ≠ .ok → t = s.failed t.err) ∧
      t.err =
        if s.nVal > s.nslot ∨ s.blenVal > s.slotb then .capacity
        else if 256 ≤ s.kVal ∧ s.blenVal % 2 = 1 then .oddLen
        else if s.kVal = 0 then .ok
        else if s.nVal = 0 then .insufficientBlocks
        else if s.presentBelow s.nVal = 0 then .decodingFailed
        else if s.kVal > s.nVal ∨ s.presentBelow s.nVal < s.kVal then .insufficientBlocks
        else if s.erased s.kVal = [] then .ok
        else if (s.rsChosen (rsField s.kVal) s.kVal).length < (s.erased s.kVal).length then .decodingFailed
        else .ok

/-- R164: the rows chosen are those the greedy rule takes: going through the present parity indices in ascending
order, one is taken exactly when fewer than e have been taken before it and its reduced row is no combination of
theirs. -/
def Obligations.RowSelectionIsGreedy : Prop :=
  ∀ s : State, s.Wf → s.DecodeFits → s.GeneralPath →
    (s.rsChosen (rsField s.kVal) s.kVal).Sublist (s.presentParity s.kVal) ∧
    ∀ (before : List Nat) (j : Nat) (after : List Nat), s.presentParity s.kVal = before ++ j :: after →
      let taken := before.filter (fun x => (s.rsChosen (rsField s.kVal) s.kVal).contains x)
      (j ∈ s.rsChosen (rsField s.kVal) s.kVal ↔
        taken.length < (s.erased s.kVal).length ∧
        ¬InSpan (rsField s.kVal) (s.erased s.kVal).length
          (taken.map (rsReducedRow (rsField s.kVal) s.kVal (s.erased s.kVal)))
          (rsReducedRow (rsField s.kVal) s.kVal (s.erased s.kVal) j))

/-- R165: on the general path, when e rows were chosen, `RS.DEC`, and `DEC` in the modes 0 and 1, complete; the
recovered blocks are the only solution of the syndrome equations of the chosen rows; `N` is k, exactly the first k
slots are present, and nothing outside the erased source blocks changes. -/
def Obligations.RsDecSolvesTheSyndromes : Prop :=
  ∀ s : State, s.Wf → s.DecodeFits → s.GeneralPath → (256 ≤ s.kVal → s.blenVal % 2 = 0) →
    (s.rsChosen (rsField s.kVal) s.kVal).length = (s.erased s.kVal).length →
    ∃ m, exec .rsDec s = .next (s.coded s.kVal m) ∧
      (s.mode.toNat ≤ 1 → exec .dec s = .next (s.coded s.kVal m)) ∧
      SameBytesOutside s (s.withBuf m) s.erasedSlot ∧
      ∀ t, t < symbolCount (rsField s.kVal) s.blenVal → ∀ x : Nat → Nat, (∀ c, x c < (rsField s.kVal).size) →
        ((∀ j ∈ s.rsChosen (rsField s.kVal) s.kVal, s.SyndromeEq j t x) ↔
          ∀ c, c < (s.erased s.kVal).length →
            x c = (s.withBuf m).symbolAt (rsField s.kVal) ((s.erased s.kVal).getD c 0) t)

/-- R164, R167: inside the MDS domain the rows chosen are the first e present parity rows, so the general path of
`RS.DEC`, and of `DEC` in the modes 0 and 1, always completes. -/
def Obligations.RsDecSucceedsInTheMdsDomain : Prop :=
  ∀ s : State, s.Wf → s.DecodeFits → s.GeneralPath → (256 ≤ s.kVal → s.blenVal % 2 = 0) →
    s.nVal ≤ (rsField s.kVal).size →
    s.rsChosen (rsField s.kVal) s.kVal = (s.presentParity s.kVal).take (s.erased s.kVal).length ∧
    ∃ m, exec .rsDec s = .next (s.coded s.kVal m) ∧
      (s.mode.toNat ≤ 1 → exec .dec s = .next (s.coded s.kVal m))

/-- R167: let the operands fit, k + p be inside the MDS domain and `RS.ENC` lead to t; let u be t with any presence
bits and any buffer contents that keep the blocks of the entries still present. If at most p entries are missing
`RS.DEC` completes and the source blocks are the original ones; if more are missing it raises; and
`DecodingFailed` is raised only when no entry is present. -/
def Obligations.RsRoundTrip : Prop :=
  ∀ s t : State, s.Wf → s.RsEncodeFits →
    s.kVal + parityCountRs s.kVal s.redunVal ≤ (rsField s.kVal).size → exec .rsEnc s = .next t →
    ∀ (pres : List Nat) (m : Memory), ({ t with pres := pres, buf := m } : State).Wf →
      (∀ i ∈ pres, i < t.nVal → ∀ o, o < s.blenVal → (t.withBuf m).slotByte i o = t.slotByte i o) →
      let u : State := { t with pres := pres, buf := m }
      (s.kVal ≤ u.presentBelow t.nVal →
        ∃ m', exec .rsDec u = .next (u.coded s.kVal m') ∧
          ∀ i o, i < s.kVal → o < s.blenVal → (u.withBuf m').slotByte i o = s.slotByte i o) ∧
      (u.presentBelow t.nVal < s.kVal →
        exec .rsDec u = .next (u.failed (if u.presentBelow t.nVal = 0 then .decodingFailed else .insufficientBlocks))) ∧
      (∀ v, exec .rsDec u = .next v → v.err = .decodingFailed → u.presentBelow t.nVal = 0)

/-- The bytes of an erased slot are never read (R335, R68): two decodes of states that agree on the operands, the
presence bits and the blocks of the present entries end alike and recover the same bytes. -/
def Obligations.DecodeNeverReadsErasedBlocks : Prop :=
  ∀ (i : Instr) (s s' t t' : State), isDecode i = true → s.Wf → s'.Wf →
    s'.nslot = s.nslot → s'.slotb = s.slotb → s'.k = s.k → s'.n = s.n → s'.blen = s.blen → s'.mode = s.mode →
    s'.pres = s.pres →
    (∀ x o, x < s.nVal → s.presAt x = true → o < s.blenVal → s'.slotByte x o = s.slotByte x o) →
    exec i s = .next t → exec i s' = .next t' →
    t'.err = t.err ∧ t'.n = t.n ∧ t'.pres = t.pres ∧
      (t.err = .ok → ∀ x o, x < s.kVal → o < s.blenVal → s.kVal ≤ s.nVal → t'.slotByte x o = t.slotByte x o)

/-! ### The RaptorQ coder -/

/-- R192 to R196: the parameters are the least numbers with the properties of the rules, for every k. -/
def Obligations.RqParametersAreLeast : Prop :=
  ∀ k : Nat, 1 ≤ k →
    (1 ≤ rqT k ∧ 2 * k ≤ rqT k * (rqT k - 1) ∧ ∀ T, 1 ≤ T → 2 * k ≤ T * (T - 1) → rqT k ≤ T) ∧
    ((rqS k).Prime ∧ (k + 99) / 100 + rqT k ≤ rqS k ∧
      (∀ q, q.Prime → (k + 99) / 100 + rqT k ≤ q → rqS k ≤ q) ∧ 3 ≤ rqS k) ∧
    (1 ≤ rqH k ∧ k + rqS k ≤ Nat.choose (rqH k) ((rqH k + 1) / 2) ∧
      (∀ H, 1 ≤ H → k + rqS k ≤ Nat.choose H ((H + 1) / 2) → rqH k ≤ H) ∧ 4 ≤ rqH k) ∧
    (rqW k = k + rqS k ∧ rqL k = k + rqS k + rqH k) ∧
    ((rqWPrime k).Prime ∧ rqW k ≤ rqWPrime k ∧ ∀ q, q.Prime → rqW k ≤ q → rqWPrime k ≤ q) ∧
    ((rqP1 k).Prime ∧ rqH k ≤ rqP1 k ∧ ∀ q, q.Prime → rqH k ≤ q → rqP1 k ≤ q)

/-- R197: LDPC row r has a 1 in K column c exactly for the three rows b, b + a and b + 2a modulo S, which differ, a 1
in LDPC column k + r, and 0 everywhere else; it is row r of every system, with the zero block on the right. -/
def Obligations.LdpcRowsAreSparse : Prop :=
  ∀ k c r : Nat, 1 ≤ k → r < rqS k → c < rqL k →
    let a := 1 + (c / rqS k) % (rqS k - 1)
    let b := c % rqS k
    (ldpcRow k r).length = rqL k ∧
    (c < k → (ldpcRow k r).getD c 0 =
      if r = b ∨ r = (b + a) % rqS k ∨ r = (b + 2 * a) % rqS k then 1 else 0) ∧
    (b ≠ (b + a) % rqS k ∧ b ≠ (b + 2 * a) % rqS k ∧ (b + a) % rqS k ≠ (b + 2 * a) % rqS k) ∧
    (k ≤ c → (ldpcRow k r).getD c 0 = if c = k + r then 1 else 0) ∧
    ∀ (blen J : Nat) (symbols : List (Nat × Vec)),
      (rqSystem blen k J symbols)[r]? = some ⟨ldpcRow k r, List.replicate blen 0⟩

/-- R198, R199: HDPC row h has the antilog entry of the hash, which is not zero, in every column below W, a 1 in
column W + h, and 0 in the other HDPC columns; it is row S + h of every system, with the zero block on the right. -/
def Obligations.HdpcRowsAreDense : Prop :=
  ∀ k h c : Nat, 1 ≤ k → h < rqH k → c < rqL k →
    (hdpcRow k h).length = rqL k ∧
    (c < rqW k → (hdpcRow k h).getD c 0 = tableExp gf8 (rqMix 0x48445043 h c % 255) ∧
      1 ≤ (hdpcRow k h).getD c 0 ∧ (hdpcRow k h).getD c 0 < 256) ∧
    (rqW k ≤ c → (hdpcRow k h).getD c 0 = if c = rqW k + h then 1 else 0) ∧
    ∀ (blen J : Nat) (symbols : List (Nat × Vec)),
      (rqSystem blen k J symbols)[rqS k + h]? = some ⟨hdpcRow k h, List.replicate blen 0⟩

/-- R203: the column list of a symbol, in its order. A walk that starts at b and goes on by a modulo W' visits every
residue once; the list has its first min(d, W) values below W, and then W plus the first d1 values below H of the walk
from b1 by a1 modulo P1. So it has no repetition; the row has a 1 in exactly the listed columns, and the symbol is the
XOR of the listed blocks. The tuple is that of `SymbolTuplesFollowTheRules`. -/
def Obligations.SymbolColumnsAreDistinct : Prop :=
  ∀ k J sid : Nat, 1 ≤ k →
    let u := rqTuple k J sid
    let cols := rqCols k J sid
    ((walkFrom u.b u.a (rqWPrime k)).Nodup ∧ (walkFrom u.b1 u.a1 (rqP1 k)).Nodup) ∧
    cols = ((walkFrom u.b u.a (rqWPrime k)).filter (fun b => decide (b < rqW k))).take (min u.d (rqW k)) ++
      (((walkFrom u.b1 u.a1 (rqP1 k)).filter (fun b => decide (b < rqH k))).take u.d1).map (fun b => rqW k + b) ∧
    cols.Nodup ∧
    (cols.length = min u.d (rqW k) + u.d1 ∧ u.d1 ≤ 3 ∧ 3 < rqH k) ∧
    (∀ i, i < cols.length →
      if i < min u.d (rqW k) then cols.getD i 0 < rqW k else rqW k ≤ cols.getD i 0 ∧ cols.getD i 0 < rqL k) ∧
    ((rqRow k J sid).length = rqL k ∧ ∀ c, c < rqL k → (rqRow k J sid).getD c 0 = if c ∈ cols then 1 else 0) ∧
    ∀ (blen : Nat) (C : List Vec), C.length = rqL k → (∀ v ∈ C, v.length = blen) →
      (rqSym blen C k J sid).length = blen ∧
      ∀ t, t < blen → (rqSym blen C k J sid).getD t 0 = xorOver cols (fun c => blockValue C t c)

/-- R205: the systematic index is the least J from 0 to 255 for which the precode matrix is non-singular, and there
is none exactly when all of them are singular. -/
def Obligations.SystematicIndexIsLeast : Prop :=
  ∀ k : Nat, 1 ≤ k →
    (∀ J, (precodeMatrix k J).length = rqL k ∧ ∀ v ∈ precodeMatrix k J, v.length = rqL k) ∧
    (∀ J, systematicIndex k = some J ↔
      J < 256 ∧ FullRank gf8 (rqL k) (precodeMatrix k J) ∧
        ∀ J', J' < J → ¬FullRank gf8 (rqL k) (precodeMatrix k J')) ∧
    (systematicIndex k = none ↔ ∀ J, J < 256 → ¬FullRank gf8 (rqL k) (precodeMatrix k J))

/-- R206: where the systematic index exists, the encoder's intermediate symbols exist, satisfy the LDPC and HDPC
rows, give the source blocks as the symbols 0 to k - 1, and are the only blocks that do. -/
def Obligations.IntermediateSymbolsAreTheOnlySolution : Prop :=
  ∀ (s : State) (J : Nat), 1 ≤ s.kVal → systematicIndex s.kVal = some J →
    ∃ C, s.rqIntermediate s.kVal J = some C ∧ s.Intermediate J C ∧ ∀ C', s.Intermediate J C' → C' = C

/-- R207 with lines 8 to 12 of R208: where the operands fit, `RQ.ENC` completes, repair block j is symbol k + j of the
intermediate symbols, `N` is k + p, exactly the first k + p slots are present, `RQ_RDY` is set, and every other
register and every byte outside the repair blocks is unchanged. -/
def Obligations.RqEncWritesTheRepairSymbols : Prop :=
  ∀ s : State, s.Wf → s.RqEncodeFits →
    ∃ m, exec .rqEnc s = .next (s.rqReady.coded (s.kVal + parityCountRq s.kVal s.redunVal) m) ∧ s.RqRepairIn m

/-- R232, R252, R311: which error `RQ.DEC` ends with, in the order of its lines, and that an error changes nothing
but `ERR`, `ERRF` and `RQ_RDY`. -/
def Obligations.RqDecErrorsComeInOrder : Prop :=
  ∀ s : State,
    ∃ t, exec .rqDec s = .next t ∧ t.rqRdy = true ∧ (t.err ≠ .ok → t = s.rqReady.failed t.err) ∧
      t.err =
        if s.nVal > s.nslot ∨ s.blenVal > s.slotb then .capacity
        else if s.kVal = 0 then .ok
        else if s.nVal = 0 then .insufficientBlocks
        else if s.presentBelow s.nVal = 0 then .decodingFailed
        else if s.kVal > s.nVal ∨ s.presentBelow s.nVal < s.kVal then .insufficientBlocks
        else if ∀ i, i < s.kVal → s.presAt i = true then .ok
        else match systematicIndex s.kVal with
          | none => .capacity
          | some J => if (s.rqSolve s.kVal J).isNone then .decodingFailed else .ok

/-- R235, R247, R249, R239: on the general path `RQ.DEC`, and `DEC` in mode 2, end with `DecodingFailed` exactly when
the decoding system has rank below L; else they complete, and each erased source block is the symbol that the blocks
found by the two-phase procedure give it, whether the present blocks are consistent or not (R237): these blocks are
those that phase 2 and the back-substitution give (R245, R246, R248) after phase 1, which
`PhaseOneLeavesTheShapeOfTheRule` tells. -/
def Obligations.RqDecFailsExactlyWhenTheRankIsShort : Prop :=
  ∀ (s : State) (J : Nat), s.DecodeFits → s.GeneralPath → systematicIndex s.kVal = some J →
    (¬FullRank gf8 (rqL s.kVal) (s.receivedRows s.kVal J) →
      exec .rqDec s = .next (s.rqReady.failed .decodingFailed) ∧
      (s.mode = 2 → exec .dec s = .next (s.rqReady.failed .decodingFailed))) ∧
    (FullRank gf8 (rqL s.kVal) (s.receivedRows s.kVal J) →
      ∃ C m, s.rqSolve s.kVal J = some C ∧
        (Work.phase1 (rqS s.kVal) (rqH s.kVal) (s.rqReceived s.kVal J).length
          (Work.start (rqW s.kVal) (rqL s.kVal) (s.rqReceived s.kVal J))).PhaseTwo (rqS s.kVal) (rqH s.kVal) s.blenVal C ∧
        exec .rqDec s = .next (s.rqReady.coded s.kVal m) ∧
        (s.mode = 2 → exec .dec s = .next (s.rqReady.coded s.kVal m)) ∧
        SameBytesOutside s (s.withBuf m) s.erasedSlot ∧
        ∀ i, s.erasedSlot i → ∀ t, t < s.blenVal →
          ((s.withBuf m).slotByte i t).toNat = symValue C s.kVal J i t)

/-- R236, R239, R249: when the present blocks are the symbols of some intermediate symbols C and the system has rank
L, the two-phase procedure finds C, and each recovered block is the symbol C gives it. -/
def Obligations.RqDecFindsTheIntermediateSymbols : Prop :=
  ∀ (s : State) (J : Nat) (C : List Vec), s.DecodeFits → s.GeneralPath → systematicIndex s.kVal = some J →
    FullRank gf8 (rqL s.kVal) (s.receivedRows s.kVal J) → MeetsConstraints s.kVal s.blenVal C →
    (∀ i, i < s.nVal → s.presAt i = true → ∀ t, t < s.blenVal →
      symValue C s.kVal J i t = (s.slotByte i t).toNat) →
    s.rqSolve s.kVal J = some C ∧
    ∃ t, exec .rqDec s = .next t ∧ t.err = .ok ∧
      ∀ i, i < s.kVal → ∀ o, o < s.blenVal → (t.slotByte i o).toNat = symValue C s.kVal J i o

/-- R253 (1): let `RQ.ENC` succeed and lead to t; let u be t with any presence bits and any buffer contents that keep
the blocks of the entries still present. If `RQ.DEC` on u succeeds, the source blocks are the original ones. -/
def Obligations.RqRoundTrip : Prop :=
  ∀ s t : State, s.Wf → s.RqEncodeFits → exec .rqEnc s = .next t →
    ∀ (pres : List Nat) (m : Memory) (v : State), ({ t with pres := pres, buf := m } : State).Wf →
      (∀ i ∈ pres, i < t.nVal → ∀ o, o < s.blenVal → (t.withBuf m).slotByte i o = t.slotByte i o) →
      exec .rqDec { t with pres := pres, buf := m } = .next v → v.err = .ok →
      ∀ i o, i < s.kVal → o < s.blenVal → v.slotByte i o = s.slotByte i o

/-- R253 (2): present symbols that are added never turn a decode that succeeds into one that fails. -/
def Obligations.MoreSymbolsNeverHurt : Prop :=
  ∀ (s t : State) (pres : List Nat), s.GeneralPath → exec .rqDec s = .next t → t.err = .ok →
    (∀ i, s.presAt i = true → i ∈ pres) →
    ∃ u, exec .rqDec { s with pres := pres } = .next u ∧ u.err = .ok

/-- R240 to R244: phase 1 of the decoder. In every working state the row chosen is the one R241 tells, and none where
no unused sparse row has an unresolved column; using it does to the classes, `used`, `pivots` and the rows what R242 and
R243 tell. Phase 1 is, from the start R234 and R240 tell, a sequence of such turns that goes on until no row can be
chosen. It leaves `used` as the rows of the pivots, all sparse and different; a used row is not zero in the column of
its pivot and otherwise only in inactive columns; every other row is zero in all pivot columns; no unused sparse row is
non-zero in an unresolved column; and the columns without a pivot, ascending, are the inactive ones of R244. -/
def Obligations.PhaseOneLeavesTheShapeOfTheRule : Prop :=
  ∀ S H L m : Nat,
    (∀ (w : Work) (r : Nat), w.chooseRow S H = some r ↔ w.Chosen S H r) ∧
    (∀ w : Work, w.chooseRow S H = none ↔ ∀ r, ¬w.Candidate S H r) ∧
    (∀ (w : Work) (r : Nat), w.Shaped L m → 1 ≤ w.openCount r →
      ∃ c0, w.LowestOpen r c0 ∧ w.Pivoted r c0 (w.usePivot r) ∧ (w.usePivot r).Shaped L m) ∧
    ∀ (W : Nat) (rows : List EqRow), W ≤ L → (Work.start W L rows).Shaped L m →
      let start := Work.start W L rows
      let w := Work.phase1 S H rows.length start
      (start.rows = rows ∧ start.used = [] ∧ start.pivots = [] ∧
        ∀ c, c < L → start.classOf c = if c < W then .unresolved else .inactive) ∧
      (∃ (n : Nat) (turn : Nat → Work), turn 0 = start ∧ turn n = w ∧
        ∀ i, i < n → ∃ r, (turn i).Chosen S H r ∧ turn (i + 1) = (turn i).usePivot r) ∧
      (∀ r, ¬w.Candidate S H r) ∧
      (w.used = w.pivots.map Prod.snd ∧ w.used.Nodup ∧ (∀ r ∈ w.used, r < rows.length ∧ (r < S ∨ S + H ≤ r))) ∧
      (∀ p ∈ w.pivots, p.1 < L ∧ w.classOf p.1 = .pivot ∧ (w.row p.2).at p.1 ≠ 0 ∧
        ∀ c, c < L → c ≠ p.1 → (w.row p.2).at c ≠ 0 → w.classOf c = .inactive) ∧
      (∀ r, r < rows.length → r ∉ w.used → ∀ p ∈ w.pivots, (w.row r).at p.1 = 0) ∧
      ((w.pivots.map Prod.fst).Nodup ∧ ∀ c, c < L → w.classOf c = .pivot → ∃ r, (c, r) ∈ w.pivots) ∧
      (∀ r, r < rows.length → (r < S ∨ S + H ≤ r) → r ∉ w.used → ∀ c, c < L →
        w.classOf c = .unresolved → (w.row r).at c = 0) ∧
      ((∀ c, c ∈ w.inactiveColumns ↔ c < L ∧ ∀ r, (c, r) ∉ w.pivots) ∧ w.inactiveColumns.Pairwise (· < ·) ∧
        w.pivots.length + w.inactiveColumns.length = L)

/-! ### The selector and the facade -/

/-- R275: the selector's value, its single threshold, and the examples the rule prints. -/
def Obligations.SelectorHasOneThreshold : Prop :=
  (∀ cnt loss t8 t16 : Int, (selectMode cnt loss t8 t16).value =
    if cnt ≤ 0 then 0
    else if cnt ≤ 255 then (if min (max loss 0) 1000000 ≥ t8 then 2 else 0)
    else if min (max loss 0) 1000000 ≥ t16 then 2 else 1) ∧
  (∀ cnt x y t8 t16 : Int, x ≤ y → selectMode cnt x t8 t16 = .rq → selectMode cnt y t8 t16 = .rq) ∧
  (∀ cnt x t8 t16 : Int, 1 ≤ cnt → 0 < (if cnt ≤ 255 then t8 else t16) →
    (if cnt ≤ 255 then t8 else t16) ≤ 1000000 →
    (selectMode cnt x t8 t16 = .rq ↔ (if cnt ≤ 255 then t8 else t16) ≤ x)) ∧
  ([(10, 79000), (10, 80000), (256, 29000), (256, 30000), (0, 500000), (-5, 1000000), (255, 80000), (256, 79999),
      (1, -1), (1, 2000000), (300, 0)] : List (Int × Int)).map
    (fun x => (selectMode x.1 x.2 80000 30000).value) = [0, 2, 1, 2, 0, 0, 2, 2, 0, 2, 1]

/-- R276: `SEL` completes in every state, writes `RES` with the mode it selects from `OPA`, `OPB` and the ceilings,
all signed, clears the error and changes nothing else. -/
def Obligations.SelAnswersTheSelectedMode : Prop :=
  ∀ s : State, exec .sel s = .next (s.answered (
    if s.opa.toInt ≤ 0 then 0
    else if s.opa.toInt ≤ 255 then (if min (max s.opb.toInt 0) 1000000 ≥ s.thr8.toInt then 2 else 0)
    else if min (max s.opb.toInt 0) 1000000 ≥ s.thr16.toInt then 2 else 1))

/-- R280: `ENC.AUTO` does what the encoder it selects does, writes `MODE` on success only; it selects GF(256) exactly
when the Reed–Solomon coder would use it. -/
def Obligations.EncAutoDispatchesToTheSelectedEncoder : Prop :=
  ∀ s : State,
    let m := selectMode s.k.toNat s.loss.toInt s.thr8.toInt s.thr16.toInt
    (∃ t, exec (if m = .rq then .rqEnc else .rsEnc) s = .next t ∧
      (t.err = .ok → exec .encAuto s = .next { t with mode := BitVec.ofNat 32 m.value }) ∧
      (t.err ≠ .ok → exec .encAuto s = .next t)) ∧
    (s.k = 0 → m = .rs8) ∧ (m ≠ .rq → (m = .rs8 ↔ rsField s.kVal = gf8))

/-- `ENC.AUTO` completes where the operands of the selected encoder fit (R280, R158, R208): the parity or repair
blocks are written, `N`, the presence bits and `MODE` are, and nothing else changes. -/
def Obligations.EncAutoCompletes : Prop :=
  ∀ s : State, s.Wf →
    let mode := selectMode s.k.toNat s.loss.toInt s.thr8.toInt s.thr16.toInt
    (mode ≠ .rq → s.RsEncodeFits → ∃ m, s.RsParityIn m ∧
      exec .encAuto s = .next
        { s.coded (s.kVal + parityCountRs s.kVal s.redunVal) m with mode := BitVec.ofNat 32 mode.value }) ∧
    (mode = .rq → s.RqEncodeFits → ∃ m, s.RqRepairIn m ∧
      exec .encAuto s = .next
        { s.rqReady.coded (s.kVal + parityCountRq s.kVal s.redunVal) m with mode := 2 })

/-- R282: `DEC` raises `E_BADMODE` for a mode above 2 before anything else, is `RQ.DEC` for 2, and `RS.DEC` for 0 and
1. -/
def Obligations.DecDispatchesByMode : Prop :=
  ∀ s : State,
    (2 < s.mode.toNat → exec .dec s = .next (s.failed .badMode)) ∧
    (s.mode.toNat = 2 → exec .dec s = exec .rqDec s) ∧
    (s.mode.toNat < 2 → exec .dec s = exec .rsDec s)

/-- R285: `NOP` completes in every state, clears `ERR` and `ERRF` and changes nothing else. -/
def Obligations.NopOnlyClearsTheError : Prop :=
  ∀ s : State, exec .nop s = .next { s with err := .ok, errf := false }

/-! ### The hash and the tuple of a symbol -/

/-- R190, R191, R201, R202: the hash is the one the rules print, on every argument below 2^32, with the values they
print; and the six numbers of a symbol's tuple are drawn from it as R202 says, the degree from the row of the table
R201 that the value falls in, each within its range. -/
def Obligations.SymbolTuplesFollowTheRules : Prop :=
  (∀ x : Word, (fmix32 x).toNat = fmixRule x.toNat) ∧
  (∀ u v w : Nat, u < 2 ^ 32 → v < 2 ^ 32 → w < 2 ^ 32 → rqMix u v w = mixRule u v w ∧ rqMix u v w < 2 ^ 32) ∧
  (([0, 1, 2, 0xFFFFFFFF, 0x9E3779B9] : List Word).map fmix32 =
      [0x00000000, 0x514E28B7, 0x30F4C306, 0x81F16F39, 0x92CA2F0E] ∧
    rqMix 1 0 0 = 0xDC5302DE ∧ rqMix 3 0 0 = 0x9D531AF1 ∧ rqMix 3 4 1 = 0xA5CB1D21 ∧
    rqMix 0x48445043 0 0 = 0x47D92EBF) ∧
  (∀ v, v < 2 ^ 20 → ∃ row ∈ degreeTable, row.1 ≤ v ∧ v ≤ row.2.1 ∧ rqDeg v = row.2.2) ∧
  ∀ k J sid : Nat, 1 ≤ k →
    let u := rqTuple k J sid
    (u.d = rqDeg (rqMix k sid (8 * J + 0) % 2 ^ 20) ∧ 1 ≤ u.d) ∧
    (u.a = 1 + rqMix k sid (8 * J + 1) % (rqWPrime k - 1) ∧ 1 ≤ u.a ∧ u.a < rqWPrime k) ∧
    (u.b = rqMix k sid (8 * J + 2) % rqWPrime k ∧ u.b < rqWPrime k) ∧
    (u.d1 = 2 + rqMix k sid (8 * J + 3) % 2 ∧ (u.d1 = 2 ∨ u.d1 = 3)) ∧
    (u.a1 = 1 + rqMix k sid (8 * J + 4) % (rqP1 k - 1) ∧ 1 ≤ u.a1 ∧ u.a1 < rqP1 k) ∧
    (u.b1 = rqMix k sid (8 * J + 5) % rqP1 k ∧ u.b1 < rqP1 k)
end

