-- ==== Sys2Proof/Laws/State.lean ====
section
/-! SUPPORT. Every field after every update of State, one lemma each, so that no later proof unfolds a record
update. -/

namespace Sys2Proof.Machine

variable (s : State)

/-! ### `State.setByte` -/

@[simp] theorem State.setByte_nslot (a : Nat) (v : Byte) : (s.setByte a v).nslot = s.nslot := rfl
@[simp] theorem State.setByte_slotb (a : Nat) (v : Byte) : (s.setByte a v).slotb = s.slotb := rfl
@[simp] theorem State.setByte_cmd (a : Nat) (v : Byte) : (s.setByte a v).cmd = s.cmd := rfl
@[simp] theorem State.setByte_err (a : Nat) (v : Byte) : (s.setByte a v).err = s.err := rfl
@[simp] theorem State.setByte_errf (a : Nat) (v : Byte) : (s.setByte a v).errf = s.errf := rfl
@[simp] theorem State.setByte_rqRdy (a : Nat) (v : Byte) : (s.setByte a v).rqRdy = s.rqRdy := rfl
@[simp] theorem State.setByte_opa (a : Nat) (v : Byte) : (s.setByte a v).opa = s.opa := rfl
@[simp] theorem State.setByte_opb (a : Nat) (v : Byte) : (s.setByte a v).opb = s.opb := rfl
@[simp] theorem State.setByte_res (a : Nat) (v : Byte) : (s.setByte a v).res = s.res := rfl
@[simp] theorem State.setByte_k (a : Nat) (v : Byte) : (s.setByte a v).k = s.k := rfl
@[simp] theorem State.setByte_n (a : Nat) (v : Byte) : (s.setByte a v).n = s.n := rfl
@[simp] theorem State.setByte_blen (a : Nat) (v : Byte) : (s.setByte a v).blen = s.blen := rfl
@[simp] theorem State.setByte_redun (a : Nat) (v : Byte) : (s.setByte a v).redun = s.redun := rfl
@[simp] theorem State.setByte_loss (a : Nat) (v : Byte) : (s.setByte a v).loss = s.loss := rfl
@[simp] theorem State.setByte_mode (a : Nat) (v : Byte) : (s.setByte a v).mode = s.mode := rfl
@[simp] theorem State.setByte_thr8 (a : Nat) (v : Byte) : (s.setByte a v).thr8 = s.thr8 := rfl
@[simp] theorem State.setByte_thr16 (a : Nat) (v : Byte) : (s.setByte a v).thr16 = s.thr16 := rfl
@[simp] theorem State.setByte_pres (a : Nat) (v : Byte) : (s.setByte a v).pres = s.pres := rfl
@[simp] theorem State.setByte_buf (a : Nat) (v : Byte) : (s.setByte a v).buf = Memory.store s.buf a v := rfl
@[simp] theorem State.setByte_resets (a : Nat) (v : Byte) : (s.setByte a v).resets = s.resets := rfl
@[simp] theorem State.setByte_script (a : Nat) (v : Byte) : (s.setByte a v).script = s.script := rfl
@[simp] theorem State.setByte_replies (a : Nat) (v : Byte) : (s.setByte a v).replies = s.replies := rfl

/-! ### `State.memWrite` -/

@[simp] theorem State.memWrite_nslot (a m : Nat) (v : List Byte) : (s.memWrite a m v).nslot = s.nslot := rfl
@[simp] theorem State.memWrite_slotb (a m : Nat) (v : List Byte) : (s.memWrite a m v).slotb = s.slotb := rfl
@[simp] theorem State.memWrite_cmd (a m : Nat) (v : List Byte) : (s.memWrite a m v).cmd = s.cmd := rfl
@[simp] theorem State.memWrite_err (a m : Nat) (v : List Byte) : (s.memWrite a m v).err = s.err := rfl
@[simp] theorem State.memWrite_errf (a m : Nat) (v : List Byte) : (s.memWrite a m v).errf = s.errf := rfl
@[simp] theorem State.memWrite_rqRdy (a m : Nat) (v : List Byte) : (s.memWrite a m v).rqRdy = s.rqRdy := rfl
@[simp] theorem State.memWrite_opa (a m : Nat) (v : List Byte) : (s.memWrite a m v).opa = s.opa := rfl
@[simp] theorem State.memWrite_opb (a m : Nat) (v : List Byte) : (s.memWrite a m v).opb = s.opb := rfl
@[simp] theorem State.memWrite_res (a m : Nat) (v : List Byte) : (s.memWrite a m v).res = s.res := rfl
@[simp] theorem State.memWrite_k (a m : Nat) (v : List Byte) : (s.memWrite a m v).k = s.k := rfl
@[simp] theorem State.memWrite_n (a m : Nat) (v : List Byte) : (s.memWrite a m v).n = s.n := rfl
@[simp] theorem State.memWrite_blen (a m : Nat) (v : List Byte) : (s.memWrite a m v).blen = s.blen := rfl
@[simp] theorem State.memWrite_redun (a m : Nat) (v : List Byte) : (s.memWrite a m v).redun = s.redun := rfl
@[simp] theorem State.memWrite_loss (a m : Nat) (v : List Byte) : (s.memWrite a m v).loss = s.loss := rfl
@[simp] theorem State.memWrite_mode (a m : Nat) (v : List Byte) : (s.memWrite a m v).mode = s.mode := rfl
@[simp] theorem State.memWrite_thr8 (a m : Nat) (v : List Byte) : (s.memWrite a m v).thr8 = s.thr8 := rfl
@[simp] theorem State.memWrite_thr16 (a m : Nat) (v : List Byte) : (s.memWrite a m v).thr16 = s.thr16 := rfl
@[simp] theorem State.memWrite_pres (a m : Nat) (v : List Byte) : (s.memWrite a m v).pres = s.pres := rfl
@[simp] theorem State.memWrite_buf (a m : Nat) (v : List Byte) : (s.memWrite a m v).buf = Memory.storeBytes s.buf a ((List.range m).map (fun t => v.getD t 0)) := rfl
@[simp] theorem State.memWrite_resets (a m : Nat) (v : List Byte) : (s.memWrite a m v).resets = s.resets := rfl
@[simp] theorem State.memWrite_script (a m : Nat) (v : List Byte) : (s.memWrite a m v).script = s.script := rfl
@[simp] theorem State.memWrite_replies (a m : Nat) (v : List Byte) : (s.memWrite a m v).replies = s.replies := rfl

/-! ### `State.setBlk` -/

@[simp] theorem State.setBlk_nslot (i : Nat) (v : List Byte) : (s.setBlk i v).nslot = s.nslot := rfl
@[simp] theorem State.setBlk_slotb (i : Nat) (v : List Byte) : (s.setBlk i v).slotb = s.slotb := rfl
@[simp] theorem State.setBlk_cmd (i : Nat) (v : List Byte) : (s.setBlk i v).cmd = s.cmd := rfl
@[simp] theorem State.setBlk_err (i : Nat) (v : List Byte) : (s.setBlk i v).err = s.err := rfl
@[simp] theorem State.setBlk_errf (i : Nat) (v : List Byte) : (s.setBlk i v).errf = s.errf := rfl
@[simp] theorem State.setBlk_rqRdy (i : Nat) (v : List Byte) : (s.setBlk i v).rqRdy = s.rqRdy := rfl
@[simp] theorem State.setBlk_opa (i : Nat) (v : List Byte) : (s.setBlk i v).opa = s.opa := rfl
@[simp] theorem State.setBlk_opb (i : Nat) (v : List Byte) : (s.setBlk i v).opb = s.opb := rfl
@[simp] theorem State.setBlk_res (i : Nat) (v : List Byte) : (s.setBlk i v).res = s.res := rfl
@[simp] theorem State.setBlk_k (i : Nat) (v : List Byte) : (s.setBlk i v).k = s.k := rfl
@[simp] theorem State.setBlk_n (i : Nat) (v : List Byte) : (s.setBlk i v).n = s.n := rfl
@[simp] theorem State.setBlk_blen (i : Nat) (v : List Byte) : (s.setBlk i v).blen = s.blen := rfl
@[simp] theorem State.setBlk_redun (i : Nat) (v : List Byte) : (s.setBlk i v).redun = s.redun := rfl
@[simp] theorem State.setBlk_loss (i : Nat) (v : List Byte) : (s.setBlk i v).loss = s.loss := rfl
@[simp] theorem State.setBlk_mode (i : Nat) (v : List Byte) : (s.setBlk i v).mode = s.mode := rfl
@[simp] theorem State.setBlk_thr8 (i : Nat) (v : List Byte) : (s.setBlk i v).thr8 = s.thr8 := rfl
@[simp] theorem State.setBlk_thr16 (i : Nat) (v : List Byte) : (s.setBlk i v).thr16 = s.thr16 := rfl
@[simp] theorem State.setBlk_pres (i : Nat) (v : List Byte) : (s.setBlk i v).pres = s.pres := rfl
@[simp] theorem State.setBlk_buf (i : Nat) (v : List Byte) : (s.setBlk i v).buf = Memory.storeBytes s.buf (s.slotAddr i) ((List.range s.blen.toNat).map (fun t => v.getD t 0)) := rfl
@[simp] theorem State.setBlk_resets (i : Nat) (v : List Byte) : (s.setBlk i v).resets = s.resets := rfl
@[simp] theorem State.setBlk_script (i : Nat) (v : List Byte) : (s.setBlk i v).script = s.script := rfl
@[simp] theorem State.setBlk_replies (i : Nat) (v : List Byte) : (s.setBlk i v).replies = s.replies := rfl

/-! ### `State.setPresBelow` -/

@[simp] theorem State.setPresBelow_nslot (m : Nat) : (s.setPresBelow m).nslot = s.nslot := rfl
@[simp] theorem State.setPresBelow_slotb (m : Nat) : (s.setPresBelow m).slotb = s.slotb := rfl
@[simp] theorem State.setPresBelow_cmd (m : Nat) : (s.setPresBelow m).cmd = s.cmd := rfl
@[simp] theorem State.setPresBelow_err (m : Nat) : (s.setPresBelow m).err = s.err := rfl
@[simp] theorem State.setPresBelow_errf (m : Nat) : (s.setPresBelow m).errf = s.errf := rfl
@[simp] theorem State.setPresBelow_rqRdy (m : Nat) : (s.setPresBelow m).rqRdy = s.rqRdy := rfl
@[simp] theorem State.setPresBelow_opa (m : Nat) : (s.setPresBelow m).opa = s.opa := rfl
@[simp] theorem State.setPresBelow_opb (m : Nat) : (s.setPresBelow m).opb = s.opb := rfl
@[simp] theorem State.setPresBelow_res (m : Nat) : (s.setPresBelow m).res = s.res := rfl
@[simp] theorem State.setPresBelow_k (m : Nat) : (s.setPresBelow m).k = s.k := rfl
@[simp] theorem State.setPresBelow_n (m : Nat) : (s.setPresBelow m).n = s.n := rfl
@[simp] theorem State.setPresBelow_blen (m : Nat) : (s.setPresBelow m).blen = s.blen := rfl
@[simp] theorem State.setPresBelow_redun (m : Nat) : (s.setPresBelow m).redun = s.redun := rfl
@[simp] theorem State.setPresBelow_loss (m : Nat) : (s.setPresBelow m).loss = s.loss := rfl
@[simp] theorem State.setPresBelow_mode (m : Nat) : (s.setPresBelow m).mode = s.mode := rfl
@[simp] theorem State.setPresBelow_thr8 (m : Nat) : (s.setPresBelow m).thr8 = s.thr8 := rfl
@[simp] theorem State.setPresBelow_thr16 (m : Nat) : (s.setPresBelow m).thr16 = s.thr16 := rfl
@[simp] theorem State.setPresBelow_pres (m : Nat) : (s.setPresBelow m).pres = List.range m := rfl
@[simp] theorem State.setPresBelow_buf (m : Nat) : (s.setPresBelow m).buf = s.buf := rfl
@[simp] theorem State.setPresBelow_resets (m : Nat) : (s.setPresBelow m).resets = s.resets := rfl
@[simp] theorem State.setPresBelow_script (m : Nat) : (s.setPresBelow m).script = s.script := rfl
@[simp] theorem State.setPresBelow_replies (m : Nat) : (s.setPresBelow m).replies = s.replies := rfl

/-! ### `State.setPresWord` -/

@[simp] theorem State.setPresWord_nslot (w : Nat) (v : Word) : (s.setPresWord w v).nslot = s.nslot := rfl
@[simp] theorem State.setPresWord_slotb (w : Nat) (v : Word) : (s.setPresWord w v).slotb = s.slotb := rfl
@[simp] theorem State.setPresWord_cmd (w : Nat) (v : Word) : (s.setPresWord w v).cmd = s.cmd := rfl
@[simp] theorem State.setPresWord_err (w : Nat) (v : Word) : (s.setPresWord w v).err = s.err := rfl
@[simp] theorem State.setPresWord_errf (w : Nat) (v : Word) : (s.setPresWord w v).errf = s.errf := rfl
@[simp] theorem State.setPresWord_rqRdy (w : Nat) (v : Word) : (s.setPresWord w v).rqRdy = s.rqRdy := rfl
@[simp] theorem State.setPresWord_opa (w : Nat) (v : Word) : (s.setPresWord w v).opa = s.opa := rfl
@[simp] theorem State.setPresWord_opb (w : Nat) (v : Word) : (s.setPresWord w v).opb = s.opb := rfl
@[simp] theorem State.setPresWord_res (w : Nat) (v : Word) : (s.setPresWord w v).res = s.res := rfl
@[simp] theorem State.setPresWord_k (w : Nat) (v : Word) : (s.setPresWord w v).k = s.k := rfl
@[simp] theorem State.setPresWord_n (w : Nat) (v : Word) : (s.setPresWord w v).n = s.n := rfl
@[simp] theorem State.setPresWord_blen (w : Nat) (v : Word) : (s.setPresWord w v).blen = s.blen := rfl
@[simp] theorem State.setPresWord_redun (w : Nat) (v : Word) : (s.setPresWord w v).redun = s.redun := rfl
@[simp] theorem State.setPresWord_loss (w : Nat) (v : Word) : (s.setPresWord w v).loss = s.loss := rfl
@[simp] theorem State.setPresWord_mode (w : Nat) (v : Word) : (s.setPresWord w v).mode = s.mode := rfl
@[simp] theorem State.setPresWord_thr8 (w : Nat) (v : Word) : (s.setPresWord w v).thr8 = s.thr8 := rfl
@[simp] theorem State.setPresWord_thr16 (w : Nat) (v : Word) : (s.setPresWord w v).thr16 = s.thr16 := rfl
@[simp] theorem State.setPresWord_buf (w : Nat) (v : Word) : (s.setPresWord w v).buf = s.buf := rfl
@[simp] theorem State.setPresWord_resets (w : Nat) (v : Word) : (s.setPresWord w v).resets = s.resets := rfl
@[simp] theorem State.setPresWord_script (w : Nat) (v : Word) : (s.setPresWord w v).script = s.script := rfl
@[simp] theorem State.setPresWord_replies (w : Nat) (v : Word) : (s.setPresWord w v).replies = s.replies := rfl

/-! ### `State.setRes` -/

@[simp] theorem State.setRes_nslot (v : Nat) : (s.setRes v).nslot = s.nslot := rfl
@[simp] theorem State.setRes_slotb (v : Nat) : (s.setRes v).slotb = s.slotb := rfl
@[simp] theorem State.setRes_cmd (v : Nat) : (s.setRes v).cmd = s.cmd := rfl
@[simp] theorem State.setRes_err (v : Nat) : (s.setRes v).err = s.err := rfl
@[simp] theorem State.setRes_errf (v : Nat) : (s.setRes v).errf = s.errf := rfl
@[simp] theorem State.setRes_rqRdy (v : Nat) : (s.setRes v).rqRdy = s.rqRdy := rfl
@[simp] theorem State.setRes_opa (v : Nat) : (s.setRes v).opa = s.opa := rfl
@[simp] theorem State.setRes_opb (v : Nat) : (s.setRes v).opb = s.opb := rfl
@[simp] theorem State.setRes_res (v : Nat) : (s.setRes v).res = BitVec.ofNat 32 v := rfl
@[simp] theorem State.setRes_k (v : Nat) : (s.setRes v).k = s.k := rfl
@[simp] theorem State.setRes_n (v : Nat) : (s.setRes v).n = s.n := rfl
@[simp] theorem State.setRes_blen (v : Nat) : (s.setRes v).blen = s.blen := rfl
@[simp] theorem State.setRes_redun (v : Nat) : (s.setRes v).redun = s.redun := rfl
@[simp] theorem State.setRes_loss (v : Nat) : (s.setRes v).loss = s.loss := rfl
@[simp] theorem State.setRes_mode (v : Nat) : (s.setRes v).mode = s.mode := rfl
@[simp] theorem State.setRes_thr8 (v : Nat) : (s.setRes v).thr8 = s.thr8 := rfl
@[simp] theorem State.setRes_thr16 (v : Nat) : (s.setRes v).thr16 = s.thr16 := rfl
@[simp] theorem State.setRes_pres (v : Nat) : (s.setRes v).pres = s.pres := rfl
@[simp] theorem State.setRes_buf (v : Nat) : (s.setRes v).buf = s.buf := rfl
@[simp] theorem State.setRes_resets (v : Nat) : (s.setRes v).resets = s.resets := rfl
@[simp] theorem State.setRes_script (v : Nat) : (s.setRes v).script = s.script := rfl
@[simp] theorem State.setRes_replies (v : Nat) : (s.setRes v).replies = s.replies := rfl

/-! ### `State.setN` -/

@[simp] theorem State.setN_nslot (v : Nat) : (s.setN v).nslot = s.nslot := rfl
@[simp] theorem State.setN_slotb (v : Nat) : (s.setN v).slotb = s.slotb := rfl
@[simp] theorem State.setN_cmd (v : Nat) : (s.setN v).cmd = s.cmd := rfl
@[simp] theorem State.setN_err (v : Nat) : (s.setN v).err = s.err := rfl
@[simp] theorem State.setN_errf (v : Nat) : (s.setN v).errf = s.errf := rfl
@[simp] theorem State.setN_rqRdy (v : Nat) : (s.setN v).rqRdy = s.rqRdy := rfl
@[simp] theorem State.setN_opa (v : Nat) : (s.setN v).opa = s.opa := rfl
@[simp] theorem State.setN_opb (v : Nat) : (s.setN v).opb = s.opb := rfl
@[simp] theorem State.setN_res (v : Nat) : (s.setN v).res = s.res := rfl
@[simp] theorem State.setN_k (v : Nat) : (s.setN v).k = s.k := rfl
@[simp] theorem State.setN_n (v : Nat) : (s.setN v).n = BitVec.ofNat 32 v := rfl
@[simp] theorem State.setN_blen (v : Nat) : (s.setN v).blen = s.blen := rfl
@[simp] theorem State.setN_redun (v : Nat) : (s.setN v).redun = s.redun := rfl
@[simp] theorem State.setN_loss (v : Nat) : (s.setN v).loss = s.loss := rfl
@[simp] theorem State.setN_mode (v : Nat) : (s.setN v).mode = s.mode := rfl
@[simp] theorem State.setN_thr8 (v : Nat) : (s.setN v).thr8 = s.thr8 := rfl
@[simp] theorem State.setN_thr16 (v : Nat) : (s.setN v).thr16 = s.thr16 := rfl
@[simp] theorem State.setN_pres (v : Nat) : (s.setN v).pres = s.pres := rfl
@[simp] theorem State.setN_buf (v : Nat) : (s.setN v).buf = s.buf := rfl
@[simp] theorem State.setN_resets (v : Nat) : (s.setN v).resets = s.resets := rfl
@[simp] theorem State.setN_script (v : Nat) : (s.setN v).script = s.script := rfl
@[simp] theorem State.setN_replies (v : Nat) : (s.setN v).replies = s.replies := rfl

/-! ### `State.setMode` -/

@[simp] theorem State.setMode_nslot (v : Nat) : (s.setMode v).nslot = s.nslot := rfl
@[simp] theorem State.setMode_slotb (v : Nat) : (s.setMode v).slotb = s.slotb := rfl
@[simp] theorem State.setMode_cmd (v : Nat) : (s.setMode v).cmd = s.cmd := rfl
@[simp] theorem State.setMode_err (v : Nat) : (s.setMode v).err = s.err := rfl
@[simp] theorem State.setMode_errf (v : Nat) : (s.setMode v).errf = s.errf := rfl
@[simp] theorem State.setMode_rqRdy (v : Nat) : (s.setMode v).rqRdy = s.rqRdy := rfl
@[simp] theorem State.setMode_opa (v : Nat) : (s.setMode v).opa = s.opa := rfl
@[simp] theorem State.setMode_opb (v : Nat) : (s.setMode v).opb = s.opb := rfl
@[simp] theorem State.setMode_res (v : Nat) : (s.setMode v).res = s.res := rfl
@[simp] theorem State.setMode_k (v : Nat) : (s.setMode v).k = s.k := rfl
@[simp] theorem State.setMode_n (v : Nat) : (s.setMode v).n = s.n := rfl
@[simp] theorem State.setMode_blen (v : Nat) : (s.setMode v).blen = s.blen := rfl
@[simp] theorem State.setMode_redun (v : Nat) : (s.setMode v).redun = s.redun := rfl
@[simp] theorem State.setMode_loss (v : Nat) : (s.setMode v).loss = s.loss := rfl
@[simp] theorem State.setMode_mode (v : Nat) : (s.setMode v).mode = BitVec.ofNat 32 v := rfl
@[simp] theorem State.setMode_thr8 (v : Nat) : (s.setMode v).thr8 = s.thr8 := rfl
@[simp] theorem State.setMode_thr16 (v : Nat) : (s.setMode v).thr16 = s.thr16 := rfl
@[simp] theorem State.setMode_pres (v : Nat) : (s.setMode v).pres = s.pres := rfl
@[simp] theorem State.setMode_buf (v : Nat) : (s.setMode v).buf = s.buf := rfl
@[simp] theorem State.setMode_resets (v : Nat) : (s.setMode v).resets = s.resets := rfl
@[simp] theorem State.setMode_script (v : Nat) : (s.setMode v).script = s.script := rfl
@[simp] theorem State.setMode_replies (v : Nat) : (s.setMode v).replies = s.replies := rfl

/-! ### `State.publish` -/

@[simp] theorem State.publish_nslot (m : Nat) : (s.publish m).nslot = s.nslot := rfl
@[simp] theorem State.publish_slotb (m : Nat) : (s.publish m).slotb = s.slotb := rfl
@[simp] theorem State.publish_cmd (m : Nat) : (s.publish m).cmd = s.cmd := rfl
@[simp] theorem State.publish_err (m : Nat) : (s.publish m).err = s.err := rfl
@[simp] theorem State.publish_errf (m : Nat) : (s.publish m).errf = s.errf := rfl
@[simp] theorem State.publish_rqRdy (m : Nat) : (s.publish m).rqRdy = s.rqRdy := rfl
@[simp] theorem State.publish_opa (m : Nat) : (s.publish m).opa = s.opa := rfl
@[simp] theorem State.publish_opb (m : Nat) : (s.publish m).opb = s.opb := rfl
@[simp] theorem State.publish_res (m : Nat) : (s.publish m).res = s.res := rfl
@[simp] theorem State.publish_k (m : Nat) : (s.publish m).k = s.k := rfl
@[simp] theorem State.publish_n (m : Nat) : (s.publish m).n = BitVec.ofNat 32 m := rfl
@[simp] theorem State.publish_blen (m : Nat) : (s.publish m).blen = s.blen := rfl
@[simp] theorem State.publish_redun (m : Nat) : (s.publish m).redun = s.redun := rfl
@[simp] theorem State.publish_loss (m : Nat) : (s.publish m).loss = s.loss := rfl
@[simp] theorem State.publish_mode (m : Nat) : (s.publish m).mode = s.mode := rfl
@[simp] theorem State.publish_thr8 (m : Nat) : (s.publish m).thr8 = s.thr8 := rfl
@[simp] theorem State.publish_thr16 (m : Nat) : (s.publish m).thr16 = s.thr16 := rfl
@[simp] theorem State.publish_pres (m : Nat) : (s.publish m).pres = List.range m := rfl
@[simp] theorem State.publish_buf (m : Nat) : (s.publish m).buf = s.buf := rfl
@[simp] theorem State.publish_resets (m : Nat) : (s.publish m).resets = s.resets := rfl
@[simp] theorem State.publish_script (m : Nat) : (s.publish m).script = s.script := rfl
@[simp] theorem State.publish_replies (m : Nat) : (s.publish m).replies = s.replies := rfl

/-! ### `State.done` -/

@[simp] theorem State.done_nslot : s.done.nslot = s.nslot := rfl
@[simp] theorem State.done_slotb : s.done.slotb = s.slotb := rfl
@[simp] theorem State.done_cmd : s.done.cmd = s.cmd := rfl
@[simp] theorem State.done_err : s.done.err = .ok := rfl
@[simp] theorem State.done_errf : s.done.errf = false := rfl
@[simp] theorem State.done_rqRdy : s.done.rqRdy = s.rqRdy := rfl
@[simp] theorem State.done_opa : s.done.opa = s.opa := rfl
@[simp] theorem State.done_opb : s.done.opb = s.opb := rfl
@[simp] theorem State.done_res : s.done.res = s.res := rfl
@[simp] theorem State.done_k : s.done.k = s.k := rfl
@[simp] theorem State.done_n : s.done.n = s.n := rfl
@[simp] theorem State.done_blen : s.done.blen = s.blen := rfl
@[simp] theorem State.done_redun : s.done.redun = s.redun := rfl
@[simp] theorem State.done_loss : s.done.loss = s.loss := rfl
@[simp] theorem State.done_mode : s.done.mode = s.mode := rfl
@[simp] theorem State.done_thr8 : s.done.thr8 = s.thr8 := rfl
@[simp] theorem State.done_thr16 : s.done.thr16 = s.thr16 := rfl
@[simp] theorem State.done_pres : s.done.pres = s.pres := rfl
@[simp] theorem State.done_buf : s.done.buf = s.buf := rfl
@[simp] theorem State.done_resets : s.done.resets = s.resets := rfl
@[simp] theorem State.done_script : s.done.script = s.script := rfl
@[simp] theorem State.done_replies : s.done.replies = s.replies := rfl

/-! ### `State.raise` -/

@[simp] theorem State.raise_nslot (c : ErrCode) : (s.raise c).nslot = s.nslot := rfl
@[simp] theorem State.raise_slotb (c : ErrCode) : (s.raise c).slotb = s.slotb := rfl
@[simp] theorem State.raise_cmd (c : ErrCode) : (s.raise c).cmd = s.cmd := rfl
@[simp] theorem State.raise_err (c : ErrCode) : (s.raise c).err = c := rfl
@[simp] theorem State.raise_errf (c : ErrCode) : (s.raise c).errf = true := rfl
@[simp] theorem State.raise_rqRdy (c : ErrCode) : (s.raise c).rqRdy = s.rqRdy := rfl
@[simp] theorem State.raise_opa (c : ErrCode) : (s.raise c).opa = s.opa := rfl
@[simp] theorem State.raise_opb (c : ErrCode) : (s.raise c).opb = s.opb := rfl
@[simp] theorem State.raise_res (c : ErrCode) : (s.raise c).res = s.res := rfl
@[simp] theorem State.raise_k (c : ErrCode) : (s.raise c).k = s.k := rfl
@[simp] theorem State.raise_n (c : ErrCode) : (s.raise c).n = s.n := rfl
@[simp] theorem State.raise_blen (c : ErrCode) : (s.raise c).blen = s.blen := rfl
@[simp] theorem State.raise_redun (c : ErrCode) : (s.raise c).redun = s.redun := rfl
@[simp] theorem State.raise_loss (c : ErrCode) : (s.raise c).loss = s.loss := rfl
@[simp] theorem State.raise_mode (c : ErrCode) : (s.raise c).mode = s.mode := rfl
@[simp] theorem State.raise_thr8 (c : ErrCode) : (s.raise c).thr8 = s.thr8 := rfl
@[simp] theorem State.raise_thr16 (c : ErrCode) : (s.raise c).thr16 = s.thr16 := rfl
@[simp] theorem State.raise_pres (c : ErrCode) : (s.raise c).pres = s.pres := rfl
@[simp] theorem State.raise_buf (c : ErrCode) : (s.raise c).buf = s.buf := rfl
@[simp] theorem State.raise_resets (c : ErrCode) : (s.raise c).resets = s.resets := rfl
@[simp] theorem State.raise_script (c : ErrCode) : (s.raise c).script = s.script := rfl
@[simp] theorem State.raise_replies (c : ErrCode) : (s.raise c).replies = s.replies := rfl

/-! ### `State.constructRq` -/

@[simp] theorem State.constructRq_nslot : s.constructRq.nslot = s.nslot := rfl
@[simp] theorem State.constructRq_slotb : s.constructRq.slotb = s.slotb := rfl
@[simp] theorem State.constructRq_cmd : s.constructRq.cmd = s.cmd := rfl
@[simp] theorem State.constructRq_err : s.constructRq.err = s.err := rfl
@[simp] theorem State.constructRq_errf : s.constructRq.errf = s.errf := rfl
@[simp] theorem State.constructRq_rqRdy : s.constructRq.rqRdy = true := rfl
@[simp] theorem State.constructRq_opa : s.constructRq.opa = s.opa := rfl
@[simp] theorem State.constructRq_opb : s.constructRq.opb = s.opb := rfl
@[simp] theorem State.constructRq_res : s.constructRq.res = s.res := rfl
@[simp] theorem State.constructRq_k : s.constructRq.k = s.k := rfl
@[simp] theorem State.constructRq_n : s.constructRq.n = s.n := rfl
@[simp] theorem State.constructRq_blen : s.constructRq.blen = s.blen := rfl
@[simp] theorem State.constructRq_redun : s.constructRq.redun = s.redun := rfl
@[simp] theorem State.constructRq_loss : s.constructRq.loss = s.loss := rfl
@[simp] theorem State.constructRq_mode : s.constructRq.mode = s.mode := rfl
@[simp] theorem State.constructRq_thr8 : s.constructRq.thr8 = s.thr8 := rfl
@[simp] theorem State.constructRq_thr16 : s.constructRq.thr16 = s.thr16 := rfl
@[simp] theorem State.constructRq_pres : s.constructRq.pres = s.pres := rfl
@[simp] theorem State.constructRq_buf : s.constructRq.buf = s.buf := rfl
@[simp] theorem State.constructRq_resets : s.constructRq.resets = s.resets := rfl
@[simp] theorem State.constructRq_script : s.constructRq.script = s.script := rfl
@[simp] theorem State.constructRq_replies : s.constructRq.replies = s.replies := rfl

/-! ### `State.reply` -/

@[simp] theorem State.reply_nslot (r : Reply) : (s.reply r).nslot = s.nslot := rfl
@[simp] theorem State.reply_slotb (r : Reply) : (s.reply r).slotb = s.slotb := rfl
@[simp] theorem State.reply_cmd (r : Reply) : (s.reply r).cmd = s.cmd := rfl
@[simp] theorem State.reply_err (r : Reply) : (s.reply r).err = s.err := rfl
@[simp] theorem State.reply_errf (r : Reply) : (s.reply r).errf = s.errf := rfl
@[simp] theorem State.reply_rqRdy (r : Reply) : (s.reply r).rqRdy = s.rqRdy := rfl
@[simp] theorem State.reply_opa (r : Reply) : (s.reply r).opa = s.opa := rfl
@[simp] theorem State.reply_opb (r : Reply) : (s.reply r).opb = s.opb := rfl
@[simp] theorem State.reply_res (r : Reply) : (s.reply r).res = s.res := rfl
@[simp] theorem State.reply_k (r : Reply) : (s.reply r).k = s.k := rfl
@[simp] theorem State.reply_n (r : Reply) : (s.reply r).n = s.n := rfl
@[simp] theorem State.reply_blen (r : Reply) : (s.reply r).blen = s.blen := rfl
@[simp] theorem State.reply_redun (r : Reply) : (s.reply r).redun = s.redun := rfl
@[simp] theorem State.reply_loss (r : Reply) : (s.reply r).loss = s.loss := rfl
@[simp] theorem State.reply_mode (r : Reply) : (s.reply r).mode = s.mode := rfl
@[simp] theorem State.reply_thr8 (r : Reply) : (s.reply r).thr8 = s.thr8 := rfl
@[simp] theorem State.reply_thr16 (r : Reply) : (s.reply r).thr16 = s.thr16 := rfl
@[simp] theorem State.reply_pres (r : Reply) : (s.reply r).pres = s.pres := rfl
@[simp] theorem State.reply_buf (r : Reply) : (s.reply r).buf = s.buf := rfl
@[simp] theorem State.reply_resets (r : Reply) : (s.reply r).resets = s.resets := rfl
@[simp] theorem State.reply_script (r : Reply) : (s.reply r).script = s.script := rfl
@[simp] theorem State.reply_replies (r : Reply) : (s.reply r).replies = s.replies ++ [r] := rfl

/-! ### Several blocks -/

@[simp] theorem State.setBlks_nslot (bs : List (Nat × List Byte)) : (s.setBlks bs).nslot = s.nslot := by
  induction bs generalizing s with
  | nil => rfl
  | cons b bs ih => exact ih (s.setBlk b.1 b.2)

@[simp] theorem State.setBlks_slotb (bs : List (Nat × List Byte)) : (s.setBlks bs).slotb = s.slotb := by
  induction bs generalizing s with
  | nil => rfl
  | cons b bs ih => exact ih (s.setBlk b.1 b.2)

@[simp] theorem State.setBlks_cmd (bs : List (Nat × List Byte)) : (s.setBlks bs).cmd = s.cmd := by
  induction bs generalizing s with
  | nil => rfl
  | cons b bs ih => exact ih (s.setBlk b.1 b.2)

@[simp] theorem State.setBlks_err (bs : List (Nat × List Byte)) : (s.setBlks bs).err = s.err := by
  induction bs generalizing s with
  | nil => rfl
  | cons b bs ih => exact ih (s.setBlk b.1 b.2)

@[simp] theorem State.setBlks_errf (bs : List (Nat × List Byte)) : (s.setBlks bs).errf = s.errf := by
  induction bs generalizing s with
  | nil => rfl
  | cons b bs ih => exact ih (s.setBlk b.1 b.2)

@[simp] theorem State.setBlks_rqRdy (bs : List (Nat × List Byte)) : (s.setBlks bs).rqRdy = s.rqRdy := by
  induction bs generalizing s with
  | nil => rfl
  | cons b bs ih => exact ih (s.setBlk b.1 b.2)

@[simp] theorem State.setBlks_opa (bs : List (Nat × List Byte)) : (s.setBlks bs).opa = s.opa := by
  induction bs generalizing s with
  | nil => rfl
  | cons b bs ih => exact ih (s.setBlk b.1 b.2)

@[simp] theorem State.setBlks_opb (bs : List (Nat × List Byte)) : (s.setBlks bs).opb = s.opb := by
  induction bs generalizing s with
  | nil => rfl
  | cons b bs ih => exact ih (s.setBlk b.1 b.2)

@[simp] theorem State.setBlks_res (bs : List (Nat × List Byte)) : (s.setBlks bs).res = s.res := by
  induction bs generalizing s with
  | nil => rfl
  | cons b bs ih => exact ih (s.setBlk b.1 b.2)

@[simp] theorem State.setBlks_k (bs : List (Nat × List Byte)) : (s.setBlks bs).k = s.k := by
  induction bs generalizing s with
  | nil => rfl
  | cons b bs ih => exact ih (s.setBlk b.1 b.2)

@[simp] theorem State.setBlks_n (bs : List (Nat × List Byte)) : (s.setBlks bs).n = s.n := by
  induction bs generalizing s with
  | nil => rfl
  | cons b bs ih => exact ih (s.setBlk b.1 b.2)

@[simp] theorem State.setBlks_blen (bs : List (Nat × List Byte)) : (s.setBlks bs).blen = s.blen := by
  induction bs generalizing s with
  | nil => rfl
  | cons b bs ih => exact ih (s.setBlk b.1 b.2)

@[simp] theorem State.setBlks_redun (bs : List (Nat × List Byte)) : (s.setBlks bs).redun = s.redun := by
  induction bs generalizing s with
  | nil => rfl
  | cons b bs ih => exact ih (s.setBlk b.1 b.2)

@[simp] theorem State.setBlks_loss (bs : List (Nat × List Byte)) : (s.setBlks bs).loss = s.loss := by
  induction bs generalizing s with
  | nil => rfl
  | cons b bs ih => exact ih (s.setBlk b.1 b.2)

@[simp] theorem State.setBlks_mode (bs : List (Nat × List Byte)) : (s.setBlks bs).mode = s.mode := by
  induction bs generalizing s with
  | nil => rfl
  | cons b bs ih => exact ih (s.setBlk b.1 b.2)

@[simp] theorem State.setBlks_thr8 (bs : List (Nat × List Byte)) : (s.setBlks bs).thr8 = s.thr8 := by
  induction bs generalizing s with
  | nil => rfl
  | cons b bs ih => exact ih (s.setBlk b.1 b.2)

@[simp] theorem State.setBlks_thr16 (bs : List (Nat × List Byte)) : (s.setBlks bs).thr16 = s.thr16 := by
  induction bs generalizing s with
  | nil => rfl
  | cons b bs ih => exact ih (s.setBlk b.1 b.2)

@[simp] theorem State.setBlks_pres (bs : List (Nat × List Byte)) : (s.setBlks bs).pres = s.pres := by
  induction bs generalizing s with
  | nil => rfl
  | cons b bs ih => exact ih (s.setBlk b.1 b.2)

@[simp] theorem State.setBlks_resets (bs : List (Nat × List Byte)) : (s.setBlks bs).resets = s.resets := by
  induction bs generalizing s with
  | nil => rfl
  | cons b bs ih => exact ih (s.setBlk b.1 b.2)

@[simp] theorem State.setBlks_script (bs : List (Nat × List Byte)) : (s.setBlks bs).script = s.script := by
  induction bs generalizing s with
  | nil => rfl
  | cons b bs ih => exact ih (s.setBlk b.1 b.2)

@[simp] theorem State.setBlks_replies (bs : List (Nat × List Byte)) : (s.setBlks bs).replies = s.replies := by
  induction bs generalizing s with
  | nil => rfl
  | cons b bs ih => exact ih (s.setBlk b.1 b.2)

@[simp] theorem State.setSymbols_nslot (F : Gf) (bs : List (Nat × Vec)) : (s.setSymbols F bs).nslot = s.nslot :=
  State.setBlks_nslot s _

@[simp] theorem State.setSymbols_slotb (F : Gf) (bs : List (Nat × Vec)) : (s.setSymbols F bs).slotb = s.slotb :=
  State.setBlks_slotb s _

@[simp] theorem State.setSymbols_cmd (F : Gf) (bs : List (Nat × Vec)) : (s.setSymbols F bs).cmd = s.cmd :=
  State.setBlks_cmd s _

@[simp] theorem State.setSymbols_err (F : Gf) (bs : List (Nat × Vec)) : (s.setSymbols F bs).err = s.err :=
  State.setBlks_err s _

@[simp] theorem State.setSymbols_errf (F : Gf) (bs : List (Nat × Vec)) : (s.setSymbols F bs).errf = s.errf :=
  State.setBlks_errf s _

@[simp] theorem State.setSymbols_rqRdy (F : Gf) (bs : List (Nat × Vec)) : (s.setSymbols F bs).rqRdy = s.rqRdy :=
  State.setBlks_rqRdy s _

@[simp] theorem State.setSymbols_opa (F : Gf) (bs : List (Nat × Vec)) : (s.setSymbols F bs).opa = s.opa :=
  State.setBlks_opa s _

@[simp] theorem State.setSymbols_opb (F : Gf) (bs : List (Nat × Vec)) : (s.setSymbols F bs).opb = s.opb :=
  State.setBlks_opb s _

@[simp] theorem State.setSymbols_res (F : Gf) (bs : List (Nat × Vec)) : (s.setSymbols F bs).res = s.res :=
  State.setBlks_res s _

@[simp] theorem State.setSymbols_k (F : Gf) (bs : List (Nat × Vec)) : (s.setSymbols F bs).k = s.k :=
  State.setBlks_k s _

@[simp] theorem State.setSymbols_n (F : Gf) (bs : List (Nat × Vec)) : (s.setSymbols F bs).n = s.n :=
  State.setBlks_n s _

@[simp] theorem State.setSymbols_blen (F : Gf) (bs : List (Nat × Vec)) : (s.setSymbols F bs).blen = s.blen :=
  State.setBlks_blen s _

@[simp] theorem State.setSymbols_redun (F : Gf) (bs : List (Nat × Vec)) : (s.setSymbols F bs).redun = s.redun :=
  State.setBlks_redun s _

@[simp] theorem State.setSymbols_loss (F : Gf) (bs : List (Nat × Vec)) : (s.setSymbols F bs).loss = s.loss :=
  State.setBlks_loss s _

@[simp] theorem State.setSymbols_mode (F : Gf) (bs : List (Nat × Vec)) : (s.setSymbols F bs).mode = s.mode :=
  State.setBlks_mode s _

@[simp] theorem State.setSymbols_thr8 (F : Gf) (bs : List (Nat × Vec)) : (s.setSymbols F bs).thr8 = s.thr8 :=
  State.setBlks_thr8 s _

@[simp] theorem State.setSymbols_thr16 (F : Gf) (bs : List (Nat × Vec)) : (s.setSymbols F bs).thr16 = s.thr16 :=
  State.setBlks_thr16 s _

@[simp] theorem State.setSymbols_pres (F : Gf) (bs : List (Nat × Vec)) : (s.setSymbols F bs).pres = s.pres :=
  State.setBlks_pres s _

@[simp] theorem State.setSymbols_resets (F : Gf) (bs : List (Nat × Vec)) : (s.setSymbols F bs).resets = s.resets :=
  State.setBlks_resets s _

@[simp] theorem State.setSymbols_script (F : Gf) (bs : List (Nat × Vec)) : (s.setSymbols F bs).script = s.script :=
  State.setBlks_script s _

@[simp] theorem State.setSymbols_replies (F : Gf) (bs : List (Nat × Vec)) : (s.setSymbols F bs).replies = s.replies :=
  State.setBlks_replies s _

/-! ### Operands and derived values -/

@[simp] theorem State.constructRq_kVal : s.constructRq.kVal = s.kVal := rfl
@[simp] theorem State.constructRq_nVal : s.constructRq.nVal = s.nVal := rfl
@[simp] theorem State.constructRq_blenVal : s.constructRq.blenVal = s.blenVal := rfl
@[simp] theorem State.constructRq_redunVal : s.constructRq.redunVal = s.redunVal := rfl
@[simp] theorem State.constructRq_byteAt (a : Nat) : s.constructRq.byteAt a = s.byteAt a := rfl
@[simp] theorem State.constructRq_presAt (i : Nat) : s.constructRq.presAt i = s.presAt i := rfl
@[simp] theorem State.constructRq_presentBelow (m : Nat) : s.constructRq.presentBelow m = s.presentBelow m := rfl
@[simp] theorem State.constructRq_erased (m : Nat) : s.constructRq.erased m = s.erased m := rfl
@[simp] theorem State.constructRq_symbols (F : Gf) (i : Nat) : s.constructRq.symbols F i = s.symbols F i := rfl
@[simp] theorem State.constructRq_constructRq : s.constructRq.constructRq = s.constructRq := rfl
@[simp] theorem State.publish_byteAt (m a : Nat) : (s.publish m).byteAt a = s.byteAt a := rfl
@[simp] theorem State.done_byteAt (a : Nat) : s.done.byteAt a = s.byteAt a := rfl
@[simp] theorem State.setMode_byteAt (v a : Nat) : (s.setMode v).byteAt a = s.byteAt a := rfl
@[simp] theorem State.raise_byteAt (c : ErrCode) (a : Nat) : (s.raise c).byteAt a = s.byteAt a := rfl

/-! ### The status word -/

/-- Bit by bit, `STATUS` is its three flags (R29). -/
theorem State.statusWord_getLsbD (s : State) (b : Nat) :
    s.statusWord.getLsbD b = (decide (b = 0) || decide (b = 1) && s.rqRdy || decide (b = 2) && s.errf) := by
  obtain hb | hb := Nat.lt_or_ge b 32
  · unfold statusWord
    interval_cases b <;> cases s.rqRdy <;> cases s.errf <;> rfl
  · rw [BitVec.getLsbD_of_ge _ _ hb]
    have h0 : b ≠ 0 := by omega
    have h1 : b ≠ 1 := by omega
    have h2 : b ≠ 2 := by omega
    simp [h0, h1, h2]

end Sys2Proof.Machine
end

