-- ==== Sys2Proof/Laws/Memory.lean ====
section
/-! SUPPORT. What the memory operations do: a read after a write, the canonical form, and the blocks of the
buffer. -/

namespace Sys2Proof.Machine

/-! ### Reads after writes -/

theorem Memory.find_store (m : Memory) (a c : Nat) (v : Byte) :
    Memory.find (Memory.store m a v) c = if c = a then some v else Memory.find m c := by
  induction m with
  | nil => simp [Memory.store, Memory.find, eq_comm]
  | cons x m ih =>
    obtain ⟨b, w⟩ := x
    simp only [Memory.store]
    split
    · simp [Memory.find, eq_comm (a := a)]
    · split
      · subst a
        simp only [Memory.find, eq_comm (a := c)]
        split <;> rfl
      · simp only [Memory.find, ih]
        by_cases hb : b = c
        · subst hb
          simp [show b ≠ a by omega]
        · simp [hb]

theorem Memory.find_storeBytes (m : Memory) (a c : Nat) (vs : List Byte) :
    Memory.find (Memory.storeBytes m a vs) c =
      if a ≤ c ∧ c < a + vs.length then some (vs.getD (c - a) 0) else Memory.find m c := by
  induction vs generalizing m a with
  | nil => simp [Memory.storeBytes]
  | cons v vs ih =>
    simp only [Memory.storeBytes, ih, Memory.find_store, List.length_cons]
    by_cases h : c = a
    · subst h; simp
    · by_cases h1 : a + 1 ≤ c ∧ c < a + 1 + vs.length
      · have : c - a = (c - (a + 1)) + 1 := by omega
        rw [if_pos h1, if_pos (by omega), this]; simp
      · rw [if_neg h1, if_neg h, if_neg (by omega)]

/-! ### The canonical form -/

theorem Memory.mem_store {m : Memory} {a : Nat} {v : Byte} {x : Host.Cell}
    (h : x ∈ Memory.store m a v) : x = (a, v) ∨ x ∈ m := by
  induction m with
  | nil => simpa [Memory.store] using h
  | cons y m ih =>
    obtain ⟨b, w⟩ := y
    simp only [Memory.store] at h
    split at h
    · simpa using h
    · split at h
      · rcases List.mem_cons.1 h with h | h
        · exact .inl h
        · exact .inr (List.mem_cons_of_mem _ h)
      · rcases List.mem_cons.1 h with h | h
        · exact .inr (by simp [h])
        · rcases ih h with h | h
          · exact .inl h
          · exact .inr (List.mem_cons_of_mem _ h)

theorem Memory.mem_storeBytes {m : Memory} {a : Nat} {vs : List Byte} {x : Host.Cell}
    (h : x ∈ Memory.storeBytes m a vs) : (a ≤ x.1 ∧ x.1 < a + vs.length) ∨ x ∈ m := by
  induction vs generalizing m a with
  | nil => exact .inr h
  | cons v vs ih =>
    rcases ih h with h | h
    · exact .inl ⟨by omega, by simp only [List.length_cons]; omega⟩
    · rcases Memory.mem_store h with h | h
      · exact .inl (by simp [h])
      · exact .inr h

theorem Memory.wf_iff (m : Memory) : Memory.wf m = true ↔ m.Pairwise (fun x y => x.1 < y.1) := by
  simp [Memory.wf]

theorem Memory.wf_nil : Memory.wf [] = true := by simp [Memory.wf]

/-- A byte write keeps the canonical form. -/
theorem Memory.wf_store {m : Memory} (a : Nat) (v : Byte) (h : Memory.wf m = true) :
    Memory.wf (Memory.store m a v) = true := by
  rw [Memory.wf_iff] at h ⊢
  induction m with
  | nil => simp [Memory.store]
  | cons x m ih =>
    obtain ⟨b, w⟩ := x
    have hb := List.pairwise_cons.1 h
    simp only [Memory.store]
    split
    · rename_i hab
      refine List.pairwise_cons.2 ⟨fun y hy => ?_, h⟩
      rcases List.mem_cons.1 hy with hy | hy
      · simpa [hy] using hab
      · have := hb.1 y hy; simp only at this ⊢; omega
    · split
      · rename_i hab
        subst hab
        exact List.pairwise_cons.2 ⟨fun y hy => hb.1 y hy, hb.2⟩
      · refine List.pairwise_cons.2 ⟨fun y hy => ?_, ih hb.2⟩
        rcases Memory.mem_store hy with hy | hy
        · simp only [hy]; omega
        · exact hb.1 y hy

/-- A block write keeps the canonical form. -/
theorem Memory.wf_storeBytes {m : Memory} (a : Nat) (vs : List Byte) (h : Memory.wf m = true) :
    Memory.wf (Memory.storeBytes m a vs) = true := by
  induction vs generalizing m a with
  | nil => exact h
  | cons v vs ih => exact ih _ (Memory.wf_store a v h)

/-! ### Bytes and blocks of a state -/

theorem State.byteAt_setByte (s : State) (a c : Nat) (v : Byte) :
    (s.setByte a v).byteAt c = if c = a then v else s.byteAt c := by
  unfold State.byteAt State.setByte
  rw [Memory.find_store]
  by_cases h : c = a <;> simp [h]

theorem State.byteAt_memWrite (s : State) (a n c : Nat) (v : List Byte) :
    (s.memWrite a n v).byteAt c = if a ≤ c ∧ c < a + n then v.getD (c - a) 0 else s.byteAt c := by
  unfold State.byteAt State.memWrite
  simp only [Memory.find_storeBytes, List.length_map, List.length_range]
  by_cases h : a ≤ c ∧ c < a + n
  · have h1 : c - a < n := by omega
    rw [if_pos h, if_pos h]
    simp [List.getD_eq_getElem?_getD, h1]
  · simp [h]

theorem State.byteAt_setBlk (s : State) (i c : Nat) (v : List Byte) :
    (s.setBlk i v).byteAt c =
      if s.slotAddr i ≤ c ∧ c < s.slotAddr i + s.blenVal then v.getD (c - s.slotAddr i) 0
      else s.byteAt c :=
  State.byteAt_memWrite s _ _ c v

/-- A byte outside every block written is unchanged. -/
theorem State.byteAt_setBlks_of_outside (s : State) (bs : List (Nat × List Byte)) (c : Nat)
    (h : ∀ b ∈ bs, ¬(s.slotAddr b.1 ≤ c ∧ c < s.slotAddr b.1 + s.blenVal)) :
    (s.setBlks bs).byteAt c = s.byteAt c := by
  induction bs generalizing s with
  | nil => rfl
  | cons b bs ih =>
    have h0 := h b (by simp)
    have := ih (s.setBlk b.1 b.2) (fun x hx => h x (List.mem_cons_of_mem _ hx))
    rw [State.byteAt_setBlk, if_neg h0] at this
    exact this

/-- A byte of one of the blocks written, when no two go to the same slot and a block fits its slot. -/
theorem State.byteAt_setBlks_of_mem (s : State) (bs : List (Nat × List Byte)) (b : Nat × List Byte)
    (t : Nat) (hb : b ∈ bs) (hnd : (bs.map Prod.fst).Nodup) (hfit : s.blenVal ≤ s.slotb)
    (ht : t < s.blenVal) :
    (s.setBlks bs).byteAt (s.slotAddr b.1 + t) = b.2.getD t 0 := by
  induction bs generalizing s with
  | nil => simp at hb
  | cons x bs ih =>
    have hnd' := List.nodup_cons.1 (by simpa using hnd : (x.1 :: bs.map Prod.fst).Nodup)
    rcases List.mem_cons.1 hb with hb | hb
    · subst hb
      have := State.byteAt_setBlks_of_outside (s.setBlk b.1 b.2) bs (s.slotAddr b.1 + t) (by
        intro y hy hin
        have hne : y.1 ≠ b.1 := fun e => hnd'.1 (e ▸ List.mem_map_of_mem (f := Prod.fst) hy)
        have h1 : y.1 * s.slotb ≤ b.1 * s.slotb + t := hin.1
        have h2 : b.1 * s.slotb + t < y.1 * s.slotb + s.blenVal := hin.2
        rcases Nat.lt_or_gt_of_ne hne with hlt | hlt
        · have : (y.1 + 1) * s.slotb ≤ b.1 * s.slotb := Nat.mul_le_mul_right _ hlt
          rw [Nat.add_mul] at this
          omega
        · have : (b.1 + 1) * s.slotb ≤ y.1 * s.slotb := Nat.mul_le_mul_right _ hlt
          rw [Nat.add_mul] at this
          omega)
      rw [State.byteAt_setBlk, if_pos (by omega)] at this
      rw [show t = s.slotAddr b.1 + t - s.slotAddr b.1 by omega]
      simpa [State.setBlks] using this
    · exact ih (s.setBlk x.1 x.2) hb hnd'.2 hfit ht

/-- Whatever is written to blocks, the canonical form stays. -/
theorem State.wf_setBlks (s : State) (bs : List (Nat × List Byte)) (h : Memory.wf s.buf = true) :
    Memory.wf (s.setBlks bs).buf = true := by
  induction bs generalizing s with
  | nil => exact h
  | cons b bs ih => exact ih (s.setBlk b.1 b.2) (Memory.wf_storeBytes _ _ h)

/-- A cell of the buffer after blocks were written was there before or lies in one of the blocks. -/
theorem State.mem_setBlks_buf (s : State) (bs : List (Nat × List Byte)) (x : Host.Cell)
    (h : x ∈ (s.setBlks bs).buf) :
    x ∈ s.buf ∨ ∃ b ∈ bs, s.slotAddr b.1 ≤ x.1 ∧ x.1 < s.slotAddr b.1 + s.blenVal := by
  induction bs generalizing s with
  | nil => exact .inl h
  | cons b bs ih =>
    rcases ih (s.setBlk b.1 b.2) h with h | ⟨y, hy, hin⟩
    · rcases Memory.mem_storeBytes h with h | h
      · refine .inr ⟨b, by simp, ?_⟩
        simpa [State.blenVal, unsignedWord] using h
      · exact .inl h
    · exact .inr ⟨y, List.mem_cons_of_mem _ hy, hin⟩

end Sys2Proof.Machine
end

