-- ==== Sys2Proof/Laws/Ops.lean ====
section
/-! SUPPORT. What the shared operations do: the two ways a command ends, the presence bitmap, the contract of a
decode, and the blocks of an encode or a decode. -/

namespace Sys2Proof.Machine

/-! ### The two ways a command ends -/

/-- All that `conclude` can answer. -/
theorem conclude_cases {s t : State} {r : Except ErrCode State} (h : conclude s r = .next t) :
    (∃ u, r = .ok u ∧ t = u.done) ∨ ∃ code, r = .error code ∧ t = s.raise code := by
  cases r with
  | ok u => exact .inl ⟨u, rfl, by simpa [conclude, eq_comm] using h⟩
  | error code => exact .inr ⟨code, rfl, by simpa [conclude, eq_comm] using h⟩

theorem conclude_ok (s u : State) : conclude s (.ok u) = .next u.done := rfl

theorem conclude_error (s : State) (code : ErrCode) : conclude s (.error code) = .next (s.raise code) := rfl

/-- A command always ends. -/
theorem conclude_next (s : State) (r : Except ErrCode State) : ∃ t, conclude s r = .next t := by
  cases r with
  | ok u => exact ⟨_, rfl⟩
  | error code => exact ⟨_, rfl⟩

/-! ### The claims' vocabulary and the model's operations -/

theorem State.raise_eq_failed (s : State) (code : ErrCode) : s.raise code = s.failed code := rfl
theorem State.constructRq_eq_rqReady (s : State) : s.constructRq = s.rqReady := rfl
theorem State.setRes_done (s : State) (v : Nat) : (s.setRes v).done = s.answered v := rfl

/-- A successful coding command leaves `coded`. -/
theorem State.setBlks_publish_done (s : State) (bs : List (Nat × List Byte)) (n : Nat) :
    ((s.setBlks bs).publish n).done = s.coded n (s.setBlks bs).buf := by
  have h : ∀ (bs : List (Nat × List Byte)) (s : State), s.setBlks bs = s.withBuf (s.setBlks bs).buf := by
    intro bs
    induction bs with
    | nil => intro s; rfl
    | cons b bs ih =>
      intro s
      have := ih (s.setBlk b.1 b.2)
      exact this
  rw [h bs s]
  rfl

theorem State.publish_done (s : State) (n : Nat) : (s.publish n).done = s.coded n s.buf := rfl

theorem State.setSymbols_publish_done (s : State) (F : Gf) (bs : List (Nat × Vec)) (n : Nat) :
    ((s.setSymbols F bs).publish n).done = s.coded n (s.setSymbols F bs).buf :=
  s.setBlks_publish_done _ n

@[simp] theorem State.withBuf_byteAt_self (s : State) (a : Nat) : (s.withBuf s.buf).byteAt a = s.byteAt a := rfl

theorem State.coded_byteAt (s : State) (n : Nat) (m : Memory) (a : Nat) :
    (s.coded n m).byteAt a = (s.withBuf m).byteAt a := rfl

theorem State.setBlks_byteAt (s : State) (bs : List (Nat × List Byte)) (a : Nat) :
    (s.withBuf (s.setBlks bs).buf).byteAt a = (s.setBlks bs).byteAt a := by
  unfold State.byteAt State.withBuf
  rw [State.setBlks_resets]

/-! ### The presence bitmap -/

theorem State.presAt_iff (s : State) (i : Nat) : s.presAt i = true ↔ i ∈ s.pres := by simp [State.presAt]

/-- The slots present after a write of a presence word. -/
theorem State.mem_setPresWord (s : State) (w : Nat) (v : Word) (i : Nat) :
    i ∈ (s.setPresWord w v).pres ↔
      if 32 * w ≤ i ∧ i < 32 * w + 32 then v.getLsbD (i - 32 * w) = true ∧ i < s.nslot else i ∈ s.pres := by
  unfold State.setPresWord
  simp only [List.mem_append, List.mem_filter, List.mem_map, List.mem_range, decide_eq_true_eq,
    Bool.and_eq_true]
  constructor
  · rintro (⟨h1, h2⟩ | ⟨b, ⟨hb, hv, hn⟩, rfl⟩ | ⟨h1, h2⟩)
    · rw [if_neg (by omega)]; exact h1
    · rw [if_pos (by omega)]
      exact ⟨by rw [Nat.add_sub_cancel_left]; exact hv, hn⟩
    · rw [if_neg (by omega)]; exact h1
  · intro h
    split at h
    · rename_i hr
      exact .inr (.inl ⟨i - 32 * w, ⟨by omega, h.1, by omega⟩, by omega⟩)
    · rename_i hr
      by_cases hlt : i < 32 * w
      · exact .inl ⟨h, hlt⟩
      · exact .inr (.inr ⟨h, by omega⟩)

/-- A write of a presence word keeps the bitmap's canonical form. -/
theorem State.sorted_setPresWord (s : State) (w : Nat) (v : Word) (h : s.pres.Pairwise (· < ·)) :
    (s.setPresWord w v).pres.Pairwise (· < ·) := by
  unfold State.setPresWord
  refine List.pairwise_append.2 ⟨h.filter _, List.pairwise_append.2 ⟨?_, h.filter _, ?_⟩, ?_⟩
  · refine List.Pairwise.map _ (fun a b (hab : a < b) => Nat.add_lt_add_left hab _) ?_
    exact List.pairwise_lt_range.filter _
  · intro a ha b hb
    simp only [List.mem_map, List.mem_filter, List.mem_range, decide_eq_true_eq] at ha hb
    obtain ⟨c, ⟨hc, -⟩, rfl⟩ := ha
    omega
  · intro a ha b hb
    simp only [List.mem_append, List.mem_map, List.mem_filter, List.mem_range, decide_eq_true_eq] at ha hb
    rcases hb with ⟨c, -, rfl⟩ | hb
    · omega
    · omega

/-! ### Erased and present slots -/

theorem State.mem_erased (s : State) (k i : Nat) : i ∈ s.erased k ↔ i < k ∧ s.presAt i = false := by
  simp [State.erased]

theorem State.nodup_erased (s : State) (k : Nat) : (s.erased k).Nodup := List.nodup_range.filter _

theorem State.erased_eq_nil (s : State) (k : Nat) : s.erased k = [] ↔ ∀ i, i < k → s.presAt i = true := by
  unfold State.erased
  simp

theorem State.mem_presentParity (s : State) (k j : Nat) :
    j ∈ s.presentParity k ↔ j < s.nVal - k ∧ s.presAt (k + j) = true := by
  simp [State.presentParity]

theorem State.sorted_presentParity (s : State) (k : Nat) : (s.presentParity k).Pairwise (· < ·) :=
  List.pairwise_lt_range.filter _

/-- Enough entries present means at least as many parity blocks present as source blocks erased (R163). -/
theorem State.erased_le_presentParity (s : State) {k : Nat} (hkn : k ≤ s.nVal)
    (h : k ≤ s.presentBelow s.nVal) : (s.erased k).length ≤ (s.presentParity k).length := by
  have hsplit : List.range s.nVal = List.range k ++ (List.range (s.nVal - k)).map (k + ·) := by
    rw [← List.range_add, Nat.add_sub_cancel' hkn]
  have h1 : s.presentBelow s.nVal
      = ((List.range k).filter (fun i => s.presAt i)).length + (s.presentParity k).length := by
    unfold State.presentBelow State.presentParity
    rw [hsplit, List.filter_append, List.length_append, List.filter_map, List.length_map]
    rfl
  have h2 : ((List.range k).filter (fun i => s.presAt i)).length + (s.erased k).length = k := by
    unfold State.erased
    have := List.length_eq_length_filter_add (l := List.range k) (fun i => s.presAt i)
    simpa using this.symm
  omega

/-! ### The contract of a decode -/

/-- All that the contract checks of R161 can answer. -/
theorem decodeContract_cases (s : State) :
    (decodeContract s = .ok .direct ∧ (s.kVal = 0 ∨
      (1 ≤ s.kVal ∧ s.kVal ≤ s.nVal ∧ s.kVal ≤ s.presentBelow s.nVal ∧ s.erased s.kVal = []))) ∨
    (decodeContract s = .error .insufficientBlocks ∧ 1 ≤ s.kVal ∧
      (s.nVal = 0 ∨ (1 ≤ s.presentBelow s.nVal ∧ (s.nVal < s.kVal ∨ s.presentBelow s.nVal < s.kVal)))) ∨
    (decodeContract s = .error .decodingFailed ∧ 1 ≤ s.kVal ∧ 1 ≤ s.nVal ∧ s.presentBelow s.nVal = 0) ∨
    (decodeContract s = .ok .general ∧ s.GeneralPath) := by
  unfold decodeContract
  split
  · exact .inl ⟨rfl, .inl ‹_›⟩
  · split
    · exact .inr (.inl ⟨rfl, by omega, .inl ‹_›⟩)
    · split
      · exact .inr (.inr (.inl ⟨rfl, by omega, by omega, ‹_›⟩))
      · split
        · exact .inr (.inl ⟨rfl, by omega, .inr ⟨by omega, by omega⟩⟩)
        · split
          · exact .inl ⟨rfl, .inr ⟨by omega, by omega, by omega, ‹_›⟩⟩
          · rename_i h
            refine .inr (.inr (.inr ⟨rfl, ⟨by omega, by omega, by omega, ?_⟩⟩))
            rw [State.erased_eq_nil] at h
            by_contra hc
            exact h (fun i hi => by
              by_contra hp
              exact hc ⟨i, hi, by simpa using hp⟩)

/-! ### Blocks written by a coder -/

/-- What is read at an address after blocks of symbols have been written to different slots. -/
theorem State.byteAt_setSymbols_of_mem (s : State) (F : Gf) (bs : List (Nat × Vec)) (b : Nat × Vec) (o : Nat)
    (hb : b ∈ bs) (hnd : (bs.map Prod.fst).Nodup) (hfit : s.blenVal ≤ s.slotb) (ho : o < s.blenVal) :
    (s.setSymbols F bs).byteAt (s.slotAddr b.1 + o) = (bytesOf F b.2).getD o 0 := by
  unfold State.setSymbols
  exact s.byteAt_setBlks_of_mem _ (b.1, bytesOf F b.2) o
    (List.mem_map_of_mem (f := fun b => (b.1, bytesOf F b.2)) hb) (by simpa [Function.comp_def] using hnd) hfit ho

theorem State.byteAt_setSymbols_of_outside (s : State) (F : Gf) (bs : List (Nat × Vec)) (a : Nat)
    (h : ∀ b ∈ bs, ¬s.inBlock b.1 a) : (s.setSymbols F bs).byteAt a = s.byteAt a := by
  refine s.byteAt_setBlks_of_outside _ a ?_
  intro b hb
  obtain ⟨x, hx, rfl⟩ := List.mem_map.1 hb
  exact h x hx

end Sys2Proof.Machine
end

