-- ==== Sys2Proof/Laws/Galois.lean ====
section
/-! SUPPORT. The field unit: multiplication is linear and is multiplication by powers of x, the powers of x
run through all non-zero elements, hence the tables R112 exist and `gfMul`, `gfInv`, `gfDiv` obey the table
formulas R116 to R118. -/

namespace Sys2Proof.Machine

/-- What the proofs use of a field's polynomial: its degree is `bits`, and x has order N (R110, R111), said
by powers of x, with the prime factors of N. -/
structure Gf.Good (F : Gf) : Prop where
  bitsPos : 2 ≤ F.bits
  polyLow : 2 ^ F.bits ≤ F.poly
  polyHigh : F.poly < 2 ^ (F.bits + 1)
  exists_factors : ∃ ps : List Nat, (∀ p ∈ ps, gfExp F (F.order / p) ≠ 1) ∧
    ∀ p, p.Prime → p ∣ F.order → p ∈ ps
  expOrder : gfExp F F.order = 1

theorem Gf.size_pos (F : Gf) : 0 < F.size := Nat.two_pow_pos _

/-! ### Multiplication by x is linear -/

theorem shiftRight_xor (a b n : Nat) : (a ^^^ b) >>> n = (a >>> n) ^^^ (b >>> n) := by
  apply Nat.eq_of_testBit_eq
  simp

theorem half_xor (a b : Nat) : (a ^^^ b) / 2 = (a / 2) ^^^ (b / 2) := by
  have := shiftRight_xor a b 1
  simpa [Nat.shiftRight_eq_div_pow] using this

theorem two_mul_xor (a b : Nat) : 2 * (a ^^^ b) = (2 * a) ^^^ (2 * b) := by
  apply Nat.eq_of_testBit_eq
  intro i
  cases i with
  | zero => simp
  | succ i =>
    rw [Nat.testBit_succ, Nat.testBit_succ, half_xor]
    simp

theorem xor_mod_two (a b : Nat) : (a ^^^ b) % 2 = (a % 2) ^^^ (b % 2) := by
  have := Nat.xor_mod_two_pow (a := a) (b := b) (n := 1)
  simpa using this

theorem carry_lt_two {F : Gf} {v : Nat} (h : v < F.size) : (2 * v) >>> F.bits < 2 := by
  rw [Nat.shiftRight_eq_div_pow, Nat.div_lt_iff_lt_mul (Nat.two_pow_pos _)]
  unfold Gf.size at h
  omega

theorem xtime_xor {F : Gf} {a b : Nat} (ha : a < F.size) (hb : b < F.size) :
    xtime F (a ^^^ b) = xtime F a ^^^ xtime F b := by
  unfold xtime
  rw [two_mul_xor, shiftRight_xor]
  have h1 := carry_lt_two ha
  have h2 := carry_lt_two hb
  generalize (2 * a) >>> F.bits = x at *
  generalize (2 * b) >>> F.bits = y at *
  have hx : x = 0 ∨ x = 1 := by omega
  have hy : y = 0 ∨ y = 1 := by omega
  rcases hx with rfl | rfl <;> rcases hy with rfl | rfl <;>
    (apply Nat.eq_of_testBit_eq; intro i; simp) <;>
    (cases Nat.testBit (2 * a) i <;> cases Nat.testBit (2 * b) i <;> cases Nat.testBit F.poly i <;> rfl)

theorem xtime_zero (F : Gf) : xtime F 0 = 0 := by simp [xtime]

theorem xtime_of_small {F : Gf} {v : Nat} (h : 2 * v < F.size) : xtime F v = 2 * v := by
  unfold xtime
  rw [Nat.shiftRight_eq_div_pow, Nat.div_eq_of_lt (by exact h)]
  simp

theorem xtime_lt {F : Gf} (hF : F.Good) {v : Nat} (h : v < F.size) : xtime F v < F.size := by
  by_cases hs : 2 * v < F.size
  · rw [xtime_of_small hs]; exact hs
  · unfold xtime
    have h1 : (2 * v) >>> F.bits = 1 := by
      have := carry_lt_two h
      have h0 : 1 ≤ (2 * v) >>> F.bits := by
        rw [Nat.shiftRight_eq_div_pow, Nat.le_div_iff_mul_le (Nat.two_pow_pos _)]
        unfold Gf.size at hs; omega
      omega
    have hp := hF.polyHigh
    have hl := hF.polyLow
    unfold Gf.size at h hs ⊢
    rw [h1, Nat.mul_one]
    have h2 : 2 * v < 2 ^ (F.bits + 1) := by rw [Nat.pow_succ]; omega
    refine Nat.lt_pow_two_of_testBit _ (fun i hi => ?_)
    rw [Nat.testBit_xor]
    rcases Nat.lt_or_ge F.bits i with hgt | hle
    · have e : 2 ^ (F.bits + 1) ≤ 2 ^ i := Nat.pow_le_pow_right (by omega) hgt
      rw [Nat.testBit_lt_two_pow (Nat.lt_of_lt_of_le h2 e), Nat.testBit_lt_two_pow (Nat.lt_of_lt_of_le hp e)]
      rfl
    · have : i = F.bits := by omega
      subst this
      have t1 : Nat.testBit (2 * v) F.bits = true := by
        rw [Nat.testBit_eq_decide_div_mod_eq, decide_eq_true_eq, ← Nat.shiftRight_eq_div_pow, h1]
      have t2 : Nat.testBit F.poly F.bits = true := by
        rw [Nat.testBit_eq_decide_div_mod_eq, decide_eq_true_eq]
        have : F.poly / 2 ^ F.bits = 1 := by
          apply Nat.div_eq_of_lt_le <;> (rw [Nat.pow_succ] at hp; omega)
        rw [this]
      rw [t1, t2]; rfl

/-- The two lines of the loop R112 as it writes them. -/
theorem xtime_eq_loop {F : Gf} {v : Nat} (h : v < F.size) :
    xtime F v = if (v <<< 1) &&& F.size ≠ 0 then (v <<< 1) ^^^ F.poly else v <<< 1 := by
  have hsh : v <<< 1 = 2 * v := by rw [Nat.shiftLeft_eq]; omega
  have hc := carry_lt_two h
  rw [hsh]
  unfold xtime
  have hbit : ((2 * v) &&& F.size ≠ 0) ↔ (2 * v) >>> F.bits = 1 := by
    unfold Gf.size at h ⊢
    rw [Nat.and_two_pow]
    have : (2 * v).testBit F.bits = decide ((2 * v) >>> F.bits = 1) := by
      rw [Nat.testBit_eq_decide_div_mod_eq, ← Nat.shiftRight_eq_div_pow, Nat.mod_eq_of_lt hc]
    rw [this]
    by_cases h1 : (2 * v) >>> F.bits = 1 <;> simp [h1]
  by_cases h1 : (2 * v) >>> F.bits = 1
  · rw [if_pos (hbit.2 h1), h1, Nat.mul_one]
  · have h0 : (2 * v) >>> F.bits = 0 := by generalize (2 * v) >>> F.bits = x at *; omega
    rw [if_neg (fun e => h1 (hbit.1 e)), h0]
    simp

/-! ### The product is linear in both operands -/

theorem mulBits_lt {F : Gf} (hF : F.Good) {a : Nat} (ha : a < F.size) (n b : Nat) :
    mulBits F a n b < F.size := by
  induction n generalizing b with
  | zero => exact F.size_pos
  | succ n ih =>
    refine Nat.xor_lt_two_pow ?_ (xtime_lt hF (ih _))
    show b % 2 * a < F.size
    rcases Nat.mod_two_eq_zero_or_one b with h | h <;> rw [h]
    · simpa using F.size_pos
    · simpa using ha

theorem mulBits_zero_left (F : Gf) (n b : Nat) : mulBits F 0 n b = 0 := by
  induction n generalizing b with
  | zero => rfl
  | succ n ih => simp [mulBits, ih, xtime_zero]

theorem mulBits_zero_right (F : Gf) (a n : Nat) : mulBits F a n 0 = 0 := by
  induction n with
  | zero => rfl
  | succ n ih => simp [mulBits, ih, xtime_zero]

/-- The zero test of R116 agrees with the product. -/
theorem gfMul_eq_mulBits (F : Gf) (a b : Nat) : gfMul F a b = mulBits F a F.bits b := by
  unfold gfMul
  split
  · rename_i h
    rcases h with rfl | rfl
    · rw [mulBits_zero_left]
    · rw [mulBits_zero_right]
  · rfl

theorem mulBits_xor_right {F : Gf} (hF : F.Good) {a : Nat} (ha : a < F.size) (n b c : Nat) :
    mulBits F a n (b ^^^ c) = mulBits F a n b ^^^ mulBits F a n c := by
  induction n generalizing b c with
  | zero => simp [mulBits]
  | succ n ih =>
    simp only [mulBits]
    rw [half_xor, ih, xtime_xor (mulBits_lt hF ha n _) (mulBits_lt hF ha n _), xor_mod_two]
    have key : ∀ x y : Nat, x < 2 → y < 2 → (x ^^^ y) * a = x * a ^^^ y * a := by
      intro x y hx hy
      have hx : x = 0 ∨ x = 1 := by omega
      have hy : y = 0 ∨ y = 1 := by omega
      rcases hx with rfl | rfl <;> rcases hy with rfl | rfl <;> simp
    rw [key _ _ (Nat.mod_lt _ (by omega)) (Nat.mod_lt _ (by omega))]
    ac_rfl

theorem mulBits_xor_left {F : Gf} (hF : F.Good) {a a' : Nat} (ha : a < F.size) (ha' : a' < F.size)
    (n b : Nat) : mulBits F (a ^^^ a') n b = mulBits F a n b ^^^ mulBits F a' n b := by
  induction n generalizing b with
  | zero => simp [mulBits]
  | succ n ih =>
    simp only [mulBits]
    rw [ih, xtime_xor (mulBits_lt hF ha n _) (mulBits_lt hF ha' n _)]
    have key : b % 2 * (a ^^^ a') = b % 2 * a ^^^ b % 2 * a' := by
      rcases Nat.mod_two_eq_zero_or_one b with h | h <;> simp [h]
    rw [key]
    ac_rfl

theorem mulBits_xtime {F : Gf} (hF : F.Good) {a : Nat} (ha : a < F.size) (n b : Nat) :
    mulBits F (xtime F a) n b = xtime F (mulBits F a n b) := by
  induction n generalizing b with
  | zero => simp [mulBits, xtime_zero]
  | succ n ih =>
    simp only [mulBits]
    rw [ih]
    have hb : b % 2 * a < F.size := by
      rcases Nat.mod_two_eq_zero_or_one b with h | h <;> rw [h]
      · simpa using F.size_pos
      · simpa using ha
    rw [xtime_xor hb (xtime_lt hF (mulBits_lt hF ha n _))]
    congr 1
    rcases Nat.mod_two_eq_zero_or_one b with h | h <;> simp [h, xtime_zero]

theorem mulBits_one_left {F : Gf} (n b : Nat) (hn : n ≤ F.bits) (hb : b < 2 ^ n) :
    mulBits F 1 n b = b := by
  induction n generalizing b with
  | zero => simp at hb; simp [mulBits, hb]
  | succ n ih =>
    simp only [mulBits]
    have hb2 : b / 2 < 2 ^ n := by rw [Nat.pow_succ] at hb; omega
    have hsmall : 2 * (b / 2) < F.size := by
      have : 2 ^ (n + 1) ≤ F.size := Nat.pow_le_pow_right (by omega) hn
      omega
    rw [ih _ (by omega) hb2, xtime_of_small hsmall, Nat.mul_one]
    apply Nat.eq_of_testBit_eq
    intro i
    cases i with
    | zero => simp
    | succ i =>
      rw [Nat.testBit_succ, Nat.testBit_succ, half_xor]
      simp

/-! ### Powers of x -/

/-- The element the loop R112 holds after `i` turns: x to the power i. -/
def alphaPow (F : Gf) : Nat → Nat
  | 0 => 1
  | i + 1 => xtime F (alphaPow F i)

theorem one_lt_size {F : Gf} (hF : F.Good) : 1 < F.size :=
  Nat.one_lt_two_pow (by have := hF.bitsPos; omega)

theorem alphaPow_lt {F : Gf} (hF : F.Good) (i : Nat) : alphaPow F i < F.size := by
  induction i with
  | zero => exact one_lt_size hF
  | succ i ih => exact xtime_lt hF ih

theorem alphaPow_one {F : Gf} (hF : F.Good) : alphaPow F 1 = 2 := by
  have : 2 * 1 < F.size := by
    have h := hF.bitsPos
    have : 2 ^ 2 ≤ F.size := Nat.pow_le_pow_right (by omega) h
    omega
  exact xtime_of_small this

theorem mulBits_alphaPow {F : Gf} (hF : F.Good) (i : Nat) {b : Nat} (hb : b < F.size) :
    mulBits F (alphaPow F i) F.bits b = (xtime F)^[i] b := by
  induction i with
  | zero => exact mulBits_one_left F.bits b le_rfl hb
  | succ i ih =>
    rw [Function.iterate_succ_apply', ← ih]
    exact mulBits_xtime hF (alphaPow_lt hF i) _ _

theorem alphaPow_eq_iterate (F : Gf) (i : Nat) : alphaPow F i = (xtime F)^[i] 1 := by
  induction i with
  | zero => rfl
  | succ i ih => rw [Function.iterate_succ_apply', ← ih]; rfl

/-- The product of two powers of x. -/
theorem gfMul_alphaPow {F : Gf} (hF : F.Good) (i j : Nat) :
    gfMul F (alphaPow F i) (alphaPow F j) = alphaPow F (i + j) := by
  rw [gfMul_eq_mulBits, mulBits_alphaPow hF i (alphaPow_lt hF j), alphaPow_eq_iterate F j,
    ← Function.iterate_add_apply, ← alphaPow_eq_iterate]

theorem powBits_alphaPow {F : Gf} (hF : F.Good) (n i e : Nat) (he : e < 2 ^ n) :
    powBits F n (alphaPow F i) e = alphaPow F (i * e) := by
  induction n generalizing i e with
  | zero => simp at he; simp [powBits, he, alphaPow]
  | succ n ih =>
    have he2 : e / 2 < 2 ^ n := by rw [Nat.pow_succ] at he; omega
    simp only [powBits, gfMul_alphaPow hF, ih _ _ he2]
    have hd := Nat.div_add_mod e 2
    split
    · rename_i h
      congr 1
      calc i + (i + i) * (e / 2) = i * (2 * (e / 2) + e % 2) := by rw [h]; ring
        _ = i * e := by rw [hd]
    · rename_i h
      congr 1
      have h0 : e % 2 = 0 := by omega
      calc (i + i) * (e / 2) = i * (2 * (e / 2) + e % 2) := by rw [h0]; ring
        _ = i * e := by rw [hd]

theorem gfExp_eq_alphaPow {F : Gf} (hF : F.Good) {i : Nat} (hi : i < F.size) :
    gfExp F i = alphaPow F i := by
  unfold gfExp
  rw [← alphaPow_one hF, powBits_alphaPow hF F.bits 1 i hi, Nat.one_mul]

/-! ### The order of x, and the tables -/

theorem order_pos {F : Gf} (hF : F.Good) : 0 < F.order := by
  have := one_lt_size hF
  unfold Gf.order; omega

theorem order_lt_size {F : Gf} : F.order < F.size := by
  have := F.size_pos
  unfold Gf.order; omega

theorem alphaPow_order {F : Gf} (hF : F.Good) : alphaPow F F.order = 1 := by
  rw [← gfExp_eq_alphaPow hF order_lt_size]
  exact hF.expOrder

theorem alphaPow_ne_zero {F : Gf} (hF : F.Good) (i : Nat) : alphaPow F i ≠ 0 := by
  intro h
  have hz : ∀ j, alphaPow F (i + j) = 0 := by
    intro j
    induction j with
    | zero => exact h
    | succ j ih => show xtime F (alphaPow F (i + j)) = 0; rw [ih, xtime_zero]
  have hp : ∀ q, alphaPow F (q * F.order) = 1 := by
    intro q
    induction q with
    | zero => simp [alphaPow]
    | succ q ih =>
      rw [Nat.succ_mul, ← gfMul_alphaPow hF, ih, alphaPow_order hF, gfMul_eq_mulBits]
      exact mulBits_one_left F.bits 1 le_rfl (one_lt_size hF)
  have h1 := hp i
  have hle : i ≤ i * F.order := Nat.le_mul_of_pos_right _ (order_pos hF)
  have h2 := hz (i * F.order - i)
  rw [Nat.add_sub_cancel' hle] at h2
  omega

theorem minimalPeriod_xtime {F : Gf} (hF : F.Good) : Function.minimalPeriod (xtime F) 1 = F.order := by
  have hdvd : Function.minimalPeriod (xtime F) 1 ∣ F.order := by
    apply Function.IsPeriodicPt.minimalPeriod_dvd
    show (xtime F)^[F.order] 1 = 1
    rw [← alphaPow_eq_iterate, alphaPow_order hF]
  obtain ⟨ps, hne, hall⟩ := hF.exists_factors
  obtain ⟨q, hq⟩ := hdvd
  by_contra hcon
  have hq1 : q ≠ 1 := by rintro rfl; exact hcon (by omega)
  obtain ⟨p, hp, r, hr⟩ := Nat.exists_prime_and_dvd hq1
  have hpN : p ∣ F.order := ⟨Function.minimalPeriod (xtime F) 1 * r, by rw [hq, hr]; ring⟩
  have hdiv : F.order / p = Function.minimalPeriod (xtime F) 1 * r := by
    rw [hq, hr, show Function.minimalPeriod (xtime F) 1 * (p * r)
      = p * (Function.minimalPeriod (xtime F) 1 * r) by ring]
    exact Nat.mul_div_cancel_left _ hp.pos
  apply hne p (hall p hp hpN)
  rw [gfExp_eq_alphaPow hF (lt_of_le_of_lt (Nat.div_le_self _ _) order_lt_size), alphaPow_eq_iterate, hdiv]
  exact (Function.isPeriodicPt_minimalPeriod (xtime F) 1).mul_const r

theorem alphaPow_mod {F : Gf} (hF : F.Good) (i : Nat) : alphaPow F (i % F.order) = alphaPow F i := by
  rw [alphaPow_eq_iterate, alphaPow_eq_iterate, ← minimalPeriod_xtime hF]
  exact Function.iterate_mod_minimalPeriod_eq

theorem alphaPow_inj {F : Gf} (hF : F.Good) {i j : Nat} (hi : i < F.order) (hj : j < F.order)
    (h : alphaPow F i = alphaPow F j) : i = j := by
  rw [alphaPow_eq_iterate, alphaPow_eq_iterate] at h
  have := (Function.iterate_eq_iterate_iff_of_lt_minimalPeriod
    (f := xtime F) (x := 1) (m := i) (n := j) (by rw [minimalPeriod_xtime hF]; exact hi)
    (by rw [minimalPeriod_xtime hF]; exact hj)).1 h
  exact this

/-- Every non-zero element is a power of x. -/
theorem exists_alphaPow {F : Gf} (hF : F.Good) {v : Nat} (h0 : v ≠ 0) (hv : v < F.size) :
    ∃ i, i < F.order ∧ alphaPow F i = v := by
  let f : Fin F.order → Finset.Ioo 0 F.size := fun i =>
    ⟨alphaPow F i, Finset.mem_Ioo.2 ⟨Nat.pos_of_ne_zero (alphaPow_ne_zero hF i), alphaPow_lt hF i⟩⟩
  have hinj : Function.Injective f := fun i j h =>
    Fin.ext (alphaPow_inj hF i.2 j.2 (Subtype.mk.inj h))
  have hcard : Fintype.card (Fin F.order) = Fintype.card (Finset.Ioo 0 F.size) := by
    rw [Fintype.card_fin, Fintype.card_coe, Nat.card_Ioo]
    rfl
  have hsurj := ((Fintype.bijective_iff_injective_and_card f).2 ⟨hinj, hcard⟩).2
  obtain ⟨i, hi⟩ := hsurj ⟨v, Finset.mem_Ioo.2 ⟨Nat.pos_of_ne_zero h0, hv⟩⟩
  exact ⟨i, i.2, congrArg Subtype.val hi⟩

theorem logFrom_alphaPow {F : Gf} (a n i j : Nat) (hij : i ≤ j) (hjn : j < i + n)
    (ha : alphaPow F j = a) (hfirst : ∀ l, i ≤ l → l < j → alphaPow F l ≠ a) :
    logFrom F a n i (alphaPow F i) = j := by
  induction n generalizing i with
  | zero => omega
  | succ n ih =>
    simp only [logFrom]
    split
    · rename_i h
      by_contra hne
      exact hfirst i le_rfl (by omega) h
    · rename_i h
      have hne : i ≠ j := by rintro rfl; exact h ha
      exact ih (i + 1) (by omega) (by omega) (fun l h1 h2 => hfirst l (by omega) h2)

/-- `LOG[EXP[i]] = i` (R113). -/
theorem gfLog_alphaPow {F : Gf} (hF : F.Good) {i : Nat} (hi : i < F.order) :
    gfLog F (alphaPow F i) = i := by
  unfold gfLog
  rw [if_neg (alphaPow_ne_zero hF i)]
  exact logFrom_alphaPow _ _ 0 i (Nat.zero_le _) (by omega) rfl
    (fun l _ hl h => by have := alphaPow_inj hF (by omega) hi h; omega)

/-- `EXP[LOG[v]] = v`, with the logarithm in range (R113). -/
theorem gfLog_spec {F : Gf} (hF : F.Good) {v : Nat} (h0 : v ≠ 0) (hv : v < F.size) :
    gfLog F v < F.order ∧ alphaPow F (gfLog F v) = v := by
  obtain ⟨i, hi, rfl⟩ := exists_alphaPow hF h0 hv
  rw [gfLog_alphaPow hF hi]
  exact ⟨hi, rfl⟩

theorem gfExp_mod {F : Gf} (hF : F.Good) (i : Nat) : gfExp F (i % F.order) = alphaPow F i := by
  rw [gfExp_eq_alphaPow hF (lt_trans (Nat.mod_lt _ (order_pos hF)) order_lt_size), alphaPow_mod hF]

/-! ### The operations obey the table formulas -/

/-- The product by the table method of R116. -/
theorem gfMul_eq_table {F : Gf} (hF : F.Good) {a b : Nat} (ha : a < F.size) (hb : b < F.size) :
    gfMul F a b =
      if a = 0 ∨ b = 0 then 0 else gfExp F ((gfLog F a + gfLog F b) % F.order) := by
  split
  · rename_i h
    simp [gfMul, h]
  · rename_i h
    rw [not_or] at h
    obtain ⟨i, hi, rfl⟩ := exists_alphaPow hF h.1 ha
    obtain ⟨j, hj, rfl⟩ := exists_alphaPow hF h.2 hb
    rw [gfMul_alphaPow hF, gfLog_alphaPow hF hi, gfLog_alphaPow hF hj, gfExp_mod hF]

theorem gfInv_alphaPow {F : Gf} (hF : F.Good) {i : Nat} (hi : i < F.order) :
    gfInv F (alphaPow F i) = alphaPow F (F.order - i) := by
  unfold gfInv
  have hlt : F.size - 2 < 2 ^ F.bits := by
    have h1 : F.size = 2 ^ F.bits := rfl
    have h2 := F.size_pos
    omega
  rw [if_neg (alphaPow_ne_zero hF i), powBits_alphaPow hF _ _ _ hlt]
  have hN : F.size - 2 = F.order - 1 := rfl
  rw [hN, ← alphaPow_mod hF, ← alphaPow_mod hF (F.order - i)]
  congr 1
  -- i * (N - 1) and N - i are congruent modulo N
  have hNpos := order_pos hF
  have h1 : (i * (F.order - 1) + i) % F.order = ((F.order - i) + i) % F.order := by
    rw [Nat.sub_add_cancel hi.le, Nat.mod_self]
    have : i * (F.order - 1) + i = i * F.order := by
      obtain ⟨m, hm⟩ : ∃ m, F.order = m + 1 := ⟨F.order - 1, by omega⟩
      rw [hm]; simp [Nat.mul_succ]
    rw [this, Nat.mul_mod_left]
  exact Nat.ModEq.add_right_cancel' i h1

/-- The inverse by the table method of R118. -/
theorem gfInv_eq_table {F : Gf} (hF : F.Good) {a : Nat} (h0 : a ≠ 0) (ha : a < F.size) :
    gfInv F a = gfExp F ((F.order - gfLog F a) % F.order) := by
  obtain ⟨i, hi, rfl⟩ := exists_alphaPow hF h0 ha
  rw [gfLog_alphaPow hF hi, gfInv_alphaPow hF hi, gfExp_mod hF]

/-- The quotient by the table method of R117. -/
theorem gfDiv_eq_table {F : Gf} (hF : F.Good) {a b : Nat} (ha : a < F.size) (h0 : b ≠ 0)
    (hb : b < F.size) :
    gfDiv F a b =
      if a = 0 then 0 else gfExp F ((gfLog F a + F.order - gfLog F b) % F.order) := by
  unfold gfDiv
  rw [if_neg h0]
  split
  · rename_i h
    simp [gfMul, h]
  · rename_i h
    obtain ⟨i, hi, rfl⟩ := exists_alphaPow hF h ha
    obtain ⟨j, hj, rfl⟩ := exists_alphaPow hF h0 hb
    rw [gfInv_alphaPow hF hj, gfMul_alphaPow hF, gfLog_alphaPow hF hi, gfLog_alphaPow hF hj, gfExp_mod hF]
    congr 1
    omega

theorem gfMul_lt {F : Gf} (hF : F.Good) {a : Nat} (ha : a < F.size) (b : Nat) : gfMul F a b < F.size := by
  rw [gfMul_eq_mulBits]
  exact mulBits_lt hF ha _ _

theorem gfInv_lt {F : Gf} (hF : F.Good) {a : Nat} (h0 : a ≠ 0) (ha : a < F.size) : gfInv F a < F.size := by
  obtain ⟨i, hi, rfl⟩ := exists_alphaPow hF h0 ha
  rw [gfInv_alphaPow hF hi]
  exact alphaPow_lt hF _

theorem gfInv_ne_zero {F : Gf} (hF : F.Good) {a : Nat} (h0 : a ≠ 0) (ha : a < F.size) : gfInv F a ≠ 0 := by
  obtain ⟨i, hi, rfl⟩ := exists_alphaPow hF h0 ha
  rw [gfInv_alphaPow hF hi]
  exact alphaPow_ne_zero hF _

/-- (x) distributes over (+) on the right. -/
theorem gfMul_xor_right {F : Gf} (hF : F.Good) {a : Nat} (ha : a < F.size) (b c : Nat) :
    gfMul F a (b ^^^ c) = gfMul F a b ^^^ gfMul F a c := by
  simp only [gfMul_eq_mulBits]
  exact mulBits_xor_right hF ha _ _ _

/-- (x) distributes over (+) on the left. -/
theorem gfMul_xor_left {F : Gf} (hF : F.Good) {a a' : Nat} (ha : a < F.size) (ha' : a' < F.size) (b : Nat) :
    gfMul F (a ^^^ a') b = gfMul F a b ^^^ gfMul F a' b := by
  simp only [gfMul_eq_mulBits]
  exact mulBits_xor_left hF ha ha' _ _

/-! ### The field laws -/

@[simp] theorem gfMul_zero_left (F : Gf) (b : Nat) : gfMul F 0 b = 0 := by simp [gfMul]

@[simp] theorem gfMul_zero_right (F : Gf) (a : Nat) : gfMul F a 0 = 0 := by simp [gfMul]

theorem gfMul_one_left {F : Gf} {b : Nat} (hb : b < F.size) : gfMul F 1 b = b := by
  rw [gfMul_eq_mulBits]
  exact mulBits_one_left F.bits b le_rfl hb

theorem gfMul_comm {F : Gf} (hF : F.Good) {a b : Nat} (ha : a < F.size) (hb : b < F.size) :
    gfMul F a b = gfMul F b a := by
  by_cases h0 : a = 0
  · simp [h0]
  by_cases h1 : b = 0
  · simp [h1]
  obtain ⟨i, -, rfl⟩ := exists_alphaPow hF h0 ha
  obtain ⟨j, -, rfl⟩ := exists_alphaPow hF h1 hb
  rw [gfMul_alphaPow hF, gfMul_alphaPow hF, Nat.add_comm]

theorem gfMul_assoc {F : Gf} (hF : F.Good) {a b c : Nat} (ha : a < F.size) (hb : b < F.size)
    (hc : c < F.size) : gfMul F (gfMul F a b) c = gfMul F a (gfMul F b c) := by
  by_cases h0 : a = 0
  · simp [h0]
  by_cases h1 : b = 0
  · simp [h1]
  by_cases h2 : c = 0
  · simp [h2]
  obtain ⟨i, -, rfl⟩ := exists_alphaPow hF h0 ha
  obtain ⟨j, -, rfl⟩ := exists_alphaPow hF h1 hb
  obtain ⟨l, -, rfl⟩ := exists_alphaPow hF h2 hc
  simp only [gfMul_alphaPow hF, Nat.add_assoc]

theorem gfMul_gfInv {F : Gf} (hF : F.Good) {a : Nat} (h0 : a ≠ 0) (ha : a < F.size) :
    gfMul F (gfInv F a) a = 1 := by
  obtain ⟨i, hi, rfl⟩ := exists_alphaPow hF h0 ha
  rw [gfInv_alphaPow hF hi, gfMul_alphaPow hF, Nat.sub_add_cancel hi.le, alphaPow_order hF]

theorem gfMul_ne_zero {F : Gf} (hF : F.Good) {a b : Nat} (h0 : a ≠ 0) (h1 : b ≠ 0) (ha : a < F.size)
    (hb : b < F.size) : gfMul F a b ≠ 0 := by
  obtain ⟨i, -, rfl⟩ := exists_alphaPow hF h0 ha
  obtain ⟨j, -, rfl⟩ := exists_alphaPow hF h1 hb
  rw [gfMul_alphaPow hF]
  exact alphaPow_ne_zero hF _

/-! ### The two fields of the ECE -/

theorem gf8_good : gf8.Good where
  bitsPos := by decide
  polyLow := by decide
  polyHigh := by decide
  exists_factors := by
    refine ⟨[3, 5, 17], by decide +kernel, fun p hp hd => ?_⟩
    have h : p ∣ 3 * (5 * 17) := hd
    rcases (Nat.Prime.dvd_mul hp).1 h with h | h
    · simp [(Nat.prime_dvd_prime_iff_eq hp (by norm_num)).1 h]
    · rcases (Nat.Prime.dvd_mul hp).1 h with h | h
      · simp [(Nat.prime_dvd_prime_iff_eq hp (by norm_num)).1 h]
      · simp [(Nat.prime_dvd_prime_iff_eq hp (by norm_num)).1 h]
  expOrder := by decide +kernel

theorem gf16_good : gf16.Good where
  bitsPos := by decide
  polyLow := by decide
  polyHigh := by decide
  exists_factors := by
    refine ⟨[3, 5, 17, 257], by decide +kernel, fun p hp hd => ?_⟩
    have h : p ∣ 3 * (5 * (17 * 257)) := hd
    rcases (Nat.Prime.dvd_mul hp).1 h with h | h
    · simp [(Nat.prime_dvd_prime_iff_eq hp (by norm_num)).1 h]
    · rcases (Nat.Prime.dvd_mul hp).1 h with h | h
      · simp [(Nat.prime_dvd_prime_iff_eq hp (by norm_num)).1 h]
      · rcases (Nat.Prime.dvd_mul hp).1 h with h | h
        · simp [(Nat.prime_dvd_prime_iff_eq hp (by norm_num)).1 h]
        · simp [(Nat.prime_dvd_prime_iff_eq hp (by norm_num)).1 h]
  expOrder := by decide +kernel

theorem byteSlice_lt (w : Word) : byteSlice w < gf8.size := (w.extractLsb' 0 8).isLt

theorem halfSlice_lt (w : Word) : halfSlice w < gf16.size := (w.extractLsb' 0 16).isLt

end Sys2Proof.Machine
end

