-- ==== Sys2Proof/Laws/Linear.lean ====
section
/-! SUPPORT. Vectors and linear systems: what the row operations do to the solutions of a system, and what
Gaussian elimination (R246) finds. -/

namespace Sys2Proof.Machine

/-! ### Vectors -/

@[simp] theorem vecAdd_length (a b : Vec) : (vecAdd a b).length = min a.length b.length := by
  simp [vecAdd]

@[simp] theorem vecScale_length (F : Gf) (c : Nat) (a : Vec) : (vecScale F c a).length = a.length := by
  simp [vecScale]

theorem vecAdd_getD {a b : Vec} (h : a.length = b.length) (t : Nat) :
    (vecAdd a b).getD t 0 = a.getD t 0 ^^^ b.getD t 0 := by
  unfold vecAdd gfAdd
  simp only [List.getD_eq_getElem?_getD, List.getElem?_zipWith]
  by_cases ht : t < a.length
  · rw [List.getElem?_eq_getElem ht, List.getElem?_eq_getElem (h ▸ ht)]
    rfl
  · rw [List.getElem?_eq_none (by omega), List.getElem?_eq_none (by omega)]
    rfl

theorem vecScale_getD (F : Gf) (c : Nat) (a : Vec) (t : Nat) :
    (vecScale F c a).getD t 0 = gfMul F c (a.getD t 0) := by
  unfold vecScale
  simp only [List.getD_eq_getElem?_getD, List.getElem?_map]
  cases a[t]? <;> simp

theorem foldl_vecAdd_length {n : Nat} (vs : List Vec) (acc : Vec) (hacc : acc.length = n)
    (h : ∀ v ∈ vs, v.length = n) : (vs.foldl vecAdd acc).length = n := by
  induction vs generalizing acc with
  | nil => exact hacc
  | cons v vs ih =>
    refine ih _ ?_ (fun w hw => h w (List.mem_cons_of_mem _ hw))
    rw [vecAdd_length, hacc, h v (by simp), Nat.min_self]

theorem vecSum_length {n : Nat} {vs : List Vec} (h : ∀ v ∈ vs, v.length = n) : (vecSum n vs).length = n :=
  foldl_vecAdd_length vs _ (by simp) h

theorem foldl_vecAdd_getD {n : Nat} (vs : List Vec) (acc : Vec) (hacc : acc.length = n)
    (h : ∀ v ∈ vs, v.length = n) (t : Nat) :
    (vs.foldl vecAdd acc).getD t 0 = vs.foldl (fun x v => x ^^^ v.getD t 0) (acc.getD t 0) := by
  induction vs generalizing acc with
  | nil => rfl
  | cons v vs ih =>
    have hv := h v (by simp)
    rw [List.foldl_cons, List.foldl_cons, ih _ (by rw [vecAdd_length, hacc, hv, Nat.min_self])
      (fun w hw => h w (List.mem_cons_of_mem _ hw)), vecAdd_getD (by omega)]

/-- A symbol of a sum of vectors is the XOR of their symbols. -/
theorem vecSum_getD {n : Nat} {vs : List Vec} (h : ∀ v ∈ vs, v.length = n) (t : Nat) :
    (vecSum n vs).getD t 0 = vs.foldl (fun x v => x ^^^ v.getD t 0) 0 := by
  unfold vecSum
  rw [foldl_vecAdd_getD vs _ (by simp) h]
  congr 1
  simp only [List.getD_eq_getElem?_getD, List.getElem?_replicate]
  split <;> rfl

/-- All entries of a vector are elements of the field. -/
def InField (F : Gf) (v : Vec) : Prop := ∀ x ∈ v, x < F.size

theorem InField.getD {F : Gf} {v : Vec} (h : InField F v) (t : Nat) : v.getD t 0 < F.size := by
  rw [List.getD_eq_getElem?_getD]
  by_cases ht : t < v.length
  · rw [List.getElem?_eq_getElem ht]
    exact h _ (List.getElem_mem ht)
  · rw [List.getElem?_eq_none (by omega)]
    exact F.size_pos

theorem InField.vecScale {F : Gf} (hF : F.Good) {c : Nat} (hc : c < F.size) (v : Vec) :
    InField F (vecScale F c v) := by
  intro x hx
  obtain ⟨y, -, rfl⟩ := List.mem_map.1 hx
  exact gfMul_lt hF hc y

theorem InField.vecAdd {F : Gf} {a b : Vec} (ha : InField F a) (hb : InField F b) :
    InField F (vecAdd a b) := by
  induction a generalizing b with
  | nil => intro x hx; simp [Machine.vecAdd] at hx
  | cons x a ih =>
    cases b with
    | nil => intro z hz; simp [Machine.vecAdd] at hz
    | cons y b =>
      intro z hz
      have hz' : z = gfAdd x y ∨ z ∈ Machine.vecAdd a b := by simpa [Machine.vecAdd] using hz
      rcases hz' with rfl | hz'
      · exact Nat.xor_lt_two_pow (ha x (by simp)) (hb y (by simp))
      · exact ih (fun w hw => ha w (by simp [hw])) (fun w hw => hb w (by simp [hw])) z hz'

/-! ### The left side of an equation -/

/-- The sum over the columns c of `coef[c] (x) x c`. -/
def dot (F : Gf) : Vec → (Nat → Nat) → Nat
  | [], _ => 0
  | a :: as, x => gfMul F a (x 0) ^^^ dot F as (fun c => x (c + 1))

theorem dot_lt {F : Gf} (hF : F.Good) {v : Vec} (hv : InField F v) (x : Nat → Nat) : dot F v x < F.size := by
  induction v generalizing x with
  | nil => exact F.size_pos
  | cons a v ih =>
    exact Nat.xor_lt_two_pow (gfMul_lt hF (hv a (by simp)) _) (ih (fun w hw => hv w (by simp [hw])) _)

theorem dot_vecAdd {F : Gf} (hF : F.Good) {a b : Vec} (ha : InField F a) (hb : InField F b)
    (hl : a.length = b.length) (x : Nat → Nat) :
    dot F (vecAdd a b) x = dot F a x ^^^ dot F b x := by
  induction a generalizing b x with
  | nil =>
    cases b with
    | nil => simp [vecAdd, dot]
    | cons y b => simp at hl
  | cons p a ih =>
    cases b with
    | nil => simp at hl
    | cons q b =>
      have h1 : vecAdd (p :: a) (q :: b) = (p ^^^ q) :: vecAdd a b := by simp [vecAdd, gfAdd]
      rw [h1]
      simp only [dot]
      rw [gfMul_xor_left hF (ha p (by simp)) (hb q (by simp)),
        ih (fun w hw => ha w (by simp [hw])) (fun w hw => hb w (by simp [hw])) (by simpa using hl)]
      ac_rfl

theorem dot_vecScale {F : Gf} (hF : F.Good) {f : Nat} (hf : f < F.size) {a : Vec} (ha : InField F a)
    {x : Nat → Nat} (hx : ∀ c, x c < F.size) : dot F (vecScale F f a) x = gfMul F f (dot F a x) := by
  induction a generalizing x with
  | nil => simp [vecScale, dot]
  | cons p a ih =>
    have h1 : vecScale F f (p :: a) = gfMul F f p :: vecScale F f a := by simp [vecScale]
    rw [h1]
    simp only [dot]
    rw [gfMul_xor_right hF hf, gfMul_assoc hF hf (ha p (by simp)) (hx 0),
      ih (fun w hw => ha w (by simp [hw])) (fun c => hx (c + 1))]

/-- A vector with a 1 in column c and zeros in every other column where `x` may be non-zero. -/
theorem dot_unit {F : Gf} {v : Vec} {c : Nat} {x : Nat → Nat} (hx : x c < F.size)
    (h1 : v.getD c 0 = 1) (h0 : ∀ d, d ≠ c → v.getD d 0 = 0 ∨ x d = 0) : dot F v x = x c := by
  induction v generalizing c x with
  | nil => simp at h1
  | cons a v ih =>
    cases c with
    | zero =>
      have ha : a = 1 := by simpa using h1
      have hz : ∀ (w : Vec) (y : Nat → Nat), (∀ d, w.getD d 0 = 0 ∨ y d = 0) → dot F w y = 0 := by
        intro w
        induction w with
        | nil => intro y _; rfl
        | cons b w ihw =>
          intro y hy
          have hb := hy 0
          have hr : dot F w (fun c => y (c + 1)) = 0 := ihw _ (fun d => by simpa using hy (d + 1))
          simp only [dot, hr]
          rcases hb with hb | hb
          · simp at hb; simp [hb]
          · simp [hb]
      simp only [dot]
      rw [hz v _ (fun d => by simpa using h0 (d + 1) (by omega)), ha, gfMul_one_left hx]
      simp
    | succ c =>
      have ha := h0 0 (by omega)
      simp only [dot]
      rw [ih (c := c) (x := fun c => x (c + 1)) hx (by simpa using h1)
        (fun d hd => by simpa using h0 (d + 1) (by omega))]
      rcases ha with ha | ha
      · simp at ha; simp [ha]
      · simp [ha]

/-! ### Rows and their solutions -/

/-- A row of `L` coefficients with a right-hand side of `m` symbols, all elements of the field. -/
structure EqRow.Ok (F : Gf) (L m : Nat) (r : EqRow) : Prop where
  coefLength : r.coef.length = L
  rhsLength : r.rhs.length = m
  coefIn : InField F r.coef
  rhsIn : InField F r.rhs

/-- `x c t` is symbol t of the block in column c: the row holds at every position t. -/
def EqRow.Holds (F : Gf) (x : Nat → Nat → Nat) (r : EqRow) : Prop :=
  ∀ t, t < r.rhs.length → dot F r.coef (fun c => x c t) = r.rhs.getD t 0

theorem EqRow.at_lt {F : Gf} {L m : Nat} {r : EqRow} (h : r.Ok F L m) (c : Nat) : r.at c < F.size :=
  h.coefIn.getD c

theorem EqRow.scale_ok {F : Gf} (hF : F.Good) {L m f : Nat} {r : EqRow} (hf : f < F.size) (h : r.Ok F L m) :
    (EqRow.scale F f r).Ok F L m where
  coefLength := by simp [EqRow.scale, h.coefLength]
  rhsLength := by simp [EqRow.scale, h.rhsLength]
  coefIn := InField.vecScale hF hf _
  rhsIn := InField.vecScale hF hf _

theorem EqRow.addMul_ok {F : Gf} (hF : F.Good) {L m f : Nat} {a b : EqRow} (hf : f < F.size)
    (ha : a.Ok F L m) (hb : b.Ok F L m) : (EqRow.addMul F f a b).Ok F L m where
  coefLength := by simp [EqRow.addMul, ha.coefLength, hb.coefLength]
  rhsLength := by simp [EqRow.addMul, ha.rhsLength, hb.rhsLength]
  coefIn := hb.coefIn.vecAdd (InField.vecScale hF hf _)
  rhsIn := hb.rhsIn.vecAdd (InField.vecScale hF hf _)

theorem EqRow.clear_ok {F : Gf} (hF : F.Good) {L m c : Nat} {p b : EqRow} (hp : p.Ok F L m)
    (hb : b.Ok F L m) : (EqRow.clear F c p b).Ok F L m := by
  unfold EqRow.clear
  split
  · exact hb
  · exact EqRow.addMul_ok hF (EqRow.at_lt hb c) hp hb

@[simp] theorem EqRow.scale_at (F : Gf) (f : Nat) (r : EqRow) (c : Nat) :
    (EqRow.scale F f r).at c = gfMul F f (r.at c) := vecScale_getD F f r.coef c

theorem EqRow.addMul_at {F : Gf} {L m f : Nat} {a b : EqRow} (ha : a.Ok F L m) (hb : b.Ok F L m) (c : Nat) :
    (EqRow.addMul F f a b).at c = b.at c ^^^ gfMul F f (a.at c) := by
  unfold EqRow.addMul EqRow.at
  rw [vecAdd_getD (by simp [ha.coefLength, hb.coefLength]), vecScale_getD]

theorem EqRow.clear_at {F : Gf} {L m c : Nat} {p b : EqRow} (hp : p.Ok F L m) (hb : b.Ok F L m) (d : Nat) :
    (EqRow.clear F c p b).at d = b.at d ^^^ gfMul F (b.at c) (p.at d) := by
  unfold EqRow.clear
  split
  · rename_i h; simp [h]
  · exact EqRow.addMul_at hp hb d

theorem xor_left_inj {a b c : Nat} : a ^^^ b = a ^^^ c ↔ b = c := by
  constructor
  · intro h
    have := congrArg (a ^^^ ·) h
    simpa [← Nat.xor_assoc] using this
  · rintro rfl; rfl

theorem gfMul_cancel {F : Gf} (hF : F.Good) {f a b : Nat} (hf0 : f ≠ 0) (hf : f < F.size) (ha : a < F.size)
    (hb : b < F.size) : gfMul F f a = gfMul F f b ↔ a = b := by
  constructor
  · intro h
    have hi := gfInv_lt hF hf0 hf
    have := congrArg (gfMul F (gfInv F f)) h
    rwa [← gfMul_assoc hF hi hf ha, ← gfMul_assoc hF hi hf hb, gfMul_gfInv hF hf0 hf, gfMul_one_left ha,
      gfMul_one_left hb] at this
  · rintro rfl; rfl

/-- Multiplying a row by a non-zero element keeps its solutions. -/
theorem EqRow.holds_scale {F : Gf} (hF : F.Good) {L m f : Nat} {r : EqRow} {x : Nat → Nat → Nat}
    (hx : ∀ c t, x c t < F.size) (hf0 : f ≠ 0) (hf : f < F.size) (h : r.Ok F L m) :
    (EqRow.scale F f r).Holds F x ↔ r.Holds F x := by
  unfold EqRow.Holds EqRow.scale
  simp only [vecScale_length, vecScale_getD]
  refine forall_congr' fun t => forall_congr' fun _ => ?_
  rw [dot_vecScale hF hf h.coefIn (fun c => hx c t)]
  exact gfMul_cancel hF hf0 hf (dot_lt hF h.coefIn _) (h.rhsIn.getD t)

/-- Adding a multiple of a row that holds keeps the solutions of the other. -/
theorem EqRow.holds_addMul {F : Gf} (hF : F.Good) {L m f : Nat} {a b : EqRow} {x : Nat → Nat → Nat}
    (hx : ∀ c t, x c t < F.size) (hf : f < F.size) (ha : a.Ok F L m) (hb : b.Ok F L m) (hha : a.Holds F x) :
    (EqRow.addMul F f a b).Holds F x ↔ b.Holds F x := by
  unfold EqRow.Holds EqRow.addMul
  simp only [vecAdd_length, vecScale_length, ha.rhsLength, hb.rhsLength, Nat.min_self]
  refine forall_congr' fun t => forall_congr' fun ht => ?_
  rw [vecAdd_getD (by simp [ha.rhsLength, hb.rhsLength]), vecScale_getD,
    dot_vecAdd hF hb.coefIn (InField.vecScale hF hf _) (by simp [ha.coefLength, hb.coefLength]),
    dot_vecScale hF hf ha.coefIn (fun c => hx c t), hha t (by rw [ha.rhsLength]; exact ht),
    Nat.xor_comm (dot F b.coef fun c => x c t), Nat.xor_comm (b.rhs.getD t 0)]
  exact xor_left_inj

theorem EqRow.holds_clear {F : Gf} (hF : F.Good) {L m c : Nat} {p b : EqRow} {x : Nat → Nat → Nat}
    (hx : ∀ c t, x c t < F.size) (hp : p.Ok F L m) (hb : b.Ok F L m) (hhp : p.Holds F x) :
    (EqRow.clear F c p b).Holds F x ↔ b.Holds F x := by
  unfold EqRow.clear
  split
  · rfl
  · exact EqRow.holds_addMul hF hx (EqRow.at_lt hb c) hp hb hhp

/-! ### Gaussian elimination -/

theorem drop_takeWhile_length {α : Type} (p : α → Bool) (l : List α) :
    l.drop (l.takeWhile p).length = l.dropWhile p := by
  induction l with
  | nil => rfl
  | cons a l ih => by_cases h : p a = true <;> simp [h, ih]

/-- The pivot row is the first with a non-zero coefficient, and no row is lost or invented. -/
theorem takePivot_some {c : Nat} {rows rest : List EqRow} {p : EqRow} (h : takePivot c rows = some (p, rest)) :
    p.at c ≠ 0 ∧ (p :: rest).Perm rows := by
  cases rows with
  | nil => simp [takePivot] at h
  | cons r rs =>
    simp only [takePivot, drop_takeWhile_length] at h
    split at h
    · rename_i hr
      obtain ⟨rfl, rfl⟩ : r = p ∧ rs = rest := by simpa using h
      exact ⟨hr, List.Perm.refl _⟩
    · split at h
      · simp at h
      · rename_i q post hdrop
        obtain ⟨rfl, rfl⟩ : q = p ∧
            rs.takeWhile (fun x : EqRow => decide (x.at c = 0)) ++ r :: post = rest := by simpa using h
        constructor
        · have hne : rs.dropWhile (fun x => decide (x.at c = 0)) ≠ [] := by rw [hdrop]; simp
          have hnot := List.head_dropWhile_not (p := fun x : EqRow => decide (x.at c = 0)) hne
          simpa [hdrop] using hnot
        · have hsplit := List.takeWhile_append_dropWhile (p := fun x : EqRow => decide (x.at c = 0)) (l := rs)
          rw [hdrop] at hsplit
          conv_rhs => rw [← hsplit]
          generalize rs.takeWhile (fun x => decide (x.at c = 0)) = pre
          have h1 : (q :: (pre ++ r :: post)).Perm (q :: (r :: (pre ++ post))) :=
            List.Perm.cons _ List.perm_middle
          have h2 : (q :: r :: (pre ++ post)).Perm (r :: q :: (pre ++ post)) := List.Perm.swap _ _ _
          have h3 : (r :: q :: (pre ++ post)).Perm (r :: (pre ++ q :: post)) :=
            List.Perm.cons _ List.perm_middle.symm
          exact (h1.trans h2).trans h3

/-- There is no pivot row exactly when the column is zero in every row. -/
theorem takePivot_none {c : Nat} {rows : List EqRow} (h : takePivot c rows = none) :
    ∀ r ∈ rows, r.at c = 0 := by
  cases rows with
  | nil => simp
  | cons r rs =>
    simp only [takePivot, drop_takeWhile_length] at h
    split at h
    · simp at h
    · rename_i hr
      have hr : r.at c = 0 := by simpa using hr
      split at h
      · rename_i hdrop
        rw [List.dropWhile_eq_nil_iff] at hdrop
        intro x hx
        rcases List.mem_cons.1 hx with rfl | hx
        · exact hr
        · simpa using hdrop x hx
      · simp at h

/-- Row `i` of `done` has a 1 in the i-th of the columns `ds` and zeros in the others. -/
def UnitColumns (ds : List Nat) (done : List EqRow) : Prop :=
  done.length = ds.length ∧
    ∀ i j, i < ds.length → j < ds.length → (done.getD i ⟨[], []⟩).at (ds.getD j 0) = if i = j then 1 else 0

theorem getD_map_clear (F : Gf) (c : Nat) (p : EqRow) (rows : List EqRow) {i : Nat} (hi : i < rows.length) :
    (rows.map (EqRow.clear F c p)).getD i ⟨[], []⟩ = EqRow.clear F c p (rows.getD i ⟨[], []⟩) := by
  simp [List.getD_eq_getElem?_getD, List.getElem?_eq_getElem hi]

/-- One column of the elimination: what `gaussJordan` passes on. -/
theorem gaussJordan_cons {F : Gf} {c : Nat} {cs : List Nat} {done rest out : List EqRow}
    (h : gaussJordan F (c :: cs) done rest = some out) :
    ∃ p rest', takePivot c rest = some (p, rest') ∧
      gaussJordan F cs
        (done.map (EqRow.clear F c (EqRow.scale F (gfInv F (p.at c)) p)) ++ [EqRow.scale F (gfInv F (p.at c)) p])
        (rest'.map (EqRow.clear F c (EqRow.scale F (gfInv F (p.at c)) p))) = some out := by
  simp only [gaussJordan] at h
  split at h
  · simp at h
  · exact ⟨_, _, ‹_›, h⟩

/-- The pivot row after it has been scaled. -/
theorem scaledPivot {F : Gf} (hF : F.Good) {L m c : Nat} {p : EqRow} (hp : p.Ok F L m) (hc : p.at c ≠ 0) :
    (EqRow.scale F (gfInv F (p.at c)) p).Ok F L m ∧ (EqRow.scale F (gfInv F (p.at c)) p).at c = 1 :=
  ⟨EqRow.scale_ok hF (gfInv_lt hF hc (EqRow.at_lt hp c)) hp, by
    rw [EqRow.scale_at, gfMul_gfInv hF hc (EqRow.at_lt hp c)]⟩

theorem clear_all_ok {F : Gf} (hF : F.Good) {L m c : Nat} {p : EqRow} {rows : List EqRow} (hp : p.Ok F L m)
    (h : ∀ r ∈ rows, r.Ok F L m) : ∀ r ∈ rows.map (EqRow.clear F c p), r.Ok F L m := by
  intro r hr
  obtain ⟨b, hb, rfl⟩ := List.mem_map.1 hr
  exact EqRow.clear_ok hF hp (h b hb)

/-- Elimination keeps rows well formed. -/
theorem gaussJordan_ok {F : Gf} (hF : F.Good) {L m : Nat} (cs : List Nat) {done rest out : List EqRow}
    (hd : ∀ r ∈ done, r.Ok F L m) (hr : ∀ r ∈ rest, r.Ok F L m) (h : gaussJordan F cs done rest = some out) :
    ∀ r ∈ out, r.Ok F L m := by
  induction cs generalizing done rest with
  | nil => simp only [gaussJordan, Option.some.injEq] at h; exact h ▸ hd
  | cons c cs ih =>
    obtain ⟨p, rest', hpiv, hrec⟩ := gaussJordan_cons h
    obtain ⟨hne, hperm⟩ := takePivot_some hpiv
    have hall : ∀ r ∈ p :: rest', r.Ok F L m := fun r hx => hr r (hperm.mem_iff.1 hx)
    have hp1 := (scaledPivot hF (hall p (by simp)) hne).1
    refine ih ?_ (clear_all_ok hF hp1 (fun r hx => hall r (by simp [hx]))) hrec
    intro r hx
    rcases List.mem_append.1 hx with hx | hx
    · exact clear_all_ok hF hp1 hd r hx
    · rw [List.mem_singleton.1 hx]; exact hp1

/-- The result has one row per column, reduced to unit columns. -/
theorem gaussJordan_shape {F : Gf} (hF : F.Good) {L m : Nat} (cs ds : List Nat) {done rest out : List EqRow}
    (hd : ∀ r ∈ done, r.Ok F L m) (hr : ∀ r ∈ rest, r.Ok F L m) (hnd : (ds ++ cs).Nodup)
    (hu : UnitColumns ds done) (hz : ∀ r ∈ rest, ∀ d ∈ ds, r.at d = 0)
    (h : gaussJordan F cs done rest = some out) : UnitColumns (ds ++ cs) out := by
  induction cs generalizing ds done rest with
  | nil => simp only [gaussJordan, Option.some.injEq] at h; subst h; simpa using hu
  | cons c cs ih =>
    obtain ⟨p, rest', hpiv, hrec⟩ := gaussJordan_cons h
    obtain ⟨hne, hperm⟩ := takePivot_some hpiv
    have hall : ∀ r ∈ p :: rest', r.Ok F L m := fun r hx => hr r (hperm.mem_iff.1 hx)
    have hzall : ∀ r ∈ p :: rest', ∀ d ∈ ds, r.at d = 0 := fun r hx => hz r (hperm.mem_iff.1 hx)
    obtain ⟨hp1, hone⟩ := scaledPivot hF (hall p (by simp)) hne
    have hpz : ∀ d ∈ ds, (EqRow.scale F (gfInv F (p.at c)) p).at d = 0 := by
      intro d hdm; rw [EqRow.scale_at, hzall p (by simp) d hdm, gfMul_zero_right]
    generalize EqRow.scale F (gfInv F (p.at c)) p = q at *
    have hclear : ∀ b : EqRow, b.Ok F L m → (EqRow.clear F c q b).at c = 0 := by
      intro b hb
      rw [EqRow.clear_at hp1 hb, hone, gfMul_comm hF (EqRow.at_lt hb c) (one_lt_size hF),
        gfMul_one_left (EqRow.at_lt hb c), Nat.xor_self]
    have hkeep : ∀ b : EqRow, b.Ok F L m → ∀ d ∈ ds, (EqRow.clear F c q b).at d = b.at d := by
      intro b hb d hdm
      rw [EqRow.clear_at hp1 hb, hpz d hdm, gfMul_zero_right, Nat.xor_zero]
    have := ih (ds ++ [c])
      (done := done.map (EqRow.clear F c q) ++ [q]) (rest := rest'.map (EqRow.clear F c q))
      (by
        intro r hx
        rcases List.mem_append.1 hx with hx | hx
        · exact clear_all_ok hF hp1 hd r hx
        · rw [List.mem_singleton.1 hx]; exact hp1)
      (clear_all_ok hF hp1 (fun r hx => hall r (by simp [hx])))
      (by simpa using hnd)
      ⟨by simp [hu.1], by
        intro i j hi hj
        have hi' : i < ds.length + 1 := by simpa using hi
        have hj' : j < ds.length + 1 := by simpa using hj
        have hcol : (ds ++ [c]).getD j 0 = if j < ds.length then ds.getD j 0 else c := by
          split
          · rename_i hlt; rw [List.getD_append _ _ _ _ hlt]
          · have : j = ds.length := by omega
            subst this; simp
        have hmemj : j < ds.length → ds.getD j 0 ∈ ds := by
          intro hlt
          rw [List.getD_eq_getElem _ _ hlt]
          exact List.getElem_mem hlt
        rw [hcol]
        by_cases hil : i < ds.length
        · have hrow : (done.map (EqRow.clear F c q) ++ [q]).getD i ⟨[], []⟩
              = EqRow.clear F c q (done.getD i ⟨[], []⟩) := by
            rw [List.getD_append _ _ _ _ (by simpa [hu.1] using hil)]
            exact getD_map_clear F c q done (by rw [hu.1]; exact hil)
          have hok : (done.getD i ⟨[], []⟩).Ok F L m := by
            have hl : i < done.length := by rw [hu.1]; exact hil
            rw [List.getD_eq_getElem _ _ hl]
            exact hd _ (List.getElem_mem hl)
          rw [hrow]
          by_cases hjl : j < ds.length
          · rw [if_pos hjl, hkeep _ hok _ (hmemj hjl)]
            exact hu.2 i j hil hjl
          · rw [if_neg hjl, hclear _ hok, if_neg (by omega)]
        · have hie : i = done.length := by rw [hu.1]; omega
          have hrow : (done.map (EqRow.clear F c q) ++ [q]).getD i ⟨[], []⟩ = q := by
            subst hie
            simp [List.getD_eq_getElem?_getD]
          rw [hrow]
          by_cases hjl : j < ds.length
          · rw [if_pos hjl, hpz _ (hmemj hjl), if_neg (by omega)]
          · rw [if_neg hjl, hone, if_pos (by omega)]⟩
      (by
        intro r hx d hdm
        obtain ⟨b, hb, rfl⟩ := List.mem_map.1 hx
        have hbok := hall b (by simp [hb])
        rcases List.mem_append.1 hdm with hdm | hdm
        · rw [hkeep b hbok d hdm]
          exact hzall b (by simp [hb]) d hdm
        · rw [List.mem_singleton.1 hdm]; exact hclear b hbok)
      hrec
    simpa using this

/-- What satisfies every row before a column's elimination satisfies every row after it, and conversely. -/
theorem gaussJordan_step_holds {F : Gf} (hF : F.Good) {L m c : Nat} {done rest rest' : List EqRow} {p : EqRow}
    {x : Nat → Nat → Nat} (hx : ∀ c t, x c t < F.size) (hd : ∀ r ∈ done, r.Ok F L m)
    (hr : ∀ r ∈ rest, r.Ok F L m) (hpiv : takePivot c rest = some (p, rest')) :
    ((∀ r ∈ done.map (EqRow.clear F c (EqRow.scale F (gfInv F (p.at c)) p))
          ++ [EqRow.scale F (gfInv F (p.at c)) p], r.Holds F x)
        ∧ ∀ r ∈ rest'.map (EqRow.clear F c (EqRow.scale F (gfInv F (p.at c)) p)), r.Holds F x) ↔
      ((∀ r ∈ done, r.Holds F x) ∧ ∀ r ∈ rest, r.Holds F x) := by
  obtain ⟨hne, hperm⟩ := takePivot_some hpiv
  have hall : ∀ r ∈ p :: rest', r.Ok F L m := fun r hm => hr r (hperm.mem_iff.1 hm)
  have hpok := hall p (by simp)
  have hp1 := (scaledPivot hF hpok hne).1
  have hps : (EqRow.scale F (gfInv F (p.at c)) p).Holds F x ↔ p.Holds F x :=
    EqRow.holds_scale hF hx (gfInv_ne_zero hF hne (EqRow.at_lt hpok c)) (gfInv_lt hF hne (EqRow.at_lt hpok c)) hpok
  generalize EqRow.scale F (gfInv F (p.at c)) p = q at *
  constructor
  · rintro ⟨h1, h2⟩
    have hq : q.Holds F x := h1 q (by simp)
    refine ⟨fun r hm => ?_, fun r hm => ?_⟩
    · exact (EqRow.holds_clear hF hx hp1 (hd r hm) hq).1 (h1 _ (by
        exact List.mem_append_left _ (List.mem_map_of_mem hm)))
    · rcases List.mem_cons.1 (hperm.mem_iff.2 hm) with rfl | hm'
      · exact hps.1 hq
      · exact (EqRow.holds_clear hF hx hp1 (hall r (by simp [hm'])) hq).1 (h2 _ (List.mem_map_of_mem hm'))
  · rintro ⟨h1, h2⟩
    have hq : q.Holds F x := hps.2 (h2 p (hperm.mem_iff.1 (by simp)))
    refine ⟨fun r hm => ?_, fun r hm => ?_⟩
    · rcases List.mem_append.1 hm with hm | hm
      · obtain ⟨b, hb, rfl⟩ := List.mem_map.1 hm
        exact (EqRow.holds_clear hF hx hp1 (hd b hb) hq).2 (h1 b hb)
      · rw [List.mem_singleton.1 hm]; exact hq
    · obtain ⟨b, hb, rfl⟩ := List.mem_map.1 hm
      exact (EqRow.holds_clear hF hx hp1 (hall b (by simp [hb])) hq).2
        (h2 b (hperm.mem_iff.1 (by simp [hb])))

/-- What satisfies every row satisfies every row of the result. -/
theorem gaussJordan_holds {F : Gf} (hF : F.Good) {L m : Nat} (cs : List Nat) {done rest out : List EqRow}
    {x : Nat → Nat → Nat} (hx : ∀ c t, x c t < F.size) (hd : ∀ r ∈ done, r.Ok F L m)
    (hr : ∀ r ∈ rest, r.Ok F L m) (hhd : ∀ r ∈ done, r.Holds F x) (hhr : ∀ r ∈ rest, r.Holds F x)
    (h : gaussJordan F cs done rest = some out) : ∀ r ∈ out, r.Holds F x := by
  induction cs generalizing done rest with
  | nil => simp only [gaussJordan, Option.some.injEq] at h; exact h ▸ hhd
  | cons c cs ih =>
    obtain ⟨p, rest', hpiv, hrec⟩ := gaussJordan_cons h
    obtain ⟨hne, hperm⟩ := takePivot_some hpiv
    have hall : ∀ r ∈ p :: rest', r.Ok F L m := fun r hm => hr r (hperm.mem_iff.1 hm)
    have hp1 := (scaledPivot hF (hall p (by simp)) hne).1
    have hstep := (gaussJordan_step_holds hF hx hd hr hpiv).2 ⟨hhd, hhr⟩
    refine ih ?_ (clear_all_ok hF hp1 (fun r hm => hall r (by simp [hm]))) hstep.1 hstep.2 hrec
    intro r hm
    rcases List.mem_append.1 hm with hm | hm
    · exact clear_all_ok hF hp1 hd r hm
    · rw [List.mem_singleton.1 hm]; exact hp1

/-- With as many rows as columns no row is left over, so the result has the same solutions. -/
theorem gaussJordan_holds_square {F : Gf} (hF : F.Good) {L m : Nat} (cs : List Nat) {done rest out : List EqRow}
    {x : Nat → Nat → Nat} (hx : ∀ c t, x c t < F.size) (hd : ∀ r ∈ done, r.Ok F L m)
    (hr : ∀ r ∈ rest, r.Ok F L m) (hsq : rest.length = cs.length) (h : gaussJordan F cs done rest = some out)
    (hout : ∀ r ∈ out, r.Holds F x) : (∀ r ∈ done, r.Holds F x) ∧ ∀ r ∈ rest, r.Holds F x := by
  induction cs generalizing done rest with
  | nil =>
    simp only [gaussJordan, Option.some.injEq] at h
    subst h
    have : rest = [] := List.length_eq_zero_iff.1 hsq
    subst this
    exact ⟨hout, by simp⟩
  | cons c cs ih =>
    obtain ⟨p, rest', hpiv, hrec⟩ := gaussJordan_cons h
    obtain ⟨hne, hperm⟩ := takePivot_some hpiv
    have hall : ∀ r ∈ p :: rest', r.Ok F L m := fun r hm => hr r (hperm.mem_iff.1 hm)
    have hp1 := (scaledPivot hF (hall p (by simp)) hne).1
    refine (gaussJordan_step_holds hF hx hd hr hpiv).1 (ih ?_
      (clear_all_ok hF hp1 (fun r hm => hall r (by simp [hm]))) ?_ hrec)
    · intro r hm
      rcases List.mem_append.1 hm with hm | hm
      · exact clear_all_ok hF hp1 hd r hm
      · rw [List.mem_singleton.1 hm]; exact hp1
    · have := hperm.length_eq
      simp only [List.length_cons, List.length_map] at this hsq ⊢
      omega

/-! ### Solutions -/

/-- The blocks that `solveSystem` returns, one per column, are the values at those columns of anything that
satisfies all the rows and is zero outside them. -/
theorem solveSystem_unique {F : Gf} (hF : F.Good) {L m : Nat} {cols : List Nat} {rows : List EqRow} {X : List Vec}
    {x : Nat → Nat → Nat} (hx : ∀ c t, x c t < F.size) (hr : ∀ r ∈ rows, r.Ok F L m) (hnd : cols.Nodup)
    (hsol : ∀ r ∈ rows, r.Holds F x) (hzero : ∀ c, c ∉ cols → ∀ t, x c t = 0)
    (h : solveSystem F cols rows = some X) :
    X.length = cols.length ∧ (∀ v ∈ X, v.length = m) ∧
      ∀ i, i < cols.length → ∀ t, t < m → (X.getD i []).getD t 0 = x (cols.getD i 0) t := by
  obtain ⟨out, hout, rfl⟩ := Option.map_eq_some_iff.1 h
  have hok := gaussJordan_ok hF cols (by simp) hr hout
  have hsh := gaussJordan_shape hF cols [] (by simp) hr (by simpa using hnd)
    ⟨rfl, by simp⟩ (by simp) hout
  have hh := gaussJordan_holds hF cols hx (by simp) hr (by simp) hsol hout
  rw [List.nil_append] at hsh
  refine ⟨by simpa using hsh.1, ?_, ?_⟩
  · intro v hv
    obtain ⟨r, hrm, rfl⟩ := List.mem_map.1 hv
    exact (hok r hrm).rhsLength
  · intro i hi t ht
    have hil : i < out.length := by rw [hsh.1]; exact hi
    have hmem : out.getD i ⟨[], []⟩ ∈ out := by
      rw [List.getD_eq_getElem _ _ hil]; exact List.getElem_mem hil
    have e1 : (out.map EqRow.rhs).getD i [] = (out.getD i ⟨[], []⟩).rhs := by
      simp [List.getD_eq_getElem?_getD, List.getElem?_eq_getElem hil]
    rw [e1, ← hh _ hmem t (by rw [(hok _ hmem).rhsLength]; exact ht)]
    refine dot_unit (hx _ _) ?_ ?_
    · have := hsh.2 i i hi hi
      rwa [if_pos rfl] at this
    · intro d hd
      by_cases hdm : d ∈ cols
      · obtain ⟨j, hj, rfl⟩ := List.getElem_of_mem hdm
        have := hsh.2 i j hi hj
        rw [List.getD_eq_getElem _ _ hj] at this
        rw [if_neg (by rintro rfl; exact hd (by rw [List.getD_eq_getElem _ _ hj]))] at this
        exact .inl this
      · exact .inr (hzero d hdm t)

/-- The value at column c of the blocks `X` of the columns `cols`, symbol t. -/
def valueAt (cols : List Nat) (X : List Vec) (c t : Nat) : Nat :=
  if c ∈ cols then (X.getD (cols.idxOf c) []).getD t 0 else 0

/-- What `solveSystem` returns for as many rows as columns does satisfy the rows. -/
theorem solveSystem_holds_square {F : Gf} (hF : F.Good) {L m : Nat} {cols : List Nat} {rows : List EqRow}
    {X : List Vec} (hr : ∀ r ∈ rows, r.Ok F L m) (hnd : cols.Nodup) (hsq : rows.length = cols.length)
    (h : solveSystem F cols rows = some X) :
    (∀ c t, valueAt cols X c t < F.size) ∧ ∀ r ∈ rows, r.Holds F (valueAt cols X) := by
  obtain ⟨out, hout, rfl⟩ := Option.map_eq_some_iff.1 h
  have hok := gaussJordan_ok hF cols (by simp) hr hout
  have hsh := gaussJordan_shape hF cols [] (by simp) hr (by simpa using hnd)
    ⟨rfl, by simp⟩ (by simp) hout
  rw [List.nil_append] at hsh
  have hval : ∀ i, i < cols.length → ∀ t,
      valueAt cols (out.map EqRow.rhs) (cols.getD i 0) t = (out.getD i ⟨[], []⟩).rhs.getD t 0 := by
    intro i hi t
    have hil : i < out.length := by rw [hsh.1]; exact hi
    unfold valueAt
    rw [List.getD_eq_getElem _ _ hi, if_pos (List.getElem_mem hi), List.Nodup.idxOf_getElem hnd]
    simp [List.getD_eq_getElem?_getD, List.getElem?_eq_getElem hil]
  have hmem : ∀ i, i < cols.length → out.getD i ⟨[], []⟩ ∈ out := by
    intro i hi
    have hil : i < out.length := by rw [hsh.1]; exact hi
    rw [List.getD_eq_getElem _ _ hil]; exact List.getElem_mem hil
  have hx : ∀ c t, valueAt cols (out.map EqRow.rhs) c t < F.size := by
    intro c t
    by_cases hc : c ∈ cols
    · obtain ⟨i, hi, rfl⟩ := List.getElem_of_mem hc
      have := hval i hi t
      rw [List.getD_eq_getElem _ _ hi] at this
      rw [this]
      exact (hok _ (hmem i hi)).rhsIn.getD t
    · unfold valueAt; rw [if_neg hc]; exact F.size_pos
  refine ⟨hx, (gaussJordan_holds_square hF cols hx (by simp) hr hsq hout ?_).2⟩
  intro r hrm t ht
  obtain ⟨i, hil, rfl⟩ := List.getElem_of_mem hrm
  have hi : i < cols.length := by rw [← hsh.1]; exact hil
  have hg : out.getD i ⟨[], []⟩ = out[i] := List.getD_eq_getElem _ _ hil
  rw [← hg, ← hval i hi t]
  refine dot_unit (hx _ _) ?_ ?_
  · have := hsh.2 i i hi hi
    rwa [if_pos rfl] at this
  · intro d hd
    by_cases hdm : d ∈ cols
    · obtain ⟨j, hj, rfl⟩ := List.getElem_of_mem hdm
      have := hsh.2 i j hi hj
      rw [List.getD_eq_getElem _ _ hj] at this
      rw [if_neg (by rintro rfl; exact hd (by rw [List.getD_eq_getElem _ _ hj]))] at this
      exact .inl this
    · refine .inr ?_
      unfold valueAt
      rw [if_neg hdm]

/-! ### Success depends on the coefficients alone -/

theorem takePivot_coef {c : Nat} {rows rows' : List EqRow} (h : rows.map EqRow.coef = rows'.map EqRow.coef) :
    (takePivot c rows).map (fun x => (x.1.coef, x.2.map EqRow.coef))
      = (takePivot c rows').map (fun x => (x.1.coef, x.2.map EqRow.coef)) := by
  have hat : ∀ a b : EqRow, a.coef = b.coef → a.at c = b.at c := fun a b e => by unfold EqRow.at; rw [e]
  cases rows with
  | nil => cases rows' with
    | nil => rfl
    | cons => simp at h
  | cons r rs =>
    cases rows' with
    | nil => simp at h
    | cons r' rs' =>
      obtain ⟨h0, h1⟩ := List.cons.inj (by simpa using h : r.coef :: rs.map EqRow.coef = r'.coef :: rs'.map EqRow.coef)
      simp only [takePivot, drop_takeWhile_length, hat r r' h0]
      split
      · simp [h0, h1]
      · have hpre : (rs.takeWhile (fun x => decide (x.at c = 0))).map EqRow.coef
            = (rs'.takeWhile (fun x => decide (x.at c = 0))).map EqRow.coef
            ∧ (rs.dropWhile (fun x => decide (x.at c = 0))).map EqRow.coef
            = (rs'.dropWhile (fun x => decide (x.at c = 0))).map EqRow.coef := by
          clear h
          induction rs generalizing rs' with
          | nil => cases rs' with
            | nil => exact ⟨rfl, rfl⟩
            | cons => simp at h1
          | cons a rs ih =>
            cases rs' with
            | nil => simp at h1
            | cons b rs' =>
              obtain ⟨e0, e1⟩ := List.cons.inj
                (by simpa using h1 : a.coef :: rs.map EqRow.coef = b.coef :: rs'.map EqRow.coef)
              by_cases hb : b.at c = 0
              · have ha : a.at c = 0 := by rw [hat a b e0]; exact hb
                simp only [List.takeWhile_cons, List.dropWhile_cons, ha, hb, decide_true, if_true,
                  List.map_cons, e0]
                exact ⟨by rw [(ih _ e1).1], (ih _ e1).2⟩
              · have ha : ¬a.at c = 0 := by rw [hat a b e0]; exact hb
                simp [ha, hb, e0, e1]
        obtain ⟨hp, hq⟩ := hpre
        generalize rs.takeWhile (fun x => decide (x.at c = 0)) = pre at *
        generalize rs'.takeWhile (fun x => decide (x.at c = 0)) = pre' at *
        generalize rs.dropWhile (fun x => decide (x.at c = 0)) = post at *
        generalize rs'.dropWhile (fun x => decide (x.at c = 0)) = post' at *
        cases post with
        | nil => cases post' with
          | nil => rfl
          | cons => simp at hq
        | cons q post => cases post' with
          | nil => simp at hq
          | cons q' post' =>
            obtain ⟨e0, e1⟩ := List.cons.inj
              (by simpa using hq : q.coef :: post.map EqRow.coef = q'.coef :: post'.map EqRow.coef)
            simp [e0, e1, hp, h0]

theorem clear_coef {F : Gf} {c : Nat} {p p' b b' : EqRow} (hp : p.coef = p'.coef) (hb : b.coef = b'.coef) :
    (EqRow.clear F c p b).coef = (EqRow.clear F c p' b').coef := by
  have hat : b.at c = b'.at c := by unfold EqRow.at; rw [hb]
  unfold EqRow.clear
  rw [hat]
  split
  · exact hb
  · simp [EqRow.addMul, hp, hb]

theorem map_clear_coef {F : Gf} {c : Nat} {p p' : EqRow} (hp : p.coef = p'.coef) {rows rows' : List EqRow}
    (h : rows.map EqRow.coef = rows'.map EqRow.coef) :
    (rows.map (EqRow.clear F c p)).map EqRow.coef = (rows'.map (EqRow.clear F c p')).map EqRow.coef := by
  induction rows generalizing rows' with
  | nil => cases rows' with
    | nil => rfl
    | cons => simp at h
  | cons a rows ih => cases rows' with
    | nil => simp at h
    | cons b rows' =>
      obtain ⟨e0, e1⟩ := List.cons.inj
        (by simpa using h : a.coef :: rows.map EqRow.coef = b.coef :: rows'.map EqRow.coef)
      simp only [List.map_cons, clear_coef hp e0]
      rw [ih e1]

/-- Whether elimination succeeds does not depend on the right-hand sides. -/
theorem gaussJordan_isSome_coef (F : Gf) (cs : List Nat) {done done' rest rest' : List EqRow}
    (hd : done.map EqRow.coef = done'.map EqRow.coef) (hr : rest.map EqRow.coef = rest'.map EqRow.coef) :
    (gaussJordan F cs done rest).isSome = (gaussJordan F cs done' rest').isSome := by
  induction cs generalizing done done' rest rest' with
  | nil => rfl
  | cons c cs ih =>
    have hp := takePivot_coef (c := c) hr
    simp only [gaussJordan]
    cases h1 : takePivot c rest with
    | none =>
      cases h2 : takePivot c rest' with
      | none => rfl
      | some y => simp [h1, h2] at hp
    | some x =>
      cases h2 : takePivot c rest' with
      | none => simp [h1, h2] at hp
      | some y =>
        obtain ⟨p, tl⟩ := x
        obtain ⟨p', tl'⟩ := y
        simp only [h1, h2, Option.map_some, Option.some.injEq, Prod.mk.injEq] at hp
        have hat : p.at c = p'.at c := by unfold EqRow.at; rw [hp.1]
        have hs : (EqRow.scale F (gfInv F (p.at c)) p).coef = (EqRow.scale F (gfInv F (p'.at c)) p').coef := by
          simp [EqRow.scale, hat, hp.1]
        exact ih (by simp only [List.map_append, List.map_cons, List.map_nil, map_clear_coef hs hd, hs])
          (map_clear_coef hs hp.2)

theorem solveSystem_isSome_coef (F : Gf) (cols : List Nat) {rows rows' : List EqRow}
    (h : rows.map EqRow.coef = rows'.map EqRow.coef) :
    (solveSystem F cols rows).isSome = (solveSystem F cols rows').isSome := by
  simp only [solveSystem, Option.isSome_map]
  exact gaussJordan_isSome_coef F cols rfl h

end Sys2Proof.Machine
end

