-- ==== Sys2Proof/Laws/Sums.lean ====
section
/-! SUPPORT. Sums over lists, the left side of a row as a sum over columns, and what the success of Gaussian
elimination says of the rank of a system. -/

namespace Sys2Proof.Machine

/-! ### `xorOver` -/

theorem foldl_xor_start {α : Type} (l : List α) (f : α → Nat) (a : Nat) :
    l.foldl (fun x i => x ^^^ f i) a = a ^^^ xorOver l f := by
  unfold xorOver
  induction l generalizing a with
  | nil => simp
  | cons i l ih => rw [List.foldl_cons, List.foldl_cons, ih, ih (0 ^^^ f i)]; simp [Nat.xor_assoc]

@[simp] theorem xorOver_nil {α : Type} (f : α → Nat) : xorOver [] f = 0 := rfl

@[simp] theorem xorOver_cons {α : Type} (i : α) (l : List α) (f : α → Nat) :
    xorOver (i :: l) f = f i ^^^ xorOver l f := by
  have := foldl_xor_start l f (0 ^^^ f i)
  simpa [xorOver] using this

theorem xorOver_append {α : Type} (l l' : List α) (f : α → Nat) :
    xorOver (l ++ l') f = xorOver l f ^^^ xorOver l' f := by
  induction l with
  | nil => simp
  | cons i l ih => simp [ih, Nat.xor_assoc]

theorem xorOver_map {α β : Type} (l : List α) (g : α → β) (f : β → Nat) :
    xorOver (l.map g) f = xorOver l (fun i => f (g i)) := by
  induction l with
  | nil => rfl
  | cons i l ih => simp [ih]

theorem xorOver_congr {α : Type} {l : List α} {f g : α → Nat} (h : ∀ i ∈ l, f i = g i) :
    xorOver l f = xorOver l g := by
  induction l with
  | nil => rfl
  | cons i l ih =>
    rw [xorOver_cons, xorOver_cons, h i (by simp), ih (fun j hj => h j (by simp [hj]))]

theorem xorOver_zero {α : Type} {l : List α} {f : α → Nat} (h : ∀ i ∈ l, f i = 0) : xorOver l f = 0 := by
  induction l with
  | nil => rfl
  | cons i l ih => rw [xorOver_cons, h i (by simp), ih (fun j hj => h j (by simp [hj]))]; rfl

theorem xorOver_xor {α : Type} (l : List α) (f g : α → Nat) :
    xorOver l (fun i => f i ^^^ g i) = xorOver l f ^^^ xorOver l g := by
  induction l with
  | nil => simp
  | cons i l ih => simp only [xorOver_cons, ih]; ac_rfl

theorem xorOver_perm {α : Type} {l l' : List α} (h : l.Perm l') (f : α → Nat) : xorOver l f = xorOver l' f := by
  induction h with
  | nil => rfl
  | cons i _ ih => simp [ih]
  | swap i j l => simp only [xorOver_cons]; ac_rfl
  | trans _ _ h1 h2 => rw [h1, h2]

theorem xorOver_lt {α : Type} {F : Gf} {l : List α} {f : α → Nat} (h : ∀ i ∈ l, f i < F.size) :
    xorOver l f < F.size := by
  induction l with
  | nil => exact F.size_pos
  | cons i l ih =>
    rw [xorOver_cons]
    exact Nat.xor_lt_two_pow (h i (by simp)) (ih (fun j hj => h j (by simp [hj])))

/-- Multiplication distributes over a sum. -/
theorem gfMul_xorOver {α : Type} {F : Gf} (hF : F.Good) {a : Nat} (ha : a < F.size) (l : List α) (f : α → Nat) :
    gfMul F a (xorOver l f) = xorOver l (fun i => gfMul F a (f i)) := by
  induction l with
  | nil => simp
  | cons i l ih => rw [xorOver_cons, xorOver_cons, gfMul_xor_right hF ha, ih]

/-- The sum over the members of a filter is the sum with zeros elsewhere. -/
theorem xorOver_filter {α : Type} (l : List α) (p : α → Bool) (f : α → Nat) :
    xorOver (l.filter p) f = xorOver l (fun i => if p i then f i else 0) := by
  induction l with
  | nil => rfl
  | cons i l ih => by_cases h : p i = true <;> simp [h, ih]

/-- A symbol of a sum of vectors is the XOR of their symbols. -/
theorem vecSum_getD_xorOver {n : Nat} {vs : List Vec} (h : ∀ v ∈ vs, v.length = n) (t : Nat) :
    (vecSum n vs).getD t 0 = xorOver vs (fun v => v.getD t 0) := vecSum_getD h t

/-! ### The left side of a row -/

theorem xorOver_range_succ (n : Nat) (f : Nat → Nat) :
    xorOver (List.range (n + 1)) f = f 0 ^^^ xorOver (List.range n) (fun c => f (c + 1)) := by
  rw [List.range_succ_eq_map, xorOver_cons, xorOver_map]

/-- The sum over the columns of a row is the product with the vector of the values. -/
theorem rowValue_eq_dot {F : Gf} {n : Nat} {v : Vec} (hv : v.length = n) (x : Nat → Nat) :
    rowValue F n v x = dot F v x := by
  unfold rowValue
  induction v generalizing n x with
  | nil => subst hv; rfl
  | cons a v ih =>
    obtain rfl : n = v.length + 1 := by simpa using hv.symm
    rw [xorOver_range_succ]
    simp only [dot, List.getD_cons_zero, List.getD_cons_succ]
    rw [ih rfl (fun c => x (c + 1))]

theorem dot_zero {F : Gf} (v : Vec) (x : Nat → Nat) (h : ∀ d, v.getD d 0 = 0 ∨ x d = 0) : dot F v x = 0 := by
  induction v generalizing x with
  | nil => rfl
  | cons a v ih =>
    simp only [dot]
    rw [ih _ (fun d => by simpa using h (d + 1))]
    rcases h 0 with h | h
    · simp at h; simp [h]
    · simp [h]

/-- The term of one column taken out of a product. -/
theorem dot_take {F : Gf} (v : Vec) (x : Nat → Nat) (b : Nat) :
    dot F v x = dot F v (fun c => if c = b then 0 else x c) ^^^ gfMul F (v.getD b 0) (x b) := by
  induction v generalizing x b with
  | nil => simp [dot]
  | cons a v ih =>
    cases b with
    | zero =>
      simp only [dot]
      have : (fun c => if c + 1 = 0 then 0 else x (c + 1)) = fun c => x (c + 1) := by
        funext c; simp
      rw [this]
      simp [Nat.xor_comm]
    | succ b =>
      simp only [dot]
      rw [ih (fun c => x (c + 1)) b]
      have : (fun c => if c + 1 = b + 1 then 0 else x (c + 1)) = fun c => if c = b then 0 else x (c + 1) := by
        funext c; simp
      rw [this]
      simp [Nat.xor_assoc]

/-! ### Rank -/

/-- The rows with one symbol, zero, on the right: their solutions are the kernel of the coefficients. -/
def homogeneous (rows : List EqRow) : List EqRow := rows.map (fun r => ⟨r.coef, [0]⟩)

theorem homogeneous_coef (rows : List EqRow) : (homogeneous rows).map EqRow.coef = rows.map EqRow.coef := by
  simp [homogeneous]

theorem homogeneous_ok {F : Gf} {L m : Nat} {rows : List EqRow} (h : ∀ r ∈ rows, r.Ok F L m) :
    ∀ r ∈ homogeneous rows, r.Ok F L 1 := by
  intro r hr
  obtain ⟨b, hb, rfl⟩ := List.mem_map.1 hr
  exact ⟨(h b hb).coefLength, rfl, (h b hb).coefIn, by
    intro x hx
    have : x = 0 := by simpa using hx
    subst this
    exact F.size_pos⟩

theorem holds_homogeneous {F : Gf} (v : Vec) (x : Nat → Nat) :
    (EqRow.mk v [0]).Holds F (fun c _ => x c) ↔ dot F v x = 0 := by
  constructor
  · intro h; simpa using h 0 (by simp)
  · intro h t ht
    obtain rfl : t = 0 := by simpa using ht
    simpa using h

/-- Elimination fails only when some non-zero values satisfy all the rows with zero on the right. -/
theorem gaussJordan_none {F : Gf} (hF : F.Good) {L : Nat} (cs ds : List Nat) {done rest : List EqRow}
    (hd : ∀ r ∈ done, r.Ok F L 1) (hr : ∀ r ∈ rest, r.Ok F L 1) (hnd : (ds ++ cs).Nodup)
    (hdz : ∀ r ∈ done, r.rhs = [0]) (hrz : ∀ r ∈ rest, r.rhs = [0])
    (hu : UnitColumns ds done) (hz : ∀ r ∈ rest, ∀ d ∈ ds, r.at d = 0)
    (h : gaussJordan F cs done rest = none) :
    ∃ x : Nat → Nat, (∀ c, x c < F.size) ∧ (∃ c ∈ cs, x c ≠ 0) ∧
      (∀ r ∈ done, r.Holds F (fun c _ => x c)) ∧ ∀ r ∈ rest, r.Holds F (fun c _ => x c) := by
  induction cs generalizing ds done rest with
  | nil => simp [gaussJordan] at h
  | cons c cs ih =>
    cases hpiv : takePivot c rest with
    | none =>
      have hcz := takePivot_none hpiv
      have hcds : c ∉ ds := by
        intro hc
        have := List.nodup_append.1 hnd
        exact this.2.2 c hc c (by simp) rfl
      refine ⟨fun d => if d = c then 1 else if d ∈ ds then (done.getD (ds.idxOf d) ⟨[], []⟩).at c else 0,
        ?_, ⟨c, by simp, by simp⟩, ?_, ?_⟩
      · intro d
        dsimp only
        split
        · exact one_lt_size hF
        · split
          · rename_i hm
            have hl : ds.idxOf d < done.length := by rw [hu.1]; exact List.idxOf_lt_length_iff.2 hm
            rw [List.getD_eq_getElem _ _ hl]
            exact EqRow.at_lt (hd _ (List.getElem_mem hl)) c
          · exact F.size_pos
      · intro r hrm
        obtain ⟨i, hi, rfl⟩ := List.getElem_of_mem hrm
        have hi' : i < ds.length := by rw [← hu.1]; exact hi
        have hg : done.getD i ⟨[], []⟩ = done[i] := List.getD_eq_getElem _ _ hi
        have hnds : ds.Nodup := (List.nodup_append.1 hnd).1
        have hrow : ∀ j, j < ds.length → done[i].at (ds.getD j 0) = if i = j then 1 else 0 := by
          intro j hj; rw [← hg]; exact hu.2 i j hi' hj
        have hdi : ds.getD i 0 = ds[i] := List.getD_eq_getElem _ _ hi'
        have hne : ds[i] ≠ c := fun e => hcds (e ▸ List.getElem_mem hi')
        intro t ht
        rw [hdz _ hrm] at ht ⊢
        obtain rfl : t = 0 := by simpa using ht
        show dot F done[i].coef _ = 0
        rw [dot_take _ _ c, dot_take _ _ ds[i], dot_zero]
        · have e1 : done[i].coef.getD ds[i] 0 = 1 := by
            have := hrow i hi'; rw [if_pos rfl, hdi] at this; exact this
          simp only [e1, hne, if_false, if_true, List.getElem_mem, List.Nodup.idxOf_getElem hnds, hg,
            Nat.zero_xor]
          rw [gfMul_one_left (EqRow.at_lt (hd _ hrm) c)]
          have : gfMul F (done[i].coef.getD c 0) 1 = done[i].coef.getD c 0 := by
            have hlt : done[i].coef.getD c 0 < F.size := EqRow.at_lt (hd _ hrm) c
            rw [gfMul_comm hF hlt (one_lt_size hF), gfMul_one_left hlt]
          rw [this]
          exact Nat.xor_self _
        · intro d
          by_cases h1 : d = ds[i]
          · exact .inr (by simp [h1])
          · by_cases h2 : d = c
            · exact .inr (by simp [h2])
            · by_cases h3 : d ∈ ds
              · obtain ⟨j, hj, rfl⟩ := List.getElem_of_mem h3
                have := hrow j hj
                rw [List.getD_eq_getElem _ _ hj, if_neg (by rintro rfl; exact h1 rfl)] at this
                exact .inl this
              · exact .inr (by simp [h1, h2, h3])
      · intro r hrm t ht
        rw [hrz _ hrm] at ht ⊢
        obtain rfl : t = 0 := by simpa using ht
        show dot F r.coef _ = 0
        refine dot_zero _ _ (fun d => ?_)
        by_cases h2 : d = c
        · subst h2; exact .inl (hcz r hrm)
        · by_cases h3 : d ∈ ds
          · exact .inl (hz r hrm d h3)
          · exact .inr (by simp [h2, h3])
    | some y =>
      obtain ⟨p, rest'⟩ := y
      have hrec : gaussJordan F cs
          (done.map (EqRow.clear F c (EqRow.scale F (gfInv F (p.at c)) p)) ++ [EqRow.scale F (gfInv F (p.at c)) p])
          (rest'.map (EqRow.clear F c (EqRow.scale F (gfInv F (p.at c)) p))) = none := by
        simpa [gaussJordan, hpiv] using h
      -- one more column gives a unit column; the shape lemma is used on a one-column elimination
      have hone : gaussJordan F [c] done rest = some
          (done.map (EqRow.clear F c (EqRow.scale F (gfInv F (p.at c)) p))
            ++ [EqRow.scale F (gfInv F (p.at c)) p]) := by
        simp [gaussJordan, hpiv]
      have hnd1 : (ds ++ [c]).Nodup := by
        have := List.nodup_append.1 hnd
        refine List.nodup_append.2 ⟨this.1, by simp, fun a ha b hb => ?_⟩
        rw [List.mem_singleton.1 hb]
        exact this.2.2 a ha c (by simp)
      have hu1 := gaussJordan_shape hF [c] ds hd hr hnd1 hu hz hone
      have hok1 := gaussJordan_ok hF [c] hd hr hone
      obtain ⟨hne, hperm⟩ := takePivot_some hpiv
      have hall : ∀ r ∈ p :: rest', r.Ok F L 1 := fun r hx => hr r (hperm.mem_iff.1 hx)
      have hpz : p.rhs = [0] := hrz p (hperm.mem_iff.1 (by simp))
      obtain ⟨hp1, hat⟩ := scaledPivot hF (hall p (by simp)) hne
      have hqz : (EqRow.scale F (gfInv F (p.at c)) p).rhs = [0] := by
        simp [EqRow.scale, vecScale, hpz]
      have hqd : ∀ d ∈ ds, (EqRow.scale F (gfInv F (p.at c)) p).at d = 0 := by
        intro d hdm
        rw [EqRow.scale_at, hz p (hperm.mem_iff.1 (by simp)) d hdm, gfMul_zero_right]
      have hstep : ∀ x : Nat → Nat, (∀ c, x c < F.size) → _ := fun x hx =>
        gaussJordan_step_holds hF (x := fun c _ => x c) (fun c _ => hx c) hd hr hpiv
      generalize EqRow.scale F (gfInv F (p.at c)) p = q at *
      have hclz : ∀ b : EqRow, b.rhs = [0] → (EqRow.clear F c q b).rhs = [0] := by
        intro b hb
        unfold EqRow.clear
        split
        · exact hb
        · simp [EqRow.addMul, vecAdd, vecScale, hb, hqz, gfAdd]
      obtain ⟨x, hx, ⟨c', hc', hne'⟩, h1, h2⟩ := ih (ds ++ [c]) (done := done.map (EqRow.clear F c q) ++ [q])
        (rest := rest'.map (EqRow.clear F c q)) hok1
        (clear_all_ok hF hp1 (fun r hm => hall r (by simp [hm]))) (by simpa using hnd)
        (by
          intro r hm
          rcases List.mem_append.1 hm with hm | hm
          · obtain ⟨b, hb, rfl⟩ := List.mem_map.1 hm; exact hclz b (hdz b hb)
          · rw [List.mem_singleton.1 hm]; exact hqz)
        (by
          intro r hm
          obtain ⟨b, hb, rfl⟩ := List.mem_map.1 hm
          exact hclz b (hrz b (hperm.mem_iff.1 (by simp [hb]))))
        hu1
        (by
          intro r hm d hdm
          obtain ⟨b, hb, rfl⟩ := List.mem_map.1 hm
          have hbok := hall b (by simp [hb])
          rw [EqRow.clear_at hp1 hbok]
          rcases List.mem_append.1 hdm with hdm | hdm
          · rw [hqd d hdm, gfMul_zero_right, Nat.xor_zero]
            exact hz b (hperm.mem_iff.1 (by simp [hb])) d hdm
          · rw [List.mem_singleton.1 hdm, hat, gfMul_comm hF (EqRow.at_lt hbok c) (one_lt_size hF),
              gfMul_one_left (EqRow.at_lt hbok c), Nat.xor_self])
        hrec
      exact ⟨x, hx, ⟨c', by simp [hc'], hne'⟩, (hstep x hx).1 ⟨h1, h2⟩⟩

/-- A system of rows of L coefficients is solved by elimination exactly when its coefficients have rank L. -/
theorem solveSystem_isSome_iff_fullRank {F : Gf} (hF : F.Good) {L m : Nat} {rows : List EqRow}
    (hr : ∀ r ∈ rows, r.Ok F L m) :
    (solveSystem F (List.range L) rows).isSome = true ↔ FullRank F L (rows.map EqRow.coef) := by
  rw [solveSystem_isSome_coef F (List.range L) (homogeneous_coef rows).symm]
  have hok := homogeneous_ok hr
  constructor
  · intro hs x hx hrow c hc
    obtain ⟨X, hX⟩ := Option.isSome_iff_exists.1 hs
    have hzero : ∀ y : Nat → Nat, (∀ c, y c < F.size) → (∀ c, L ≤ c → y c = 0) →
        (∀ v ∈ rows.map EqRow.coef, rowValue F L v y = 0) → (X.getD c []).getD 0 0 = y c := by
      intro y hy hyz hyr
      have := (solveSystem_unique hF (x := fun c _ => y c) (fun c _ => hy c) hok List.nodup_range
        (by
          intro r hm
          obtain ⟨b, hb, rfl⟩ := List.mem_map.1 hm
          rw [holds_homogeneous, ← rowValue_eq_dot (hr b hb).coefLength]
          exact hyr _ (List.mem_map_of_mem hb))
        (by intro d hd t; exact hyz d (by simpa using hd)) hX).2.2 c (by simpa using hc) 0 (by omega)
      simpa [List.getD_eq_getElem?_getD, hc] using this
    have h1 := hzero (fun d => if d < L then x d else 0)
      (by intro d; by_cases hd : d < L <;> simp [hd, hx d, F.size_pos])
      (fun d hd => if_neg (by omega)) (by
        intro v hv
        rw [show rowValue F L v (fun d => if d < L then x d else 0) = rowValue F L v x from
          xorOver_congr (fun d hd => by simp [List.mem_range.1 hd])]
        exact hrow v hv)
    have h2 := hzero (fun _ => 0) (fun _ => F.size_pos) (fun _ _ => rfl) (by
      intro v _
      exact xorOver_zero (fun d _ => gfMul_zero_right F _))
    rw [h2, if_pos hc] at h1
    exact h1.symm
  · intro hfull
    rw [← Option.ne_none_iff_isSome]
    intro hn
    have hg : gaussJordan F (List.range L) [] (homogeneous rows) = none := by
      simpa [solveSystem] using hn
    obtain ⟨x, hx, ⟨c, hc, hne⟩, -, h2⟩ := gaussJordan_none hF (List.range L) [] (by simp) hok
      (by simpa using List.nodup_range) (by simp)
      (by intro r hm; obtain ⟨b, _, rfl⟩ := List.mem_map.1 hm; rfl) ⟨rfl, by simp⟩ (by simp) hg
    refine hne (hfull x hx ?_ c (by simpa using hc))
    intro v hv
    obtain ⟨b, hb, rfl⟩ := List.mem_map.1 hv
    rw [rowValue_eq_dot (hr b hb).coefLength]
    exact (holds_homogeneous _ _).1 (h2 _ (List.mem_map_of_mem hb))

end Sys2Proof.Machine
end

