-- ==== Sys2Proof/Laws/Commands.lean ====
section
/-! SUPPORT. What the pseudocode of each coding command can answer, once: with which state it succeeds and when,
and with which codes it fails. Later proofs cite these and do not unfold the commands. -/

namespace Sys2Proof.Machine

/-! ### The encoders -/

/-- The blocks `RS.ENC` writes (line 6 of R158). -/
def State.rsBlocks (s : State) : List (Nat × Vec) :=
  (List.range (parityCountRs s.kVal s.redunVal)).map
    (fun j => (s.kVal + j, s.rsParity (rsField s.kVal) s.kVal j))

theorem parityCountRs_zero (r : Int) : parityCountRs 0 r = 0 := by simp [parityCountRs]
theorem parityCountRq_zero (r : Int) : parityCountRq 0 r = 0 := by simp [parityCountRq]

/-- Where the operands fit, `RS.ENC` succeeds. -/
theorem rsEncode_of_fits {s : State} (h : s.RsEncodeFits) :
    rsEncode s = .ok ((s.setSymbols (rsField s.kVal) s.rsBlocks).publish
      (s.kVal + parityCountRs s.kVal s.redunVal)) := by
  have hb := h.blenFits
  have he := h.evenLength
  have hs := h.slotsFit
  unfold rsEncode
  rw [if_neg (by omega)]
  split
  · rename_i hk
    unfold State.rsBlocks
    rw [hk, parityCountRs_zero]
    rfl
  · rw [if_neg (by simpa [State.rsOddLen] using fun hk => by have := he hk; omega), if_neg (by omega)]
    rfl

/-- When `RS.ENC` succeeds its operands fit. -/
theorem rsEncode_ok {s u : State} (h : rsEncode s = .ok u) :
    s.RsEncodeFits ∧ u = (s.setSymbols (rsField s.kVal) s.rsBlocks).publish
      (s.kVal + parityCountRs s.kVal s.redunVal) := by
  have key : s.RsEncodeFits := by
    unfold rsEncode at h
    dsimp only at h
    split at h
    · simp at h
    · split at h
      · rename_i hk
        exact ⟨by omega, by omega, by rw [hk, parityCountRs_zero]; omega⟩
      · split at h
        · simp at h
        · rename_i ho
          split at h
          · simp at h
          · refine ⟨by omega, fun hk => ?_, by omega⟩
            have : ¬s.blenVal % 2 = 1 := by
              simpa [State.rsOddLen, hk] using ho
            omega
  rw [rsEncode_of_fits key] at h
  exact ⟨key, by simpa [eq_comm] using h⟩

/-- The codes `RS.ENC` can raise. -/
theorem rsEncode_error {s : State} {c : ErrCode} (h : rsEncode s = .error c) : c = .capacity ∨ c = .oddLen := by
  unfold rsEncode at h
  dsimp only at h
  split at h
  · exact .inl (by simpa [eq_comm] using h)
  · split at h
    · simp at h
    · split at h
      · exact .inr (by simpa [eq_comm] using h)
      · split at h
        · exact .inl (by simpa [eq_comm] using h)
        · simp at h

/-- All that `RQ.ENC` can answer with success. -/
theorem rqEncode_ok {s u : State} (h : rqEncode s = .ok u) :
    s.blenVal ≤ s.slotb ∧ s.kVal + parityCountRq s.kVal s.redunVal ≤ s.nslot ∧
    ((parityCountRq s.kVal s.redunVal = 0 ∧ u = s.publish s.kVal) ∨
      ∃ J C, 1 ≤ s.kVal ∧ systematicIndex s.kVal = some J ∧ s.rqIntermediate s.kVal J = some C ∧
        u = (s.setSymbols gf8 ((List.range (parityCountRq s.kVal s.redunVal)).map
          (fun j => (s.kVal + j, rqSym s.blenVal C s.kVal J (s.kVal + j))))).publish
            (s.kVal + parityCountRq s.kVal s.redunVal)) := by
  unfold rqEncode at h
  dsimp only at h
  split at h
  · simp at h
  · split at h
    · rename_i hk
      refine ⟨by omega, by rw [hk, parityCountRq_zero]; omega, .inl ⟨by rw [hk, parityCountRq_zero], ?_⟩⟩
      rw [hk]; simpa [eq_comm] using h
    · split at h
      · simp at h
      · split at h
        · exact ⟨by omega, by omega, .inl ⟨‹_›, by simpa [eq_comm] using h⟩⟩
        · cases hJ : systematicIndex s.kVal with
          | none => rw [hJ] at h; simp at h
          | some J =>
            rw [hJ] at h
            dsimp only at h
            cases hC : s.rqIntermediate s.kVal J with
            | none => rw [hC] at h; simp at h
            | some C =>
              rw [hC] at h
              exact ⟨by omega, by omega, .inr ⟨J, C, by omega, rfl, hC, (Except.ok.inj h).symm⟩⟩

/-- The only code `RQ.ENC` can raise. -/
theorem rqEncode_error {s : State} {c : ErrCode} (h : rqEncode s = .error c) : c = .capacity := by
  unfold rqEncode at h
  dsimp only at h
  split at h
  · simpa [eq_comm] using h
  · split at h
    · simp at h
    · split at h
      · simpa [eq_comm] using h
      · split at h
        · simp at h
        · split at h
          · simpa [eq_comm] using h
          · split at h
            · simpa [eq_comm] using h
            · simp at h

/-! ### The decoders -/

/-- All that `RS.DEC` can answer with success. -/
theorem rsDecode_ok {s u : State} (h : rsDecode s = .ok u) :
    s.DecodeFits ∧ (256 ≤ s.kVal → s.blenVal % 2 = 0) ∧
    ((decodeContract s = .ok .direct ∧ u = s.publish s.kVal) ∨
      ∃ X, decodeContract s = .ok .general ∧ s.rsRecover (rsField s.kVal) s.kVal = some X ∧
        u = (s.setSymbols (rsField s.kVal) (List.zip (s.erased s.kVal) X)).publish s.kVal) := by
  unfold rsDecode at h
  dsimp only at h
  split at h
  · simp at h
  · split at h
    · simp at h
    · rename_i h1 h2
      have heven : 256 ≤ s.kVal → s.blenVal % 2 = 0 := by
        intro hk
        have : ¬s.blenVal % 2 = 1 := by simpa [State.rsOddLen, hk] using h2
        omega
      refine ⟨⟨by omega, by omega⟩, heven, ?_⟩
      split at h
      · simp at h
      · exact .inl ⟨‹_›, by simpa [eq_comm] using h⟩
      · split at h
        · simp at h
        · exact .inr ⟨_, ‹_›, ‹_›, by simpa [eq_comm] using h⟩

/-- The codes `RS.DEC` can raise. -/
theorem rsDecode_error {s : State} {c : ErrCode} (h : rsDecode s = .error c) :
    c = .capacity ∨ c = .oddLen ∨ c = .insufficientBlocks ∨ c = .decodingFailed := by
  unfold rsDecode at h
  dsimp only at h
  split at h
  · exact .inl (by simpa [eq_comm] using h)
  · split at h
    · exact .inr (.inl (by simpa [eq_comm] using h))
    · split at h
      · rename_i code hc
        have hcode : c = code := by simpa [eq_comm] using h
        rcases decodeContract_cases s with ⟨h0, -⟩ | ⟨h0, -⟩ | ⟨h0, -⟩ | ⟨h0, -⟩ <;> rw [hc] at h0
        · simp at h0
        · exact .inr (.inr (.inl (by rw [hcode]; simpa using h0)))
        · exact .inr (.inr (.inr (by rw [hcode]; simpa using h0)))
        · simp at h0
      · simp at h
      · split at h
        · exact .inr (.inr (.inr (by simpa [eq_comm] using h)))
        · simp at h

/-- All that `RQ.DEC` can answer with success. -/
theorem rqDecode_ok {s u : State} (h : rqDecode s = .ok u) :
    s.DecodeFits ∧
    ((decodeContract s = .ok .direct ∧ u = s.publish s.kVal) ∨
      ∃ J C, decodeContract s = .ok .general ∧ systematicIndex s.kVal = some J ∧ s.rqSolve s.kVal J = some C ∧
        u = (s.setSymbols gf8 ((s.erased s.kVal).map
          (fun i => (i, rqSym s.blenVal C s.kVal J i)))).publish s.kVal) := by
  unfold rqDecode at h
  dsimp only at h
  split at h
  · simp at h
  · refine ⟨⟨by omega, by omega⟩, ?_⟩
    split at h
    · simp at h
    · exact .inl ⟨‹_›, by simpa [eq_comm] using h⟩
    · rename_i hgen
      cases hJ : systematicIndex s.kVal with
      | none => rw [hJ] at h; simp at h
      | some J =>
        rw [hJ] at h
        dsimp only at h
        cases hC : s.rqSolve s.kVal J with
        | none => rw [hC] at h; simp at h
        | some C =>
          rw [hC] at h
          exact .inr ⟨J, C, hgen, rfl, hC, (Except.ok.inj h).symm⟩

/-- The codes `RQ.DEC` can raise. -/
theorem rqDecode_error {s : State} {c : ErrCode} (h : rqDecode s = .error c) :
    c = .capacity ∨ c = .insufficientBlocks ∨ c = .decodingFailed := by
  unfold rqDecode at h
  dsimp only at h
  split at h
  · exact .inl (by simpa [eq_comm] using h)
  · split at h
    · rename_i code hc
      have hcode : c = code := by simpa [eq_comm] using h
      rcases decodeContract_cases s with ⟨h0, -⟩ | ⟨h0, -⟩ | ⟨h0, -⟩ | ⟨h0, -⟩ <;> rw [hc] at h0
      · simp at h0
      · exact .inr (.inl (by rw [hcode]; simpa using h0))
      · exact .inr (.inr (by rw [hcode]; simpa using h0))
      · simp at h0
    · simp at h
    · split at h
      · exact .inl (by simpa [eq_comm] using h)
      · split at h
        · exact .inr (.inr (by simpa [eq_comm] using h))
        · simp at h

/-! ### The field commands -/

theorem fieldDone_eq (s : State) (v : Nat) : fieldDone s v = .next (s.answered v) := rfl

theorem fieldPartial_eq (s : State) (x v : Nat) :
    fieldPartial s x v = .next (if x = 0 then s.failed .gfUndef else s.answered v) := by
  unfold fieldPartial
  split <;> rfl

/-! ### The systems of the RaptorQ coder are well formed -/

theorem powBits_lt {F : Gf} (hF : F.Good) (n : Nat) {a : Nat} (ha : a < F.size) (e : Nat) :
    powBits F n a e < F.size := by
  induction n generalizing a e with
  | zero => exact one_lt_size hF
  | succ n ih =>
    simp only [powBits]
    split
    · exact gfMul_lt hF ha _
    · exact ih (gfMul_lt hF ha _) _

theorem two_lt_size {F : Gf} (hF : F.Good) : 2 < F.size := by
  have h := hF.bitsPos
  have : 2 ^ 2 ≤ F.size := Nat.pow_le_pow_right (by omega) h
  omega

theorem gfExp_lt {F : Gf} (hF : F.Good) (i : Nat) : gfExp F i < F.size := powBits_lt hF _ (two_lt_size hF) _

/-- Every row of the constraint rows and every symbol row has L coefficients of GF(256). -/
theorem constraintRows_ok {k : Nat} {v : Vec} (h : v ∈ constraintRows k) : v.length = rqL k ∧ InField gf8 v := by
  have h1 : (1 : Nat) < gf8.size := by decide
  have h0 : (0 : Nat) < gf8.size := by decide
  rcases List.mem_append.1 h with h | h
  · obtain ⟨r, -, rfl⟩ := List.mem_map.1 h
    refine ⟨by simp [ldpcRow], fun x hx => ?_⟩
    obtain ⟨c, -, rfl⟩ := List.mem_map.1 hx
    unfold ldpcCoef
    dsimp only
    split
    · split <;> assumption
    · split <;> assumption
  · obtain ⟨r, -, rfl⟩ := List.mem_map.1 h
    refine ⟨by simp [hdpcRow], fun x hx => ?_⟩
    obtain ⟨c, -, rfl⟩ := List.mem_map.1 hx
    unfold hdpcCoef hdCoef
    split
    · exact gfExp_lt gf8_good _
    · split <;> assumption

theorem rqRow_ok (k J sid : Nat) : (rqRow k J sid).length = rqL k ∧ InField gf8 (rqRow k J sid) := by
  refine ⟨by simp [rqRow], fun x hx => ?_⟩
  obtain ⟨c, -, rfl⟩ := List.mem_map.1 hx
  have h1 : (1 : Nat) < gf8.size := by decide
  have h0 : (0 : Nat) < gf8.size := by decide
  split <;> assumption

/-- The equations of R206 and R233 are rows of L coefficients and `blen` bytes. -/
theorem rqSystem_ok {blen k J : Nat} {symbols : List (Nat × Vec)}
    (h : ∀ x ∈ symbols, x.2.length = blen ∧ InField gf8 x.2) :
    ∀ r ∈ rqSystem blen k J symbols, r.Ok gf8 (rqL k) blen := by
  intro r hr
  rcases List.mem_append.1 hr with hr | hr
  · obtain ⟨v, hv, rfl⟩ := List.mem_map.1 hr
    obtain ⟨h1, h2⟩ := constraintRows_ok hv
    exact ⟨h1, by simp, h2, fun x hx => by rw [(List.mem_replicate.1 hx).2]; exact gf8.size_pos⟩
  · obtain ⟨x, hx, rfl⟩ := List.mem_map.1 hr
    obtain ⟨h1, h2⟩ := h x hx
    exact ⟨(rqRow_ok k J x.1).1, h1, (rqRow_ok k J x.1).2, h2⟩

theorem rqSystem_coef (blen k J : Nat) (symbols : List (Nat × Vec)) :
    (rqSystem blen k J symbols).map EqRow.coef
      = constraintRows k ++ symbols.map (fun x => rqRow k J x.1) := by
  simp [rqSystem, Function.comp_def]

/-- A block as bytes: as many as `BLEN`, each an element of GF(256). -/
theorem State.symbols_gf8_ok (s : State) (i : Nat) :
    (s.symbols gf8 i).length = s.blenVal ∧ InField gf8 (s.symbols gf8 i) := by
  have h : s.symbols gf8 i = (s.blk i).map BitVec.toNat := rfl
  rw [h]
  refine ⟨by simp [State.blk, State.memRead, State.blenVal, unsignedWord], fun x hx => ?_⟩
  obtain ⟨b, -, rfl⟩ := List.mem_map.1 hx
  exact b.isLt

/-- Where the systematic index exists the encoder's system has a solution, so line 8 of R208 cannot fail. -/
theorem State.rqIntermediate_isSome (s : State) {k J : Nat} (h : systematicIndex k = some J) :
    (s.rqIntermediate k J).isSome = true := by
  have hns := List.find?_some h
  unfold nonSingular at hns
  unfold State.rqIntermediate
  rw [← hns]
  refine solveSystem_isSome_coef gf8 _ ?_
  rw [rqSystem_coef]
  simp [precodeMatrix, Function.comp_def]

/-- The decoding system has rank L exactly where elimination solves it (R235). -/
theorem State.receivedRows_fullRank (s : State) (k J : Nat) :
    (solveSystem gf8 (List.range (rqL k)) (s.rqReceived k J)).isSome = true ↔
      FullRank gf8 (rqL k) (s.receivedRows k J) := by
  have hok : ∀ r ∈ s.rqReceived k J, r.Ok gf8 (rqL k) s.blenVal := by
    refine rqSystem_ok ?_
    intro x hx
    obtain ⟨i, -, rfl⟩ := List.mem_map.1 hx
    exact s.symbols_gf8_ok i
  rw [solveSystem_isSome_iff_fullRank gf8_good hok, State.rqReceived, rqSystem_coef]
  simp [State.receivedRows, Function.comp_def]

end Sys2Proof.Machine
end

