-- ==== Sys2Proof/Laws/Decoder.lean ====
section
/-! SUPPORT. What each turn of the two-phase decoder does: the row that R241 chooses, the pivot and the eliminated rows
of R242 and R243, and the end of phase 1 (R244). -/

namespace Sys2Proof.Machine

/-! ### Columns and rows of a working state -/

theorem Work.classOf_of_le {w : Work} {c : Nat} (h : w.cls.length ≤ c) : w.classOf c = .inactive := by
  simp [Work.classOf, List.getD_eq_getElem?_getD, List.getElem?_eq_none h]

theorem Work.openAt_iff (w : Work) (r c : Nat) :
    w.openAt r c = true ↔ w.classOf c = .unresolved ∧ (w.row r).at c ≠ 0 := by
  simp [Work.openAt]

theorem Work.lt_of_openAt {w : Work} {r c : Nat} (h : w.openAt r c = true) : c < w.cls.length := by
  by_contra hc
  rw [Work.openAt_iff, Work.classOf_of_le (by omega)] at h
  exact absurd h.1 (by decide)

theorem Work.row_of_le {w : Work} {r : Nat} (h : w.rows.length ≤ r) : w.row r = ⟨[], []⟩ := by
  simp [Work.row, List.getD_eq_getElem?_getD, List.getElem?_eq_none h]

theorem Work.isRow_of_openAt {w : Work} {r c : Nat} (h : w.openAt r c = true) : r < w.rows.length := by
  by_contra hr
  rw [Work.openAt_iff, Work.row_of_le (by omega)] at h
  exact h.2 (by simp [EqRow.at])

theorem Work.row_mem {w : Work} {r : Nat} (h : r < w.rows.length) : w.row r ∈ w.rows := by
  rw [Work.row, List.getD_eq_getElem?_getD, List.getElem?_eq_getElem h]
  exact List.getElem_mem h

theorem Work.openColumns_eq (w : Work) (r : Nat) :
    w.openColumns (w.row r) = (List.range w.cls.length).filter (w.openAt r) := by
  unfold Work.openColumns
  congr 1

theorem Work.weight_row (w : Work) (r : Nat) : w.weight (w.row r) = w.openCount r := by
  rw [Work.weight, Work.openColumns_eq, Work.openCount, List.countP_eq_length_filter]

theorem Work.openCount_pos {w : Work} {r : Nat} : 1 ≤ w.openCount r ↔ ∃ c, w.openAt r c = true := by
  unfold Work.openCount
  rw [Nat.one_le_iff_ne_zero, ← Nat.pos_iff_ne_zero, List.countP_pos_iff]
  constructor
  · rintro ⟨c, -, h⟩; exact ⟨c, h⟩
  · rintro ⟨c, h⟩; exact ⟨c, List.mem_range.2 (Work.lt_of_openAt h), h⟩

/-! ### The row choice (R241) -/

/-- Going through candidates of rising row number keeps the least weight, among equals the first. -/
theorem foldl_betterRow {l : List (Nat × Nat)} {b : Nat × Nat} (h : (b :: l).Pairwise (fun x y => x.2 < y.2)) :
    ∃ x ∈ b :: l, l.foldl betterRow (some b) = some x ∧
      ∀ y ∈ b :: l, x.1 < y.1 ∨ (x.1 = y.1 ∧ x.2 ≤ y.2) := by
  induction l generalizing b with
  | nil => exact ⟨b, by simp, rfl, by simp⟩
  | cons a l ih =>
    obtain ⟨h1, h2⟩ := List.pairwise_cons.1 h
    obtain ⟨h3, h4⟩ := List.pairwise_cons.1 h2
    by_cases hab : a.1 < b.1
    · obtain ⟨x, hx, hf, hm⟩ := ih h2
      refine ⟨x, List.mem_cons_of_mem _ hx, by simpa [betterRow, hab] using hf, ?_⟩
      intro y hy
      rcases List.mem_cons.1 hy with rfl | hy
      · have := hm a (by simp); omega
      · exact hm y hy
    · obtain ⟨x, hx, hf, hm⟩ := ih (b := b)
        (List.pairwise_cons.2 ⟨fun y hy => h1 y (List.mem_cons_of_mem _ hy), h4⟩)
      refine ⟨x, ?_, by simpa [betterRow, hab] using hf, ?_⟩
      · rcases List.mem_cons.1 hx with rfl | hx
        · simp
        · simp [hx]
      · intro y hy
        have hb := hm b (by simp)
        rcases List.mem_cons.1 hy with rfl | hy
        · exact hb
        · rcases List.mem_cons.1 hy with rfl | hy
          · have := h1 y (by simp); omega
          · exact hm y (by simp [hy])

theorem pairwise_zipIdx {α : Type} (l : List α) (n : Nat) : (l.zipIdx n).Pairwise (fun x y => x.2 < y.2) := by
  induction l generalizing n with
  | nil => simp
  | cons a l ih =>
    rw [List.zipIdx_cons, List.pairwise_cons]
    exact ⟨fun x hx => by have := List.le_snd_of_mem_zipIdx hx; simp; omega, ih _⟩

/-- The list that `Work.chooseRow` goes through. -/
def Work.candidates (S H : Nat) (w : Work) : List (Nat × Nat) :=
  ((w.rows.zipIdx.filter (fun x => isSparse S H x.2 && !(w.used.contains x.2))).map
    (fun x => (w.weight x.1, x.2))).filter (fun x => 1 ≤ x.1)

theorem Work.chooseRow_eq (S H : Nat) (w : Work) :
    w.chooseRow S H = ((w.candidates S H).foldl betterRow none).map Prod.snd := rfl

theorem Work.mem_candidates {S H : Nat} {w : Work} {x : Nat × Nat} :
    x ∈ w.candidates S H ↔ w.Candidate S H x.2 ∧ x.1 = w.openCount x.2 := by
  have hrow : ∀ (a : EqRow) (i : Nat), w.rows[i]? = some a → w.row i = a := fun a i h => by
    simp [Work.row, List.getD_eq_getElem?_getD, h]
  constructor
  · intro h
    obtain ⟨h, h1⟩ := List.mem_filter.1 h
    obtain ⟨⟨a, i⟩, hy, rfl⟩ := List.mem_map.1 h
    obtain ⟨hy, h2⟩ := List.mem_filter.1 hy
    have hi : w.rows[i]? = some a := by simpa using List.mem_zipIdx_iff_getElem?.1 hy
    have hw : w.weight a = w.openCount i := by rw [← hrow a i hi, Work.weight_row]
    simp only [Bool.and_eq_true, Bool.not_eq_true', isSparse, decide_eq_true_eq, List.contains_eq_mem,
      decide_eq_false_iff_not] at h1 h2
    exact ⟨⟨(List.getElem?_eq_some_iff.1 hi).1, h2.1, h2.2, hw ▸ h1⟩, hw⟩
  · rintro ⟨⟨h1, h2, h3, h4⟩, h5⟩
    obtain ⟨n, i⟩ := x
    obtain rfl : n = w.openCount i := h5
    refine List.mem_filter.2 ⟨List.mem_map.2 ⟨(w.row i, i), List.mem_filter.2 ⟨?_, ?_⟩, ?_⟩, by simpa using h4⟩
    · exact List.mem_zipIdx_iff_getElem?.2 (by simp [Work.row, List.getD_eq_getElem?_getD, h1])
    · simpa [isSparse, h3] using h2
    · simp [Work.weight_row]

theorem Work.pairwise_candidates (S H : Nat) (w : Work) :
    (w.candidates S H).Pairwise (fun x y => x.2 < y.2) := by
  refine List.Pairwise.filter _ (List.pairwise_map.2 ?_)
  exact (pairwise_zipIdx _ _).filter _

theorem Work.chosen_unique {S H : Nat} {w : Work} {r r' : Nat} (h : w.Chosen S H r) (h' : w.Chosen S H r') :
    r = r' := by
  have h1 := h.least r' h'.candidate
  have h2 := h'.least r h.candidate
  omega

/-- No row is chosen exactly where there is no candidate. -/
theorem Work.chooseRow_none {S H : Nat} {w : Work} : w.chooseRow S H = none ↔ ∀ r, ¬w.Candidate S H r := by
  rw [Work.chooseRow_eq]
  cases hc : w.candidates S H with
  | nil =>
    simp only [List.foldl_nil, Option.map_none, true_iff]
    intro r hr
    have : (w.openCount r, r) ∈ w.candidates S H := Work.mem_candidates.2 ⟨hr, rfl⟩
    simp [hc] at this
  | cons b l =>
    obtain ⟨x, hx, hf, -⟩ := foldl_betterRow (hc ▸ Work.pairwise_candidates S H w)
    have hx' := (Work.mem_candidates.1 (hc ▸ hx)).1
    simp only [List.foldl_cons, betterRow, hf, Option.map_some, reduceCtorEq, false_iff]
    exact fun h => h _ hx'

/-- The row chosen is the one R241 tells. -/
theorem Work.chooseRow_some {S H : Nat} {w : Work} {r : Nat} : w.chooseRow S H = some r ↔ w.Chosen S H r := by
  have key : ∀ r, w.chooseRow S H = some r → w.Chosen S H r := by
    intro r h
    rw [Work.chooseRow_eq] at h
    cases hc : w.candidates S H with
    | nil => simp [hc] at h
    | cons b l =>
      obtain ⟨x, hx, hf, hm⟩ := foldl_betterRow (hc ▸ Work.pairwise_candidates S H w)
      rw [hc, List.foldl_cons, betterRow, hf] at h
      obtain rfl : x.2 = r := by simpa using h
      obtain ⟨h1, h2⟩ := Work.mem_candidates.1 (hc ▸ hx)
      refine ⟨h1, fun r' hr' => ?_⟩
      have := hm (w.openCount r', r') (hc ▸ Work.mem_candidates.2 ⟨hr', rfl⟩)
      rwa [h2] at this
  refine ⟨key r, fun h => ?_⟩
  cases hr : w.chooseRow S H with
  | none => exact absurd h.candidate (Work.chooseRow_none.1 hr r)
  | some r' => rw [Work.chosen_unique (key r' hr) h]

/-! ### The pivot and the elimination (R242, R243) -/

/-- A row with an open column has a lowest one. -/
theorem Work.exists_lowestOpen {w : Work} {r : Nat} (h : 1 ≤ w.openCount r) : ∃ c0, w.LowestOpen r c0 := by
  have hex := Work.openCount_pos.1 h
  exact ⟨Nat.find hex, Nat.find_spec hex, fun c hc => by simpa using Nat.find_min hex hc⟩

/-- The open columns of a row, its lowest one first. -/
theorem Work.openColumns_cons {w : Work} {r c0 : Nat} (h : w.LowestOpen r c0) :
    ∃ others, w.openColumns (w.row r) = c0 :: others ∧ ∀ c, c ∈ others ↔ c ≠ c0 ∧ w.openAt r c = true := by
  rw [Work.openColumns_eq]
  have hsorted : ((List.range w.cls.length).filter (w.openAt r)).Pairwise (· < ·) := List.pairwise_lt_range.filter _
  have hmem : ∀ c, c ∈ (List.range w.cls.length).filter (w.openAt r) ↔ w.openAt r c = true := fun c => by
    simp only [List.mem_filter, List.mem_range, and_iff_right_iff_imp]
    exact Work.lt_of_openAt
  cases hl : (List.range w.cls.length).filter (w.openAt r) with
  | nil => have := (hmem c0).2 h.isOpen; simp [hl] at this
  | cons a others =>
    rw [hl] at hsorted hmem
    obtain ⟨h1, h2⟩ := List.pairwise_cons.1 hsorted
    have ha : a = c0 := by
      by_contra hne
      have hin := (hmem c0).2 h.isOpen
      rcases List.mem_cons.1 hin with rfl | hin
      · exact hne rfl
      · have := h.lowest a (h1 _ hin)
        rw [(hmem a).1 (by simp)] at this
        exact absurd this (by decide)
    subst ha
    refine ⟨others, rfl, fun c => ?_⟩
    rw [← hmem c, List.mem_cons]
    constructor
    · intro hc; exact ⟨fun e => absurd (h1 c hc) (by omega), .inr hc⟩
    · rintro ⟨hne, rfl | hc⟩
      · exact absurd rfl hne
      · exact hc

/-- What `Work.usePivot` computes, with its parts named. -/
theorem Work.usePivot_eq {w : Work} {r c0 : Nat} {others : List Nat} (h : w.openColumns (w.row r) = c0 :: others) :
    w.usePivot r =
      { rows := w.rows.zipIdx.map (fun x =>
          if (r :: w.used).contains x.2 then x.1
          else if x.1.at c0 = 0 then x.1
          else EqRow.addMul gf8 (gfMul gf8 (x.1.at c0) (gfInv gf8 ((w.row r).at c0))) (w.row r) x.1)
        cls := w.cls.zipIdx.map (fun x =>
          if x.2 = c0 then .pivot else if x.2 ∈ others then .inactive else x.1)
        used := r :: w.used
        pivots := (c0, r) :: w.pivots } := by
  simp only [Work.usePivot, h]

theorem Work.Shaped.row_ok {L m : Nat} {w : Work} (h : w.Shaped L m) {r : Nat} (hr : r < w.rows.length) :
    (w.row r).Ok gf8 L m := by
  obtain ⟨h1, h2, h3, h4⟩ := h.rows _ (Work.row_mem hr)
  exact ⟨h1, h2, h3, h4⟩

theorem EqRow.addMul_rhs {F : Gf} {L m f : Nat} {a b : EqRow} (ha : a.Ok F L m) (hb : b.Ok F L m) (o : Nat) :
    (EqRow.addMul F f a b).rhs.getD o 0 = b.rhs.getD o 0 ^^^ gfMul F f (a.rhs.getD o 0) := by
  unfold EqRow.addMul
  rw [vecAdd_getD (by simp [ha.rhsLength, hb.rhsLength]), vecScale_getD]

/-- The row of number B after a pivot has been used. -/
theorem Work.usePivot_row {w : Work} {r c0 : Nat} (hc : w.LowestOpen r c0) {B : Nat} (hB : B < w.rows.length) :
    (w.usePivot r).row B =
      if B = r ∨ B ∈ w.used ∨ (w.row B).at c0 = 0 then w.row B
      else EqRow.addMul gf8 (gfMul gf8 ((w.row B).at c0) (gfInv gf8 ((w.row r).at c0))) (w.row r) (w.row B) := by
  obtain ⟨others, ho, -⟩ := Work.openColumns_cons hc
  rw [Work.usePivot_eq ho]
  have hrow : w.rows[B] = w.row B := by simp [Work.row, List.getD_eq_getElem?_getD, hB]
  simp only [Work.row, List.getD_eq_getElem?_getD, List.getElem?_map, List.getElem?_zipIdx,
    List.getElem?_eq_getElem hB, Option.map_some, Option.getD_some, List.contains_eq_mem, List.mem_cons,
    Nat.zero_add, decide_eq_true_eq]
  by_cases h1 : B = r ∨ B ∈ w.used
  · rw [if_pos h1, if_pos (by tauto)]
  · rw [if_neg h1]
    by_cases h2 : w.rows[B].at c0 = 0
    · rw [if_pos h2, if_pos (by tauto)]
    · rw [if_neg h2, if_neg (by tauto)]

/-- The coefficient that the elimination makes zero. -/
theorem gfMul_cleared {a b : Nat} (ha : a < 256) (hb : b < 256) (hb0 : b ≠ 0) :
    a ^^^ gfMul gf8 (gfMul gf8 a (gfInv gf8 b)) b = 0 := by
  have hF := gf8_good
  rw [gfMul_assoc hF ha (gfInv_lt hF hb0 hb) hb, gfMul_gfInv hF hb0 hb, gfMul_comm hF ha (by decide), gfMul_one_left ha, Nat.xor_self]

/-- R242 and R243, for every working state and every row with an open column. -/
theorem Work.usePivot_pivoted {L m : Nat} {w : Work} {r c0 : Nat} (hw : w.Shaped L m) (hc : w.LowestOpen r c0) :
    w.Pivoted r c0 (w.usePivot r) := by
  obtain ⟨others, ho, hoth⟩ := Work.openColumns_cons hc
  have hr := Work.isRow_of_openAt hc.isOpen
  have hA := ((Work.openAt_iff _ _ _).1 hc.isOpen).2
  refine ⟨by rw [Work.usePivot_eq ho], by rw [Work.usePivot_eq ho], fun c => ?_, by simp [Work.usePivot_eq ho],
    fun B hB => ?_, fun B hB h1 h2 h3 => ?_⟩
  · rw [Work.usePivot_eq ho]
    by_cases hl : c < w.cls.length
    · simp only [Work.classOf, List.getD_eq_getElem?_getD, List.getElem?_map, List.getElem?_zipIdx,
        List.getElem?_eq_getElem hl, Option.map_some, Option.getD_some, Nat.zero_add]
      by_cases h0 : c = c0
      · rw [if_pos h0, if_pos h0]
      · rw [if_neg h0, if_neg h0]
        by_cases h1 : w.openAt r c = true
        · rw [if_pos ((hoth c).2 ⟨h0, h1⟩), if_pos h1]
        · rw [if_neg (fun h => h1 ((hoth c).1 h).2), if_neg h1]
    · have h0 : c ≠ c0 := fun e => hl (e ▸ Work.lt_of_openAt hc.isOpen)
      have h1 : ¬w.openAt r c = true := fun e => hl (Work.lt_of_openAt e)
      rw [if_neg h0, if_neg h1, Work.classOf_of_le (by simpa using hl), Work.classOf_of_le (by omega)]
  · by_cases hl : B < w.rows.length
    · rw [Work.usePivot_row hc hl, if_pos hB]
    · have hlen : (w.usePivot r).rows.length = w.rows.length := by simp [Work.usePivot_eq ho]
      rw [Work.row_of_le (w := w) (by omega), Work.row_of_le (by omega)]
  · have hBok := hw.row_ok hB
    have hAok := hw.row_ok hr
    rw [Work.usePivot_row hc hB, if_neg (by tauto)]
    refine ⟨EqRow.addMul_at hAok hBok, EqRow.addMul_rhs hAok hBok, ?_⟩
    rw [EqRow.addMul_at hAok hBok]
    exact gfMul_cleared (EqRow.at_lt hBok c0) (EqRow.at_lt hAok c0) hA

/-- A turn of phase 1 keeps the shape of the working state. -/
theorem Work.usePivot_shaped {L m : Nat} {w : Work} (hw : w.Shaped L m) (r : Nat) : (w.usePivot r).Shaped L m := by
  by_cases h : 1 ≤ w.openCount r
  · obtain ⟨c0, hc⟩ := Work.exists_lowestOpen h
    obtain ⟨others, ho, -⟩ := Work.openColumns_cons hc
    have hr := Work.isRow_of_openAt hc.isOpen
    have hA := ((Work.openAt_iff _ _ _).1 hc.isOpen).2
    refine ⟨by simp [Work.usePivot_eq ho, hw.classes], fun x hx => ?_⟩
    obtain ⟨B, hB, rfl⟩ := List.mem_iff_getElem.1 hx
    have hB' : B < w.rows.length := by simpa [Work.usePivot_eq ho] using hB
    have hrow : (w.usePivot r).rows[B] = (w.usePivot r).row B := by
      simp [Work.row, List.getD_eq_getElem?_getD, hB]
    rw [hrow, Work.usePivot_row hc hB']
    split
    · exact hw.rows _ (Work.row_mem hB')
    · have hf := gfMul_lt gf8_good (EqRow.at_lt (hw.row_ok hB') c0) (gfInv gf8 ((w.row r).at c0))
      obtain ⟨h1, h2, h3, h4⟩ := EqRow.addMul_ok gf8_good hf (hw.row_ok hr) (hw.row_ok hB')
      exact ⟨h1, h2, h3, h4⟩
  · have : w.openColumns (w.row r) = [] := by
      rw [← List.length_eq_zero_iff]
      have := Work.weight_row w r
      unfold Work.weight at this
      omega
    simpa [Work.usePivot, this] using hw

/-! ### The turns of phase 1 (R241, R244) -/

/-- Phase 1 is a sequence of turns, each with the row that R241 chooses. -/
theorem Work.phase1_turns (S H fuel : Nat) (w : Work) :
    ∃ (n : Nat) (f : Nat → Work), n ≤ fuel ∧ f 0 = w ∧ f n = Work.phase1 S H fuel w ∧
      ∀ i, i < n → ∃ r, (f i).Chosen S H r ∧ f (i + 1) = (f i).usePivot r := by
  induction fuel generalizing w with
  | zero => exact ⟨0, fun _ => w, le_rfl, rfl, rfl, fun i hi => absurd hi (by omega)⟩
  | succ fuel ih =>
    cases hc : w.chooseRow S H with
    | none => exact ⟨0, fun _ => w, by omega, rfl, by simp [Work.phase1, hc], fun i hi => absurd hi (by omega)⟩
    | some r =>
      obtain ⟨n, f, hn, h0, hlast, hstep⟩ := ih (w.usePivot r)
      refine ⟨n + 1, fun i => match i with | 0 => w | i + 1 => f i, by omega, rfl, by simp [Work.phase1, hc, hlast], ?_⟩
      intro i hi
      cases i with
      | zero => exact ⟨r, Work.chooseRow_some.1 hc, h0⟩
      | succ i => exact hstep i (by omega)

/-- A property of the start that every turn keeps holds after phase 1. -/
theorem Work.phase1_induction {P : Work → Prop} {S H fuel : Nat} {w : Work} (h0 : P w)
    (hstep : ∀ w r, P w → w.Chosen S H r → P (w.usePivot r)) : P (Work.phase1 S H fuel w) := by
  obtain ⟨n, f, -, hf0, hlast, hturn⟩ := Work.phase1_turns S H fuel w
  have h : ∀ i, i ≤ n → P (f i) := by
    intro i
    induction i with
    | zero => intro _; rwa [hf0]
    | succ i ih =>
      intro hi
      obtain ⟨r, hr, he⟩ := hturn i (by omega)
      rw [he]
      exact hstep _ _ (ih (by omega)) hr
  exact hlast ▸ h n le_rfl

/-- How many rows are not in `used`. -/
def Work.unusedCount (w : Work) : Nat := (List.range w.rows.length).countP (fun r => !(w.used.contains r))

theorem countP_lt_countP {α : Type} {l : List α} {p q : α → Bool} (h : ∀ x ∈ l, p x = true → q x = true) {a : α}
    (ha : a ∈ l) (hp : p a = false) (hq : q a = true) : l.countP p < l.countP q := by
  induction l with
  | nil => simp at ha
  | cons x l ih =>
    have hx := h x (by simp)
    have hl : l.countP p ≤ l.countP q := List.countP_mono_left (fun y hy => h y (List.mem_cons_of_mem _ hy))
    rcases List.mem_cons.1 ha with rfl | ha
    · rw [List.countP_cons_of_neg (by simp [hp]), List.countP_cons_of_pos hq]; omega
    · have := ih (fun y hy => h y (List.mem_cons_of_mem _ hy)) ha
      by_cases hpx : p x = true
      · rw [List.countP_cons_of_pos hpx, List.countP_cons_of_pos (hx hpx)]; omega
      · rw [List.countP_cons_of_neg hpx]
        by_cases hqx : q x = true
        · rw [List.countP_cons_of_pos hqx]; omega
        · rw [List.countP_cons_of_neg hqx]; omega

theorem Work.usePivot_unusedCount {S H : Nat} {w : Work} {r : Nat} (h : w.Candidate S H r) :
    (w.usePivot r).unusedCount < w.unusedCount := by
  obtain ⟨c0, hc⟩ := Work.exists_lowestOpen h.weight
  obtain ⟨others, ho, -⟩ := Work.openColumns_cons hc
  unfold Work.unusedCount
  simp only [Work.usePivot_eq ho, List.length_map, List.length_zipIdx]
  refine countP_lt_countP (a := r) ?_ (List.mem_range.2 h.isRow) (by simp) (by simpa using h.unused)
  intro x _ hx
  simp only [List.contains_eq_mem, Bool.not_eq_true', decide_eq_false_iff_not, List.mem_cons, not_or] at hx ⊢
  exact hx.2

/-- With a turn for every unused row phase 1 goes on until no row can be chosen (R244). -/
theorem Work.phase1_ends {S H fuel : Nat} {w : Work} (h : w.unusedCount ≤ fuel) :
    ∀ r, ¬(Work.phase1 S H fuel w).Candidate S H r := by
  induction fuel generalizing w with
  | zero =>
    intro r hr
    have := Work.usePivot_unusedCount hr
    simp only [Work.phase1] at this
    omega
  | succ fuel ih =>
    simp only [Work.phase1]
    cases hc : w.chooseRow S H with
    | none => exact Work.chooseRow_none.1 hc
    | some r =>
      have := Work.usePivot_unusedCount (Work.chooseRow_some.1 hc).candidate
      exact ih (by omega)

/-! ### Phase 2 (R246) -/

theorem takePivot_exchange {c : Nat} {rest rest' : List EqRow} {p : EqRow}
    (h : takePivot c rest = some (p, rest')) :
    ∃ q, q < rest.length ∧ p = denseRow rest q ∧ (denseRow rest q).at c ≠ 0 ∧
      (∀ j, j < q → (denseRow rest j).at c = 0) ∧ p :: rest' = exchanged rest 0 q := by
  cases rest with
  | nil => simp [takePivot] at h
  | cons r rs =>
    simp only [takePivot] at h
    split at h
    · rename_i hr
      obtain ⟨rfl, rfl⟩ : r = p ∧ rs = rest' := by simpa using h
      exact ⟨0, by simp, rfl, hr, fun j hj => absurd hj (by omega), by simp [exchanged, denseRow]⟩
    · rename_i hr
      split at h
      · simp at h
      · rename_i p' post hd
        obtain ⟨rfl, rfl⟩ : p' = p ∧ rs.takeWhile (fun x => x.at c = 0) ++ r :: post = rest' := by simpa using h
        have hpre : ∀ x ∈ rs.takeWhile (fun x => x.at c = 0), x.at c = 0 := fun x hx => by
          simpa using List.mem_takeWhile_imp hx
        have hsplit : rs = rs.takeWhile (fun x => x.at c = 0) ++ p' :: post := by
          rw [← hd]
          conv_lhs => rw [← List.takeWhile_append_dropWhile (p := fun x : EqRow => decide (x.at c = 0)) (l := rs)]
          rw [drop_takeWhile_length]
        have hp : p'.at c ≠ 0 := by
          have h1 := drop_takeWhile_length (fun x : EqRow => decide (x.at c = 0)) rs
          rw [hd] at h1
          have h2 := List.head?_dropWhile_not (fun x : EqRow => decide (x.at c = 0)) rs
          rw [← h1] at h2
          simpa using h2
        generalize rs.takeWhile (fun x => x.at c = 0) = pre at *
        subst hsplit
        have hq : denseRow (r :: (pre ++ p' :: post)) (pre.length + 1) = p' := by
          simp [denseRow, List.getD_eq_getElem?_getD]
        refine ⟨pre.length + 1, by simp, hq.symm, by rw [hq]; exact hp, ?_, ?_⟩
        · intro j hj
          cases j with
          | zero => simpa [denseRow] using hr
          | succ j =>
            have hj' : j < pre.length := by omega
            have : denseRow (r :: (pre ++ p' :: post)) (j + 1) = pre[j] := by
              simp [denseRow, List.getD_eq_getElem?_getD, List.getElem?_append_left hj', hj']
            rw [this]
            exact hpre _ (List.getElem_mem hj')
        · simp [exchanged, denseRow]

theorem denseRow_append_left {X Y : List EqRow} {j : Nat} (h : j < X.length) : denseRow (X ++ Y) j = denseRow X j := by
  simp [denseRow, List.getD_eq_getElem?_getD, List.getElem?_append_left h]

theorem denseRow_append_right (X Y : List EqRow) (j : Nat) : denseRow (X ++ Y) (X.length + j) = denseRow Y j := by
  simp [denseRow, List.getD_eq_getElem?_getD, List.getElem?_append_right]

theorem denseRow_middle (X : List EqRow) (r : EqRow) (Y : List EqRow) : denseRow (X ++ r :: Y) X.length = r := by
  simp [denseRow, List.getD_eq_getElem?_getD]

theorem denseRow_map (g : EqRow → EqRow) {X : List EqRow} {j : Nat} (h : j < X.length) :
    denseRow (X.map g) j = g (denseRow X j) := by
  simp [denseRow, List.getD_eq_getElem?_getD, h]

theorem exchanged_append (X Y : List EqRow) (q : Nat) :
    exchanged (X ++ Y) X.length (X.length + q) = X ++ exchanged Y 0 q := by
  have h0 := denseRow_append_right X Y 0
  rw [Nat.add_zero] at h0
  rw [exchanged, exchanged, denseRow_append_right, h0, List.set_append_right _ _ le_rfl, Nat.sub_self,
    List.set_append_right _ _ (by omega), Nat.add_sub_cancel_left]

/-- One column of the elimination is one turn of R246. -/
theorem denseTurn_of_takePivot {c : Nat} {placed rest rest' : List EqRow} {p : EqRow}
    (h : takePivot c rest = some (p, rest')) :
    let p1 := EqRow.scale gf8 (gfInv gf8 (p.at c)) p
    DenseTurn c placed.length (placed ++ rest)
      ((placed.map (EqRow.clear gf8 c p1) ++ [p1]) ++ rest'.map (EqRow.clear gf8 c p1)) := by
  intro p1
  obtain ⟨q, hq, rfl, hne, hz, hex⟩ := takePivot_exchange h
  have hlen : rest'.length + 1 = rest.length := by
    have := congrArg List.length hex
    simpa [exchanged] using this
  have hE : exchanged (placed ++ rest) placed.length (placed.length + q) = placed ++ denseRow rest q :: rest' := by
    rw [exchanged_append, ← hex]
  refine ⟨placed.length + q, by omega, by simp; omega, by rwa [denseRow_append_right], ?_, by simp; omega, ?_⟩
  · intro j hj1 hj2
    obtain ⟨j, rfl⟩ := Nat.exists_eq_add_of_le hj1
    rw [denseRow_append_right]
    exact hz j (by omega)
  · rw [hE]
    dsimp only
    rw [denseRow_middle, List.append_assoc, List.singleton_append]
    refine ⟨?_, fun j hj hjt => ?_⟩
    · simpa using denseRow_middle (placed.map (EqRow.clear gf8 c p1)) p1 (rest'.map (EqRow.clear gf8 c p1))
    · by_cases hjl : j < placed.length
      · rw [denseRow_append_left (by simpa using hjl), denseRow_append_left hjl, denseRow_map _ hjl]
        rfl
      · obtain ⟨i, rfl⟩ : ∃ i, j = placed.length + (i + 1) := ⟨j - placed.length - 1, by omega⟩
        have hi : i < rest'.length := by rw [List.length_append] at hj; omega
        have h1 := denseRow_append_right (placed.map (EqRow.clear gf8 c p1))
          (p1 :: rest'.map (EqRow.clear gf8 c p1)) (i + 1)
        rw [List.length_map] at h1
        rw [h1, denseRow_append_right]
        have h2 : ∀ (x : EqRow) (l : List EqRow), denseRow (x :: l) (i + 1) = denseRow l i := fun x l => by
          simp [denseRow]
        rw [h2, h2, denseRow_map _ hi]
        rfl

/-- The elimination is a sequence of turns of R246, one for each column in turn. -/
theorem gaussJordan_turns {cs : List Nat} {placed rest result : List EqRow}
    (h : gaussJordan gf8 cs placed rest = some result) :
    ∃ D : Nat → List EqRow, D 0 = placed ++ rest ∧
      (∀ t, t < cs.length → DenseTurn (cs.getD t 0) (placed.length + t) (D t) (D (t + 1))) ∧
      result.length = placed.length + cs.length ∧ ∃ below, D cs.length = result ++ below := by
  induction cs generalizing placed rest with
  | nil =>
    obtain rfl : placed = result := by simpa [gaussJordan] using h
    exact ⟨fun _ => placed ++ rest, rfl, fun t ht => absurd ht (by simp), by simp, rest, rfl⟩
  | cons c cs ih =>
    simp only [gaussJordan] at h
    cases hp : takePivot c rest with
    | none => simp [hp] at h
    | some x =>
      obtain ⟨p, rest'⟩ := x
      rw [hp] at h
      obtain ⟨D, h0, hturn, hlen, below, hlast⟩ := ih h
      refine ⟨fun t => match t with | 0 => placed ++ rest | t + 1 => D t, rfl, ?_, ?_, below, by simpa using hlast⟩
      · intro t ht
        cases t with
        | zero =>
          have := denseTurn_of_takePivot (placed := placed) hp
          simpa [h0] using this
        | succ t =>
          have := hturn t (by simpa using ht)
          simp only [List.length_append, List.length_map, List.length_singleton] at this
          simpa [Nat.add_assoc, Nat.add_comm 1 t] using this
      · simpa [Nat.add_assoc, Nat.add_comm 1] using hlen

/-! ### What phase 2 and the back-substitution give (R245, R248) -/

theorem Work.denseSystem_eq (S H : Nat) (w : Work) :
    w.denseSystem S H = ((List.range w.rows.length).filter
      (fun r => decide (S ≤ r ∧ r < S + H) || decide (r ∉ w.used))).map w.row := by
  have h : w.rows.zipIdx = (List.range w.rows.length).map (fun r => (w.row r, r)) := by
    apply List.ext_getElem
    · simp
    · intro i h1 h2
      have hi : i < w.rows.length := by simpa using h1
      simp [Work.row, List.getD_eq_getElem?_getD, hi]
  rw [Work.denseSystem, h, List.filter_map, List.map_map]
  have hp : ∀ r, (!isSparse S H r || !w.used.contains r) =
      (decide (S ≤ r ∧ r < S + H) || decide (r ∉ w.used)) := by
    intro r
    congr 1
    · unfold isSparse
      rw [← decide_not]
      exact decide_eq_decide.2 (by omega)
    · simp
  simp only [Function.comp_def, hp]

theorem lookup_append_of_mem {sol sol' : List (Nat × Vec)} {c : Nat} {v : Vec} (hn : (sol.map Prod.fst).Nodup)
    (h : (c, v) ∈ sol) : (sol ++ sol').lookup c = some v := by
  induction sol with
  | nil => simp at h
  | cons x sol ih =>
    obtain ⟨d, u⟩ := x
    rw [List.map_cons, List.nodup_cons] at hn
    rw [List.cons_append, List.lookup_cons]
    rcases List.mem_cons.1 h with e | hm
    · obtain ⟨rfl, rfl⟩ := Prod.mk.inj e
      simp
    · have hne : c ≠ d := fun e => hn.1 (List.mem_map.2 ⟨_, hm, e⟩)
      rw [show (c == d) = false from by simpa using hne]
      exact ih hn.2 hm

theorem lookup_append_of_not_mem {sol sol' : List (Nat × Vec)} {c : Nat} (h : c ∉ sol.map Prod.fst) :
    (sol ++ sol').lookup c = sol'.lookup c := by
  induction sol with
  | nil => rfl
  | cons x sol ih =>
    rw [List.map_cons, List.mem_cons, not_or] at h
    rw [List.cons_append, List.lookup_cons, show (c == x.1) = false from by simpa using h.1]
    exact ih h.2

theorem lookup_zip {cols : List Nat} {X : List Vec} (hn : cols.Nodup) (hl : X.length = cols.length) {t : Nat}
    (ht : t < cols.length) : (List.zip cols X).lookup (cols.getD t 0) = some (X.getD t []) := by
  have hz : (List.zip cols X).map Prod.fst = cols := by rw [List.map_fst_zip (by omega)]
  have := lookup_append_of_mem (sol := List.zip cols X) (sol' := []) (c := cols.getD t 0) (v := X.getD t [])
    (by rwa [hz]) (by
      refine List.mem_iff_getElem.2 ⟨t, by simp [hl, ht], ?_⟩
      simp [List.getD_eq_getElem?_getD, ht, hl])
  simpa using this

theorem Work.mem_inactiveColumns {w : Work} {c : Nat} :
    c ∈ w.inactiveColumns ↔ c < w.cls.length ∧ w.classOf c ≠ .pivot := by
  simp [Work.inactiveColumns]

theorem Work.inactiveColumns_sorted (w : Work) : w.inactiveColumns.Pairwise (· < ·) := List.pairwise_lt_range.filter _

theorem Work.inactiveColumns_nodup (w : Work) : w.inactiveColumns.Nodup := List.nodup_range.filter _

/-- R248 for one pivot, byte by byte. -/
theorem backSubstitute_getD {L m c0 : Nat} {A : EqRow} {cols : List Nat} {C : List Vec} (hA : A.Ok gf8 L m)
    (hC : ∀ c ∈ cols, (C.getD c []).length = m) (o : Nat) :
    (backSubstitute m (cols.map (fun c => (c, C.getD c []))) c0 A).getD o 0 =
      gfMul gf8 (gfInv gf8 (A.at c0))
        (A.rhs.getD o 0 ^^^ xorOver cols (fun c => gfMul gf8 (A.at c) (blockValue C o c))) := by
  have hl : ∀ v ∈ ((cols.map (fun c => (c, C.getD c []))).filter (fun x => A.at x.1 ≠ 0)).map
      (fun x => vecScale gf8 (A.at x.1) x.2), v.length = m := by
    intro v hv
    obtain ⟨y, hy, rfl⟩ := List.mem_map.1 hv
    obtain ⟨c, hc, rfl⟩ := List.mem_map.1 (List.mem_filter.1 hy).1
    rw [vecScale_length, hC c hc]
  rw [backSubstitute, vecScale_getD, vecAdd_getD (by rw [vecSum_length hl, hA.rhsLength]), vecSum_getD_xorOver hl,
    xorOver_map, List.filter_map, xorOver_map, xorOver_filter]
  congr 2
  refine xorOver_congr (fun c _ => ?_)
  by_cases hz : A.at c = 0
  · simp [hz]
  · simpa [hz, blockValue] using vecScale_getD gf8 (A.at c) (C.getD c []) o

/-- R245, R246 and R248 for a working state whose pivots have columns of their own: what phase 2 answers. -/
theorem Work.finish_phaseTwo {S H L m : Nat} {w : Work} {C : List Vec} (hw : w.Shaped L m)
    (hn : (w.pivots.map Prod.fst).Nodup)
    (hp : ∀ x ∈ w.pivots, x.1 < w.cls.length ∧ w.classOf x.1 = .pivot ∧ x.2 < w.rows.length)
    (h : w.finish S H m = some C) : w.PhaseTwo S H m C := by
  unfold Work.finish at h
  simp only [solveSystem] at h
  cases hg : gaussJordan gf8 w.inactiveColumns [] (w.denseSystem S H) with
  | none => simp [hg] at h
  | some result =>
    obtain ⟨D, h0, hturn, hlen, below, hlast⟩ := gaussJordan_turns hg
    rw [hg] at h
    simp only [Option.map_some, Option.some.injEq] at h
    set inactive := List.zip w.inactiveColumns (result.map EqRow.rhs) with hin
    set solved := w.pivots.map (fun x => (x.1, backSubstitute m inactive x.1 (w.row x.2))) with hsol
    have hfst : solved.map Prod.fst = w.pivots.map Prod.fst := by simp [hsol, Function.comp_def]
    have hC : ∀ c, c < w.cls.length → C.getD c [] = solvedAt (solved ++ inactive) c := fun c hc => by
      simp [← h, List.getD_eq_getElem?_getD, hc]
    have hres : result.length = w.inactiveColumns.length := by simpa using hlen
    have hcol : ∀ t, t < w.inactiveColumns.length →
        C.getD (w.inactiveColumns.getD t 0) [] = (denseRow result t).rhs := by
      intro t ht
      have hmem : w.inactiveColumns.getD t 0 ∈ w.inactiveColumns := by
        simp [List.getD_eq_getElem?_getD, ht]
      obtain ⟨hc, hcls⟩ := Work.mem_inactiveColumns.1 hmem
      rw [hC _ hc, solvedAt, lookup_append_of_not_mem, hin, lookup_zip w.inactiveColumns_nodup (by simpa using hres) ht]
      · simp [List.getD_eq_getElem?_getD, denseRow, hres, ht]
      · rw [hfst]
        intro hx
        obtain ⟨x, hx, e⟩ := List.mem_map.1 hx
        exact hcls (e ▸ (hp x hx).2.1)
    refine ⟨by simp [← h], ⟨D, by rw [h0, ← Work.denseSystem_eq, List.nil_append], fun t ht => ⟨?_, ?_⟩⟩, ?_⟩
    · simpa using hturn t ht
    · rw [hcol t ht, hlast, denseRow_append_left (by omega)]
    · intro x hx o ho
      obtain ⟨hx1, -, hx2⟩ := hp x hx
      have hA := hw.row_ok hx2
      have hval : C.getD x.1 [] = backSubstitute m inactive x.1 (w.row x.2) := by
        rw [hC _ hx1, solvedAt, lookup_append_of_mem (by rwa [hfst]) (List.mem_map.2 ⟨x, hx, rfl⟩)]
        rfl
      have hsys : ∀ r ∈ w.denseSystem S H, r.Ok gf8 L m := by
        intro r hr
        obtain ⟨y, hy, rfl⟩ := List.mem_map.1 hr
        obtain ⟨h1, h2, h3, h4⟩ := hw.rows y.1 (by
          have := List.mem_zipIdx_iff_getElem?.1 (List.mem_filter.1 hy).1
          exact List.mem_of_getElem? this)
        exact ⟨h1, h2, h3, h4⟩
      have hrok : ∀ r ∈ result, r.Ok gf8 L m := gaussJordan_ok gf8_good _ (by simp) hsys hg
      have hinact : inactive = w.inactiveColumns.map (fun c => (c, C.getD c [])) := by
        apply List.ext_getElem
        · simp [hin, hres]
        · intro i h1 h2
          have hi : i < w.inactiveColumns.length := by simpa using h2
          have := hcol i hi
          simp only [List.getD_eq_getElem?_getD, List.getElem?_eq_getElem hi, Option.getD_some, denseRow,
            List.getElem?_eq_getElem (show i < result.length by omega)] at this
          simp [hin, ← this, List.getD_eq_getElem?_getD]
      have hlenC : ∀ c ∈ w.inactiveColumns, (C.getD c []).length = m := by
        intro c hc
        have hz : (c, C.getD c []) ∈ inactive := hinact ▸ List.mem_map.2 ⟨c, hc, rfl⟩
        obtain ⟨r, hr, e⟩ := List.mem_map.1 (List.of_mem_zip hz).2
        rw [← e, (hrok r hr).rhsLength]
      rw [blockValue, hval, hinact, backSubstitute_getD hA hlenC]

end Sys2Proof.Machine
end

