-- ==== Sys2Proof/Laws/PerInstr.lean ====
section
/-! SUPPORT. Statements about the commands as syntax, one lemma per command. -/

namespace Sys2Proof.Laws.Encoding

/-- A command is well formed (R94) and its word has only zeros above its opcode byte (R91). -/
def Statement (i : Instr) : Prop := i.wf = true ∧ wordZero (encode i) = 0 ∧ (encode i).toNat < 256

theorem nop : Statement .nop := by unfold Statement; decide
theorem gf8Add : Statement .gf8Add := by unfold Statement; decide
theorem gf8Mul : Statement .gf8Mul := by unfold Statement; decide
theorem gf8Div : Statement .gf8Div := by unfold Statement; decide
theorem gf8Inv : Statement .gf8Inv := by unfold Statement; decide
theorem gf8Log : Statement .gf8Log := by unfold Statement; decide
theorem gf8Exp : Statement .gf8Exp := by unfold Statement; decide
theorem gf16Add : Statement .gf16Add := by unfold Statement; decide
theorem gf16Mul : Statement .gf16Mul := by unfold Statement; decide
theorem gf16Div : Statement .gf16Div := by unfold Statement; decide
theorem gf16Inv : Statement .gf16Inv := by unfold Statement; decide
theorem gf16Log : Statement .gf16Log := by unfold Statement; decide
theorem gf16Exp : Statement .gf16Exp := by unfold Statement; decide
theorem rsEnc : Statement .rsEnc := by unfold Statement; decide
theorem rsDec : Statement .rsDec := by unfold Statement; decide
theorem rqEnc : Statement .rqEnc := by unfold Statement; decide
theorem rqDec : Statement .rqDec := by unfold Statement; decide
theorem sel : Statement .sel := by unfold Statement; decide
theorem encAuto : Statement .encAuto := by unfold Statement; decide
theorem dec : Statement .dec := by unfold Statement; decide

end Sys2Proof.Laws.Encoding
end

