-- ==== Sys2Proof/Laws/Symbols.lean ====
section
/-! SUPPORT. What the walks of the symbol generator answer: the values below the bound, in the order in which the walk
passes them (R203). -/

namespace Sys2Proof.Machine

/-- The values below `bound` among those a walk passes at its turns i .. i+n-1. -/
def walkBelow (bound start a m i n : Nat) : List Nat :=
  ((List.range' i n).map (fun n => (start + n * a) % m)).filter (fun b => decide (b < bound))

theorem walkBelow_zero (bound start a m i : Nat) : walkBelow bound start a m i 0 = [] := rfl

theorem walkBelow_whole (bound start a m : Nat) :
    walkBelow bound start a m 0 m = (walkFrom start a m).filter (fun b => decide (b < bound)) := by
  simp [walkBelow, walkFrom, List.range_eq_range']

theorem walkBelow_succ (bound start a m i n : Nat) :
    walkBelow bound start a m i (n + 1) =
      if (start + i * a) % m < bound then (start + i * a) % m :: walkBelow bound start a m (i + 1) n
      else walkBelow bound start a m (i + 1) n := by
  simp [walkBelow, List.range'_succ, List.filter_cons]

/-- One turn of a walk. -/
theorem walk_turn (start a m i : Nat) : ((start + i * a) % m + a) % m = (start + (i + 1) * a) % m := by
  rw [Nat.mod_add_mod, Nat.succ_mul, Nat.add_assoc]

/-- Skipping ends at the first value below the bound, where one comes within the turns allowed. -/
theorem skipTo_walk {bound start a m fuel n i c : Nat} {rest : List Nat} (hn : n ≤ fuel)
    (h : walkBelow bound start a m i n = c :: rest) :
    ∃ i' n', skipTo bound a m fuel ((start + i * a) % m) = (start + i' * a) % m ∧
      (start + i' * a) % m < bound ∧ n' ≤ n ∧ walkBelow bound start a m i' n' = c :: rest := by
  induction n generalizing i fuel with
  | zero => simp [walkBelow_zero] at h
  | succ n ih =>
    obtain ⟨fuel, rfl⟩ : ∃ f, fuel = f + 1 := ⟨fuel - 1, by omega⟩
    by_cases hb : (start + i * a) % m < bound
    · exact ⟨i, n + 1, by rw [skipTo, if_neg (by omega)], hb, le_rfl, h⟩
    · rw [walkBelow_succ, if_neg hb] at h
      obtain ⟨i', n', h1, h2, h3, h4⟩ := ih (fuel := fuel) (by omega) h
      exact ⟨i', n', by rw [skipTo, if_pos (by omega), walk_turn, h1], h2, by omega, h4⟩

/-- A walk from a value below the bound lists the values below the bound in their order, where enough of them come
within m turns. -/
theorem walkColumns_eq {bound start a m count n i : Nat} (hn : n ≤ m) (hb : (start + i * a) % m < bound)
    (hc : count < (walkBelow bound start a m i n).length) :
    walkColumns bound a m count ((start + i * a) % m) = (walkBelow bound start a m i n).take (count + 1) := by
  induction count generalizing i n with
  | zero =>
    cases n with
    | zero => simp [walkBelow_zero] at hc
    | succ n => simp [walkColumns, walkBelow_succ, hb]
  | succ count ih =>
    cases n with
    | zero => simp [walkBelow_zero] at hc
    | succ n =>
      rw [walkBelow_succ, if_pos hb] at hc ⊢
      cases h : walkBelow bound start a m (i + 1) n with
      | nil => simp [h] at hc
      | cons c rest =>
        obtain ⟨i', n', h1, h2, h3, h4⟩ := skipTo_walk (fuel := m) (by omega) h
        rw [h] at hc
        rw [walkColumns, walk_turn, h1, ih (n := n') (by omega) h2 (by rw [h4]; simpa using hc), h4]
        simp

/-- A whole walk of R203, the skipping at its start and `count` more values: the first `count + 1` values below the
bound, where there are so many. -/
theorem walk_eq {bound start a m count : Nat} (hs : start < m)
    (hc : count < ((walkFrom start a m).filter (fun b => decide (b < bound))).length) :
    walkColumns bound a m count (skipTo bound a m m start) =
      ((walkFrom start a m).filter (fun b => decide (b < bound))).take (count + 1) := by
  rw [← walkBelow_whole] at hc ⊢
  cases h : walkBelow bound start a m 0 m with
  | nil => simp [h] at hc
  | cons c rest =>
    obtain ⟨i', n', h1, h2, h3, h4⟩ := skipTo_walk (fuel := m) le_rfl h
    rw [Nat.zero_mul, Nat.add_zero, Nat.mod_eq_of_lt hs] at h1
    rw [h1, walkColumns_eq h3 h2 (by rw [h4, ← h]; exact hc), h4]

end Sys2Proof.Machine
end

