-- ==== Sys2Proof/Tests/Slice0.lean ====
section
/-! SUPPORT. The model's own tests: ill-formed terms refused, words written out from the encodings R91 and R92,
single steps against the vectors of 95_test_vectors.md and the worked examples of the rules, and for every statement
with hypotheses a concrete case that meets them. -/

namespace Sys2Proof.Tests

open Sys2Proof Sys2Proof.Machine

-- one theorem after the other: each thread that checks one takes a whole stack of memory
set_option Elab.async false

/-! ### WellFormed refuses (R9, R25, R60). A command has no operand that could be ill formed (R94). -/

theorem test_wf_no_slots : (Config.Instance.mk 0 4).wf = false := by decide
theorem test_wf_too_many_slots : (Config.Instance.mk 65537 4).wf = false := by decide
theorem test_wf_empty_slots : (Config.Instance.mk 8 0).wf = false := by decide
theorem test_wf_slots_too_long : (Config.Instance.mk 8 16777217).wf = false := by decide
theorem test_wf_bounds_are_legal :
    (Config.Instance.mk 1 1).wf = true ∧ (Config.Instance.mk 65536 16777216).wf = true := by decide
theorem test_wf_unaligned_offset : wfOffset 0x12 = false := by decide
theorem test_wf_offset_outside : wfOffset 0x3000 = false ∧ wfOffset 0x2FFC = true := by decide
theorem test_wf_address_outside :
    (Config.Instance.mk 8 4).wfAddress 32 = false ∧ (Config.Instance.mk 8 4).wfAddress 31 = true := by decide

/-! ### Decoding: GRP in bits 7..4, FN in bits 3..0, all above zero -/

theorem test_decode_nop : decode 0b00000000000000000000000000000000 = .ok .nop := by decide
theorem test_decode_gf8_add : decode 0b00000000000000000000000000010000 = .ok .gf8Add := by decide
theorem test_decode_gf8_mul : decode 0b00000000000000000000000000010001 = .ok .gf8Mul := by decide
theorem test_decode_gf8_div : decode 0b00000000000000000000000000010010 = .ok .gf8Div := by decide
theorem test_decode_gf8_inv : decode 0b00000000000000000000000000010011 = .ok .gf8Inv := by decide
theorem test_decode_gf8_log : decode 0b00000000000000000000000000010100 = .ok .gf8Log := by decide
theorem test_decode_gf8_exp : decode 0b00000000000000000000000000010101 = .ok .gf8Exp := by decide
theorem test_decode_gf16_add : decode 0b00000000000000000000000000100000 = .ok .gf16Add := by decide
theorem test_decode_gf16_mul : decode 0b00000000000000000000000000100001 = .ok .gf16Mul := by decide
theorem test_decode_gf16_div : decode 0b00000000000000000000000000100010 = .ok .gf16Div := by decide
theorem test_decode_gf16_inv : decode 0b00000000000000000000000000100011 = .ok .gf16Inv := by decide
theorem test_decode_gf16_log : decode 0b00000000000000000000000000100100 = .ok .gf16Log := by decide
theorem test_decode_gf16_exp : decode 0b00000000000000000000000000100101 = .ok .gf16Exp := by decide
theorem test_decode_rs_enc : decode 0b00000000000000000000000000110000 = .ok .rsEnc := by decide
theorem test_decode_rs_dec : decode 0b00000000000000000000000000110001 = .ok .rsDec := by decide
theorem test_decode_rq_enc : decode 0b00000000000000000000000001000000 = .ok .rqEnc := by decide
theorem test_decode_rq_dec : decode 0b00000000000000000000000001000001 = .ok .rqDec := by decide
theorem test_decode_sel : decode 0b00000000000000000000000001010000 = .ok .sel := by decide
theorem test_decode_enc_auto : decode 0b00000000000000000000000001010001 = .ok .encAuto := by decide
theorem test_decode_dec : decode 0b00000000000000000000000001010010 = .ok .dec := by decide

/-- R92, R96: the neighbours of the legal words are illegal. -/
theorem test_decode_refuses :
    [0x01, 0x16, 0x26, 0x32, 0x42, 0x53, 0x60, 0xFF, 0x110, 0x80000000].all
      (fun w => decide (decode (BitVec.ofNat 32 w) ≠ .ok .nop) && (decodeTableWord 32 w).isNone) = true := by decide

/-- Every row of the opcode table is decoded to its command and runs as the first command after reset. -/
theorem test_every_command_runs_from_reset :
    opcodeTable.all (fun x => decodeTableWord 32 x.1 == some x.2 &&
      match step (State.reset.withFetchWord 32 x.1) with
      | .next t => decide (t.cmd = BitVec.ofNat 32 x.1)
      | _ => false) = true := by decide +kernel

/-! ### Helpers for single steps -/

/-- A small instance with the two operands. -/
def withOperands (a b : Nat) : State :=
  { State.resetOf 8 4 with opa := BitVec.ofNat 32 a, opb := BitVec.ofNat 32 b, res := 0xDEAD }

/-- What a command leaves in `RES` and `ERR`. -/
def answer (i : Instr) (s : State) : Option (Nat × Nat) :=
  match exec i s with
  | .next t => some (t.res.toNat, t.err.code)
  | _ => none

/-- The buffer with the given bytes from address `a` on. -/
def cells (a : Nat) (bs : List Nat) : Memory := bs.zipIdx.map (fun x => (a + x.2, BitVec.ofNat 8 x.1))

/-- An instance of 8 slots of 4 bytes with `K`, `N`, `BLEN`, `REDUN`, the present slots and the buffer. -/
def withBlocks (k n blen redun : Nat) (pres : List Nat) (buf : Memory) : State :=
  { State.resetOf 8 4 with
    k := BitVec.ofNat 32 k, n := BitVec.ofNat 32 n, blen := BitVec.ofNat 32 blen, redun := BitVec.ofNat 32 redun,
    pres := pres, buf := buf }

/-- What a command leaves in `ERR`, `N`, the presence bits and the cells of the buffer. -/
def coding (i : Instr) (s : State) : Option (Nat × Nat × List Nat × List (Nat × Nat)) :=
  match exec i s with
  | .next t => some (t.err.code, t.n.toNat, t.pres, t.buf.map (fun x => (x.1, x.2.toNat)))
  | _ => none

/-- What a command leaves in `ERR`, `MODE` and `RQ_RDY`. -/
def flags (i : Instr) (s : State) : Option (Nat × Nat × Bool) :=
  match exec i s with
  | .next t => some (t.err.code, t.mode.toNat, t.rqRdy)
  | _ => none

/-! ### The field commands (vectors V3 to V10) -/

theorem test_gf8_add_ignores_upper_bits : answer .gf8Add (withOperands 0xFFFFFF53 0x123456CA) = some (0x99, 0) := by
  decide +kernel
theorem test_gf16_add : answer .gf16Add (withOperands 0xFFFF1234 0x00015678) = some (0x444C, 0) := by decide +kernel
theorem test_gf8_mul : answer .gf8Mul (withOperands 0x53 0xCA) = some (0x8F, 0) := by decide +kernel
theorem test_gf8_mul_reduces : answer .gf8Mul (withOperands 0xFF 0xFF) = some (0xE2, 0) := by decide +kernel
theorem test_gf16_mul : answer .gf16Mul (withOperands 0x00011234 0xFFFF5678) = some (0x6324, 0) := by decide +kernel
theorem test_gf16_mul_reduces : answer .gf16Mul (withOperands 0x8000 0x8000) = some (0x8EFA, 0) := by decide +kernel
theorem test_gf8_div : answer .gf8Div (withOperands 0x12 0x34) = some (0xC7, 0) := by decide +kernel
theorem test_gf8_div_by_zero : answer .gf8Div (withOperands 0 0x100) = some (0xDEAD, 0x11) := by decide +kernel
theorem test_gf16_div : answer .gf16Div (withOperands 0x1234 0x5678) = some (0x18F2, 0) := by decide +kernel
theorem test_gf16_div_by_zero : answer .gf16Div (withOperands 1 0x10000) = some (0xDEAD, 0x11) := by decide +kernel
theorem test_gf8_inv : answer .gf8Inv (withOperands 0x53 0) = some (0x8C, 0) := by decide +kernel
theorem test_gf8_inv_of_zero : answer .gf8Inv (withOperands 0x100 5) = some (0xDEAD, 0x11) := by decide +kernel
theorem test_gf16_inv : answer .gf16Inv (withOperands 0x1234 0) = some (0x2CE9, 0) := by decide +kernel
theorem test_gf16_inv_of_zero : answer .gf16Inv (withOperands 0 5) = some (0xDEAD, 0x11) := by decide +kernel
theorem test_gf8_log : answer .gf8Log (withOperands 0xFF 0) = some (175, 0) := by decide +kernel
theorem test_gf8_log_of_zero : answer .gf8Log (withOperands 0 0) = some (0xDEAD, 0x11) := by decide +kernel
theorem test_gf16_log : answer .gf16Log (withOperands 0x100B 0) = some (16, 0) := by decide +kernel
theorem test_gf16_log_of_zero : answer .gf16Log (withOperands 0x10000 0) = some (0xDEAD, 0x11) := by decide +kernel
theorem test_gf8_exp : answer .gf8Exp (withOperands 263 0) = some (0x1D, 0) := by decide +kernel
theorem test_gf8_exp_of_large_index : answer .gf8Exp (withOperands 0xFFFFFFFF 0) = some (0x01, 0) := by decide +kernel
theorem test_gf16_exp : answer .gf16Exp (withOperands 65551 0) = some (0x100B, 0) := by decide +kernel
theorem test_gf16_exp_last : answer .gf16Exp (withOperands 65534 0) = some (0x8805, 0) := by decide +kernel

/-! ### Reed–Solomon (R168, V17) -/

/-- R168: encode of three blocks of two bytes, two parity blocks. -/
theorem test_rs_enc :
    coding .rsEnc (withBlocks 3 0 2 500000 [] (cells 0 [0x11, 0x22] ++ cells 4 [0x33, 0x44] ++ cells 8 [0x55, 0x66]))
      = some (0, 5, [0, 1, 2, 3, 4], [(0, 0x11), (1, 0x22), (4, 0x33), (5, 0x44), (8, 0x55), (9, 0x66), (12, 0xCD),
          (13, 0x5A), (16, 0xDB), (17, 0x83)]) := by decide +kernel

/-- P4: too much redundancy for eight slots. -/
theorem test_rs_enc_capacity : coding .rsEnc (withBlocks 3 7 2 2000000 [1] []) = some (0x12, 7, [1], []) := by
  decide +kernel

/-- R168: decode after the loss of the blocks 0 and 2. -/
theorem test_rs_dec :
    coding .rsDec (withBlocks 3 5 2 0 [1, 3, 4] (cells 4 [0x33, 0x44] ++ cells 12 [0xCD, 0x5A]
      ++ cells 16 [0xDB, 0x83]))
      = some (0, 3, [0, 1, 2], [(0, 0x11), (1, 0x22), (4, 0x33), (5, 0x44), (8, 0x55), (9, 0x66), (12, 0xCD),
          (13, 0x5A), (16, 0xDB), (17, 0x83)]) := by decide +kernel

/-- V17: all entries erased, N = 0, and K > N. -/
theorem test_rs_dec_contract :
    [coding .rsDec (withBlocks 3 5 2 0 [] []), coding .rsDec (withBlocks 3 0 2 0 [] []),
      coding .rsDec (withBlocks 3 2 2 0 [0, 1] [])].map (fun x => x.map Prod.fst) = [some 1, some 2, some 2] := by
  decide +kernel

/-! ### RaptorQ (R190, R191, R199, R211, R212, R250) -/

theorem test_fmix32 : [0, 1, 2, 0xFFFFFFFF, 0x9E3779B9].map (fun x => (fmix32 (BitVec.ofNat 32 x)).toNat)
    = [0, 0x514E28B7, 0x30F4C306, 0x81F16F39, 0x92CA2F0E] := by decide +kernel
theorem test_mix : [rqMix 1 0 0, rqMix 3 0 0, rqMix 3 4 1, rqMix 0x48445043 0 0]
    = [0xDC5302DE, 0x9D531AF1, 0xA5CB1D21, 0x47D92EBF] := by decide +kernel
theorem test_parameters : [1, 10, 255].map (fun k => [rqT k, rqS k, rqH k, rqW k, rqL k, rqWPrime k, rqP1 k])
    = [[2, 3, 4, 4, 8, 5, 5], [5, 7, 6, 17, 23, 17, 7], [24, 29, 11, 284, 295, 293, 11]] := by decide +kernel
theorem test_ldpc_rows : (List.range 5).map (fun r => (List.range 3).filter (fun c => ldpcCoef 3 5 r c = 1))
    = [[0], [0, 1], [0, 1, 2], [1, 2], [2]] := by decide +kernel
theorem test_hdpc_row : (List.range 8).map (hdCoef 1) = [0x06, 0x01, 0x39, 0xEF, 0xA0, 0xF6, 0x8A, 0xF5] := by
  decide +kernel
theorem test_columns : [rqCols 3 0 0, rqCols 3 0 1, rqCols 3 0 3]
    = [[2, 6, 9, 8, 12], [2, 6, 3, 10, 12, 9], [7, 3, 6, 2, 5, 1, 4, 0, 8, 12, 11]] := by decide +kernel

/-- R212: k = 1, three repair blocks. -/
theorem test_rq_enc :
    coding .rqEnc (withBlocks 1 0 3 3000000 [] (cells 0 [0xAB, 0xCD, 0xEF]))
      = some (0, 4, [0, 1, 2, 3], [(0, 0xAB), (1, 0xCD), (2, 0xEF), (4, 0xAB), (5, 0xCD), (6, 0xEF), (8, 0xCB),
          (9, 0x5E), (10, 0x2D), (12, 0x32), (13, 0x18), (14, 0xF5)]) := by decide +kernel

/-- R31: a failing `RQ.ENC` sets `RQ_RDY`. -/
theorem test_rq_enc_failing : flags .rqEnc (withBlocks 9 0 2 0 [] []) = some (0x12, 0, true) := by decide +kernel

/-- R250: only the repair symbol 2 is present. -/
theorem test_rq_dec :
    coding .rqDec (withBlocks 1 4 3 0 [2] (cells 8 [0xCB, 0x5E, 0x2D]))
      = some (0, 1, [0], [(0, 0xAB), (1, 0xCD), (2, 0xEF), (8, 0xCB), (9, 0x5E), (10, 0x2D)]) := by decide +kernel

/-- V26: all entries erased; the unit is constructed all the same. -/
theorem test_rq_dec_all_erased : flags .rqDec (withBlocks 2 3 1 0 [] []) = some (1, 0, true) := by decide +kernel

/-! ### Selector and facade (V28, P3, R280, R282, R285) -/

theorem test_sel_at_the_ceiling : answer .sel (withOperands 10 80000) = some (2, 0) := by decide +kernel
theorem test_sel_signed : answer .sel (withOperands 0x80000000 0xFFFFFFFF) = some (0, 0) := by decide +kernel
theorem test_enc_auto_raptorq :
    flags .encAuto { withBlocks 1 0 3 3000000 [] (cells 0 [0xAB, 0xCD, 0xEF]) with loss := 100000 }
      = some (0, 2, true) := by decide +kernel
theorem test_enc_auto_failing :
    flags .encAuto { withBlocks 9 0 3 0 [] [] with mode := 7 } = some (0x12, 7, false) := by decide +kernel
theorem test_dec_bad_mode : flags .dec { withBlocks 0 0 0 0 [] [] with mode := 3 } = some (0x14, 3, false) := by
  decide +kernel
theorem test_dec_raptorq :
    coding .dec { withBlocks 1 4 3 0 [2] (cells 8 [0xCB, 0x5E, 0x2D]) with mode := 2 }
      = some (0, 1, [0], [(0, 0xAB), (1, 0xCD), (2, 0xEF), (8, 0xCB), (9, 0x5E), (10, 0x2D)]) := by decide +kernel
theorem test_nop_clears_the_error : exec .nop ((withOperands 1 2).raise .gfUndef) = .next (withOperands 1 2) := rfl

/-! ### The host interface (V31, R26, R44) -/

theorem test_presence_word_masks :
    ((State.resetOf 40 4).setPresWord 1 0xFFFFFFFF).presWord 1 = 0xFF#32 := by decide +kernel
theorem test_command_write :
    (match step { withOperands 0x53 0xCA with script := [.wr 0x04 0x11] } with
      | .next t => decide (t = { withOperands 0x53 0xCA with cmd := 0x11, res := 0x8F })
      | _ => false) = true := by decide +kernel
theorem test_illegal_word :
    (match step { withOperands 1 2 with script := [.wr 0x04 0x111] } with
      | .next t => decide (t = { withOperands 1 2 with cmd := 0x111, err := .illegal, errf := true })
      | _ => false) = true := by decide +kernel

/-! ### Every statement with hypotheses has a case that meets them -/

/-- The conditions of `State.Wf`, decided. -/
def wfCheck (s : State) : Bool :=
  s.inst.wf && Memory.wf s.buf && s.buf.all (fun x => s.inst.wfAddress x.1) && decide (s.pres.Pairwise (· < ·))
    && s.pres.all (fun i => decide (i < s.nslot)) && (s.errf == decide (s.err ≠ .ok))
    && decide (s.err ≠ .invalidRedundancy)

theorem wf_of_check {s : State} (h : wfCheck s = true) : s.Wf := by
  simp only [wfCheck, Bool.and_eq_true, List.all_eq_true, decide_eq_true_eq, beq_iff_eq] at h
  obtain ⟨⟨⟨⟨⟨⟨h1, h2⟩, h3⟩, h4⟩, h5⟩, h6⟩, h7⟩ := h
  exact ⟨h1, h2, h3, h4, h5, h6, h7⟩

/-- Three source blocks of two bytes, half redundancy: R168 before its encode. -/
def encodeCase : State :=
  withBlocks 3 0 2 500000 [] (cells 0 [0x11, 0x22] ++ cells 4 [0x33, 0x44] ++ cells 8 [0x55, 0x66])

/-- R168 before its decode: the blocks 0 and 2 are erased. -/
def decodeCase : State :=
  withBlocks 3 5 2 500000 [1, 3, 4] (cells 4 [0x33, 0x44] ++ cells 12 [0xCD, 0x5A] ++ cells 16 [0xDB, 0x83])

/-- All three source blocks present. -/
def fastCase : State := withBlocks 3 5 2 0 [0, 1, 2, 4] []

/-- R212 before its encode. -/
def rqEncodeCase : State := withBlocks 1 0 3 3000000 [] (cells 0 [0xAB, 0xCD, 0xEF])

/-- R250 before its decode. -/
def rqDecodeCase : State := withBlocks 1 4 3 3000000 [2] (cells 8 [0xCB, 0x5E, 0x2D])

/-- The intermediate symbols of R250. -/
def rqBlocks : List Vec :=
  List.replicate 4 [0x29, 0xCB, 0x95] ++ [[0x1A, 0x32, 0x2A], [0x28, 0x2A, 0xDF], [0x52, 0x8B, 0x37], [0xF9, 0x46, 0xD8]]

theorem encodeCase_wf : encodeCase.Wf := wf_of_check (by decide +kernel)
theorem decodeCase_wf : decodeCase.Wf := wf_of_check (by decide +kernel)
theorem rqEncodeCase_wf : rqEncodeCase.Wf := wf_of_check (by decide +kernel)
theorem systematicIndex_one : systematicIndex 1 = some 0 := by decide +kernel

theorem encodeCase_fits : encodeCase.RsEncodeFits := ⟨by decide, by decide, by decide⟩
theorem rqEncodeCase_fits : rqEncodeCase.RqEncodeFits :=
  ⟨by decide, by decide, fun _ => by rw [show rqEncodeCase.kVal = 1 from rfl, systematicIndex_one]; rfl⟩

/-- An encode of no blocks fits too: the boundary k = 0. -/
theorem witness_encode_of_nothing :
    (withBlocks 0 5 4 500000 [1] []).Wf ∧ (withBlocks 0 5 4 500000 [1] []).RsEncodeFits ∧
      (withBlocks 0 5 4 500000 [1] []).RqEncodeFits :=
  ⟨wf_of_check (by decide +kernel), ⟨by decide, by decide, by decide⟩, ⟨by decide, by decide, by decide⟩⟩

theorem decodeCase_general : decodeCase.GeneralPath := ⟨by decide, by decide, by decide, ⟨0, by decide, by decide⟩⟩
theorem decodeCase_fits : decodeCase.DecodeFits := ⟨by decide, by decide⟩
theorem rqDecodeCase_general : rqDecodeCase.GeneralPath := ⟨by decide, by decide, by decide, ⟨0, by decide, by decide⟩⟩
theorem rqDecodeCase_fits : rqDecodeCase.DecodeFits := ⟨by decide, by decide⟩

theorem rqDecodeCase_fullRank : FullRank gf8 (rqL 1) (rqDecodeCase.receivedRows 1 0) :=
  (State.receivedRows_fullRank rqDecodeCase 1 0).1 (by decide +kernel)

/-- Two source blocks erased, and symbols 13 and 14 alone present: 12 unknowns, rank below 12. -/
def rankShortCase : State := { withBlocks 2 15 1 0 [13, 14] [] with nslot := 16 }

theorem systematicIndex_two : systematicIndex 2 = some 0 := by decide +kernel
theorem rankShortCase_short : ¬FullRank gf8 (rqL 2) (rankShortCase.receivedRows 2 0) := by
  rw [← State.receivedRows_fullRank]
  decide +kernel

theorem rqBlocks_meet : MeetsConstraints 1 3 rqBlocks where
  count := by decide +kernel
  lengths := by decide +kernel
  bytes := by decide +kernel
  ldpc := by decide +kernel
  hdpc := by decide +kernel

/-- The command's answer as a state, for witnesses that need one. -/
def after (i : Instr) (s : State) : State :=
  match exec i s with
  | .next t => t
  | _ => s

theorem exec_after (i : Instr) (s : State) (h : (match exec i s with | .next _ => true | _ => false) = true) :
    exec i s = .next (after i s) := by
  unfold after
  cases hx : exec i s with
  | next t => rfl
  | fault r => rw [hx] at h; simp at h
  | refused r => rw [hx] at h; simp at h

theorem slotByte_withBuf_self (s : State) (i o : Nat) : (s.withBuf s.buf).slotByte i o = s.slotByte i o := rfl

/-- The trace of R250: the pivots in the order in which they were appended, and the inactive columns. -/
theorem test_phase_one_trace :
    let w := Work.phase1 3 4 8 (Work.start 4 8 (rqDecodeCase.rqReceived 1 0))
    w.pivots.reverse = [(0, 0), (2, 1), (3, 2)] ∧ w.inactiveColumns = [1, 4, 5, 6, 7] ∧
      (w.row 3).coef = [0, 0xF2, 0, 0, 0x01, 0, 0, 0] ∧ w.row 7 = ⟨[0, 0, 0, 0, 1, 1, 0, 1], [0xCB, 0x5E, 0x2D]⟩ := by
  decide +kernel

theorem witness_ResetLeavesTheGivenValues :
    (0x0C % 4 = 0 ∧ 0x0C ∉ [0x34, 0x38, 0x3C, 0x40]) ∧ (0x2FFC % 4 = 0 ∧ 0x2FFC < 0x3000) ∧
      EceField gf8 ∧ EceField gf16 ∧ 254 < gf8.order ∧ 65534 < gf16.order ∧ 255 < gf8.size ∧ 65535 < gf16.size := by
  unfold EceField; decide +kernel
theorem witness_ResetStateIsWellFormed : (1 ≤ 1 ∧ 65536 ≤ 65536) ∧ 16777216 ≤ 16777216 := by decide
theorem witness_EveryStepKeepsTheStateWellFormed : ∃ t, encodeCase.Wf ∧ step encodeCase = .next t :=
  ⟨_, encodeCase_wf, rfl⟩
theorem witness_PlatformResetRestoresResetValues :
    ({ encodeCase with script := [.reset] } : State).script = .reset :: [] := rfl
theorem witness_StepRunsTheDecodedCommand :
    ({ encodeCase with script := [.wr 0x04 0x30] } : State).script = .wr 0x04 0x30 :: [] ∧
      decode 0x30 = .ok .rsEnc ∧ encodeCase.script = [] := ⟨rfl, by decide, rfl⟩
theorem witness_DecodingIsTheOpcodeMap :
    (0x52, Instr.dec) ∈ opcodeTable ∧ (∀ x ∈ opcodeTable, (0x53 : Word) ≠ BitVec.ofNat 32 x.1) ∧
      ∀ x ∈ opcodeTable, (0x152 : Word) ≠ BitVec.ofNat 32 x.1 := by decide
theorem witness_RegisterWritesReadBack :
    [0x00, 0x10, 0x40, 0x44, 0x0FFC, 0x1000, 0x2FFC].all (fun off => decide (off % 4 = 0 ∧ off < 0x3000 ∧ off ≠ 0x04))
      = true ∧ 32 * ((0x1000 - 0x1000) / 4) < (State.resetOf 1 1).nslot ∧
      (State.resetOf 32 1).nslot ≤ 32 * ((0x1004 - 0x1000) / 4) ∧
      32 * ((0x2FFC - 0x1000) / 4) < State.reset.nslot := by decide
theorem witness_RegisterReadsChangeNothing :
    (0x2FFC % 4 = 0 ∧ 0x2FFC < 0x3000) ∧ encodeCase.Wf ∧ State.reset.Wf ∧
      (∃ t, perform (.wr 0x04 0x30) encodeCase = .next t) ∧ (∃ t, perform (.wr 0x04 0xFFFFFFFF) encodeCase = .next t) ∧
      (0x44 % 4 = 0 ∧ 0x0FFC % 4 = 0 ∧ 0x0FFC < 0x1000) :=
  ⟨by decide, encodeCase_wf, wf_of_check (by decide +kernel),
    ⟨after .rsEnc { encodeCase with cmd := 0x30 },
      exec_after .rsEnc { encodeCase with cmd := 0x30 } (by decide +kernel)⟩, ⟨_, rfl⟩, by decide⟩
theorem witness_BufferBytesReadBack :
    0 < encodeCase.nslot * encodeCase.slotb ∧ 31 < encodeCase.nslot * encodeCase.slotb := by decide
theorem witness_MeaninglessAccessesAreRefused :
    1 % 4 ≠ 0 ∧ 0x3000 % 4 = 0 ∧ encodeCase.nslot * encodeCase.slotb ≤ 32 := by decide
theorem witness_PresenceWordsShowTheBitmap :
    ∃ t, encodeCase.Wf ∧ isEncode .rsEnc = true ∧ exec .rsEnc encodeCase = .next t ∧ t.err = .ok :=
  ⟨after .rsEnc encodeCase, encodeCase_wf, rfl, exec_after _ _ (by decide +kernel), by decide +kernel⟩
theorem witness_AnErrorChangesNothingElse :
    (∃ t, encodeCase.command 0x31 = .next t ∧ t.err ≠ .ok) ∧ ∃ t, encodeCase.command 0x00 = .next t ∧ t.err = .ok :=
  ⟨⟨after .rsDec { encodeCase with cmd := 0x31 }, exec_after .rsDec { encodeCase with cmd := 0x31 }
    (by decide +kernel), by decide +kernel⟩, ⟨_, rfl, rfl⟩⟩
theorem witness_RqRdyIsSetExactlyAtDispatch :
    (∃ t, exec .nop encodeCase = .next t) ∧
      (∃ t, (∀ i, decode 0x41000 ≠ .ok i) ∧ perform (.wr 0x04 0x41000) encodeCase = .next t) ∧
      (∃ t, perform .reset encodeCase = .next t) ∧ ∃ t, perform (.wr 0x10 5) encodeCase = .next t :=
  ⟨⟨_, rfl⟩, ⟨_, by intro i; cases i <;> decide, rfl⟩, ⟨_, rfl⟩, ⟨_, rfl⟩⟩
theorem witness_CommandsWriteOnlyTheirOutputs :
    ∃ t, exec .nop encodeCase = .next t ∧ writesRes .nop = false ∧ isEncode .nop = false ∧ isDecode .nop = false :=
  ⟨_, rfl, rfl, rfl, rfl⟩
theorem witness_CommandsStoreOnlyInTheirBlocks :
    ∃ t, decodeCase.Wf ∧ exec .rsDec decodeCase = .next t ∧ t.buf ≠ decodeCase.buf :=
  ⟨after .rsDec decodeCase, decodeCase_wf, exec_after _ _ (by decide +kernel), by decide +kernel⟩
theorem witness_OutcomesAreThoseOfTheTable :
    (∃ t, exec .gf8Div (withOperands 1 0) = .next t) ∧
      (∃ t, dispatchesRq encodeCase .encAuto = false ∧ exec .encAuto encodeCase = .next t) ∧
      (∃ t, exec .dec { decodeCase with mode := 3 } = .next t) ∧
      ∃ t, (∀ i, decode 0x16 ≠ .ok i) ∧ encodeCase.command 0x16 = .next t := 
  ⟨⟨_, rfl⟩, ⟨after .encAuto encodeCase, by decide, exec_after _ _ (by decide +kernel)⟩, ⟨_, rfl⟩,
    ⟨_, by intro i; cases i <;> decide, rfl⟩⟩
theorem witness_field_elements :
    (EceField gf8 ∧ 0 < gf8.size ∧ 255 < gf8.size) ∧ (EceField gf16 ∧ 0 < gf16.size ∧ 65535 < gf16.size) := by
  unfold EceField; decide +kernel
theorem witness_DivideAndInverseCommands :
    (withOperands 1 1).opb.toNat % 256 ≠ 0 ∧ (withOperands 1 0x100).opb.toNat % 256 = 0 ∧
      (withOperands 255 1).opa.toNat % 256 ≠ 0 ∧ (withOperands 0x100 1).opa.toNat % 256 = 0 ∧
      (withOperands 1 0x100).opb.toNat % 65536 ≠ 0 ∧ (withOperands 1 0x10000).opb.toNat % 65536 = 0 ∧
      (withOperands 0x100 1).opa.toNat % 65536 ≠ 0 ∧ (withOperands 0x10000 1).opa.toNat % 65536 = 0 := by decide
theorem witness_TableCommands :
    (withOperands 1 0).opa.toNat % 256 ≠ 0 ∧ (withOperands 0 0).opa.toNat % 256 = 0 ∧
      (withOperands 0xFFFF 0).opa.toNat % 65536 ≠ 0 ∧ (withOperands 0 0).opa.toNat % 65536 = 0 := by decide
theorem witness_ParityCountIsTheExactCeiling :
    ((-1 : Int) ≤ 0 ∧ (0 : Int) ≤ 0) ∧ (0 : Int) < 1 ∧ 1 ≤ 1 := by decide
theorem witness_SymbolsAreBytesOrLittleEndianPairs :
    EceField gf16 ∧ [0xFFFF].length = symbolCount gf16 encodeCase.blenVal ∧ ∀ x ∈ [0xFFFF], x < gf16.size := by
  unfold EceField; decide +kernel
theorem witness_RsCoefficientsAreInverses :
    (0 < 1 ∧ 1 ≤ 65535) ∧ (254 < 255 ∧ 255 ≤ 65535) ∧ (255 < 256 ∧ 256 ≤ 65535) ∧ 65534 < 65535 := by decide
theorem witness_CauchySubmatricesAreNonSingular :
    ([0, 2].Nodup ∧ [1, 0].Nodup ∧ [0, 2].length = [1, 0].length ∧ (∀ i ∈ [0, 2], i < 3) ∧
      ∀ j ∈ [1, 0], 3 + j < (rsField 3).size) ∧
    (rsField 255).size - 255 = 1 ∧
    ∃ s t, s.Wf ∧ s.kVal = 255 ∧ s.RsEncodeFits ∧ exec .rsEnc s = .next t ∧
      0 + ((rsField 255).size - 255) < parityCountRs 255 s.redunVal := by
  obtain ⟨t, ht⟩ := conclude_next { State.resetOf 300 1 with k := 255, redun := 10000 }
    (rsEncode { State.resetOf 300 1 with k := 255, redun := 10000 })
  exact ⟨by decide, by decide, { State.resetOf 300 1 with k := 255, redun := 10000 }, t, wf_of_check (by decide +kernel),
    by decide, ⟨by decide, by decide, by decide⟩, ht, by decide⟩
theorem witness_RsEncWritesTheParity : encodeCase.Wf ∧ encodeCase.RsEncodeFits := ⟨encodeCase_wf, encodeCase_fits⟩
theorem witness_EncodeErrorsComeInOrder :
    encodeCase.kVal ≤ encodeCase.nslot ∧ (withBlocks 9 0 0 0 [] []).kVal > (withBlocks 9 0 0 0 [] []).nslot ∧
      (256 ≤ ({ State.resetOf 300 1 with k := 256, blen := 1 } : State).kVal) := by decide
theorem witness_RsEncIsSystematicAndDeterministic :
    ∃ t, encodeCase.Wf ∧ exec .rsEnc encodeCase = .next t ∧ t.err = .ok ∧ encodeCase.k = encodeCase.k :=
  ⟨after .rsEnc encodeCase, encodeCase_wf, exec_after _ _ (by decide +kernel), by decide +kernel, rfl⟩
theorem witness_DecodeFastPath :
    fastCase.DecodeFits ∧ (fastCase.kVal ≤ fastCase.nVal ∧ ∀ i, i < fastCase.kVal → fastCase.presAt i = true) ∧
      (256 ≤ fastCase.kVal → fastCase.blenVal % 2 = 0) ∧ fastCase.mode.toNat ≤ 1 ∧
      (withBlocks 0 8 4 0 [7] []).DecodeFits ∧ (withBlocks 0 8 4 0 [7] []).kVal = 0 ∧
      ({ fastCase with mode := 2 } : State).mode = 2 :=
  ⟨⟨by decide, by decide⟩, by decide, by decide, by decide, ⟨by decide, by decide⟩, by decide, rfl⟩
theorem witness_RsDecErrorsComeInOrder : decodeCase.Wf ∧ decodeCase.presentBelow decodeCase.nVal = 3 :=
  ⟨decodeCase_wf, by decide⟩
theorem witness_RowSelectionIsGreedy :
    decodeCase.Wf ∧ decodeCase.DecodeFits ∧ decodeCase.GeneralPath ∧
      decodeCase.presentParity decodeCase.kVal = [] ++ 0 :: [1] ∧
      decodeCase.presentParity decodeCase.kVal = [0] ++ 1 :: [] :=
  ⟨decodeCase_wf, decodeCase_fits, decodeCase_general, by decide, by decide⟩
theorem witness_RsDecSolvesTheSyndromes :
    decodeCase.Wf ∧ decodeCase.DecodeFits ∧ decodeCase.GeneralPath ∧
      (256 ≤ decodeCase.kVal → decodeCase.blenVal % 2 = 0) ∧
      (decodeCase.rsChosen (rsField decodeCase.kVal) decodeCase.kVal).length = (decodeCase.erased decodeCase.kVal).length ∧
      decodeCase.mode.toNat ≤ 1 :=
  ⟨decodeCase_wf, decodeCase_fits, decodeCase_general, by decide, by decide +kernel, by decide⟩
theorem witness_RsDecSucceedsInTheMdsDomain :
    decodeCase.Wf ∧ decodeCase.DecodeFits ∧ decodeCase.GeneralPath ∧
      decodeCase.nVal ≤ (rsField decodeCase.kVal).size :=
  ⟨decodeCase_wf, decodeCase_fits, decodeCase_general, by decide⟩
theorem witness_RsRoundTrip :
    ∃ t, encodeCase.Wf ∧ encodeCase.RsEncodeFits ∧
      encodeCase.kVal + parityCountRs encodeCase.kVal encodeCase.redunVal ≤ (rsField encodeCase.kVal).size ∧
      exec .rsEnc encodeCase = .next t ∧ ({ t with pres := [1, 3, 4], buf := t.buf } : State).Wf ∧
      (∀ i ∈ [1, 3, 4], i < t.nVal → ∀ o, o < encodeCase.blenVal → (t.withBuf t.buf).slotByte i o = t.slotByte i o) ∧
      encodeCase.kVal ≤ ({ t with pres := [1, 3, 4] } : State).presentBelow t.nVal ∧
      ({ t with pres := [4] } : State).presentBelow t.nVal < encodeCase.kVal ∧
      ({ t with pres := [], buf := t.buf } : State).Wf ∧ ({ t with pres := [] } : State).presentBelow t.nVal = 0 ∧
      ∃ v, exec .rsDec { t with pres := [], buf := t.buf } = .next v ∧ v.err = .decodingFailed :=
  ⟨after .rsEnc encodeCase, encodeCase_wf, encodeCase_fits, by decide, exec_after _ _ (by decide +kernel),
    wf_of_check (by decide +kernel), fun _ _ _ _ _ => slotByte_withBuf_self _ _ _, by decide +kernel, by decide +kernel,
    wf_of_check (by decide +kernel), by decide +kernel, after .rsDec { after .rsEnc encodeCase with pres := [] },
    exec_after .rsDec { after .rsEnc encodeCase with pres := [] } (by decide +kernel), by decide +kernel⟩
theorem witness_DecodeNeverReadsErasedBlocks :
    ∃ t, decodeCase.Wf ∧ exec .rsDec decodeCase = .next t ∧ t.err = .ok ∧ decodeCase.kVal ≤ decodeCase.nVal :=
  ⟨after .rsDec decodeCase, decodeCase_wf, exec_after _ _ (by decide +kernel), by decide +kernel, by decide⟩
theorem witness_rq_rows :
    1 ≤ 1 ∧ 2 < rqS 1 ∧ 7 < rqL 1 ∧ 3 < rqH 1 ∧ 3 < rqW 1 ∧ rqW 1 ≤ 4 := by decide +kernel
theorem witness_SymbolColumnsAreDistinct : 1 ≤ 1 ∧ rqBlocks.length = rqL 1 ∧ ∀ v ∈ rqBlocks, v.length = 3 := by
  decide +kernel
theorem witness_SymbolTuplesFollowTheRules :
    (65535 < 2 ^ 32 ∧ 8 * 255 + 5 < 2 ^ 32) ∧ (0 < 2 ^ 20 ∧ 1048575 < 2 ^ 20) ∧ 1 ≤ 1 := by decide
theorem witness_SystematicIndexIsLeast : 1 ≤ 1 ∧ systematicIndex 1 = some 0 := ⟨by decide, systematicIndex_one⟩
theorem witness_IntermediateSymbolsAreTheOnlySolution :
    1 ≤ rqEncodeCase.kVal ∧ systematicIndex rqEncodeCase.kVal = some 0 := ⟨by decide, systematicIndex_one⟩
theorem witness_RqEncWritesTheRepairSymbols :
    rqEncodeCase.Wf ∧ rqEncodeCase.RqEncodeFits ∧ parityCountRq rqEncodeCase.kVal rqEncodeCase.redunVal ≠ 0 :=
  ⟨rqEncodeCase_wf, rqEncodeCase_fits, by decide⟩
theorem witness_RqDecFailsExactlyWhenTheRankIsShort :
    rqDecodeCase.DecodeFits ∧ rqDecodeCase.GeneralPath ∧ systematicIndex rqDecodeCase.kVal = some 0 ∧
      FullRank gf8 (rqL rqDecodeCase.kVal) (rqDecodeCase.receivedRows rqDecodeCase.kVal 0) ∧
      rankShortCase.DecodeFits ∧ rankShortCase.GeneralPath ∧ systematicIndex rankShortCase.kVal = some 0 ∧
      ¬FullRank gf8 (rqL rankShortCase.kVal) (rankShortCase.receivedRows rankShortCase.kVal 0) ∧
      ({ rankShortCase with mode := 2 } : State).mode = 2 :=
  ⟨rqDecodeCase_fits, rqDecodeCase_general, systematicIndex_one, rqDecodeCase_fullRank, ⟨by decide, by decide⟩,
    ⟨by decide, by decide, by decide, ⟨0, by decide, by decide⟩⟩, systematicIndex_two, rankShortCase_short, rfl⟩
theorem witness_RqDecFindsTheIntermediateSymbols :
    rqDecodeCase.DecodeFits ∧ rqDecodeCase.GeneralPath ∧ systematicIndex rqDecodeCase.kVal = some 0 ∧
      FullRank gf8 (rqL rqDecodeCase.kVal) (rqDecodeCase.receivedRows rqDecodeCase.kVal 0) ∧
      MeetsConstraints rqDecodeCase.kVal rqDecodeCase.blenVal rqBlocks ∧
      ∀ i, i < rqDecodeCase.nVal → rqDecodeCase.presAt i = true → ∀ t, t < rqDecodeCase.blenVal →
        symValue rqBlocks rqDecodeCase.kVal 0 i t = (rqDecodeCase.slotByte i t).toNat :=
  ⟨rqDecodeCase_fits, rqDecodeCase_general, systematicIndex_one, rqDecodeCase_fullRank, rqBlocks_meet, by
    intro i hi hp
    have hi2 : i = 2 := by
      have : i ∈ rqDecodeCase.pres := (State.presAt_iff _ _).1 hp
      simpa [rqDecodeCase, withBlocks] using this
    subst hi2
    decide +kernel⟩
theorem witness_RqRoundTrip :
    ∃ t v, rqEncodeCase.Wf ∧ rqEncodeCase.RqEncodeFits ∧ exec .rqEnc rqEncodeCase = .next t ∧
      ({ t with pres := [2], buf := t.buf } : State).Wf ∧
      exec .rqDec { t with pres := [2], buf := t.buf } = .next v ∧ v.err = .ok :=
  ⟨after .rqEnc rqEncodeCase, after .rqDec { after .rqEnc rqEncodeCase with pres := [2] }, rqEncodeCase_wf,
    rqEncodeCase_fits, exec_after _ _ (by decide +kernel), wf_of_check (by decide +kernel),
    exec_after .rqDec { after .rqEnc rqEncodeCase with pres := [2] } (by decide +kernel), by decide +kernel⟩
theorem witness_MoreSymbolsNeverHurt :
    ∃ t, rqDecodeCase.GeneralPath ∧ exec .rqDec rqDecodeCase = .next t ∧ t.err = .ok ∧
      ∀ i, rqDecodeCase.presAt i = true → i ∈ [2, 3] :=
  ⟨after .rqDec rqDecodeCase, rqDecodeCase_general, exec_after _ _ (by decide +kernel), by decide +kernel, by
    intro i hp
    have : i ∈ rqDecodeCase.pres := (State.presAt_iff _ _).1 hp
    have : i = 2 := by simpa [rqDecodeCase, withBlocks] using this
    simp [this]⟩
theorem rqDecodeCase_shaped : (Work.start 4 8 (rqDecodeCase.rqReceived 1 0)).Shaped 8 3 :=
  ⟨by decide +kernel, by decide +kernel⟩
theorem witness_PhaseOneLeavesTheShapeOfTheRule :
    4 ≤ 8 ∧ (Work.start 4 8 (rqDecodeCase.rqReceived 1 0)).Shaped 8 3 ∧
      1 ≤ (Work.start 4 8 (rqDecodeCase.rqReceived 1 0)).openCount 0 ∧
      (Work.start 4 8 (rqDecodeCase.rqReceived 1 0)).Chosen 3 4 0 ∧
      ∀ r, ¬(Work.phase1 3 4 8 (Work.start 4 8 (rqDecodeCase.rqReceived 1 0))).Candidate 3 4 r :=
  ⟨by decide, rqDecodeCase_shaped, by decide +kernel, Work.chooseRow_some.1 (by decide +kernel),
    Work.phase1_ends (by decide +kernel)⟩
theorem witness_SelectorHasOneThreshold :
    selectMode 10 80000 80000 30000 = .rq ∧ (1 : Int) ≤ 255 ∧ (0 : Int) < 1 ∧ (1000000 : Int) ≤ 1000000 := by decide
theorem witness_EncAutoCompletes :
    encodeCase.Wf ∧ selectMode encodeCase.k.toNat encodeCase.loss.toInt encodeCase.thr8.toInt encodeCase.thr16.toInt ≠ .rq ∧
      encodeCase.RsEncodeFits ∧ ({ rqEncodeCase with loss := 100000 } : State).Wf ∧
      selectMode rqEncodeCase.k.toNat (100000#32).toInt rqEncodeCase.thr8.toInt rqEncodeCase.thr16.toInt = .rq ∧
      ({ rqEncodeCase with loss := 100000 } : State).RqEncodeFits :=
  ⟨encodeCase_wf, by decide, encodeCase_fits, wf_of_check (by decide +kernel), by decide,
    ⟨rqEncodeCase_fits.1, rqEncodeCase_fits.2, rqEncodeCase_fits.3⟩⟩
theorem witness_DecDispatchesByMode :
    2 < ({ encodeCase with mode := 3 } : State).mode.toNat ∧ ({ encodeCase with mode := 2 } : State).mode.toNat = 2 ∧
      ({ encodeCase with mode := 1 } : State).mode.toNat < 2 := by decide

end Sys2Proof.Tests
end

section
/-! The reset state meets the invariant, and every command ends: each command is `conclude` of the pseudocode's
answer, and the codes that answer can raise are those of the table R300. -/

namespace Sys2Proof.Machine

/-! ### Reset -/

/-- A reset state is well formed exactly when its two capacities are within the bounds of R9: the other conditions
are about fields that are empty or 0 after a reset (R49). -/
theorem State.resetOf_wf_iff (nslot slotb : Nat) :
    (State.resetOf nslot slotb).Wf ↔ (⟨nslot, slotb⟩ : Config.Instance).wf = true := by
  constructor
  · exact fun h => h.params
  · intro hparams
    exact {
      params := hparams
      bufCanonical := rfl
      bufInside := List.forall_mem_nil _
      presSorted := List.Pairwise.nil
      presInside := List.forall_mem_nil _
      flagIsErr := rfl
      neverInvalidRedundancy := nofun }

/-- Settles O2: the bounds of R9 are all that the invariant asks of a reset state. -/
theorem resetStateIsWellFormed : Obligations.ResetStateIsWellFormed := by
  unfold Obligations.ResetStateIsWellFormed
  refine ⟨fun nslot slotb hn hn' hb hb' => ?_, ?_⟩
  · exact (State.resetOf_wf_iff nslot slotb).2 (decide_eq_true ⟨hn, hn', hb, hb'⟩)
  · exact (State.resetOf_wf_iff _ _).2 (by decide)

/-! ### How the answer of a pseudocode ends a command -/

/-- The answer of a pseudocode has one of the allowed outcomes of R300, and its errors are not the code of
success. -/
def EndsIn (allowed : List ErrCode) : Except ErrCode State → Prop
  | .ok _ => .ok ∈ allowed
  | .error c => c ≠ .ok ∧ c ∈ allowed

theorem EndsIn.of_error {allowed : List ErrCode} {r : Except ErrCode State} (hok : .ok ∈ allowed)
    (herr : ∀ c, r = .error c → c ≠ .ok ∧ c ∈ allowed) : EndsIn allowed r := by
  cases r with
  | ok u => exact hok
  | error c => exact herr c rfl

/-- A further register write after a success, as `ENC.AUTO` makes (R280), leaves the outcome. -/
theorem EndsIn.map {allowed : List ErrCode} {r : Except ErrCode State} (h : EndsIn allowed r) (f : State → State) :
    EndsIn allowed (r.map f) := by
  cases r with
  | ok u => exact h
  | error c => exact h

/-- `ERR` is an allowed outcome after `conclude`, and `ERRF` says whether it is an error (R29, R305). -/
theorem conclude_endsIn {allowed : List ErrCode} {r : Except ErrCode State} (h : EndsIn allowed r) (s : State) :
    ∃ t, conclude s r = .next t ∧ t.err ∈ allowed ∧ t.errf = decide (t.err ≠ .ok) := by
  cases r with
  | ok u => exact ⟨u.done, conclude_ok s u, h, by simp⟩
  | error c =>
    obtain ⟨hc, hmem⟩ := h
    exact ⟨s.raise c, conclude_error s c, hmem, by simp [hc]⟩

/-! ### The outcomes of each pseudocode -/

theorem rsEncode_endsIn (s : State) : EndsIn [.ok, .capacity, .oddLen] (rsEncode s) := by
  refine EndsIn.of_error (by decide) fun c hc => ?_
  rcases rsEncode_error hc with rfl | rfl <;> decide

theorem rqEncode_endsIn (s : State) : EndsIn [.ok, .capacity] (rqEncode s) := by
  refine EndsIn.of_error (by decide) fun c hc => ?_
  rw [rqEncode_error hc]
  decide

theorem rsDecode_endsIn (s : State) : EndsIn rsDecodeOutcomes (rsDecode s) := by
  refine EndsIn.of_error (by decide) fun c hc => ?_
  rcases rsDecode_error hc with rfl | rfl | rfl | rfl <;> decide

theorem rqDecode_endsIn (s : State) : EndsIn rqDecodeOutcomes (rqDecode s) := by
  refine EndsIn.of_error (by decide) fun c hc => ?_
  rcases rqDecode_error hc with rfl | rfl | rfl <;> decide

/-! ### What every command is -/

/-- The state a command's pseudocode starts from, and the one `raise` goes back to: `RQ_RDY` is already set where
the command dispatches to the RaptorQ unit (R31). -/
def State.dispatched (s : State) (i : Instr) : State := if dispatchesRq s i then s.constructRq else s

theorem State.dispatched_of_rq {s : State} {i : Instr} (h : dispatchesRq s i = true) :
    s.dispatched i = s.constructRq := if_pos h

theorem State.dispatched_of_not_rq {s : State} {i : Instr} (h : dispatchesRq s i = false) : s.dispatched i = s :=
  if_neg (by simp [h])

/-- A command is `conclude`, on the dispatched state, of an answer with one of the outcomes of R300. -/
def Concludes (i : Instr) (s : State) : Prop :=
  ∃ r, exec i s = conclude (s.dispatched i) r ∧ EndsIn (outcomesOf s i) r

/-- A field command that is undefined at `x = 0` (R119). -/
theorem concludes_of_fieldPartial {i : Instr} {s : State} {x v : Nat} (hexec : exec i s = fieldPartial s x v)
    (hrq : dispatchesRq s i = false) (hout : outcomesOf s i = [.ok, .gfUndef]) : Concludes i s := by
  refine ⟨_, by rw [hexec, State.dispatched_of_not_rq hrq]; rfl, ?_⟩
  rw [hout]
  split
  · exact ⟨by decide, by decide⟩
  · exact List.mem_cons_self

/-- A command that cannot fail: its answer is always a success. -/
theorem concludes_of_ok {i : Instr} {s u : State} (hexec : exec i s = conclude s (.ok u))
    (hrq : dispatchesRq s i = false) (hout : outcomesOf s i = [.ok]) : Concludes i s := by
  refine ⟨.ok u, by rw [hexec, State.dispatched_of_not_rq hrq], ?_⟩
  rw [hout]
  exact List.mem_cons_self

theorem dispatchesRq_encAuto (s : State) : dispatchesRq s .encAuto = decide (s.autoMode = .rq) := rfl

/-- `ENC.AUTO` has the outcomes of the encoder that the selector names (R280). -/
theorem concludes_encAuto (s : State) : Concludes .encAuto s := by
  have hmode := dispatchesRq_encAuto s
  have hexec : exec .encAuto s = execEncAuto s := rfl
  unfold Concludes
  rw [hexec, execEncAuto, outcomesOf]
  cases hm : s.autoMode with
  | rq =>
    have hrq : dispatchesRq s .encAuto = true := by simp [hmode, hm]
    rw [State.dispatched_of_rq hrq, if_pos hrq]
    exact ⟨_, rfl, (rqEncode_endsIn _).map _⟩
  | rs8 =>
    have hrq : dispatchesRq s .encAuto = false := by simp [hmode, hm]
    rw [State.dispatched_of_not_rq hrq, if_neg (by simp [hrq])]
    exact ⟨_, rfl, (rsEncode_endsIn _).map _⟩
  | rs16 =>
    have hrq : dispatchesRq s .encAuto = false := by simp [hmode, hm]
    rw [State.dispatched_of_not_rq hrq, if_neg (by simp [hrq])]
    exact ⟨_, rfl, (rsEncode_endsIn _).map _⟩

theorem dispatchesRq_dec (s : State) : dispatchesRq s .dec = decide (s.mode.toNat = 2) :=
  decide_eq_decide.2 BitVec.toNat_inj.symm

/-- `DEC` has the outcomes of the decoder that `MODE` names, and raises E_BADMODE where it names none (R282). -/
theorem concludes_dec (s : State) : Concludes .dec s := by
  have hmode := dispatchesRq_dec s
  have hexec : exec .dec s = execDec s := rfl
  unfold Concludes
  rw [hexec, execDec, outcomesOf, unsignedWord]
  rcases lt_trichotomy s.mode.toNat 2 with hm | hm | hm
  · have hrq : dispatchesRq s .dec = false := by rw [hmode]; exact decide_eq_false (by omega)
    rw [State.dispatched_of_not_rq hrq, if_neg (by omega), if_neg (by omega), if_neg (by simp [hrq]),
      if_pos (by omega)]
    exact ⟨_, rfl, rsDecode_endsIn _⟩
  · have hrq : dispatchesRq s .dec = true := by rw [hmode]; exact decide_eq_true hm
    rw [State.dispatched_of_rq hrq, if_neg (by omega), if_pos hm, if_pos hrq]
    exact ⟨_, rfl, rqDecode_endsIn _⟩
  · have hrq : dispatchesRq s .dec = false := by rw [hmode]; exact decide_eq_false (by omega)
    rw [State.dispatched_of_not_rq hrq, if_pos hm, if_neg (by simp [hrq]), if_neg (by omega)]
    exact ⟨_, rfl, by decide, by decide⟩

/-- Every command in every state ends by `conclude` (R17), with an outcome the table R300 gives it. -/
theorem exec_concludes (i : Instr) (s : State) : Concludes i s := by
  cases i with
  | nop | sel | gf8Add | gf8Mul | gf8Exp | gf16Add | gf16Mul | gf16Exp => exact concludes_of_ok rfl rfl rfl
  | gf8Div | gf8Inv | gf8Log | gf16Div | gf16Inv | gf16Log => exact concludes_of_fieldPartial rfl rfl rfl
  | rsEnc => exact ⟨_, rfl, rsEncode_endsIn s⟩
  | rsDec => exact ⟨_, rfl, rsDecode_endsIn s⟩
  | rqEnc => exact ⟨_, rfl, rqEncode_endsIn _⟩
  | rqDec => exact ⟨_, rfl, rqDecode_endsIn _⟩
  | encAuto => exact concludes_encAuto s
  | dec => exact concludes_dec s

/-- Settles O14: every command is a `conclude` of an answer whose errors are not the code of success. -/
theorem everyCommandEnds : Obligations.EveryCommandEnds := by
  unfold Obligations.EveryCommandEnds
  intro i s
  obtain ⟨r, hexec, hends⟩ := exec_concludes i s
  obtain ⟨t, hnext, -, hflag⟩ := conclude_endsIn hends (s.dispatched i)
  exact ⟨t, hexec.trans hnext, hflag⟩

end Sys2Proof.Machine
end

section
/-! What a command can leave: a success leaves one of its effects, an error nothing but `ERR`, `ERRF` and `RQ_RDY`
(R17, R305). -/

namespace Sys2Proof.Machine

/-! ### What the coders leave -/

/-- `u` is `s` after a coder that wrote blocks to slots below the new `N`, each one that `writable` holds of, and
left exactly the slots below `N` present (R44, R62, R68). -/
def Codes (s : State) (writable : Nat → Prop) (u : State) : Prop :=
  ∃ (n : Nat) (bs : List (Nat × List Byte)), u = (s.setBlks bs).publish n ∧ n ≤ s.nslot ∧ s.blenVal ≤ s.slotb ∧
    ∀ b ∈ bs, b.1 < n ∧ writable b.1

theorem Codes.of_publish {s : State} {n : Nat} (writable : Nat → Prop) (hn : n ≤ s.nslot)
    (hlen : s.blenVal ≤ s.slotb) : Codes s writable (s.publish n) :=
  ⟨n, [], rfl, hn, hlen, List.forall_mem_nil _⟩

theorem Codes.of_setSymbols {s : State} {writable : Nat → Prop} {n : Nat} (F : Gf) (bs : List (Nat × Vec))
    (hn : n ≤ s.nslot) (hlen : s.blenVal ≤ s.slotb) (hbs : ∀ b ∈ bs, b.1 < n ∧ writable b.1) :
    Codes s writable ((s.setSymbols F bs).publish n) :=
  ⟨n, bs.map (fun b => (b.1, bytesOf F b.2)), rfl, hn, hlen, List.forall_mem_map.2 hbs⟩

/-- `RS.ENC` writes the parity slots (R158). -/
theorem rsEncode_codes {s u : State} (h : rsEncode s = .ok u) : Codes s (s.kVal ≤ ·) u := by
  obtain ⟨hfits, rfl⟩ := rsEncode_ok h
  refine Codes.of_setSymbols _ _ hfits.slotsFit hfits.blenFits (List.forall_mem_map.2 fun j hj => ?_)
  have := List.mem_range.1 hj
  exact ⟨by dsimp only; omega, Nat.le_add_right _ _⟩

/-- `RQ.ENC` writes the repair slots (R208). -/
theorem rqEncode_codes {s u : State} (h : rqEncode s = .ok u) : Codes s (s.kVal ≤ ·) u := by
  obtain ⟨hlen, hn, ⟨-, rfl⟩ | ⟨J, C, -, -, -, rfl⟩⟩ := rqEncode_ok h
  · exact Codes.of_publish _ (by omega) hlen
  · refine Codes.of_setSymbols _ _ hn hlen (List.forall_mem_map.2 fun j hj => ?_)
    have := List.mem_range.1 hj
    exact ⟨by dsimp only; omega, Nat.le_add_right _ _⟩

/-- A decode that passes its checks has no more source blocks than entries (R161). -/
theorem kVal_le_nVal_of_contract {s : State} {p : DecodePath} (h : decodeContract s = .ok p) :
    s.kVal ≤ s.nVal := by
  rcases decodeContract_cases s with ⟨-, hk | ⟨-, hk, -⟩⟩ | ⟨herr, -⟩ | ⟨herr, -⟩ | ⟨-, hgen⟩
  · omega
  · exact hk
  · simp [herr] at h
  · simp [herr] at h
  · exact hgen.kLe

/-- `RS.DEC` writes the erased source slots (R166). -/
theorem rsDecode_codes {s u : State} (h : rsDecode s = .ok u) : Codes s s.erasedSlot u := by
  obtain ⟨hfits, -, ⟨hc, rfl⟩ | ⟨X, hc, -, rfl⟩⟩ := rsDecode_ok h
  · exact Codes.of_publish _ ((kVal_le_nVal_of_contract hc).trans hfits.slotsFit) hfits.blenFits
  · refine Codes.of_setSymbols _ _ ((kVal_le_nVal_of_contract hc).trans hfits.slotsFit) hfits.blenFits ?_
    intro b hb
    have herased := (s.mem_erased _ _).1 (List.of_mem_zip hb).1
    exact ⟨herased.1, herased⟩

/-- `RQ.DEC` writes the erased source slots (R252). -/
theorem rqDecode_codes {s u : State} (h : rqDecode s = .ok u) : Codes s s.erasedSlot u := by
  obtain ⟨hfits, ⟨hc, rfl⟩ | ⟨J, C, hc, -, -, rfl⟩⟩ := rqDecode_ok h
  · exact Codes.of_publish _ ((kVal_le_nVal_of_contract hc).trans hfits.slotsFit) hfits.blenFits
  · refine Codes.of_setSymbols _ _ ((kVal_le_nVal_of_contract hc).trans hfits.slotsFit) hfits.blenFits ?_
    refine List.forall_mem_map.2 fun i hi => ?_
    have herased := (s.mem_erased _ _).1 hi
    exact ⟨herased.1, herased⟩

/-! ### What every command leaves -/

/-- What a success of the command `i` on the dispatched state `s` can leave for `done` (R22, R44, R95). -/
inductive Effect (s : State) : Instr → State → Prop
  | nothing : Effect s .nop s
  | result {i : Instr} (v : Nat) (hi : writesRes i = true) : Effect s i (s.setRes v)
  | encoded {i : Instr} {u : State} (hi : i = .rsEnc ∨ i = .rqEnc) (hu : Codes s (s.kVal ≤ ·) u) : Effect s i u
  | encodedAuto {u : State} (m : CodingMode) (hu : Codes s (s.kVal ≤ ·) u) : Effect s .encAuto (u.setMode m.value)
  | decoded {i : Instr} {u : State} (hi : isDecode i = true) (hu : Codes s s.erasedSlot u) : Effect s i u

/-- A command is `conclude`, on the dispatched state, of an answer whose success is one of its effects. -/
def ConcludesEffect (i : Instr) (s : State) : Prop :=
  ∃ r, exec i s = conclude (s.dispatched i) r ∧ ∀ u, r = .ok u → Effect (s.dispatched i) i u

theorem concludesEffect_of_setRes {i : Instr} {s : State} {v : Nat} (hexec : exec i s = conclude s (.ok (s.setRes v)))
    (hrq : dispatchesRq s i = false) (hi : writesRes i = true) : ConcludesEffect i s := by
  refine ⟨_, by rw [hexec, State.dispatched_of_not_rq hrq], ?_⟩
  intro u hu
  obtain rfl := Except.ok.inj hu
  rw [State.dispatched_of_not_rq hrq]
  exact .result v hi

/-- A field command that is undefined at `x = 0` (R119). -/
theorem concludesEffect_of_fieldPartial {i : Instr} {s : State} {x v : Nat} (hexec : exec i s = fieldPartial s x v)
    (hrq : dispatchesRq s i = false) (hi : writesRes i = true) : ConcludesEffect i s := by
  by_cases hx : x = 0
  · refine ⟨.error .gfUndef, by rw [hexec, State.dispatched_of_not_rq hrq, fieldPartial, if_pos hx], nofun⟩
  · exact concludesEffect_of_setRes (by rw [hexec, fieldPartial, if_neg hx]) hrq hi

/-- The encoder that the selector names (R280). -/
def encodeBy : CodingMode → State → Except ErrCode State
  | .rs8 | .rs16 => rsEncode
  | .rq => rqEncode

theorem encodeBy_codes {m : CodingMode} {s u : State} (h : encodeBy m s = .ok u) : Codes s (s.kVal ≤ ·) u := by
  cases m with
  | rs8 | rs16 => exact rsEncode_codes h
  | rq => exact rqEncode_codes h

/-- `ENC.AUTO` is the selected encoder, with `MODE` written after a success (R280). -/
theorem exec_encAuto (s : State) : exec .encAuto s = conclude (s.dispatched .encAuto)
    ((encodeBy s.autoMode (s.dispatched .encAuto)).map (·.setMode s.autoMode.value)) := by
  have hexec : exec .encAuto s = execEncAuto s := rfl
  rw [hexec, execEncAuto, State.dispatched, dispatchesRq_encAuto]
  cases s.autoMode <;> rfl

theorem concludesEffect_encAuto (s : State) : ConcludesEffect .encAuto s := by
  refine ⟨_, exec_encAuto s, fun u hu => ?_⟩
  cases hr : encodeBy s.autoMode (s.dispatched .encAuto) with
  | error c => simp [hr, Except.map] at hu
  | ok w =>
    obtain rfl : w.setMode s.autoMode.value = u := by simpa [hr, Except.map] using hu
    exact .encodedAuto _ (encodeBy_codes hr)

/-- `DEC` is the decoder that `MODE` names, and writes nothing where it names none (R282). -/
theorem concludesEffect_dec (s : State) : ConcludesEffect .dec s := by
  have hmode := dispatchesRq_dec s
  have hexec : exec .dec s = execDec s := rfl
  unfold ConcludesEffect
  rw [hexec, execDec, unsignedWord, State.dispatched, hmode]
  rcases lt_trichotomy s.mode.toNat 2 with hm | hm | hm
  · rw [if_neg (by omega), if_neg (by omega), if_neg (by simpa using hm.ne)]
    exact ⟨_, rfl, fun u hu => .decoded rfl (rsDecode_codes hu)⟩
  · rw [if_neg (by omega), if_pos hm, if_pos (by simpa using hm)]
    exact ⟨_, rfl, fun u hu => .decoded rfl (rqDecode_codes hu)⟩
  · rw [if_pos hm, if_neg (by simpa using hm.ne')]
    exact ⟨.error .badMode, rfl, nofun⟩

theorem exec_concludesEffect (i : Instr) (s : State) : ConcludesEffect i s := by
  cases i with
  | nop => exact ⟨.ok s, rfl, fun u hu => Except.ok.inj hu ▸ .nothing⟩
  | sel | gf8Add | gf8Mul | gf8Exp | gf16Add | gf16Mul | gf16Exp => exact concludesEffect_of_setRes rfl rfl rfl
  | gf8Div | gf8Inv | gf8Log | gf16Div | gf16Inv | gf16Log => exact concludesEffect_of_fieldPartial rfl rfl rfl
  | rsEnc => exact ⟨_, rfl, fun u hu => .encoded (.inl rfl) (rsEncode_codes hu)⟩
  | rqEnc => exact ⟨_, rfl, fun u hu => .encoded (.inr rfl) (rqEncode_codes hu)⟩
  | rsDec => exact ⟨_, rfl, fun u hu => .decoded rfl (rsDecode_codes hu)⟩
  | rqDec => exact ⟨_, rfl, fun u hu => .decoded rfl (rqDecode_codes hu)⟩
  | encAuto => exact concludesEffect_encAuto s
  | dec => exact concludesEffect_dec s

/-- All that a command can do: one of its effects and `done`, or `raise` with an error of the table R300. -/
theorem exec_cases {i : Instr} {s t : State} (h : exec i s = .next t) :
    (∃ u, Effect (s.dispatched i) i u ∧ t = u.done) ∨
      ∃ c, c ≠ .ok ∧ c ∈ outcomesOf s i ∧ t = (s.dispatched i).raise c := by
  obtain ⟨r, hexec, heffect⟩ := exec_concludesEffect i s
  rcases conclude_cases (hexec.symm.trans h) with ⟨u, hr, rfl⟩ | ⟨c, -, rfl⟩
  · exact .inl ⟨u, heffect u hr, rfl⟩
  · obtain ⟨r', hexec', hends⟩ := exec_concludes i s
    obtain ⟨t', ht', hmem, hflag⟩ := conclude_endsIn hends (s.dispatched i)
    obtain rfl : (s.dispatched i).raise c = t' := by simpa [h, ht'] using hexec'
    exact .inr ⟨c, of_decide_eq_true hflag.symm, hmem, rfl⟩

end Sys2Proof.Machine
end

section
/-! What each input can do: a write of `CMD` runs a command (O5), every other access one operation. -/

namespace Sys2Proof.Machine

/-! ### A write of `CMD` -/

theorem State.writeReg_cmdOffset (s : State) (w : Word) : s.writeReg cmdOffset w = { s with cmd := w } := rfl

theorem State.command_of_decode {w : Word} {i : Instr} (h : decode w = .ok i) (s : State) :
    s.command w = exec i { s with cmd := w } := by
  rw [State.command, h, State.writeReg_cmdOffset]

theorem State.command_of_illegal {w : Word} {e : IllegalWord} (h : decode w = .error e) (s : State) :
    s.command w = .next (({ s with cmd := w } : State).raise .illegal) := by
  rw [State.command, h, State.writeReg_cmdOffset]
  rfl

/-- A write of `CMD` executes the command of its word, or raises E_ILLEGAL (R28, R96). -/
theorem State.command_cases {s t : State} {w : Word} (h : s.command w = .next t) :
    (∃ i, decode w = .ok i ∧ exec i { s with cmd := w } = .next t) ∨
      (∀ i, decode w ≠ .ok i) ∧ t = ({ s with cmd := w } : State).raise .illegal := by
  cases hd : decode w with
  | ok i => exact .inl ⟨i, rfl, (State.command_of_decode hd s).symm.trans h⟩
  | error e => exact .inr ⟨nofun, by simpa [State.command_of_illegal hd, eq_comm] using h⟩

/-! ### A step runs the decoded command -/

theorem decode_encode (i : Instr) : decode (encode i) = .ok i := by
  cases i <;> rfl

theorem step_of_cmdWrite {s : State} {w : Word} {rest : List HostInput} {i : Instr}
    (hscript : s.script = .wr cmdOffset w :: rest) (h : decode w = .ok i) :
    step s = exec i { s with script := rest, cmd := w } := by
  unfold step
  rw [hscript]
  exact State.command_of_decode h _

/-- Settles O5: the write of `CMD` is the step's one input, and its word is decoded. -/
theorem stepRunsTheDecodedCommand : Obligations.StepRunsTheDecodedCommand := by
  unfold Obligations.StepRunsTheDecodedCommand
  refine ⟨fun s w rest i => step_of_cmdWrite, fun s hscript => ?_, fun s i => ?_⟩
  · unfold step
    rw [hscript]
  · have hword : BitVec.ofNat 32 ((encode i).toNat % 2 ^ 32) = encode i := by
      rw [Nat.mod_eq_of_lt (encode i).isLt, BitVec.ofNat_toNat, BitVec.setWidth_eq]
    have hscript : (s.withFetchWord 32 (encode i).toNat).script = .wr cmdOffset (encode i) :: s.script := by
      rw [State.withFetchWord, hword]
    exact step_of_cmdWrite hscript (decode_encode i)

/-! ### The other accesses -/

/-- A register write executes the word written to `CMD`, or stores its value (R28, R63). -/
theorem hostWrite_cases {s t : State} {off : Nat} {v : Word} (h : hostWrite s off v = .next t) :
    (off = cmdOffset ∧ s.command v = .next t) ∨ (off ≠ cmdOffset ∧ t = s.writeReg off v) := by
  unfold hostWrite at h
  split at h
  · simp at h
  · split at h
    · simp at h
    · split at h
      · exact .inl ⟨‹_›, h⟩
      · exact .inr ⟨‹_›, by simpa [eq_comm] using h⟩

theorem hostRead_next {s t : State} {off : Nat} (h : hostRead s off = .next t) :
    t = s.reply (.reg off (s.readReg off)) := by
  unfold hostRead at h
  split at h
  · simp at h
  · split at h
    · simp at h
    · simpa [eq_comm] using h

theorem hostWriteByte_next {s t : State} {addr : Nat} {v : Byte} (h : hostWriteByte s addr v = .next t) :
    addr < s.nslot * s.slotb ∧ t = s.setByte addr v := by
  unfold hostWriteByte at h
  split at h
  · simp at h
  · exact ⟨by omega, by simpa [eq_comm] using h⟩

theorem hostReadByte_next {s t : State} {addr : Nat} (h : hostReadByte s addr = .next t) :
    t = s.reply (.byte addr (s.byteAt addr)) := by
  unfold hostReadByte at h
  split at h
  · simp at h
  · simpa [eq_comm] using h

end Sys2Proof.Machine
end

section
/-! The invariant of the ECE is kept by every command, every input and so by every step (O3). -/

namespace Sys2Proof.Machine

/-! ### Well-formedness of the storage -/

theorem State.Wf.nslot_le {s : State} (h : s.Wf) : s.nslot ≤ 65536 := by
  have hbounds := of_decide_eq_true h.params
  exact hbounds.2.1

theorem State.inst_wfAddress (s : State) (a : Nat) : s.inst.wfAddress a = true ↔ a < s.nslot * s.slotb :=
  decide_eq_true_iff

/-- The invariant speaks of the capacities, the bitmap, the buffer and the error alone. -/
theorem State.Wf.of_sameStorage {s t : State} (h : s.Wf) (hnslot : t.nslot = s.nslot) (hslotb : t.slotb = s.slotb)
    (hpres : t.pres = s.pres) (hbuf : t.buf = s.buf) (hflag : t.errf = decide (t.err ≠ .ok))
    (herr : t.err ≠ .invalidRedundancy) : t.Wf where
  params := by simpa only [State.inst, hnslot, hslotb] using h.params
  bufCanonical := hbuf ▸ h.bufCanonical
  bufInside := by simpa only [State.inst, hnslot, hslotb, hbuf] using h.bufInside
  presSorted := hpres ▸ h.presSorted
  presInside := by simpa only [hnslot, hpres] using h.presInside
  flagIsErr := hflag
  neverInvalidRedundancy := herr

/-- An update of fields that the invariant does not speak of. -/
theorem State.Wf.of_sameFields {s t : State} (h : s.Wf) (hnslot : t.nslot = s.nslot) (hslotb : t.slotb = s.slotb)
    (hpres : t.pres = s.pres) (hbuf : t.buf = s.buf) (herr : t.err = s.err) (herrf : t.errf = s.errf) : t.Wf :=
  h.of_sameStorage hnslot hslotb hpres hbuf (by rw [herrf, herr]; exact h.flagIsErr)
    (herr ▸ h.neverInvalidRedundancy)

theorem State.Wf.done {s : State} (h : s.Wf) : s.done.Wf :=
  h.of_sameStorage rfl rfl rfl rfl rfl nofun

theorem State.Wf.raise {s : State} (h : s.Wf) {c : ErrCode} (hok : c ≠ .ok) (hres : c ≠ .invalidRedundancy) :
    (s.raise c).Wf :=
  h.of_sameStorage rfl rfl rfl rfl (by simp [hok]) hres

theorem State.Wf.setByte {s : State} (h : s.Wf) {a : Nat} (ha : a < s.nslot * s.slotb) (v : Byte) :
    (s.setByte a v).Wf where
  params := h.params
  bufCanonical := Memory.wf_store a v h.bufCanonical
  bufInside := by
    intro x hx
    rcases Memory.mem_store hx with rfl | hx
    · exact (s.inst_wfAddress a).2 ha
    · exact h.bufInside x hx
  presSorted := h.presSorted
  presInside := h.presInside
  flagIsErr := h.flagIsErr
  neverInvalidRedundancy := h.neverInvalidRedundancy

theorem State.Wf.setPresWord {s : State} (h : s.Wf) (w : Nat) (v : Word) : (s.setPresWord w v).Wf where
  params := h.params
  bufCanonical := h.bufCanonical
  bufInside := h.bufInside
  presSorted := s.sorted_setPresWord w v h.presSorted
  presInside := by
    intro i hi
    rw [State.mem_setPresWord] at hi
    split at hi
    · exact hi.2
    · exact h.presInside i hi
  flagIsErr := h.flagIsErr
  neverInvalidRedundancy := h.neverInvalidRedundancy

/-- A block of the current length lies inside its slot, and so inside B-space (R60, R62). -/
theorem State.slotAddr_add_blenVal_le {s : State} {i : Nat} (hi : i < s.nslot) (hlen : s.blenVal ≤ s.slotb) :
    s.slotAddr i + s.blenVal ≤ s.nslot * s.slotb :=
  calc i * s.slotb + s.blenVal ≤ i * s.slotb + s.slotb := Nat.add_le_add_left hlen _
    _ = (i + 1) * s.slotb := (Nat.succ_mul _ _).symm
    _ ≤ s.nslot * s.slotb := Nat.mul_le_mul_right _ hi

theorem Codes.wf {s u : State} {writable : Nat → Prop} (h : Codes s writable u) (hs : s.Wf) : u.Wf := by
  obtain ⟨n, bs, rfl, hn, hlen, hbs⟩ := h
  exact {
    params := by simpa [State.inst] using hs.params
    bufCanonical := s.wf_setBlks bs hs.bufCanonical
    bufInside := by
      intro x hx
      rw [State.inst_wfAddress, State.publish_nslot, State.publish_slotb, State.setBlks_nslot, State.setBlks_slotb]
      rcases s.mem_setBlks_buf bs x hx with hx | ⟨b, hb, -, hlt⟩
      · exact (s.inst_wfAddress _).1 (hs.bufInside x hx)
      · exact hlt.trans_le (State.slotAddr_add_blenVal_le ((hbs b hb).1.trans_le hn) hlen)
    presSorted := List.pairwise_lt_range
    presInside := fun i hi => by
      rw [State.publish_nslot, State.setBlks_nslot]
      exact (List.mem_range.1 hi).trans_le hn
    flagIsErr := by simpa using hs.flagIsErr
    neverInvalidRedundancy := by simpa using hs.neverInvalidRedundancy }

/-! ### Every command, every input, every step -/

theorem State.Wf.dispatched {s : State} (h : s.Wf) (i : Instr) : (s.dispatched i).Wf := by
  unfold State.dispatched
  split
  · exact h.of_sameFields rfl rfl rfl rfl rfl rfl
  · exact h

theorem Effect.wf {s u : State} {i : Instr} (h : Effect s i u) (hs : s.Wf) : u.Wf := by
  cases h with
  | nothing => exact hs
  | result => exact hs.of_sameFields rfl rfl rfl rfl rfl rfl
  | encodedAuto m hu => exact (hu.wf hs).of_sameFields rfl rfl rfl rfl rfl rfl
  | encoded hi hu => exact hu.wf hs
  | decoded hi hu => exact hu.wf hs

/-- No outcome of the table R300 is the reserved code 0x03 (R306). -/
theorem invalidRedundancy_notMem_outcomesOf (s : State) (i : Instr) : .invalidRedundancy ∉ outcomesOf s i := by
  cases i with
  | encAuto => rw [outcomesOf]; split <;> simp
  | dec => rw [outcomesOf]; split_ifs <;> simp [rsDecodeOutcomes, rqDecodeOutcomes]
  | _ => simp [outcomesOf, rsDecodeOutcomes, rqDecodeOutcomes]

theorem exec_wf {i : Instr} {s t : State} (hs : s.Wf) (h : exec i s = .next t) : t.Wf := by
  rcases exec_cases h with ⟨u, hu, rfl⟩ | ⟨c, hc, hmem, rfl⟩
  · exact (hu.wf (hs.dispatched i)).done
  · exact (hs.dispatched i).raise hc fun hres => invalidRedundancy_notMem_outcomesOf s i (hres ▸ hmem)

theorem State.Wf.writeNamed {s : State} (h : s.Wf) (r : Reg) (v : Word) : (s.writeNamed r v).Wf := by
  cases r <;> exact h.of_sameFields rfl rfl rfl rfl rfl rfl

theorem State.Wf.writeReg {s : State} (h : s.Wf) (off : Nat) (v : Word) : (s.writeReg off v).Wf := by
  unfold State.writeReg
  split
  · exact h.writeNamed _ v
  · exact h.setPresWord _ v
  · exact h

theorem State.Wf.command {s t : State} {w : Word} (hs : s.Wf) (h : s.command w = .next t) : t.Wf := by
  have hcmd : ({ s with cmd := w } : State).Wf := hs.of_sameFields rfl rfl rfl rfl rfl rfl
  rcases State.command_cases h with ⟨i, -, hexec⟩ | ⟨-, rfl⟩
  · exact exec_wf hcmd hexec
  · exact hcmd.raise nofun nofun

theorem State.Wf.applyReset {s : State} (h : s.Wf) : s.applyReset.Wf :=
  ((State.resetOf_wf_iff s.nslot s.slotb).2 h.params).of_sameFields rfl rfl rfl rfl rfl rfl

theorem State.Wf.reply {s : State} (h : s.Wf) (r : Reply) : (s.reply r).Wf :=
  h.of_sameFields rfl rfl rfl rfl rfl rfl

theorem perform_wf {a : HostInput} {s t : State} (hs : s.Wf) (h : perform a s = .next t) : t.Wf := by
  cases a with
  | wr off v =>
    rcases hostWrite_cases h with ⟨-, hcommand⟩ | ⟨-, rfl⟩
    · exact hs.command hcommand
    · exact hs.writeReg off v
  | rd off =>
    obtain rfl := hostRead_next h
    exact hs.reply _
  | wrb addr v =>
    obtain ⟨haddr, rfl⟩ := hostWriteByte_next h
    exact hs.setByte haddr v
  | rdb addr =>
    obtain rfl := hostReadByte_next h
    exact hs.reply _
  | reset =>
    obtain rfl : s.applyReset = t := by simpa [perform] using h
    exact hs.applyReset
  | regOther | bufOther | accessInReset => simp [perform] at h

/-- Settles O3: each input keeps the invariant, and taking it from the script does not touch it. -/
theorem everyStepKeepsTheStateWellFormed : Obligations.EveryStepKeepsTheStateWellFormed := by
  unfold Obligations.EveryStepKeepsTheStateWellFormed
  intro s t hs h
  unfold step at h
  split at h
  · obtain rfl : s = t := by simpa using h
    exact hs
  · rename_i a rest _
    have htaken : ({ s with script := rest } : State).Wf := hs.of_sameFields rfl rfl rfl rfl rfl rfl
    exact perform_wf htaken h

end Sys2Proof.Machine
end

section
/-! `RQ_RDY` is set by the dispatch to the RaptorQ unit and cleared by a reset, and by nothing else (O16). -/

namespace Sys2Proof.Machine

theorem Codes.rqRdy_eq {s u : State} {writable : Nat → Prop} (h : Codes s writable u) : u.rqRdy = s.rqRdy := by
  obtain ⟨n, bs, rfl, -⟩ := h
  simp

theorem Effect.rqRdy_eq {s u : State} {i : Instr} (h : Effect s i u) : u.rqRdy = s.rqRdy := by
  cases h with
  | nothing | result => rfl
  | encoded _ hu | encodedAuto _ hu | decoded _ hu => exact hu.rqRdy_eq

theorem State.dispatched_rqRdy (s : State) (i : Instr) : (s.dispatched i).rqRdy = (s.rqRdy || dispatchesRq s i) := by
  cases hrq : dispatchesRq s i with
  | true => simp [State.dispatched_of_rq hrq]
  | false => simp [State.dispatched_of_not_rq hrq]

/-- The flag is what the dispatch made it, whether the command succeeds or not. -/
theorem exec_rqRdy {i : Instr} {s t : State} (h : exec i s = .next t) : t.rqRdy = (s.rqRdy || dispatchesRq s i) := by
  rw [← State.dispatched_rqRdy]
  rcases exec_cases h with ⟨u, hu, rfl⟩ | ⟨c, -, -, rfl⟩
  · exact hu.rqRdy_eq
  · rfl

theorem State.writeReg_rqRdy (s : State) (off : Nat) (v : Word) : (s.writeReg off v).rqRdy = s.rqRdy := by
  unfold State.writeReg
  split
  · rename_i r _
    cases r <;> rfl
  · rfl
  · rfl

/-- No host access but a write of `CMD` touches the flag. -/
theorem perform_rqRdy {a : HostInput} {s t : State} (hreset : a ≠ .reset) (hcmd : ∀ w, a ≠ .wr cmdOffset w)
    (h : perform a s = .next t) : t.rqRdy = s.rqRdy := by
  cases a with
  | wr off v =>
    rcases hostWrite_cases h with ⟨rfl, -⟩ | ⟨-, rfl⟩
    · exact absurd rfl (hcmd v)
    · exact s.writeReg_rqRdy off v
  | rd off =>
    obtain rfl := hostRead_next h
    rfl
  | wrb addr v =>
    obtain ⟨-, rfl⟩ := hostWriteByte_next h
    rfl
  | rdb addr =>
    obtain rfl := hostReadByte_next h
    rfl
  | reset => exact absurd rfl hreset
  | regOther | bufOther | accessInReset => simp [perform] at h

/-- Settles O16: the dispatch alone sets the flag, and a reset alone clears it. -/
theorem rqRdyIsSetExactlyAtDispatch : Obligations.RqRdyIsSetExactlyAtDispatch := by
  unfold Obligations.RqRdyIsSetExactlyAtDispatch
  refine ⟨fun _ _ => rfl, fun i s t => exec_rqRdy, fun s t w hillegal h => ?_, fun s t h => ?_,
    fun a s t => perform_rqRdy⟩
  · rcases hostWrite_cases h with ⟨-, hcommand⟩ | ⟨hoff, -⟩
    · rcases State.command_cases hcommand with ⟨i, hi, -⟩ | ⟨-, rfl⟩
      · exact absurd hi (hillegal i)
      · rfl
    · exact absurd rfl hoff
  · obtain rfl : s.applyReset = t := by simpa [perform] using h
    rfl

end Sys2Proof.Machine
end

section
/-! The register map: which register stands at which offset, what a register reads after a write, and the presence
words (O9, O13). -/

namespace Sys2Proof.Machine

/-! ### The map R26 -/

theorem regAt_named (nslot : Nat) {off : Nat} (h : off / 4 < namedRegs.length) :
    regAt nslot off = .named namedRegs[off / 4] := by
  have hlt : off < 0x1000 := by simp [namedRegs] at h; omega
  rw [regAt, if_pos hlt, List.getElem?_eq_getElem h]

theorem regAt_hole (nslot : Nat) {off : Nat} (hlo : 0x44 ≤ off) (hhi : off < 0x1000) :
    regAt nslot off = .reserved := by
  have hnone : namedRegs[off / 4]? = none := List.getElem?_eq_none (by simp [namedRegs]; omega)
  rw [regAt, if_pos hhi, hnone]

theorem regAt_presWord {nslot off : Nat} (hlo : 0x1000 ≤ off) (hslots : 32 * ((off - 0x1000) / 4) < nslot) :
    regAt nslot off = .presWord ((off - 0x1000) / 4) := by
  rw [regAt, if_neg (by omega), if_pos hslots]

theorem regAt_unusedWord {nslot off : Nat} (hlo : 0x1000 ≤ off) (hslots : nslot ≤ 32 * ((off - 0x1000) / 4)) :
    regAt nslot off = .reserved := by
  rw [regAt, if_neg (by omega), if_neg (by omega)]

/-- All that stands at an offset, with the arithmetic of its place (R26, R43, R44). -/
theorem regAt_cases (nslot off : Nat) :
    (∃ h : off / 4 < namedRegs.length, regAt nslot off = .named namedRegs[off / 4]) ∨
      (∃ w, 0x1000 ≤ off ∧ w = (off - 0x1000) / 4 ∧ regAt nslot off = .presWord w) ∨ regAt nslot off = .reserved := by
  rcases Nat.lt_or_ge off 0x44 with hnamed | hlo
  · have h : off / 4 < namedRegs.length := by simp [namedRegs]; omega
    exact .inl ⟨h, regAt_named nslot h⟩
  rcases Nat.lt_or_ge off 0x1000 with hhi | hlo'
  · exact .inr (.inr (regAt_hole nslot hlo hhi))
  rcases Nat.lt_or_ge (32 * ((off - 0x1000) / 4)) nslot with hslots | hslots
  · exact .inr (.inl ⟨_, hlo', rfl, regAt_presWord hlo' hslots⟩)
  · exact .inr (.inr (regAt_unusedWord hlo' hslots))

theorem nodup_namedRegs : namedRegs.Nodup := by decide

/-- Different offsets have different registers: no register stands at two. -/
theorem regAt_inj {nslot off off' : Nat} (h : off % 4 = 0) (h' : off' % 4 = 0)
    (hsame : regAt nslot off = regAt nslot off') (hused : regAt nslot off ≠ .reserved) : off = off' := by
  rcases regAt_cases nslot off with ⟨hi, hat⟩ | ⟨w, hlo, hw, hat⟩ | hat
  · rcases regAt_cases nslot off' with ⟨hi', hat'⟩ | ⟨w', -, -, hat'⟩ | hat'
    · have hreg : namedRegs[off / 4] = namedRegs[off' / 4] := by simpa [hat, hat'] using hsame
      have := (nodup_namedRegs.getElem_inj_iff).1 hreg
      omega
    · simp [hat, hat'] at hsame
    · simp [hat, hat'] at hsame
  · rcases regAt_cases nslot off' with ⟨hi', hat'⟩ | ⟨w', hlo', hw', hat'⟩ | hat'
    · simp [hat, hat'] at hsame
    · have hword : w = w' := by simpa [hat, hat'] using hsame
      omega
    · simp [hat, hat'] at hsame
  · exact absurd hat hused

/-! ### Reads, by what stands at the offset -/

theorem State.readReg_named {s : State} {off : Nat} {r : Reg} (h : regAt s.nslot off = .named r) :
    s.readReg off = s.readNamed r := by
  rw [State.readReg, h]

theorem State.readReg_presWord {s : State} {off w : Nat} (h : regAt s.nslot off = .presWord w) :
    s.readReg off = s.presWord w := by
  rw [State.readReg, h]

theorem State.readReg_reserved {s : State} {off : Nat} (h : regAt s.nslot off = .reserved) : s.readReg off = 0 := by
  rw [State.readReg, h]

/-! ### The presence words -/

/-- The number below `2 ^ n` whose bit `b` says whether `p b` holds: the form in which `presWord` packs its bits. -/
def bitsValue (p : Nat → Prop) [DecidablePred p] (n : Nat) : Nat :=
  ((List.range n).map (fun b => if p b then 2 ^ b else 0)).sum

theorem bitsValue_succ (p : Nat → Prop) [DecidablePred p] (n : Nat) :
    bitsValue p (n + 1) = bitsValue p n + if p n then 2 ^ n else 0 := by
  simp [bitsValue, List.range_succ]

theorem bitsValue_lt (p : Nat → Prop) [DecidablePred p] (n : Nat) : bitsValue p n < 2 ^ n := by
  induction n with
  | zero => exact Nat.one_pos
  | succ n ih =>
    rw [bitsValue_succ, Nat.pow_succ]
    split <;> omega

theorem testBit_bitsValue (p : Nat → Prop) [DecidablePred p] (n i : Nat) :
    (bitsValue p n).testBit i = decide (i < n ∧ p i) := by
  induction n with
  | zero => simp [bitsValue]
  | succ n ih =>
    rw [bitsValue_succ]
    by_cases hp : p n
    · have hor : bitsValue p n + 2 ^ n = 2 ^ n ||| bitsValue p n := by
        rw [Nat.add_comm]
        simpa using Nat.two_pow_add_eq_or_of_lt (bitsValue_lt p n) 1
      rw [if_pos hp, hor, Nat.testBit_or, Nat.testBit_two_pow, ih]
      by_cases hi : n = i
      · subst hi
        simp [hp]
      · simp [hi, show i < n + 1 ↔ i < n by omega]
    · rw [if_neg hp, Nat.add_zero, ih, decide_eq_decide]
      by_cases hi : n = i
      · subst hi
        simp [hp]
      · simp [show i < n + 1 ↔ i < n by omega]

/-- Bit b of `PRESW[w]` is `PRES[32w + b]`, and 0 at or above NSLOT (R44). -/
theorem State.presWord_getLsbD (s : State) (w : Nat) {b : Nat} (hb : b < 32) :
    (s.presWord w).getLsbD b = (decide (32 * w + b < s.nslot) && s.presAt (32 * w + b)) := by
  have hword : s.presWord w
      = BitVec.ofNat 32 (bitsValue (fun b => 32 * w + b < s.nslot ∧ 32 * w + b ∈ s.pres) 32) := rfl
  rw [hword, BitVec.getLsbD_ofNat, testBit_bitsValue]
  simp [hb, State.presAt]

theorem State.presAt_setPresWord (s : State) (w : Nat) (v : Word) (i : Nat) :
    (s.setPresWord w v).presAt i =
      if 32 * w ≤ i ∧ i < 32 * w + 32 then v.getLsbD (i - 32 * w) && decide (i < s.nslot) else s.presAt i := by
  unfold State.presAt
  simp only [State.mem_setPresWord]
  split <;> simp

/-- A written presence word reads its bits of slots below NSLOT. -/
theorem State.presWord_setPresWord_same (s : State) (w : Nat) (v : Word) {b : Nat} (hb : b < 32) :
    ((s.setPresWord w v).presWord w).getLsbD b = (v.getLsbD b && decide (32 * w + b < s.nslot)) := by
  rw [State.presWord_getLsbD _ _ hb, State.presAt_setPresWord, if_pos (by omega), Nat.add_sub_cancel_left,
    State.setPresWord_nslot]
  cases decide (32 * w + b < s.nslot) <;> simp

theorem State.presWord_setPresWord_of_ne (s : State) {w w' : Nat} (h : w' ≠ w) (v : Word) :
    (s.setPresWord w v).presWord w' = s.presWord w' := by
  refine BitVec.eq_of_getLsbD_eq fun b hb => ?_
  rw [State.presWord_getLsbD _ _ hb, State.presWord_getLsbD _ _ hb, State.presAt_setPresWord, if_neg (by omega),
    State.setPresWord_nslot]

/-- After a coder the slots present are those below the new `N`, which the register can hold (R44). -/
theorem Codes.presAt_eq {s u : State} {writable : Nat → Prop} (h : Codes s writable u) (hs : s.Wf) (x : Nat) :
    u.presAt x = decide (x < u.nVal) := by
  obtain ⟨n, bs, rfl, hn, -⟩ := h
  have hslots := hs.nslot_le
  have hval : (BitVec.ofNat 32 n).toNat = n := by
    rw [BitVec.toNat_ofNat]
    exact Nat.mod_eq_of_lt (by omega)
  simp only [State.presAt, State.nVal, unsignedWord, State.publish_pres, State.publish_n, hval, List.mem_range]

/-- A success of an encode or decode command leaves the slots below the new `N` present. -/
theorem Effect.presAt_eq {s u : State} {i : Instr} (h : Effect s i u) (hs : s.Wf)
    (hi : isEncode i = true ∨ isDecode i = true) (x : Nat) : u.presAt x = decide (x < u.nVal) := by
  cases h with
  | nothing => simp [isEncode, isDecode] at hi
  | result v hres => cases i <;> simp [isEncode, isDecode, writesRes] at hi hres
  | encoded _ hu | decoded _ hu => exact hu.presAt_eq hs x
  | encodedAuto _ hu => exact hu.presAt_eq hs x

theorem State.readReg_presWord_getLsbD (s : State) (w : Nat) {b : Nat} (hb : b < 32) :
    (s.readReg (0x1000 + 4 * w)).getLsbD b = (decide (32 * w + b < s.nslot) && s.presAt (32 * w + b)) := by
  have hword : (0x1000 + 4 * w - 0x1000) / 4 = w := by omega
  rcases Nat.lt_or_ge (32 * w) s.nslot with hslots | hslots
  · have hat : regAt s.nslot (0x1000 + 4 * w) = .presWord w := by
      simpa only [hword] using regAt_presWord (off := 0x1000 + 4 * w) (by omega) (by rwa [hword])
    rw [State.readReg_presWord hat, State.presWord_getLsbD s w hb]
  · have hat : regAt s.nslot (0x1000 + 4 * w) = .reserved := regAt_unusedWord (by omega) (by rwa [hword])
    have hout : ¬32 * w + b < s.nslot := by omega
    simp [State.readReg_reserved hat, hout]

/-- Settles O13: the presence words read the bitmap bit by bit, and every success of a coder rewrites it. -/
theorem presenceWordsShowTheBitmap : Obligations.PresenceWordsShowTheBitmap := by
  unfold Obligations.PresenceWordsShowTheBitmap
  refine ⟨fun s w b _ hb => s.readReg_presWord_getLsbD w hb, fun i s t hs hi hexec hok x => ?_⟩
  rcases exec_cases hexec with ⟨u, hu, rfl⟩ | ⟨c, hc, -, rfl⟩
  · exact hu.presAt_eq (hs.dispatched i) hi x
  · exact absurd hok hc

/-! ### A register write -/

/-- The registers that the map R26 lets the host write. -/
def Reg.writable : Reg → Bool
  | .cmd | .opa | .opb | .k | .n | .blen | .redun | .loss | .mode | .thr8 | .thr16 => true
  | .id | .status | .err | .res | .nslotR | .slotbR => false

theorem State.writeNamed_readOnly (s : State) {r : Reg} (h : r.writable = false) (v : Word) :
    s.writeNamed r v = s := by
  cases r with
  | id | status | err | res | nslotR | slotbR => rfl
  | cmd | opa | opb | k | n | blen | redun | loss | mode | thr8 | thr16 => simp [Reg.writable] at h

/-- A write of a register is read back from it if it is writable, and from no other register. -/
theorem State.readNamed_writeNamed (s : State) (r r' : Reg) (v : Word) :
    (s.writeNamed r v).readNamed r' = if r' = r ∧ r.writable = true then v else s.readNamed r' := by
  cases r <;> cases r' <;> rfl

theorem State.presWord_writeNamed (s : State) (r : Reg) (v : Word) (w : Nat) :
    (s.writeNamed r v).presWord w = s.presWord w := by
  cases r <;> rfl

theorem State.readNamed_setPresWord (s : State) (w : Nat) (v : Word) (r : Reg) :
    (s.setPresWord w v).readNamed r = s.readNamed r := by
  cases r <;> rfl

theorem State.writeReg_named {s : State} {off : Nat} {r : Reg} (h : regAt s.nslot off = .named r) (v : Word) :
    s.writeReg off v = s.writeNamed r v := by
  rw [State.writeReg, h]

theorem State.writeReg_presWord {s : State} {off w : Nat} (h : regAt s.nslot off = .presWord w) (v : Word) :
    s.writeReg off v = s.setPresWord w v := by
  rw [State.writeReg, h]

theorem State.writeReg_reserved {s : State} {off : Nat} (h : regAt s.nslot off = .reserved) (v : Word) :
    s.writeReg off v = s := by
  rw [State.writeReg, h]

@[simp] theorem State.writeNamed_nslot (s : State) (r : Reg) (v : Word) : (s.writeNamed r v).nslot = s.nslot := by
  cases r <;> rfl

@[simp] theorem State.writeReg_nslot (s : State) (off : Nat) (v : Word) : (s.writeReg off v).nslot = s.nslot := by
  unfold State.writeReg
  split
  · exact s.writeNamed_nslot _ v
  · rfl
  · rfl

theorem State.writeReg_byteAt (s : State) (off : Nat) (v : Word) (a : Nat) :
    (s.writeReg off v).byteAt a = s.byteAt a := by
  unfold State.writeReg
  split
  · rename_i r _
    cases r <;> rfl
  · rfl
  · rfl

/-- A register write leaves what stands elsewhere. -/
theorem State.readReg_writeReg_of_ne (s : State) {off off' : Nat} (h : off % 4 = 0) (h' : off' % 4 = 0)
    (hne : off' ≠ off) (v : Word) : (s.writeReg off v).readReg off' = s.readReg off' := by
  have hinj := fun hsame hused => hne (regAt_inj (nslot := s.nslot) h' h hsame hused)
  unfold State.readReg
  rw [State.writeReg_nslot]
  cases hat : regAt s.nslot off with
  | reserved => rw [State.writeReg_reserved hat]
  | named r =>
    rw [State.writeReg_named hat]
    cases hat' : regAt s.nslot off' with
    | named r' =>
      have hr : r' ≠ r := fun e => hinj (by rw [hat, hat', e]) (by simp [hat'])
      exact (s.readNamed_writeNamed r r' v).trans (if_neg fun e => hr e.1)
    | presWord w' => exact s.presWord_writeNamed r v w'
    | reserved => rfl
  | presWord w =>
    rw [State.writeReg_presWord hat]
    cases hat' : regAt s.nslot off' with
    | named r' => exact s.readNamed_setPresWord w v r'
    | presWord w' =>
      have hw : w' ≠ w := fun e => hinj (by rw [hat, hat', e]) (by simp [hat'])
      exact s.presWord_setPresWord_of_ne hw v
    | reserved => rfl

theorem State.readReg_writeReg_same {s : State} {off : Nat} {r : Reg} (hat : regAt s.nslot off = .named r)
    (hr : r.writable = true) (v : Word) : (s.writeReg off v).readReg off = v := by
  rw [State.readReg_named (r := r) (by rwa [State.writeReg_nslot]), State.writeReg_named hat]
  exact (s.readNamed_writeNamed r r v).trans (if_pos ⟨rfl, hr⟩)

/-- The writable offsets of the map but for `CMD`. -/
theorem regAt_writable (nslot : Nat) : ∀ off ∈ [0x10, 0x14, 0x1C, 0x20, 0x24, 0x28, 0x2C, 0x30, 0x34, 0x38],
    ∃ r, regAt nslot off = .named r ∧ r.writable = true := by
  simp only [List.forall_mem_cons]
  exact ⟨⟨.opa, rfl, rfl⟩, ⟨.opb, rfl, rfl⟩, ⟨.k, rfl, rfl⟩, ⟨.n, rfl, rfl⟩, ⟨.blen, rfl, rfl⟩, ⟨.redun, rfl, rfl⟩,
    ⟨.loss, rfl, rfl⟩, ⟨.mode, rfl, rfl⟩, ⟨.thr8, rfl, rfl⟩, ⟨.thr16, rfl, rfl⟩, List.forall_mem_nil _⟩

/-- The read-only offsets of the map. -/
theorem regAt_readOnly (nslot : Nat) : ∀ off ∈ [0x00, 0x08, 0x0C, 0x18, 0x3C, 0x40],
    ∃ r, regAt nslot off = .named r ∧ r.writable = false := by
  simp only [List.forall_mem_cons]
  exact ⟨⟨.id, rfl, rfl⟩, ⟨.status, rfl, rfl⟩, ⟨.err, rfl, rfl⟩, ⟨.res, rfl, rfl⟩, ⟨.nslotR, rfl, rfl⟩,
    ⟨.slotbR, rfl, rfl⟩, List.forall_mem_nil _⟩

theorem hostWrite_of_ne_cmd (s : State) {off : Nat} (h : off % 4 = 0) (hoff : off < 0x3000) (hcmd : off ≠ cmdOffset)
    (v : Word) : hostWrite s off v = .next (s.writeReg off v) := by
  rw [hostWrite, if_neg (by omega), if_neg (by omega), if_neg hcmd]

/-- Settles O9: the write lands at the one register that the map names. -/
theorem registerWritesReadBack : Obligations.RegisterWritesReadBack := by
  unfold Obligations.RegisterWritesReadBack
  intro s off v halign hoff hcmd
  have hreserved (hat : regAt s.nslot off = .reserved) : s.writeReg off v = s ∧ (s.writeReg off v).readReg off = 0 := by
    rw [State.writeReg_reserved hat]
    exact ⟨rfl, State.readReg_reserved hat⟩
  refine ⟨s.writeReg off v, hostWrite_of_ne_cmd s halign hoff hcmd v,
    fun off' halign' _ hne => s.readReg_writeReg_of_ne halign halign' hne v, s.writeReg_byteAt off v,
    fun hmem => ?_, fun hmem => ?_, fun hlo hhi => hreserved (regAt_hole _ hlo hhi),
    fun hlo hslots => hreserved (regAt_unusedWord hlo hslots), fun hlo hslots b hb => ?_⟩
  · obtain ⟨r, hat, hr⟩ := regAt_writable s.nslot off hmem
    exact State.readReg_writeReg_same hat hr v
  · obtain ⟨r, hat, hr⟩ := regAt_readOnly s.nslot off hmem
    rw [State.writeReg_named hat]
    exact s.writeNamed_readOnly hr v
  · have hat := regAt_presWord hlo hslots
    rw [State.readReg_presWord (by rwa [State.writeReg_nslot]), State.writeReg_presWord hat]
    exact s.presWord_setPresWord_same _ v hb

end Sys2Proof.Machine
end

section
/-! The values after reset (O1): the loop of R112 builds the two field tables, and every register reads its reset
value. -/

namespace Sys2Proof.Machine

/-! ### The table loop -/

theorem tableLoop_value {F : Gf} (hF : F.Good) (n : Nat) : (tableLoop F n).1 = alphaPow F n := by
  induction n with
  | zero => rfl
  | succ n ih => rw [alphaPow, xtime_eq_loop (alphaPow_lt hF n), ← ih]; rfl

theorem tableLoop_exp {F : Gf} (hF : F.Good) (n : Nat) :
    (tableLoop F (n + 1)).2.1 = (n, alphaPow F n) :: (tableLoop F n).2.1 := by
  rw [← tableLoop_value hF]
  rfl

theorem tableLoop_log {F : Gf} (hF : F.Good) (n : Nat) :
    (tableLoop F (n + 1)).2.2 = (alphaPow F n, n) :: (tableLoop F n).2.2 := by
  rw [← tableLoop_value hF]
  rfl

theorem lookup_tableLoop_exp {F : Gf} (hF : F.Good) {n i : Nat} (hi : i < n) :
    (tableLoop F n).2.1.lookup i = some (alphaPow F i) := by
  induction n with
  | zero => omega
  | succ n ih =>
    rw [tableLoop_exp hF]
    by_cases h : i = n
    · subst h
      exact List.lookup_cons_self
    · rw [List.lookup_cons, beq_false_of_ne h]
      exact ih (by omega)

/-- The powers of x are distinct below the order, so no entry of `LOG` hides another. -/
theorem lookup_tableLoop_log {F : Gf} (hF : F.Good) {n i : Nat} (hi : i < n) (hn : n ≤ F.order) :
    (tableLoop F n).2.2.lookup (alphaPow F i) = some i := by
  induction n with
  | zero => omega
  | succ n ih =>
    rw [tableLoop_log hF]
    by_cases h : i = n
    · subst h
      exact List.lookup_cons_self
    · have hne : alphaPow F i ≠ alphaPow F n := fun e => h (alphaPow_inj hF (by omega) (by omega) e)
      rw [List.lookup_cons, beq_false_of_ne hne]
      exact ih (by omega) (by omega)

/-- `EXP` is the table of the loop (R112). -/
theorem gfExp_eq_tableExp {F : Gf} (hF : F.Good) {i : Nat} (hi : i < F.order) : gfExp F i = tableExp F i := by
  rw [gfExp_eq_alphaPow hF (hi.trans order_lt_size), tableExp, lookup_tableLoop_exp hF hi, Option.getD_some]

/-- `LOG` is the table of the loop (R112). -/
theorem gfLog_eq_tableLog {F : Gf} (hF : F.Good) {v : Nat} (h0 : v ≠ 0) (hv : v < F.size) :
    gfLog F v = tableLog F v := by
  obtain ⟨i, hi, rfl⟩ := exists_alphaPow hF h0 hv
  rw [gfLog_alphaPow hF hi, tableLog, lookup_tableLoop_log hF hi le_rfl, Option.getD_some]

theorem EceField.good {F : Gf} (h : EceField F) : F.Good := by
  rcases h with rfl | rfl
  · exact gf8_good
  · exact gf16_good

/-! ### The registers after reset -/

theorem resetOf_presAt (nslot slotb i : Nat) : (State.resetOf nslot slotb).presAt i = false := rfl

theorem resetOf_presWord (nslot slotb w : Nat) : (State.resetOf nslot slotb).presWord w = 0 := by
  refine BitVec.eq_of_getLsbD_eq fun b hb => ?_
  rw [State.presWord_getLsbD _ _ hb, resetOf_presAt, Bool.and_false]
  exact BitVec.getLsbD_zero.symm

theorem resetOf_statusWord (nslot slotb : Nat) : (State.resetOf nslot slotb).statusWord = 1 := by
  have hflags : (0#29 ++ BitVec.ofBool false ++ BitVec.ofBool false ++ 1#1 : BitVec 32) = 1 := by decide
  exact hflags

/-- The named registers from `ERR` on that the reset values of R49 do not list are 0. -/
theorem resetOf_readNamed_zero (nslot slotb : Nat) {i : Nat} (h : i < namedRegs.length) (hlo : 3 ≤ i) (hhi : i < 13) :
    (State.resetOf nslot slotb).readNamed namedRegs[i] = 0 := by
  interval_cases i <;> rfl

theorem resetOf_readReg_zero (nslot slotb : Nat) {off : Nat} (halign : off % 4 = 0) (hlo : 0x0C ≤ off)
    (hout : off ∉ [0x34, 0x38, 0x3C, 0x40]) : (State.resetOf nslot slotb).readReg off = 0 := by
  rcases regAt_cases nslot off with ⟨h, hat⟩ | ⟨w, -, -, hat⟩ | hat
  · have hlen : off / 4 < 17 := h
    simp only [List.mem_cons, List.not_mem_nil, or_false, not_or] at hout
    rw [State.readReg_named hat]
    exact resetOf_readNamed_zero nslot slotb h (by omega) (by omega)
  · rw [State.readReg_presWord hat, resetOf_presWord]
  · exact State.readReg_reserved hat

/-- Settles O1: the map read register by register, and the table loop as powers of x. -/
theorem resetLeavesTheGivenValues : Obligations.ResetLeavesTheGivenValues := by
  unfold Obligations.ResetLeavesTheGivenValues
  intro nslot slotb
  refine ⟨rfl, rfl, resetOf_statusWord nslot slotb, rfl, rfl, rfl, rfl,
    fun off halign hlo _ hout => resetOf_readReg_zero nslot slotb halign hlo hout, resetOf_presAt nslot slotb,
    fun F hF => ⟨fun i => gfExp_eq_tableExp hF.good, fun v h1 => gfLog_eq_tableLog hF.good (by omega)⟩⟩

end Sys2Proof.Machine
end

section
/-! The host interface: what each access does where it has a meaning and where it has none (O10, O11, O12). -/

namespace Sys2Proof.Machine

/-! ### Accesses without a meaning -/

theorem hostWrite_unaligned {off : Nat} (h : off % 4 ≠ 0) (s : State) (v : Word) :
    hostWrite s off v = .refused .unalignedOffset := if_pos h

theorem hostRead_unaligned {off : Nat} (h : off % 4 ≠ 0) (s : State) :
    hostRead s off = .refused .unalignedOffset := if_pos h

theorem hostWrite_outside {off : Nat} (h : off % 4 = 0) (hoff : 0x3000 ≤ off) (s : State) (v : Word) :
    hostWrite s off v = .refused .outsideRSpace := by
  rw [hostWrite, if_neg (not_not.2 h), if_pos hoff]

theorem hostRead_outside {off : Nat} (h : off % 4 = 0) (hoff : 0x3000 ≤ off) (s : State) :
    hostRead s off = .refused .outsideRSpace := by
  rw [hostRead, if_neg (not_not.2 h), if_pos hoff]

theorem hostWriteByte_outside {s : State} {addr : Nat} (h : s.nslot * s.slotb ≤ addr) (v : Byte) :
    hostWriteByte s addr v = .refused .outsideBSpace := if_pos h

theorem hostReadByte_outside {s : State} {addr : Nat} (h : s.nslot * s.slotb ≤ addr) :
    hostReadByte s addr = .refused .outsideBSpace := if_pos h

/-- Settles O12: each access meets the check that refuses it, alignment before range. -/
theorem meaninglessAccessesAreRefused : Obligations.MeaninglessAccessesAreRefused := by
  unfold Obligations.MeaninglessAccessesAreRefused
  intro s off addr bits v b
  exact ⟨fun h => ⟨hostWrite_unaligned h s v, hostRead_unaligned h s⟩,
    fun h hoff => ⟨hostWrite_outside h hoff s v, hostRead_outside h hoff s⟩,
    fun h => ⟨hostWriteByte_outside h b, hostReadByte_outside h⟩, rfl, rfl, rfl⟩

/-! ### Byte accesses inside B-space -/

theorem hostWriteByte_inside {s : State} {addr : Nat} (h : addr < s.nslot * s.slotb) (v : Byte) :
    hostWriteByte s addr v = .next (s.setByte addr v) := if_neg (Nat.not_le.2 h)

theorem hostReadByte_inside {s : State} {addr : Nat} (h : addr < s.nslot * s.slotb) :
    hostReadByte s addr = .next (s.reply (.byte addr (s.byteAt addr))) := if_neg (Nat.not_le.2 h)

/-- Settles O11: the write stores one byte, the read records one reply. -/
theorem bufferBytesReadBack : Obligations.BufferBytesReadBack := by
  unfold Obligations.BufferBytesReadBack
  intro s a v ha
  exact ⟨⟨s.setByte a v, hostWriteByte_inside ha v, rfl,
    (s.byteAt_setByte a a v).trans (if_pos rfl), fun c hc => (s.byteAt_setByte a c v).trans (if_neg hc)⟩,
    hostReadByte_inside ha⟩

/-! ### `CMD` keeps the word written to it -/

theorem Codes.cmd_eq {s u : State} {writable : Nat → Prop} (h : Codes s writable u) : u.cmd = s.cmd := by
  obtain ⟨n, bs, rfl, -⟩ := h
  rw [State.publish_cmd, State.setBlks_cmd]

theorem Effect.cmd_eq {s u : State} {i : Instr} (h : Effect s i u) : u.cmd = s.cmd := by
  cases h with
  | nothing | result => rfl
  | encoded _ hu | encodedAuto _ hu | decoded _ hu => exact hu.cmd_eq

theorem State.dispatched_cmd (s : State) (i : Instr) : (s.dispatched i).cmd = s.cmd := by
  unfold State.dispatched
  split <;> rfl

theorem exec_cmd {i : Instr} {s t : State} (h : exec i s = .next t) : t.cmd = s.cmd := by
  rw [← s.dispatched_cmd i]
  rcases exec_cases h with ⟨u, hu, rfl⟩ | ⟨c, -, -, rfl⟩
  · exact hu.cmd_eq
  · rfl

/-- No command writes `CMD`, so the word written there stays, whether it is a command or not (R28, R96). -/
theorem State.command_cmd {s t : State} {w : Word} (h : s.command w = .next t) : t.cmd = w := by
  rcases State.command_cases h with ⟨i, -, hexec⟩ | ⟨-, rfl⟩
  · exact exec_cmd hexec
  · rfl

/-! ### `STATUS`, `ERR` and the capacities -/

theorem errWord_eq_zero_iff (e : ErrCode) : errWord e = 0 ↔ e = .ok := by
  cases e <;> decide

/-- In a well-formed state `ERRF` says whether a read of `ERR` is not 0 (R29). -/
theorem State.Wf.errf_eq {s : State} (h : s.Wf) : s.errf = decide (errWord s.err ≠ 0) := by
  rw [h.flagIsErr, decide_eq_decide, Ne, Ne, errWord_eq_zero_iff]

theorem State.Wf.slotb_le {s : State} (h : s.Wf) : s.slotb ≤ 16777216 := by
  obtain ⟨-, -, -, hslotb⟩ := of_decide_eq_true h.params
  exact hslotb

/-- The registers can hold the capacities (R9, R41, R42). -/
theorem State.Wf.capacities_toNat {s : State} (h : s.Wf) :
    (BitVec.ofNat 32 s.nslot).toNat = s.nslot ∧ (BitVec.ofNat 32 s.slotb).toNat = s.slotb := by
  have hn := h.nslot_le
  have hb := h.slotb_le
  rw [BitVec.toNat_ofNat, BitVec.toNat_ofNat]
  exact ⟨Nat.mod_eq_of_lt (by omega), Nat.mod_eq_of_lt (by omega)⟩

/-! ### A register read -/

theorem hostRead_next_of_aligned {off : Nat} (h : off % 4 = 0) (hoff : off < 0x3000) (s : State) :
    hostRead s off = .next (s.reply (.reg off (s.readReg off))) := by
  rw [hostRead, if_neg (not_not.2 h), if_neg (Nat.not_le.2 hoff)]

/-- Settles O10: the map read register by register; `CMD` is written by the host alone. -/
theorem registerReadsChangeNothing : Obligations.RegisterReadsChangeNothing := by
  unfold Obligations.RegisterReadsChangeNothing
  intro s
  refine ⟨fun off halign hoff => hostRead_next_of_aligned halign hoff s, ⟨rfl, rfl, fun w t h => ?_⟩,
    ⟨s.statusWord_getLsbD, fun hs => ?_⟩, ⟨rfl, rfl, rfl, rfl⟩, ⟨rfl, rfl, rfl, rfl⟩, ⟨rfl, rfl, rfl, rfl⟩,
    fun hs => hs.capacities_toNat, fun off _ hlo hhi => State.readReg_reserved (regAt_hole _ hlo hhi)⟩
  · exact State.command_cmd h
  · exact (s.statusWord_getLsbD 2).trans hs.errf_eq

end Sys2Proof.Machine
end

section
/-! A command stores only in the blocks it may write (O18). -/

namespace Sys2Proof.Machine

/-- A byte that writing blocks changes lies in one of them. -/
theorem State.exists_inBlock_of_byteAt_setBlks_ne {s : State} {bs : List (Nat × List Byte)} {a : Nat}
    (h : (s.setBlks bs).byteAt a ≠ s.byteAt a) : ∃ b ∈ bs, s.inBlock b.1 a := by
  by_contra hout
  push Not at hout
  exact h (s.byteAt_setBlks_of_outside bs a hout)

/-- A byte that a coder changes lies in a slot below the new `N` and NSLOT that it may write (R62, R68). -/
theorem Codes.exists_inBlock {s u : State} {writable : Nat → Prop} (h : Codes s writable u) (hs : s.Wf) {a : Nat}
    (ha : u.byteAt a ≠ s.byteAt a) : ∃ x, s.inBlock x a ∧ x < s.nslot ∧ x < u.nVal ∧ writable x := by
  obtain ⟨n, bs, rfl, hn, -, hbs⟩ := h
  obtain ⟨b, hb, hin⟩ := State.exists_inBlock_of_byteAt_setBlks_ne ha
  obtain ⟨hlt, hw⟩ := hbs b hb
  have hslots := hs.nslot_le
  have hval : ((s.setBlks bs).publish n).nVal = n := Nat.mod_eq_of_lt (by omega)
  exact ⟨b.1, hin, hlt.trans_le hn, hval.symm ▸ hlt, hw⟩

/-- A byte that the success of a command changes lies in a slot that `mayWrite` allows. -/
theorem Effect.exists_inBlock {s u : State} {i : Instr} (h : Effect s i u) (hs : s.Wf) {a : Nat}
    (ha : u.byteAt a ≠ s.byteAt a) : ∃ x, s.inBlock x a ∧ x < s.nslot ∧ mayWrite i s u.nVal x := by
  cases h with
  | nothing | result => exact absurd rfl ha
  | encoded hi hu =>
    obtain ⟨x, hin, hslot, hn, hk⟩ := hu.exists_inBlock hs ha
    exact ⟨x, hin, hslot, .inl ⟨by rcases hi with rfl | rfl <;> rfl, hk, hn⟩⟩
  | encodedAuto m hu =>
    obtain ⟨x, hin, hslot, hn, hk⟩ := hu.exists_inBlock hs ha
    exact ⟨x, hin, hslot, .inl ⟨rfl, hk, hn⟩⟩
  | decoded hi hu =>
    obtain ⟨x, hin, hslot, -, herased⟩ := hu.exists_inBlock hs ha
    exact ⟨x, hin, hslot, .inr ⟨hi, herased⟩⟩

/-- The dispatch to the RaptorQ unit touches `RQ_RDY` alone, so the blocks, the capacities and the writable slots are
those of the state before it. -/
theorem State.dispatched_eq (s : State) (i : Instr) :
    s.dispatched i = { s with rqRdy := s.rqRdy || dispatchesRq s i } := by
  cases hrq : dispatchesRq s i with
  | true => rw [State.dispatched_of_rq hrq, Bool.or_true]; rfl
  | false => rw [State.dispatched_of_not_rq hrq, Bool.or_false]

/-- Settles O18: an error leaves every byte, and a success changes bytes only by its coder's block writes. -/
theorem commandsStoreOnlyInTheirBlocks : Obligations.CommandsStoreOnlyInTheirBlocks := by
  unfold Obligations.CommandsStoreOnlyInTheirBlocks
  intro i s t a hs h ha
  rcases exec_cases h with ⟨u, hu, rfl⟩ | ⟨c, -, -, rfl⟩
  · have hwf := hs.dispatched i
    rw [State.dispatched_eq] at hu hwf
    exact ⟨rfl, hu.exists_inBlock hwf ha⟩
  · rw [State.dispatched_eq] at ha
    exact absurd rfl ha

end Sys2Proof.Machine
end

section
/-! The symbols of a block: its bytes in GF(256), its little-endian byte pairs in GF(65536) (O28). -/

namespace Sys2Proof.Machine

/-! ### Byte pairs -/

/-- The 16-bit value of two bytes, the first holding bits [7:0] (R65). -/
theorem toNat_or_shiftLeft_eight (lo hi : Byte) : lo.toNat ||| (hi.toNat <<< 8) = lo.toNat + 256 * hi.toNat := by
  rw [Nat.or_comm, ← Nat.shiftLeft_add_eq_or_of_lt lo.isLt, Nat.shiftLeft_eq]
  omega

theorem pairBytes_length : ∀ bs : List Byte, (pairBytes bs).length = bs.length / 2
  | [] | [_] => by simp [pairBytes]
  | _ :: _ :: bs => by
    rw [pairBytes, List.length_cons, pairBytes_length bs]
    simp only [List.length_cons]
    omega

theorem pairBytes_getD : ∀ (bs : List Byte) (t : Nat), t < bs.length / 2 →
    (pairBytes bs).getD t 0 = (bs.getD (2 * t) 0).toNat + 256 * (bs.getD (2 * t + 1) 0).toNat
  | [], _, h => by simp at h
  | [_], _, h => by simp at h
  | b0 :: b1 :: _, 0, _ => toNat_or_shiftLeft_eight b0 b1
  | _ :: _ :: bs, t + 1, h => pairBytes_getD bs t (by simp only [List.length_cons] at h; omega)

theorem splitBytes_getD : ∀ (v : Vec) (t : Nat), (splitBytes v).getD (2 * t) 0 = BitVec.ofNat 8 (v.getD t 0) ∧
    (splitBytes v).getD (2 * t + 1) 0 = BitVec.ofNat 8 (v.getD t 0 >>> 8)
  | [], t => by simp [splitBytes]
  | _ :: _, 0 => ⟨rfl, rfl⟩
  | _ :: v, t + 1 => splitBytes_getD v t

/-- The two bytes of a 16-bit symbol give it back (R77). -/
theorem ofNat_low_add_high {x : Nat} (hx : x < 65536) :
    (BitVec.ofNat 8 x).toNat + 256 * (BitVec.ofNat 8 (x >>> 8)).toNat = x := by
  rw [BitVec.toNat_ofNat, BitVec.toNat_ofNat, Nat.shiftRight_eq_div_pow]
  omega

/-! ### Reading and writing a block -/

theorem State.blk_length (s : State) (i : Nat) : (s.blk i).length = s.blenVal := by
  rw [State.blk, State.memRead, List.length_map, List.length_range]
  rfl

theorem State.blk_getD (s : State) (i : Nat) {o : Nat} (ho : o < s.blenVal) : (s.blk i).getD o 0 = s.slotByte i o := by
  rw [List.getD_eq_getElem _ _ (by rwa [State.blk_length])]
  simp [State.blk, State.memRead, State.slotByte, State.slotAddr]

theorem State.symbols_length {F : Gf} (hF : EceField F) (s : State) (i : Nat) :
    (s.symbols F i).length = symbolCount F s.blenVal := by
  rw [← s.blk_length i]
  rcases hF with rfl | rfl
  · exact List.length_map ..
  · exact pairBytes_length _

theorem State.symbols_getD {F : Gf} (hF : EceField F) (s : State) (i : Nat) {t : Nat}
    (ht : t < symbolCount F s.blenVal) : (s.symbols F i).getD t 0 = s.symbolAt F i t := by
  rcases hF with rfl | rfl
  · have ht : t < s.blenVal := ht
    calc ((s.blk i).map BitVec.toNat).getD t 0
        = ((s.blk i).getD t 0).toNat := List.getD_map _ (0 : Byte) BitVec.toNat
      _ = (s.slotByte i t).toNat := by rw [s.blk_getD i ht]
  · have ht : t < s.blenVal / 2 := ht
    calc (pairBytes (s.blk i)).getD t 0
        = ((s.blk i).getD (2 * t) 0).toNat + 256 * ((s.blk i).getD (2 * t + 1) 0).toNat :=
          pairBytes_getD _ t (by rwa [s.blk_length])
      _ = (s.slotByte i (2 * t)).toNat + 256 * (s.slotByte i (2 * t + 1)).toNat := by
          rw [s.blk_getD i (by omega), s.blk_getD i (by omega)]

/-- What a slot reads after one block of symbols has been written to it. -/
theorem State.slotByte_setSymbols_same (s : State) (F : Gf) (i : Nat) (v : Vec) {o : Nat} (ho : o < s.blenVal) :
    (s.setSymbols F [(i, v)]).slotByte i o = (bytesOf F v).getD o 0 := by
  have hbyte := s.byteAt_setBlk i (s.slotAddr i + o) (bytesOf F v)
  rw [if_pos (by omega), Nat.add_sub_cancel_left] at hbyte
  exact hbyte

theorem State.symbolAt_setSymbols_same {F : Gf} (hF : EceField F) (s : State) (i : Nat) {v : Vec} {t : Nat}
    (ht : t < symbolCount F s.blenVal) (hv : v.getD t 0 < F.size) :
    (s.setSymbols F [(i, v)]).symbolAt F i t = v.getD t 0 := by
  rcases hF with rfl | rfl
  · have ht : t < s.blenVal := ht
    calc ((s.setSymbols gf8 [(i, v)]).slotByte i t).toNat
        = ((v.map (BitVec.ofNat 8)).getD t (BitVec.ofNat 8 0)).toNat := by
          rw [s.slotByte_setSymbols_same gf8 i v ht]; rfl
      _ = (BitVec.ofNat 8 (v.getD t 0)).toNat := by rw [List.getD_map]
      _ = v.getD t 0 := by rw [BitVec.toNat_ofNat]; exact Nat.mod_eq_of_lt hv
  · have ht : t < s.blenVal / 2 := ht
    obtain ⟨hlow, hhigh⟩ := splitBytes_getD v t
    calc ((s.setSymbols gf16 [(i, v)]).slotByte i (2 * t)).toNat
          + 256 * ((s.setSymbols gf16 [(i, v)]).slotByte i (2 * t + 1)).toNat
        = ((splitBytes v).getD (2 * t) 0).toNat + 256 * ((splitBytes v).getD (2 * t + 1) 0).toNat := by
          rw [s.slotByte_setSymbols_same gf16 i v (by omega), s.slotByte_setSymbols_same gf16 i v (by omega)]
          rfl
      _ = v.getD t 0 := by rw [hlow, hhigh, ofNat_low_add_high hv]

/-- Settles O28: byte by byte in GF(256), pair by pair in GF(65536). -/
theorem symbolsAreBytesOrLittleEndianPairs : Obligations.SymbolsAreBytesOrLittleEndianPairs := by
  unfold Obligations.SymbolsAreBytesOrLittleEndianPairs
  intro s F i hF
  refine ⟨s.symbols_length hF i, fun t ht => s.symbols_getD hF i ht, fun v hlen hv t ht => ?_⟩
  have hmem : v.getD t 0 ∈ v := by
    rw [List.getD_eq_getElem _ _ (by omega)]
    exact List.getElem_mem _
  exact s.symbolAt_setSymbols_same hF i ht (hv _ hmem)

end Sys2Proof.Machine
end

section
/-! Decoding and encoding of a command word are inverse to each other and are the opcode map (O6, O7, O8). -/

namespace Sys2Proof.Machine

/-! ### The fields of a word -/

/-- A word is `ZERO || GRP || FN` (R91). -/
theorem wordZero_append_wordGrp_append_wordFn (w : Word) :
    (wordZero w ++ wordGrp w ++ wordFn w : BitVec 32) = w := by
  unfold wordZero wordGrp wordFn
  rw [BitVec.extractLsb'_append_extractLsb'_eq_extractLsb' (by rfl),
    BitVec.extractLsb'_append_extractLsb'_eq_extractLsb' (by rfl), BitVec.extractLsb'_eq_self]

/-- Every row of the map names the group and the function that the encoder gives its command (R92, R93). -/
theorem opOf_of_decodeOp {grp fn : Nat} {i : Instr} (h : decodeOp grp fn = some i) :
    grp = (opOf i).1.toNat ∧ fn = (opOf i).2.toNat := by
  unfold decodeOp at h
  split at h <;> cases h <;> exact ⟨rfl, rfl⟩

/-! ### The three answers of the decoder -/

theorem decode_of_zeroFieldSet {w : Word} (hz : wordZero w ≠ 0) : decode w = .error .zeroFieldSet := if_neg hz

theorem decode_of_unlistedOp {w : Word} (hz : wordZero w = 0)
    (hop : decodeOp (wordGrp w).toNat (wordFn w).toNat = none) : decode w = .error .unlistedOp := by
  rw [decode, if_pos hz, hop]

theorem wordZero_and_decodeOp_of_decode {w : Word} {i : Instr} (h : decode w = .ok i) :
    wordZero w = 0 ∧ decodeOp (wordGrp w).toNat (wordFn w).toNat = some i := by
  by_cases hz : wordZero w = 0
  · cases hop : decodeOp (wordGrp w).toNat (wordFn w).toNat with
    | none => simp [decode_of_unlistedOp hz hop] at h
    | some j =>
      rw [decode, if_pos hz, hop] at h
      exact ⟨hz, congrArg some (Except.ok.inj h)⟩
  · simp [decode_of_zeroFieldSet hz] at h

/-- No word but its own decodes to a command: the three fields of the word are fixed. -/
theorem eq_encode_of_decode {w : Word} {i : Instr} (h : decode w = .ok i) : w = encode i := by
  obtain ⟨hz, hop⟩ := wordZero_and_decodeOp_of_decode h
  obtain ⟨hgrp, hfn⟩ := opOf_of_decodeOp hop
  calc w = (wordZero w ++ wordGrp w ++ wordFn w : BitVec 32) := (wordZero_append_wordGrp_append_wordFn w).symm
    _ = encode i := by rw [hz, BitVec.eq_of_toNat_eq hgrp, BitVec.eq_of_toNat_eq hfn]; rfl

/-- Settles O7: the encoder's word decodes to its command, and the fields of a decoded word are the encoder's. -/
theorem decodeAndEncodeAgree : Obligations.DecodeAndEncodeAgree := by
  unfold Obligations.DecodeAndEncodeAgree
  intro w i
  constructor
  · exact eq_encode_of_decode
  · rintro rfl
    exact decode_encode i

/-! ### The opcode table -/

theorem ofNat_eq_encode_of_mem_opcodeTable : ∀ x ∈ opcodeTable, BitVec.ofNat 32 x.1 = encode x.2 := by decide

theorem encode_mem_opcodeTable (i : Instr) : ((encode i).toNat, i) ∈ opcodeTable := by
  cases i <;> decide

/-- Settles O6: the table lists every command with the encoder's word, so a word it does not list decodes to none. -/
theorem decodingIsTheOpcodeMap : Obligations.DecodingIsTheOpcodeMap := by
  unfold Obligations.DecodingIsTheOpcodeMap
  intro w
  refine ⟨fun x hx hw => ?_, fun hunlisted => ?_⟩
  · rw [hw, ofNat_eq_encode_of_mem_opcodeTable x hx]
    exact decode_encode x.2
  · have hnone : ∀ i, decode w ≠ .ok i := fun i hi =>
      hunlisted _ (encode_mem_opcodeTable i) (by simpa using eq_encode_of_decode hi)
    refine ⟨hnone, fun s => ?_⟩
    cases hd : decode w with
    | ok i => exact absurd hd (hnone i)
    | error e => rw [State.command_of_illegal hd, State.raise_eq_failed]

/-- Settles O8: the six words are those of the encoder, and the three neighbours fail on their `OP` or `ZERO`. -/
theorem specWordsDecode : Obligations.SpecWordsDecode :=
  ⟨decode_encode .nop, decode_encode .gf8Exp, decode_encode .gf16Div, decode_encode .rsDec, decode_encode .rqEnc,
    decode_encode .dec, decode_of_unlistedOp rfl rfl, decode_of_unlistedOp rfl rfl,
    decode_of_zeroFieldSet (by decide)⟩

end Sys2Proof.Machine
end

section
/-! What a command writes: `ERR`, `ERRF`, `RQ_RDY` and its own outputs (R22, R95), and nothing else (O17). -/

namespace Sys2Proof.Machine

/-! ### What the coders and the effects leave unchanged -/

theorem State.setBlks_eq_withBuf (s : State) (bs : List (Nat × List Byte)) :
    s.setBlks bs = s.withBuf (s.setBlks bs).buf := by
  induction bs generalizing s with
  | nil => rfl
  | cons b bs ih => exact ih (s.setBlk b.1 b.2)

/-- A coder writes the buffer, `N` and the presence bits. -/
theorem Codes.eq_publish_withBuf {s u : State} {writable : Nat → Prop} (h : Codes s writable u) :
    ∃ (n : Nat) (m : Memory), u = (s.withBuf m).publish n := by
  obtain ⟨n, bs, rfl, -⟩ := h
  exact ⟨n, _, congrArg (·.publish n) (s.setBlks_eq_withBuf bs)⟩

theorem Effect.eq_with_outputs {s u : State} {i : Instr} (h : Effect s i u) :
    u = { s with res := u.res, n := u.n, mode := u.mode, pres := u.pres, buf := u.buf } := by
  cases h with
  | nothing | result => rfl
  | encoded _ hu | encodedAuto _ hu | decoded _ hu =>
    obtain ⟨n, m, rfl⟩ := hu.eq_publish_withBuf
    rfl

/-- A coder leaves `RES`: only the commands of `writesRes` have the effect that stores a result. -/
theorem Effect.res_eq {s u : State} {i : Instr} (h : Effect s i u) (hi : writesRes i = false) : u.res = s.res := by
  cases h with
  | nothing => rfl
  | result v hres => simp [hi] at hres
  | encoded _ hu | encodedAuto _ hu | decoded _ hu =>
    obtain ⟨n, m, rfl⟩ := hu.eq_publish_withBuf
    rfl

/-- Only the coders write the blocks. -/
theorem Effect.blocks_eq {s u : State} {i : Instr} (h : Effect s i u) (henc : isEncode i = false)
    (hdec : isDecode i = false) : u.n = s.n ∧ u.pres = s.pres ∧ u.buf = s.buf := by
  cases h with
  | nothing | result => exact ⟨rfl, rfl, rfl⟩
  | encoded hi _ => rcases hi with rfl | rfl <;> simp [isEncode] at henc
  | encodedAuto => simp [isEncode] at henc
  | decoded hi _ => simp [hi] at hdec

theorem Effect.mode_eq {s u : State} {i : Instr} (h : Effect s i u) (hi : i ≠ .encAuto) : u.mode = s.mode := by
  cases h with
  | nothing | result => rfl
  | encodedAuto => exact absurd rfl hi
  | encoded _ hu | decoded _ hu =>
    obtain ⟨n, m, rfl⟩ := hu.eq_publish_withBuf
    rfl

/-! ### What every command leaves unchanged -/

/-- No field but `ERR`, the two flags and the outputs of R95 differs after a command, whether it succeeds or not. -/
theorem exec_eq_with_outputs {i : Instr} {s t : State} (h : exec i s = .next t) :
    t = { s with
      err := t.err, errf := t.errf, rqRdy := t.rqRdy, res := t.res, n := t.n, mode := t.mode, pres := t.pres,
      buf := t.buf } := by
  rcases exec_cases h with ⟨u, hu, rfl⟩ | ⟨c, -, -, rfl⟩
  · rw [State.dispatched_eq] at hu
    rw [hu.eq_with_outputs]
    rfl
  · rw [State.dispatched_eq]
    rfl

/-- Settles O17: an error writes no output, and a success only those of its effect. -/
theorem commandsWriteOnlyTheirOutputs : Obligations.CommandsWriteOnlyTheirOutputs := by
  unfold Obligations.CommandsWriteOnlyTheirOutputs
  intro i s t h
  refine ⟨?_, ?_⟩
  · rw [exec_eq_with_outputs h]
    exact ⟨rfl, rfl, rfl, rfl, rfl, rfl, rfl, rfl, rfl, rfl, rfl, rfl, rfl, rfl⟩
  · rcases exec_cases h with ⟨u, hu, rfl⟩ | ⟨c, -, -, rfl⟩
    · rw [State.dispatched_eq] at hu
      exact ⟨hu.res_eq, hu.blocks_eq, hu.mode_eq⟩
    · rw [State.dispatched_eq]
      exact ⟨fun _ => rfl, fun _ _ => ⟨rfl, rfl, rfl⟩, fun _ => rfl⟩

end Sys2Proof.Machine
end

section
/-! The field tables, operations and laws (O21, O22, O23): the operations through the tables the loop of R112 builds,
the shift-and-reduce product bit by bit, and division as the inverse of multiplication. -/

namespace Sys2Proof.Machine

/-! ### `EXP` and `LOG` undo each other -/

theorem gfLog_gfExp {F : Gf} (hF : F.Good) {i : Nat} (hi : i < F.order) : gfLog F (gfExp F i) = i := by
  rw [gfExp_eq_alphaPow hF (hi.trans order_lt_size), gfLog_alphaPow hF hi]

theorem gfExp_gfLog {F : Gf} (hF : F.Good) {v : Nat} (h0 : v ≠ 0) (hv : v < F.size) : gfExp F (gfLog F v) = v := by
  obtain ⟨hlog, hpow⟩ := gfLog_spec hF h0 hv
  rw [gfExp_eq_alphaPow hF (hlog.trans order_lt_size), hpow]

theorem gfExp_pos_and_lt {F : Gf} (hF : F.Good) {i : Nat} (hi : i < F.order) : 1 ≤ gfExp F i ∧ gfExp F i < F.size := by
  rw [gfExp_eq_alphaPow hF (hi.trans order_lt_size)]
  exact ⟨Nat.pos_of_ne_zero (alphaPow_ne_zero hF i), alphaPow_lt hF i⟩

theorem gfExp_inj {F : Gf} (hF : F.Good) {i j : Nat} (hi : i < F.order) (hj : j < F.order)
    (h : gfExp F i = gfExp F j) : i = j := by
  rw [← gfLog_gfExp hF hi, h, gfLog_gfExp hF hj]

/-- Settles O21: the loop holds the powers of x, which return to 1 at the order and run through all non-zero elements. -/
theorem fieldTablesFollowTheLoop : Obligations.FieldTablesFollowTheLoop := by
  unfold Obligations.FieldTablesFollowTheLoop
  refine ⟨fun F hF => ⟨?_, fun i hi => ?_, fun v h1 hv => ?_, fun i j => gfExp_inj hF.good⟩,
    by decide +kernel, by decide +kernel, by decide +kernel, by decide +kernel⟩
  · rw [tableLoop_value hF.good, alphaPow_order hF.good]
  · exact ⟨gfExp_eq_tableExp hF.good hi, gfLog_gfExp hF.good hi, gfExp_pos_and_lt hF.good hi⟩
  · have h0 : v ≠ 0 := by omega
    exact ⟨gfLog_eq_tableLog hF.good h0 hv, gfExp_gfLog hF.good h0 hv, (gfLog_spec hF.good h0 hv).1⟩

/-! ### The table formulas over the tables of the loop -/

theorem gfExp_mod_eq_tableExp {F : Gf} (hF : F.Good) (i : Nat) : gfExp F (i % F.order) = tableExp F (i % F.order) :=
  gfExp_eq_tableExp hF (Nat.mod_lt _ (order_pos hF))

theorem gfMul_eq_loopTable {F : Gf} (hF : F.Good) {a b : Nat} (ha : a < F.size) (hb : b < F.size) :
    gfMul F a b = if a = 0 ∨ b = 0 then 0 else tableExp F ((tableLog F a + tableLog F b) % F.order) := by
  rw [gfMul_eq_table hF ha hb]
  refine ite_congr rfl (fun _ => rfl) fun h => ?_
  obtain ⟨ha0, hb0⟩ := not_or.1 h
  rw [gfExp_mod_eq_tableExp hF, gfLog_eq_tableLog hF ha0 ha, gfLog_eq_tableLog hF hb0 hb]

theorem gfDiv_eq_loopTable {F : Gf} (hF : F.Good) {a b : Nat} (ha : a < F.size) (h0 : b ≠ 0) (hb : b < F.size) :
    gfDiv F a b = if a = 0 then 0 else tableExp F ((tableLog F a + F.order - tableLog F b) % F.order) := by
  rw [gfDiv_eq_table hF ha h0 hb]
  refine ite_congr rfl (fun _ => rfl) fun ha0 => ?_
  rw [gfExp_mod_eq_tableExp hF, gfLog_eq_tableLog hF ha0 ha, gfLog_eq_tableLog hF h0 hb]

theorem gfInv_eq_loopTable {F : Gf} (hF : F.Good) {a : Nat} (h0 : a ≠ 0) (ha : a < F.size) :
    gfInv F a = tableExp F ((F.order - tableLog F a) % F.order) := by
  rw [gfInv_eq_table hF h0 ha, gfExp_mod_eq_tableExp hF, gfLog_eq_tableLog hF h0 ha]

/-! ### The shift-and-reduce product -/

theorem iterate_xtime_lt {F : Gf} (hF : F.Good) {a : Nat} (ha : a < F.size) (i : Nat) : (xtime F)^[i] a < F.size := by
  induction i with
  | zero => exact ha
  | succ i ih =>
    rw [Function.iterate_succ_apply']
    exact xtime_lt hF ih

theorem xtime_xorOver {α : Type} {F : Gf} {l : List α} {f : α → Nat} (h : ∀ i ∈ l, f i < F.size) :
    xtime F (xorOver l f) = xorOver l (fun i => xtime F (f i)) := by
  induction l with
  | nil => exact xtime_zero F
  | cons i l ih =>
    have hl : ∀ j ∈ l, f j < F.size := fun j hj => h j (List.mem_cons_of_mem _ hj)
    rw [xorOver_cons, xorOver_cons, xtime_xor (h i List.mem_cons_self) (xorOver_lt hl), ih hl]

/-- Horner's scheme unrolled: bit i of `b` contributes `a` shifted and reduced i times. -/
theorem mulBits_eq_xorOver {F : Gf} (hF : F.Good) {a : Nat} (ha : a < F.size) (n b : Nat) :
    mulBits F a n b = xorOver (List.range n) (fun i => if b.testBit i then (xtime F)^[i] a else 0) := by
  induction n generalizing b with
  | zero => rfl
  | succ n ih =>
    have hterm : ∀ i ∈ List.range n, (if (b / 2).testBit i then (xtime F)^[i] a else 0) < F.size := by
      intro i _
      split
      · exact iterate_xtime_lt hF ha i
      · exact F.size_pos
    have hlow : b % 2 * a = if b.testBit 0 then (xtime F)^[0] a else 0 := by
      rcases Nat.mod_two_eq_zero_or_one b with h | h <;> simp [Nat.testBit_zero, h]
    rw [mulBits, ih, xtime_xorOver hterm, xorOver_range_succ, hlow]
    congr 1
    refine xorOver_congr fun i _ => ?_
    rw [Nat.testBit_succ, Function.iterate_succ_apply', apply_ite (xtime F), xtime_zero]

/-! ### Division -/

theorem gfDiv_of_ne_zero (F : Gf) (a : Nat) {b : Nat} (h0 : b ≠ 0) : gfDiv F a b = gfMul F a (gfInv F b) := if_neg h0

theorem gfMul_one_right {F : Gf} (hF : F.Good) {a : Nat} (ha : a < F.size) : gfMul F a 1 = a := by
  rw [gfMul_comm hF ha (one_lt_size hF), gfMul_one_left ha]

/-- The quotient is the only solution of `c (x) b = a` (R117). -/
theorem gfMul_eq_iff_eq_gfDiv {F : Gf} (hF : F.Good) {a b c : Nat} (ha : a < F.size) (hb : b < F.size)
    (hc : c < F.size) (h0 : b ≠ 0) : gfMul F c b = a ↔ c = gfDiv F a b := by
  have hinv : gfInv F b < F.size := gfInv_lt hF h0 hb
  rw [gfDiv_of_ne_zero F a h0]
  constructor
  · rintro rfl
    rw [gfMul_assoc hF hc hb hinv, gfMul_comm hF hb hinv, gfMul_gfInv hF h0 hb, gfMul_one_right hF hc]
  · rintro rfl
    rw [gfMul_assoc hF ha hinv hb, gfMul_gfInv hF h0 hb, gfMul_one_right hF ha]

/-- Settles O22: the tables are those of the loop, and both products are the same sum over the bits. -/
theorem fieldOperationsFollowTheTables : Obligations.FieldOperationsFollowTheTables := by
  unfold Obligations.FieldOperationsFollowTheTables
  intro F hF a b ha hb
  refine ⟨rfl, gfMul_eq_loopTable hF.good ha hb, ?_, fun h0 => gfDiv_eq_loopTable hF.good ha h0 hb,
    fun h0 c hc => gfMul_eq_iff_eq_gfDiv hF.good ha hb hc h0,
    fun h0 => ⟨gfInv_eq_loopTable hF.good h0 ha, gfMul_gfInv hF.good h0 ha⟩⟩
  rw [gfMul_eq_mulBits, mulBits_eq_xorOver hF.good ha]

/-- Multiplication by alpha is one turn of the loop (R120). -/
theorem gfMul_two_left {F : Gf} (hF : F.Good) {a : Nat} (ha : a < F.size) : gfMul F 2 a = xtime F a := by
  rw [gfMul_eq_mulBits, ← alphaPow_one hF, mulBits_alphaPow hF 1 ha, Function.iterate_one]

/-- Settles O23: a non-zero element is a power of x, and the product is linear. -/
theorem fieldLawsHold : Obligations.FieldLawsHold := by
  unfold Obligations.FieldLawsHold
  intro F hF a b c ha hb hc
  have halpha := (gfMul_two_left hF.good ha).trans (xtime_eq_loop ha)
  exact ⟨Nat.xor_lt_two_pow ha hb, gfMul_lt hF.good ha b, Nat.xor_comm a b, Nat.xor_assoc a b c, Nat.xor_zero a,
    Nat.xor_self a, gfMul_comm hF.good ha hb, gfMul_assoc hF.good ha hb hc, gfMul_one_left ha,
    gfMul_xor_right hF.good ha b c, fun h0 => ⟨gfInv_lt hF.good h0 ha, gfMul_gfInv hF.good h0 ha⟩,
    gfDiv_of_ne_zero F a, halpha⟩

end Sys2Proof.Machine
end

section
/-! The twelve field commands (O24, O25, O26): each is `fieldDone` or `fieldPartial` of an operation on the low bits
of its operands, and the operation is its table formula. -/

namespace Sys2Proof.Machine

/-! ### Operands and the two shapes of a field command -/

theorem byteSlice_eq_mod (w : Word) : byteSlice w = w.toNat % 256 := BitVec.extractLsb'_toNat 0 8 w

theorem halfSlice_eq_mod (w : Word) : halfSlice w = w.toNat % 65536 := BitVec.extractLsb'_toNat 0 16 w

theorem fieldPartial_zero {x : Nat} (h : x = 0) (s : State) (v : Nat) :
    fieldPartial s x v = .next (s.failed .gfUndef) := by
  rw [fieldPartial_eq, if_pos h]

theorem fieldPartial_nonzero {x : Nat} (h : x ≠ 0) (s : State) (v : Nat) :
    fieldPartial s x v = .next (s.answered v) := by
  rw [fieldPartial_eq, if_neg h]

/-! ### What the shapes answer for the operations of a field -/

theorem fieldDone_gfMul {F : Gf} (hF : F.Good) (s : State) {a b : Nat} (ha : a < F.size) (hb : b < F.size) :
    fieldDone s (gfMul F a b) = .next (s.answered (
      if a = 0 ∨ b = 0 then 0 else tableExp F ((tableLog F a + tableLog F b) % F.order))) := by
  rw [fieldDone_eq, gfMul_eq_loopTable hF ha hb]

theorem fieldPartial_gfDiv {F : Gf} (hF : F.Good) (s : State) {a b : Nat} (ha : a < F.size) (hb : b < F.size)
    (h0 : b ≠ 0) : fieldPartial s b (gfDiv F a b) = .next (s.answered (
      if a = 0 then 0 else tableExp F ((tableLog F a + F.order - tableLog F b) % F.order))) := by
  rw [fieldPartial_nonzero h0, gfDiv_eq_loopTable hF ha h0 hb]

theorem fieldPartial_gfInv {F : Gf} (hF : F.Good) (s : State) {a : Nat} (ha : a < F.size) (h0 : a ≠ 0) :
    fieldPartial s a (gfInv F a) = .next (s.answered (tableExp F ((F.order - tableLog F a) % F.order))) := by
  rw [fieldPartial_nonzero h0, gfInv_eq_loopTable hF h0 ha]

theorem fieldPartial_gfLog {F : Gf} (hF : F.Good) (s : State) {a : Nat} (ha : a < F.size) (h0 : a ≠ 0) :
    fieldPartial s a (gfLog F a) = .next (s.answered (tableLog F a)) := by
  rw [fieldPartial_nonzero h0, gfLog_eq_tableLog hF h0 ha]

theorem fieldDone_gfExp {F : Gf} (hF : F.Good) (s : State) (i : Nat) :
    fieldDone s (gfExp F (i % F.order)) = .next (s.answered (tableExp F (i % F.order))) := by
  rw [fieldDone_eq, gfExp_mod_eq_tableExp hF]

/-! ### The commands -/

/-- Settles O24: the sum is XOR and the product its table formula, on the low bits of the operands. -/
theorem addAndMultiplyCommands : Obligations.AddAndMultiplyCommands := by
  unfold Obligations.AddAndMultiplyCommands
  intro s
  simp only [← byteSlice_eq_mod, ← halfSlice_eq_mod]
  exact ⟨rfl, rfl, fieldDone_gfMul gf8_good s (byteSlice_lt s.opa) (byteSlice_lt s.opb),
    fieldDone_gfMul gf16_good s (halfSlice_lt s.opa) (halfSlice_lt s.opb)⟩

/-- Settles O25: a zero divisor ends the command with `E_GFUNDEF`, and any other gives the table formula. -/
theorem divideAndInverseCommands : Obligations.DivideAndInverseCommands := by
  unfold Obligations.DivideAndInverseCommands
  intro s
  simp only [← byteSlice_eq_mod, ← halfSlice_eq_mod]
  exact ⟨fieldPartial_gfDiv gf8_good s (byteSlice_lt s.opa) (byteSlice_lt s.opb),
    fun h => fieldPartial_zero h s _,
    fieldPartial_gfInv gf8_good s (byteSlice_lt s.opa),
    fun h => fieldPartial_zero h s _,
    fieldPartial_gfDiv gf16_good s (halfSlice_lt s.opa) (halfSlice_lt s.opb),
    fun h => fieldPartial_zero h s _,
    fieldPartial_gfInv gf16_good s (halfSlice_lt s.opa),
    fun h => fieldPartial_zero h s _⟩

/-- Settles O26: a non-zero element has its entry in `LOG`, and every index modulo the order one in `EXP`. -/
theorem tableCommands : Obligations.TableCommands := by
  unfold Obligations.TableCommands
  intro s
  simp only [← byteSlice_eq_mod, ← halfSlice_eq_mod]
  exact ⟨fieldPartial_gfLog gf8_good s (byteSlice_lt s.opa), fun h => fieldPartial_zero h s _,
    fieldDone_gfExp gf8_good s s.opa.toNat,
    fieldPartial_gfLog gf16_good s (halfSlice_lt s.opa), fun h => fieldPartial_zero h s _,
    fieldDone_gfExp gf16_good s s.opa.toNat⟩

end Sys2Proof.Machine
end

section
/-! The parity counts and the coefficient matrix of the Reed–Solomon coder: the counts are exact ceilings (O27), the
coefficients are inverses (O29), and a Cauchy matrix has no kernel (O30). -/

namespace Sys2Proof.Machine

/-! ### The parity counts -/

theorem ceilPpm_le_iff (k r p : Nat) : ceilPpm k r ≤ p ↔ k * r ≤ p * 1000000 := by
  rw [ceilPpm, Config.ppm]
  generalize k * r = m
  omega

theorem parityCountRs_of_pos {k : Nat} {r : Int} (hr : 0 < r) (hk : 1 ≤ k) : parityCountRs k r = ceilPpm k r.toNat :=
  if_neg (by omega)

theorem one_le_parityCountRs {k : Nat} {r : Int} (hr : 0 < r) (hk : 1 ≤ k) : 1 ≤ parityCountRs k r := by
  have hpos : 0 < k * r.toNat := Nat.mul_pos hk (by omega)
  by_contra hzero
  have hle := (ceilPpm_le_iff k r.toNat 0).1 (by rw [← parityCountRs_of_pos hr hk]; omega)
  omega

theorem parityCountRq_of_pos {k : Nat} {r : Int} (hr : 0 < r) (hk : 1 ≤ k) : parityCountRq k r = parityCountRs k r := by
  rw [parityCountRq, if_neg (by omega), ← parityCountRs_of_pos hr hk, max_eq_right (one_le_parityCountRs hr hk)]

/-- Settles O27: a floor quotient after adding one less than the divisor is the least multiple that reaches. -/
theorem parityCountIsTheExactCeiling : Obligations.ParityCountIsTheExactCeiling := by
  unfold Obligations.ParityCountIsTheExactCeiling
  intro k r
  refine ⟨fun h => ⟨if_pos h, if_pos h⟩, fun hr hk => ⟨parityCountRq_of_pos hr hk, one_le_parityCountRs hr hk, ?_⟩⟩
  intro p
  have hcast : (k : Int) * r = ((k * r.toNat : Nat) : Int) := by
    rw [Nat.cast_mul, Int.toNat_of_nonneg hr.le]
  rw [parityCountRs_of_pos hr hk, ceilPpm_le_iff, hcast]
  omega

/-! ### The field of an operation and the column points -/

theorem rsField_eceField (k : Nat) : EceField (rsField k) := by
  unfold rsField
  split
  · exact .inl rfl
  · exact .inr rfl

theorem rsField_good (k : Nat) : (rsField k).Good := (rsField_eceField k).good

/-- The source indices are elements of the field (R151). -/
theorem lt_rsField_size {k : Nat} (hk : k ≤ 65535) : k < (rsField k).size := by
  unfold rsField
  split
  · exact Nat.lt_succ_of_le ‹_›
  · exact Nat.lt_succ_of_le hk

theorem xor_lt_size {F : Gf} {a b : Nat} (ha : a < F.size) (hb : b < F.size) : a ^^^ b < F.size :=
  Nat.xor_lt_two_pow ha hb

theorem xor_ne_zero_of_ne {a b : Nat} (h : a ≠ b) : a ^^^ b ≠ 0 := fun h0 => h (Nat.xor_eq_zero_iff.1 h0)

theorem le_rsPoint (F : Gf) (k j : Nat) : k ≤ rsPoint F k j := Nat.le_add_right _ _

theorem rsPoint_lt {F : Gf} {k : Nat} (hk : k < F.size) (j : Nat) : rsPoint F k j < F.size := by
  have := Nat.mod_lt j (y := F.size - k) (by omega)
  unfold rsPoint
  omega

/-- Inside the MDS domain the column points are k, k + 1, ... (R155). -/
theorem rsPoint_of_lt {F : Gf} {k j : Nat} (h : k + j < F.size) : rsPoint F k j = k + j := by
  rw [rsPoint, Nat.mod_eq_of_lt (by omega)]

/-- The columns repeat after q - k (R155). -/
theorem rsCoeff_add_period (F : Gf) (k i j : Nat) : rsCoeff F k i (j + (F.size - k)) = rsCoeff F k i j := by
  rw [rsCoeff, rsCoeff, rsPoint, rsPoint, Nat.add_mod_right]

/-- A source index differs from every column point, as an element (R154). -/
theorem xor_rsPoint {F : Gf} {k i : Nat} (hi : i < k) (hk : k < F.size) (j : Nat) :
    i ^^^ rsPoint F k j ≠ 0 ∧ i ^^^ rsPoint F k j < F.size :=
  ⟨xor_ne_zero_of_ne (hi.trans_le (le_rsPoint F k j)).ne, xor_lt_size (hi.trans hk) (rsPoint_lt hk j)⟩

theorem rsCoeff_lt {F : Gf} (hF : F.Good) {k i : Nat} (hi : i < k) (hk : k < F.size) (j : Nat) :
    rsCoeff F k i j < F.size :=
  gfInv_lt hF (xor_rsPoint hi hk j).1 (xor_rsPoint hi hk j).2

/-- Settles O29: the column points stand above the source indices, so the element to invert is not zero. -/
theorem rsCoefficientsAreInverses : Obligations.RsCoefficientsAreInverses := by
  unfold Obligations.RsCoefficientsAreInverses
  intro k i j hi hk
  have hF := rsField_good k
  have hsize := lt_rsField_size hk
  obtain ⟨hne, hlt⟩ := xor_rsPoint hi hsize j
  exact ⟨rfl, le_rsPoint _ k j, rsPoint_lt hsize j, hne, gfMul_gfInv hF hne hlt, gfInv_ne_zero hF hne hlt,
    gfInv_lt hF hne hlt⟩

/-! ### Sums over a list by position -/

theorem xorOver_eq_range {l : List Nat} (f : Nat → Nat) :
    xorOver l f = xorOver (List.range l.length) (fun m => f (l.getD m 0)) := by
  rw [← xorOver_map (List.range l.length) (fun m => l.getD m 0) f]
  congr 1
  refine List.ext_getElem (by simp) fun m h _ => ?_
  simp [h]

theorem idxOf_getD {l : List Nat} (hl : l.Nodup) {m : Nat} (hm : m < l.length) : l.idxOf (l.getD m 0) = m := by
  rw [List.getD_eq_getElem _ _ hm]
  exact hl.idxOf_getElem m hm

/-- A sum over the positions of a list without repetition, as a sum over its elements. -/
theorem xorOver_range_getD {l : List Nat} (hl : l.Nodup) (g : Nat → Nat → Nat) :
    xorOver (List.range l.length) (fun m => g m (l.getD m 0)) = xorOver l (fun a => g (l.idxOf a) a) := by
  rw [xorOver_eq_range (l := l)]
  refine xorOver_congr fun m hm => ?_
  rw [idxOf_getD hl (List.mem_range.1 hm)]

/-! ### Cauchy matrices -/

/-- Values at points, each multiplied by the difference of its point from `u`. -/
def timesDiff (F : Gf) (u : Nat) (x : Nat → Nat) (a : Nat) : Nat := gfMul F (u ^^^ a) (x a)

/-- Values at points, each divided by the difference of its point from `b`: the terms of the row of `b` in a Cauchy
matrix. -/
def overDiff (F : Gf) (b : Nat) (x : Nat → Nat) (a : Nat) : Nat := gfMul F (gfInv F (a ^^^ b)) (x a)

section
variable {F : Gf} (hF : F.Good)
include hF

theorem eq_zero_of_gfMul_eq_zero {a b : Nat} (h0 : a ≠ 0) (ha : a < F.size) (hb : b < F.size)
    (h : gfMul F a b = 0) : b = 0 := by
  by_contra hb0
  exact gfMul_ne_zero hF h0 hb0 ha hb h

theorem timesDiff_lt {a u : Nat} (x : Nat → Nat) (hu : u < F.size) (ha : a < F.size) : timesDiff F u x a < F.size :=
  gfMul_lt hF (xor_lt_size hu ha) _

theorem gfInv_xor_lt {a b : Nat} (ha : a < F.size) (hb : b < F.size) (hab : a ≠ b) : gfInv F (a ^^^ b) < F.size :=
  gfInv_lt hF (xor_ne_zero_of_ne hab) (xor_lt_size ha hb)

theorem eq_zero_of_overDiff_eq_zero {a b : Nat} {x : Nat → Nat} (ha : a < F.size) (hb : b < F.size) (hab : a ≠ b)
    (hx : x a < F.size) (h : overDiff F b x a = 0) : x a = 0 :=
  eq_zero_of_gfMul_eq_zero hF (gfInv_ne_zero hF (xor_ne_zero_of_ne hab) (xor_lt_size ha hb))
    (gfInv_xor_lt hF ha hb hab) hx h

/-- Multiplying by a difference undoes the division by it. -/
theorem timesDiff_overDiff {a b : Nat} {x : Nat → Nat} (ha : a < F.size) (hb : b < F.size) (hab : a ≠ b)
    (hx : x a < F.size) : timesDiff F b (overDiff F b x) a = x a := by
  have hlt := xor_lt_size ha hb
  have hinv := gfInv_xor_lt hF ha hb hab
  rw [timesDiff, overDiff, Nat.xor_comm b a, ← gfMul_assoc hF hlt hinv hx, gfMul_comm hF hlt hinv,
    gfMul_gfInv hF (xor_ne_zero_of_ne hab) hlt, gfMul_one_left hx]

/-- A term of the row of `b` times the difference of `b` from `u`: the differences of `u` from the point and of the
point from `b` add up to it. -/
theorem gfMul_xor_overDiff {a b u : Nat} {x : Nat → Nat} (ha : a < F.size) (hb : b < F.size) (hu : u < F.size)
    (hab : a ≠ b) (hx : x a < F.size) :
    gfMul F (u ^^^ b) (overDiff F b x a) = overDiff F b (timesDiff F u x) a ^^^ x a := by
  have hua := xor_lt_size hu ha
  have hinv := gfInv_xor_lt hF ha hb hab
  have hsplit : u ^^^ b = (u ^^^ a) ^^^ (b ^^^ a) := by
    rw [Nat.xor_comm b a, Nat.xor_assoc, ← Nat.xor_assoc a a b, Nat.xor_self, Nat.zero_xor]
  have hswap : gfMul F (u ^^^ a) (overDiff F b x a) = overDiff F b (timesDiff F u x) a := by
    rw [overDiff, overDiff, timesDiff, ← gfMul_assoc hF hua hinv hx, gfMul_comm hF hua hinv, gfMul_assoc hF hinv hua hx]
  have hone : gfMul F (b ^^^ a) (overDiff F b x a) = x a := timesDiff_overDiff hF ha hb hab hx
  rw [hsplit, gfMul_xor_left hF hua (xor_lt_size hb ha), hswap, hone]

/-- The row of `b` times the difference of `b` from `u`. -/
theorem gfMul_xor_xorOver_overDiff {A : List Nat} {b u : Nat} {x : Nat → Nat} (hA : ∀ a ∈ A, a < F.size)
    (hab : ∀ a ∈ A, a ≠ b) (hb : b < F.size) (hu : u < F.size) (hx : ∀ a ∈ A, x a < F.size) :
    gfMul F (u ^^^ b) (xorOver A (overDiff F b x)) = xorOver A (overDiff F b (timesDiff F u x)) ^^^ xorOver A x := by
  rw [gfMul_xorOver hF (xor_lt_size hu hb), ← xorOver_xor]
  exact xorOver_congr fun a ha => gfMul_xor_overDiff hF (hA a ha) hb hu (hab a ha) (hx a ha)

end

/-- The points of a Cauchy matrix (R155): columns `A` and rows `B`, all different elements. -/
structure CauchyPoints (F : Gf) (A B : List Nat) : Prop where
  columns : A.Nodup
  rows : B.Nodup
  columnsIn : ∀ a ∈ A, a < F.size
  rowsIn : ∀ b ∈ B, b < F.size
  apart : ∀ a ∈ A, ∀ b ∈ B, a ≠ b

theorem CauchyPoints.tail {F : Gf} {a b : Nat} {A B : List Nat} (h : CauchyPoints F (a :: A) (b :: B)) :
    CauchyPoints F A B where
  columns := h.columns.of_cons
  rows := h.rows.of_cons
  columnsIn := fun c hc => h.columnsIn c (List.mem_cons_of_mem _ hc)
  rowsIn := fun c hc => h.rowsIn c (List.mem_cons_of_mem _ hc)
  apart := fun c hc d hd => h.apart c (List.mem_cons_of_mem _ hc) d (List.mem_cons_of_mem _ hd)

section
variable {F : Gf} (hF : F.Good)
include hF

/-- The first column eliminated: each row has been multiplied by its difference from the column. -/
theorem cauchy_without_column {a0 : Nat} {A B : List Nat} {x : Nat → Nat} (hp : CauchyPoints F (a0 :: A) B)
    (hx : ∀ a ∈ a0 :: A, x a < F.size) (h : ∀ b ∈ B, xorOver (a0 :: A) (overDiff F b x) = 0) :
    ∀ b ∈ B, xorOver A (overDiff F b (timesDiff F a0 x)) = xorOver (a0 :: A) x := by
  intro b hb
  have hmul := gfMul_xor_xorOver_overDiff hF hp.columnsIn (fun a ha => hp.apart a ha b hb) (hp.rowsIn b hb)
    (hp.columnsIn a0 List.mem_cons_self) hx
  have hfirst : overDiff F b (timesDiff F a0 x) a0 = 0 := by
    rw [overDiff, timesDiff, Nat.xor_self, gfMul_zero_left, gfMul_zero_right]
  rw [h b hb, gfMul_zero_right, xorOver_cons, hfirst, Nat.zero_xor] at hmul
  exact Nat.xor_eq_zero_iff.1 hmul.symm

/-- Rows with one sum `s`, and the first of them eliminated: the others have been multiplied by their difference from
it. -/
theorem cauchy_without_row {b0 s : Nat} {A B : List Nat} {z : Nat → Nat} (hp : CauchyPoints F A (b0 :: B))
    (hz : ∀ a ∈ A, z a < F.size) (h : ∀ b ∈ b0 :: B, xorOver A (overDiff F b z) = s) :
    ∀ b ∈ B, xorOver A (overDiff F b (overDiff F b0 z)) = 0 := by
  intro b hb
  have hmem := List.mem_cons_of_mem b0 hb
  have hb0 := hp.rowsIn b0 List.mem_cons_self
  have hlt := hp.rowsIn b hmem
  have hne : b0 ≠ b := fun e => (List.nodup_cons.1 hp.rows).1 (e ▸ hb)
  have hdiv : ∀ c ∈ b0 :: B, ∀ (y : Nat → Nat), ∀ a ∈ A, overDiff F c y a < F.size := fun c hc y a ha =>
    gfMul_lt hF (gfInv_xor_lt hF (hp.columnsIn a ha) (hp.rowsIn c hc) (hp.apart a ha c hc)) _
  have hmul := gfMul_xor_xorOver_overDiff hF hp.columnsIn (fun a ha => hp.apart a ha b hmem) hlt hb0
    (hdiv b0 List.mem_cons_self z)
  have hback : xorOver A (overDiff F b (timesDiff F b0 (overDiff F b0 z))) = xorOver A (overDiff F b z) :=
    xorOver_congr fun a ha => by
      rw [overDiff, timesDiff_overDiff hF (hp.columnsIn a ha) hb0 (hp.apart a ha b0 List.mem_cons_self) (hz a ha),
        overDiff]
  rw [hback, h b hmem, h b0 List.mem_cons_self, Nat.xor_self] at hmul
  exact eq_zero_of_gfMul_eq_zero hF (xor_ne_zero_of_ne hne) (xor_lt_size hb0 hlt) (xorOver_lt (hdiv b hmem _)) hmul

/-- A Cauchy matrix with as many rows as columns, or more, has no kernel (R155): without its first column and its first
row it is a Cauchy matrix at other values. -/
theorem cauchy_kernel {A B : List Nat} {x : Nat → Nat} (hp : CauchyPoints F A B) (hle : A.length ≤ B.length)
    (hx : ∀ a ∈ A, x a < F.size) (h : ∀ b ∈ B, xorOver A (overDiff F b x) = 0) : ∀ a ∈ A, x a = 0 := by
  induction A generalizing B x with
  | nil => exact List.forall_mem_nil _
  | cons a0 A ih =>
    cases B with
    | nil => simp at hle
    | cons b0 B =>
      have ha0 := hp.columnsIn a0 List.mem_cons_self
      have hb0 := hp.rowsIn b0 List.mem_cons_self
      have hp0 : CauchyPoints F A (b0 :: B) :=
        { hp.tail with
          rows := hp.rows
          rowsIn := hp.rowsIn
          apart := fun a ha => hp.apart a (List.mem_cons_of_mem _ ha) }
      have hz : ∀ a ∈ A, timesDiff F a0 x a < F.size := fun a ha => timesDiff_lt hF x ha0 (hp0.columnsIn a ha)
      have hw : ∀ a ∈ A, overDiff F b0 (timesDiff F a0 x) a = 0 :=
        ih hp.tail (by simpa using hle)
          (fun a ha => gfMul_lt hF
            (gfInv_xor_lt hF (hp0.columnsIn a ha) hb0 (hp0.apart a ha b0 List.mem_cons_self)) _)
          (cauchy_without_row hF hp0 hz (cauchy_without_column hF hp hx h))
      have hrest : ∀ a ∈ A, x a = 0 := fun a ha =>
        have hne : a0 ≠ a := fun e => (List.nodup_cons.1 hp.columns).1 (e ▸ ha)
        eq_zero_of_gfMul_eq_zero hF (xor_ne_zero_of_ne hne) (xor_lt_size ha0 (hp0.columnsIn a ha))
          (hx a (List.mem_cons_of_mem _ ha))
          (eq_zero_of_overDiff_eq_zero hF (x := timesDiff F a0 x) (hp0.columnsIn a ha) hb0
            (hp0.apart a ha b0 List.mem_cons_self) (hz a ha) (hw a ha))
      have hfirst : x a0 = 0 := by
        have hzero : xorOver A (overDiff F b0 x) = 0 :=
          xorOver_zero fun a ha => by rw [overDiff, hrest a ha, gfMul_zero_right]
        have hb := h b0 List.mem_cons_self
        rw [xorOver_cons, hzero, Nat.xor_zero] at hb
        exact eq_zero_of_overDiff_eq_zero hF ha0 hb0 (hp.apart a0 List.mem_cons_self b0 List.mem_cons_self)
          (hx a0 List.mem_cons_self) hb
      exact List.forall_mem_cons.2 ⟨hfirst, hrest⟩

end

/-! ### The coefficient matrix -/

/-- The source indices `E` and the column points of the parity indices `J` are the points of a Cauchy matrix, inside
the MDS domain (R155). -/
theorem cauchyPoints_rsPoint {F : Gf} {k : Nat} {E J : List Nat} (hE : E.Nodup) (hJ : J.Nodup) (hEk : ∀ i ∈ E, i < k)
    (hk : k < F.size) (hJq : ∀ j ∈ J, k + j < F.size) : CauchyPoints F E (J.map (rsPoint F k)) where
  columns := hE
  rows := by
    refine (List.nodup_map_iff_inj_on hJ).2 fun i hi j hj h => ?_
    rw [rsPoint_of_lt (hJq i hi), rsPoint_of_lt (hJq j hj)] at h
    omega
  columnsIn := fun i hi => (hEk i hi).trans hk
  rowsIn := List.forall_mem_map.2 fun j _ => rsPoint_lt hk j
  apart := fun i hi => List.forall_mem_map.2 fun j _ => ((hEk i hi).trans_le (le_rsPoint F k j)).ne

theorem rsReducedRow_getD (F : Gf) (k : Nat) {E : List Nat} (j : Nat) {c : Nat} (hc : c < E.length) :
    (rsReducedRow F k E j).getD c 0 = rsCoeff F k (E.getD c 0) j := by
  simp [rsReducedRow, hc]

/-- A reduced row at values by position, as a row of the Cauchy matrix. -/
theorem rowValue_rsReducedRow (F : Gf) (k : Nat) {E : List Nat} (hE : E.Nodup) (j : Nat) (x : Nat → Nat) :
    rowValue F E.length (rsReducedRow F k E j) x = xorOver E (overDiff F (rsPoint F k j) (fun i => x (E.idxOf i))) := by
  calc rowValue F E.length (rsReducedRow F k E j) x
      = xorOver (List.range E.length) (fun c => gfMul F (rsCoeff F k (E.getD c 0) j) (x c)) :=
        xorOver_congr fun c hc => by rw [rsReducedRow_getD F k j (List.mem_range.1 hc)]
    _ = xorOver E (fun i => gfMul F (rsCoeff F k i j) (x (E.idxOf i))) :=
        xorOver_range_getD hE (fun c i => gfMul F (rsCoeff F k i j) (x c))

/-- Inside the MDS domain as many reduced rows as source indices have full rank (R155). -/
theorem fullRank_rsReducedRow {F : Gf} (hF : F.Good) {k : Nat} {E J : List Nat} (hE : E.Nodup) (hJ : J.Nodup)
    (hle : E.length ≤ J.length) (hEk : ∀ i ∈ E, i < k) (hk : k < F.size) (hJq : ∀ j ∈ J, k + j < F.size) :
    FullRank F E.length (J.map (rsReducedRow F k E)) := by
  intro x hx hrows c hc
  have hker := cauchy_kernel hF (cauchyPoints_rsPoint hE hJ hEk hk hJq) (by simpa using hle)
    (x := fun i => x (E.idxOf i)) (fun i _ => hx _) (List.forall_mem_map.2 fun j hj => by
      rw [← rowValue_rsReducedRow F k hE j x]
      exact hrows _ (List.mem_map_of_mem hj))
  have hval := hker (E.getD c 0) (by rw [List.getD_eq_getElem _ _ hc]; exact List.getElem_mem hc)
  rwa [idxOf_getD hE hc] at hval

end Sys2Proof.Machine
end

section
/-! `RS.ENC`: the parity blocks it writes (O31), its errors in line order and those of `RQ.ENC` (O32), that it is
systematic and deterministic (O33), and the parity blocks that repeat outside the MDS domain (O30). -/

namespace Sys2Proof.Machine

/-! ### Bytes and symbols of a block -/

/-- Blocks of equal bytes have equal symbols. -/
theorem State.symbolAt_congr {F : Gf} (hF : EceField F) {s t : State} {i j blen : Nat}
    (h : ∀ o, o < blen → s.slotByte i o = t.slotByte j o) {x : Nat} (hx : x < symbolCount F blen) :
    s.symbolAt F i x = t.symbolAt F j x := by
  rcases hF with rfl | rfl
  · exact congrArg BitVec.toNat (h x hx)
  · have hx : x < blen / 2 := hx
    exact congrArg₂ (fun lo hi : Byte => lo.toNat + 256 * hi.toNat) (h (2 * x) (by omega)) (h (2 * x + 1) (by omega))

/-- Blocks of equal symbols have equal bytes, where the symbols use up the block. -/
theorem State.slotByte_eq_of_symbolAt {F : Gf} (hF : EceField F) {s t : State} {i j blen : Nat}
    (heven : F = gf16 → blen % 2 = 0) (h : ∀ x, x < symbolCount F blen → s.symbolAt F i x = t.symbolAt F j x)
    {o : Nat} (ho : o < blen) : s.slotByte i o = t.slotByte j o := by
  rcases hF with rfl | rfl
  · exact BitVec.eq_of_toNat_eq (h o ho)
  · have hlen := heven rfl
    have hpair : (s.slotByte i (2 * (o / 2))).toNat + 256 * (s.slotByte i (2 * (o / 2) + 1)).toNat =
        (t.slotByte j (2 * (o / 2))).toNat + 256 * (t.slotByte j (2 * (o / 2) + 1)).toNat :=
      h (o / 2) (show o / 2 < blen / 2 by omega)
    have hs := (s.slotByte i (2 * (o / 2))).isLt
    have ht := (t.slotByte j (2 * (o / 2))).isLt
    refine BitVec.eq_of_toNat_eq ?_
    rcases Nat.mod_two_eq_zero_or_one o with hpar | hpar
    · have he : 2 * (o / 2) = o := by omega
      rw [he] at hpair hs ht
      omega
    · have he : 2 * (o / 2) + 1 = o := by omega
      rw [he] at hpair
      omega

/-- GF(65536) is used from 256 source blocks on (R151). -/
theorem le_of_rsField_eq_gf16 {k : Nat} (h : rsField k = gf16) : 256 ≤ k := by
  by_contra hlt
  rw [rsField, if_pos (by omega)] at h
  exact absurd h (by decide)

/-! ### Blocks of symbols written to slots -/

theorem State.byteAt_withBuf_setSymbols (s : State) (F : Gf) (bs : List (Nat × Vec)) (a : Nat) :
    (s.withBuf (s.setSymbols F bs).buf).byteAt a = (s.setSymbols F bs).byteAt a := s.setBlks_byteAt _ a

section
variable {s : State} {F : Gf} {bs : List (Nat × Vec)}

/-- The symbols of a slot after blocks of symbols have been written to different slots, this one among them. -/
theorem State.symbolAt_setSymbols_of_mem (hF : EceField F) {b : Nat × Vec} (hb : b ∈ bs)
    (hnd : (bs.map Prod.fst).Nodup) (hfit : s.blenVal ≤ s.slotb) {t : Nat} (ht : t < symbolCount F s.blenVal)
    (hv : b.2.getD t 0 < F.size) :
    (s.withBuf (s.setSymbols F bs).buf).symbolAt F b.1 t = b.2.getD t 0 := by
  rw [← s.symbolAt_setSymbols_same hF b.1 ht hv]
  refine State.symbolAt_congr hF (fun o ho => ?_) ht
  rw [s.slotByte_setSymbols_same F b.1 b.2 ho, ← s.byteAt_setSymbols_of_mem F bs b o hb hnd hfit ho]
  exact s.byteAt_withBuf_setSymbols F bs _

theorem State.sameBytesOutside_setSymbols {written : Nat → Prop} (h : ∀ b ∈ bs, written b.1) :
    SameBytesOutside s (s.withBuf (s.setSymbols F bs).buf) written := by
  intro a ha
  rw [s.byteAt_withBuf_setSymbols]
  exact s.byteAt_setSymbols_of_outside F bs a fun b hb => ha b.1 (h b hb)

end

/-- A byte of one slot lies in no block of another. -/
theorem State.not_inBlock_of_ne {s : State} {i x o : Nat} (hne : x ≠ i) (hfit : s.blenVal ≤ s.slotb)
    (ho : o < s.slotb) : ¬s.inBlock x (i * s.slotb + o) := by
  rintro ⟨hlo, hhi⟩
  rcases Nat.lt_or_gt_of_ne hne with hlt | hlt
  · have hmul : (x + 1) * s.slotb ≤ i * s.slotb := Nat.mul_le_mul_right _ hlt
    rw [Nat.succ_mul] at hmul
    omega
  · have hmul : (i + 1) * s.slotb ≤ x * s.slotb := Nat.mul_le_mul_right _ hlt
    rw [Nat.succ_mul] at hmul
    omega

/-- A slot that was not written reads as before, in its whole length. -/
theorem SameBytesOutside.slotByte_eq {s : State} {m : Memory} {written : Nat → Prop}
    (h : SameBytesOutside s (s.withBuf m) written) (hfit : s.blenVal ≤ s.slotb) {i o : Nat} (hi : ¬written i)
    (ho : o < s.slotb) : (s.withBuf m).slotByte i o = s.slotByte i o :=
  h _ fun _ hx => State.not_inBlock_of_ne (fun e => hi (e ▸ hx)) hfit ho

/-! ### Sums of source blocks -/

theorem State.rsCombine_lengths (s : State) {F : Gf} (hF : EceField F) (k j : Nat) (sources : List Nat) :
    ∀ v ∈ sources.map (fun i => vecScale F (rsCoeff F k i j) (s.symbols F i)),
      v.length = symbolCount F s.blenVal :=
  List.forall_mem_map.2 fun i _ => by rw [vecScale_length, s.symbols_length hF]

theorem State.rsCombine_length (s : State) {F : Gf} (hF : EceField F) (k j : Nat) (sources : List Nat) :
    (s.rsCombine F k j sources).length = symbolCount F s.blenVal :=
  vecSum_length (s.rsCombine_lengths hF k j sources)

/-- Symbol t of a sum of source blocks (R157, R165). -/
theorem State.rsCombine_getD (s : State) {F : Gf} (hF : EceField F) (k j : Nat) (sources : List Nat) {t : Nat}
    (ht : t < symbolCount F s.blenVal) :
    (s.rsCombine F k j sources).getD t 0 =
      xorOver sources (fun i => gfMul F (rsCoeff F k i j) (s.symbolAt F i t)) := by
  rw [State.rsCombine, vecSum_getD_xorOver (s.rsCombine_lengths hF k j sources), xorOver_map]
  exact xorOver_congr fun i _ => by rw [vecScale_getD, s.symbols_getD hF i ht]

theorem rsTerms_lt {F : Gf} (hF : F.Good) {k : Nat} (hk : k < F.size) (j : Nat) {sources : List Nat}
    (hsrc : ∀ i ∈ sources, i < k) (x : Nat → Nat) :
    xorOver sources (fun i => gfMul F (rsCoeff F k i j) (x i)) < F.size :=
  xorOver_lt fun i hi => gfMul_lt hF (rsCoeff_lt hF (hsrc i hi) hk j) _

/-! ### RS.ENC -/

theorem exec_rsEnc (s : State) : exec .rsEnc s = conclude s (rsEncode s) := rfl

theorem exec_rsEnc_of_fits {s : State} (h : s.RsEncodeFits) :
    exec .rsEnc s = .next (s.coded (s.kVal + parityCountRs s.kVal s.redunVal)
      (s.setSymbols (rsField s.kVal) s.rsBlocks).buf) := by
  rw [exec_rsEnc, rsEncode_of_fits h, conclude_ok, State.setSymbols_publish_done]

theorem State.rsBlocks_slots (s : State) :
    s.rsBlocks.map Prod.fst = (List.range (parityCountRs s.kVal s.redunVal)).map (s.kVal + ·) := by
  simp [State.rsBlocks, Function.comp_def]

theorem State.nodup_rsBlocks_slots (s : State) : (s.rsBlocks.map Prod.fst).Nodup := by
  rw [s.rsBlocks_slots]
  exact List.nodup_range.map fun _ _ => Nat.add_left_cancel

/-- Where a parity block is written the source indices are elements of the field: k = 65536 leaves no slot for it
(R154, R158). -/
theorem State.RsEncodeFits.kVal_lt_size {s : State} (h : s.RsEncodeFits) (hs : s.Wf) {j : Nat}
    (hj : j < parityCountRs s.kVal s.redunVal) : s.kVal < (rsField s.kVal).size := by
  have hslots := h.slotsFit
  have hmax := hs.nslot_le
  exact lt_rsField_size (by omega)

theorem rsParityIn_rsBlocks {s : State} (hs : s.Wf) (h : s.RsEncodeFits) :
    s.RsParityIn (s.setSymbols (rsField s.kVal) s.rsBlocks).buf where
  parity := by
    intro j hj t ht
    have hF := rsField_eceField s.kVal
    have hval := s.rsCombine_getD hF s.kVal j (List.range s.kVal) ht
    have hmem : (s.kVal + j, s.rsParity (rsField s.kVal) s.kVal j) ∈ s.rsBlocks :=
      List.mem_map_of_mem (List.mem_range.2 hj)
    rw [← hval]
    exact State.symbolAt_setSymbols_of_mem hF hmem s.nodup_rsBlocks_slots h.blenFits ht
      (hval ▸ rsTerms_lt hF.good (h.kVal_lt_size hs hj) j (fun i hi => List.mem_range.1 hi) _)
  elsewhere := State.sameBytesOutside_setSymbols (List.forall_mem_map.2 fun j hj =>
    ⟨Nat.le_add_right _ _, Nat.add_lt_add_left (List.mem_range.1 hj) _⟩)

/-- Settles O31: the blocks go to different slots, and each reads back as the sum it was computed as. -/
theorem rsEncWritesTheParity : Obligations.RsEncWritesTheParity := by
  unfold Obligations.RsEncWritesTheParity
  exact fun s hs h => ⟨_, exec_rsEnc_of_fits h, rsParityIn_rsBlocks hs h⟩

/-! ### The errors of the encoders -/

/-- The outcome that the answer of a pseudocode is concluded with. -/
def outcomeOf : Except ErrCode State → ErrCode
  | .ok _ => .ok
  | .error c => c

/-- `ERR` after a command is the outcome of its pseudocode, and an error changes nothing else (R305). -/
theorem conclude_outcomeOf (s : State) (r : Except ErrCode State) :
    ∃ t, conclude s r = .next t ∧ (t.err ≠ .ok → t = s.failed t.err) ∧ t.err = outcomeOf r := by
  cases r with
  | ok u => exact ⟨u.done, rfl, fun h => absurd rfl h, rfl⟩
  | error c => exact ⟨s.failed c, rfl, fun _ => rfl, rfl⟩

theorem State.rsOddLen_iff (s : State) : s.rsOddLen = true ↔ 256 ≤ s.kVal ∧ s.blenVal % 2 = 1 := decide_eq_true_iff

theorem outcomeOf_rsEncode (s : State) :
    outcomeOf (rsEncode s) =
      if s.kVal > s.nslot ∨ s.blenVal > s.slotb then .capacity
      else if s.kVal = 0 then .ok
      else if 256 ≤ s.kVal ∧ s.blenVal % 2 = 1 then .oddLen
      else if s.kVal + parityCountRs s.kVal s.redunVal > s.nslot then .capacity
      else .ok := by
  simp only [rsEncode, apply_ite outcomeOf, s.rsOddLen_iff]
  rfl

theorem outcomeOf_rqEncode (s : State) :
    outcomeOf (rqEncode s) =
      if s.kVal > s.nslot ∨ s.blenVal > s.slotb then .capacity
      else if s.kVal = 0 then .ok
      else if s.kVal + parityCountRq s.kVal s.redunVal > s.nslot then .capacity
      else if parityCountRq s.kVal s.redunVal = 0 then .ok
      else if systematicIndex s.kVal = none then .capacity
      else .ok := by
  simp only [rqEncode, apply_ite outcomeOf]
  cases hJ : systematicIndex s.kVal with
  | none => rfl
  | some J =>
    obtain ⟨C, hC⟩ := Option.isSome_iff_exists.1 (s.rqIntermediate_isSome hJ)
    simp only [hC]
    rfl

/-- Settles O32: the outcome is read off the lines of the pseudocode; the last of `RQ.ENC` cannot fail once the index
exists. -/
theorem encodeErrorsComeInOrder : Obligations.EncodeErrorsComeInOrder := by
  unfold Obligations.EncodeErrorsComeInOrder
  intro s
  refine ⟨?_, ?_⟩
  · rw [← outcomeOf_rsEncode]
    exact conclude_outcomeOf s (rsEncode s)
  · have hsame := outcomeOf_rqEncode s.constructRq
    obtain ⟨t, hexec, hfail, herr⟩ := conclude_outcomeOf s.constructRq (rqEncode s.constructRq)
    exact ⟨t, hexec, hfail, herr.trans hsame⟩

/-! ### Systematic and deterministic -/

theorem State.coded_nVal (s : State) {n : Nat} (m : Memory) (hn : n ≤ 65536) : (s.coded n m).nVal = n :=
  Nat.mod_eq_of_lt (by omega)

/-- A success of `RS.ENC` is the one of O31. -/
theorem rsEnc_success {s t : State} (hs : s.Wf) (h : exec .rsEnc s = .next t) (herr : t.err = .ok) :
    s.RsEncodeFits ∧ ∃ m, t = s.coded (s.kVal + parityCountRs s.kVal s.redunVal) m ∧ s.RsParityIn m := by
  rcases conclude_cases h with ⟨u, hu, -⟩ | ⟨c, hc, rfl⟩
  · have hfits := (rsEncode_ok hu).1
    exact ⟨hfits, _, by simpa [exec_rsEnc_of_fits hfits, eq_comm] using h, rsParityIn_rsBlocks hs hfits⟩
  · obtain rfl : c = .ok := herr
    rcases rsEncode_error hc with hc | hc <;> simp at hc

theorem State.RsParityIn.symbolAt_congr {s s' : State} {m m' : Memory} (h : s.RsParityIn m) (h' : s'.RsParityIn m')
    (hk : s'.k = s.k) (hblen : s'.blen = s.blen) (hredun : s'.redun = s.redun)
    (hsrc : ∀ i o, i < s.kVal → o < s.blenVal → s'.slotByte i o = s.slotByte i o) {j x : Nat}
    (hj : j < parityCountRs s.kVal s.redunVal) (hx : x < symbolCount (rsField s.kVal) s.blenVal) :
    (s'.withBuf m').symbolAt (rsField s.kVal) (s.kVal + j) x = (s.withBuf m).symbolAt (rsField s.kVal) (s.kVal + j) x := by
  have hkVal : s'.kVal = s.kVal := congrArg unsignedWord hk
  have hblenVal : s'.blenVal = s.blenVal := congrArg unsignedWord hblen
  have hredunVal : s'.redunVal = s.redunVal := congrArg signedWord hredun
  have hpar' := h'.parity j (by rwa [hkVal, hredunVal]) x (by rwa [hkVal, hblenVal])
  rw [hkVal] at hpar'
  rw [hpar', h.parity j hj x hx]
  refine xorOver_congr fun i hi => ?_
  rw [State.symbolAt_congr (rsField_eceField s.kVal) (fun o ho => hsrc i o (List.mem_range.1 hi) ho) hx]

theorem add_parityCountRs (k : Nat) (r : Word) :
    k + parityCountRs k r.toInt = if r.toInt ≤ 0 then k else k + (k * r.toNat + 999999) / 1000000 := by
  by_cases hr : r.toInt ≤ 0
  · rw [if_pos hr, parityCountRs, if_pos (.inl hr), Nat.add_zero]
  · have hnat : r.toInt.toNat = r.toNat := by
      rw [BitVec.toInt_eq_toNat_cond] at hr ⊢
      split at hr
      · rw [if_pos ‹_›, Int.toNat_natCast]
      · have := r.isLt
        omega
    rw [if_neg hr, parityCountRs]
    split
    · have hk : k = 0 := by omega
      simp [hk]
    · rw [hnat]
      rfl

/-- Settles O33: the parity blocks are a function of the source symbols, and nothing else is written. -/
theorem rsEncIsSystematicAndDeterministic : Obligations.RsEncIsSystematicAndDeterministic := by
  unfold Obligations.RsEncIsSystematicAndDeterministic
  intro s t hs h herr
  obtain ⟨hfits, m, rfl, hpar⟩ := rsEnc_success hs h herr
  have hnVal := s.coded_nVal m (hfits.slotsFit.trans hs.nslot_le)
  refine ⟨hnVal.trans (add_parityCountRs s.kVal s.redun), fun i o hi ho => ?_, ?_⟩
  · exact hpar.elsewhere.slotByte_eq hfits.blenFits (fun hx => by omega) ho
  · intro s' t' hs' h' herr' hk hblen hredun hsrc
    obtain ⟨hfits', m', rfl, hpar'⟩ := rsEnc_success hs' h' herr'
    have hkVal : s'.kVal = s.kVal := congrArg unsignedWord hk
    have hredunVal : s'.redunVal = s.redunVal := congrArg signedWord hredun
    refine ⟨?_, fun x o hkx hx ho => ?_⟩
    · rw [hnVal, s'.coded_nVal m' (hfits'.slotsFit.trans hs'.nslot_le), hkVal, hredunVal]
    · obtain ⟨j, rfl⟩ := Nat.exists_eq_add_of_le hkx
      rw [hnVal] at hx
      exact State.slotByte_eq_of_symbolAt (rsField_eceField s.kVal)
        (fun hgf => hfits.evenLength (le_of_rsField_eq_gf16 hgf))
        (fun x hx => hpar.symbolAt_congr hpar' hk hblen hredun hsrc (by omega) hx) ho

/-! ### Parity blocks outside the MDS domain -/

/-- The parity block q - k further on has the same coefficients, so the same symbols and bytes (R155). -/
theorem State.RsParityIn.slotByte_add_period {s : State} {m : Memory} (h : s.RsParityIn m) (hfits : s.RsEncodeFits)
    {j o : Nat} (hj : j + ((rsField s.kVal).size - s.kVal) < parityCountRs s.kVal s.redunVal) (ho : o < s.blenVal) :
    (s.withBuf m).slotByte (s.kVal + (j + ((rsField s.kVal).size - s.kVal))) o =
      (s.withBuf m).slotByte (s.kVal + j) o := by
  refine State.slotByte_eq_of_symbolAt (rsField_eceField s.kVal)
    (fun hgf => hfits.evenLength (le_of_rsField_eq_gf16 hgf)) (fun x hx => ?_) ho
  rw [h.parity _ hj x hx, h.parity j (by omega) x hx]
  exact xorOver_congr fun i _ => by rw [rsCoeff_add_period]

/-- Settles O30: a square submatrix inside the MDS domain is a Cauchy matrix, and the columns repeat after q - k. -/
theorem cauchySubmatricesAreNonSingular : Obligations.CauchySubmatricesAreNonSingular := by
  unfold Obligations.CauchySubmatricesAreNonSingular
  intro k hk
  refine ⟨fun E J hE hJ hlen hEk hJq => ?_, fun i j _ => rsCoeff_add_period _ k i j, ?_⟩
  · exact fullRank_rsReducedRow (rsField_good k) hE hJ hlen.le hEk (lt_rsField_size hk) hJq
  · rintro s t j hs rfl hfits h hj o ho
    obtain rfl : _ = t := by simpa [exec_rsEnc_of_fits hfits] using h
    exact (rsParityIn_rsBlocks hs hfits).slotByte_add_period hfits hj ho

end Sys2Proof.Machine
end

section
/-! The row selection of `RS.DEC` (R164): the echelon form kept beside the rows chosen tells whether a reduced row is in
their span, so the selection is the greedy one (O36), and e rows chosen have full rank. -/

namespace Sys2Proof.Machine

/-! ### Rows of field elements -/

/-- A row of n field elements. -/
def IsRow (F : Gf) (n : Nat) (v : Vec) : Prop := v.length = n ∧ InField F v

/-- `v` with `f` times `w` added. -/
def plusTimes (F : Gf) (v : Vec) (f : Nat) (w : Vec) : Vec := vecAdd v (vecScale F f w)

theorem IsRow.ext {F : Gf} {n : Nat} {v w : Vec} (hv : IsRow F n v) (hw : IsRow F n w)
    (h : ∀ t, v.getD t 0 = w.getD t 0) : v = w := by
  refine List.ext_getElem (hv.1.trans hw.1.symm) fun t ht ht' => ?_
  simpa [ht, ht'] using h t

section
variable {F : Gf} (hF : F.Good) {n : Nat}
include hF

theorem IsRow.scale {f : Nat} {v : Vec} (hf : f < F.size) (hv : IsRow F n v) : IsRow F n (vecScale F f v) :=
  ⟨(vecScale_length F f v).trans hv.1, .vecScale hF hf v⟩

theorem IsRow.plusTimes {f : Nat} {v w : Vec} (hf : f < F.size) (hv : IsRow F n v) (hw : IsRow F n w) :
    IsRow F n (plusTimes F v f w) := by
  refine ⟨?_, .vecAdd hv.2 (.vecScale hF hf w)⟩
  rw [Machine.plusTimes, vecAdd_length, vecScale_length, hv.1, hw.1, Nat.min_self]

theorem dot_plusTimes {f : Nat} {v w : Vec} (hf : f < F.size) (hv : IsRow F n v) (hw : IsRow F n w)
    {x : Nat → Nat} (hx : ∀ c, x c < F.size) : dot F (plusTimes F v f w) x = dot F v x ^^^ gfMul F f (dot F w x) := by
  have hlen : v.length = (vecScale F f w).length := by rw [vecScale_length, hv.1, hw.1]
  rw [plusTimes, dot_vecAdd hF hv.2 (.vecScale hF hf w) hlen, dot_vecScale hF hf hw.2 hx]

end

theorem plusTimes_getD {F : Gf} {n : Nat} {v w : Vec} (hv : IsRow F n v) (hw : IsRow F n w) (f t : Nat) :
    (plusTimes F v f w).getD t 0 = v.getD t 0 ^^^ gfMul F f (w.getD t 0) := by
  rw [plusTimes, vecAdd_getD (by rw [vecScale_length, hv.1, hw.1]), vecScale_getD]

/-! ### The span of a list of rows -/

theorem inSpan_nil (F : Gf) (n : Nat) (v : Vec) : InSpan F n [] v ↔ ∀ c, c < n → v.getD c 0 = 0 :=
  ⟨fun ⟨_, _, h⟩ => h, fun h => ⟨fun _ => 0, fun _ => F.size_pos, h⟩⟩

/-- A combination of rows and one more row. -/
theorem xorOver_range_concat (F : Gf) (rows : List Vec) (r : Vec) (y : Nat → Nat) (c : Nat) :
    xorOver (List.range (rows ++ [r]).length) (fun m => gfMul F (y m) (((rows ++ [r]).getD m []).getD c 0)) =
      xorOver (List.range rows.length) (fun m => gfMul F (y m) ((rows.getD m []).getD c 0)) ^^^
        gfMul F (y rows.length) (r.getD c 0) := by
  rw [List.length_append, List.length_singleton, List.range_succ, xorOver_append, xorOver_cons, xorOver_nil,
    Nat.xor_zero]
  congr 1
  · refine xorOver_congr fun m hm => ?_
    rw [List.getD_append _ _ _ _ (List.mem_range.1 hm)]
  · simp

/-- `w` is in the span of rows and one more row exactly when it is, up to a multiple of that row, in the span of the
rows. -/
theorem inSpan_concat {F : Gf} {n : Nat} (rows : List Vec) {r w : Vec} (hr : IsRow F n r) (hw : IsRow F n w) :
    InSpan F n (rows ++ [r]) w ↔ ∃ f, f < F.size ∧ InSpan F n rows (plusTimes F w f r) := by
  constructor
  · rintro ⟨y, hy, h⟩
    refine ⟨y rows.length, hy _, y, hy, fun c hc => ?_⟩
    rw [plusTimes_getD hw hr, h c hc, xorOver_range_concat, Nat.xor_assoc, Nat.xor_self, Nat.xor_zero]
  · rintro ⟨f, hf, y, hy, h⟩
    refine ⟨fun m => if m = rows.length then f else y m, fun m => ?_, fun c hc => ?_⟩
    · dsimp only
      split
      · exact hf
      · exact hy m
    · have hsum := h c hc
      rw [plusTimes_getD hw hr] at hsum
      have hrows : xorOver (List.range rows.length)
          (fun m => gfMul F (if m = rows.length then f else y m) ((rows.getD m []).getD c 0)) =
          xorOver (List.range rows.length) (fun m => gfMul F (y m) ((rows.getD m []).getD c 0)) :=
        xorOver_congr fun m hm => by rw [if_neg (List.mem_range.1 hm).ne]
      rw [xorOver_range_concat, hrows, if_pos rfl, ← hsum, Nat.xor_assoc, Nat.xor_self, Nat.xor_zero]

/-! ### The residue of a row -/

/-- One turn of `residue`: the lead column of a basis row is cleared with it. -/
def sweep (F : Gf) (p : Nat × Vec) (v : Vec) : Vec :=
  if v.getD p.1 0 = 0 then v else plusTimes F v (v.getD p.1 0) p.2

theorem residue_cons (F : Gf) (p : Nat × Vec) (basis : List (Nat × Vec)) (v : Vec) :
    residue F (p :: basis) v = residue F basis (sweep F p v) := rfl

theorem residue_append (F : Gf) (basis basis' : List (Nat × Vec)) (v : Vec) :
    residue F (basis ++ basis') v = residue F basis' (residue F basis v) := by
  induction basis generalizing v with
  | nil => rfl
  | cons p basis ih => exact ih _

theorem sweep_getD {F : Gf} {n : Nat} {p : Nat × Vec} {v : Vec} (hp : IsRow F n p.2) (hv : IsRow F n v) (t : Nat) :
    (sweep F p v).getD t 0 = v.getD t 0 ^^^ gfMul F (v.getD p.1 0) (p.2.getD t 0) := by
  unfold sweep
  split
  · rename_i h
    rw [h, gfMul_zero_left, Nat.xor_zero]
  · exact plusTimes_getD hv hp _ t

section
variable {F : Gf} (hF : F.Good) {n : Nat}
include hF

theorem sweep_isRow {p : Nat × Vec} {v : Vec} (hp : IsRow F n p.2) (hv : IsRow F n v) : IsRow F n (sweep F p v) := by
  unfold sweep
  split
  · exact hv
  · exact hv.plusTimes hF (hv.2.getD _) hp

theorem sweep_plusTimes {p : Nat × Vec} {f : Nat} {v w : Vec} (hp : IsRow F n p.2) (hf : f < F.size)
    (hv : IsRow F n v) (hw : IsRow F n w) :
    sweep F p (plusTimes F v f w) = plusTimes F (sweep F p v) f (sweep F p w) := by
  refine (sweep_isRow hF hp (hv.plusTimes hF hf hw)).ext
    ((sweep_isRow hF hp hv).plusTimes hF hf (sweep_isRow hF hp hw)) fun t => ?_
  have hwc := hw.2.getD p.1
  rw [sweep_getD hp (hv.plusTimes hF hf hw), plusTimes_getD hv hw, plusTimes_getD hv hw,
    plusTimes_getD (sweep_isRow hF hp hv) (sweep_isRow hF hp hw), sweep_getD hp hv, sweep_getD hp hw,
    gfMul_xor_left hF (hv.2.getD _) (gfMul_lt hF hf _), gfMul_xor_right hF hf, gfMul_assoc hF hf hwc (hp.2.getD t)]
  ac_rfl

variable {basis : List (Nat × Vec)}

theorem residue_isRow (hb : ∀ p ∈ basis, IsRow F n p.2) {v : Vec} (hv : IsRow F n v) : IsRow F n (residue F basis v) := by
  induction basis generalizing v with
  | nil => exact hv
  | cons p basis ih =>
    obtain ⟨hp, hb⟩ := List.forall_mem_cons.1 hb
    exact ih hb (sweep_isRow hF hp hv)

/-- Taking the residue is linear. -/
theorem residue_plusTimes (hb : ∀ p ∈ basis, IsRow F n p.2) {f : Nat} {v w : Vec} (hf : f < F.size)
    (hv : IsRow F n v) (hw : IsRow F n w) :
    residue F basis (plusTimes F v f w) = plusTimes F (residue F basis v) f (residue F basis w) := by
  induction basis generalizing v w with
  | nil => rfl
  | cons p basis ih =>
    obtain ⟨hp, hb⟩ := List.forall_mem_cons.1 hb
    rw [residue_cons, sweep_plusTimes hF hp hf hv hw, ih hb (sweep_isRow hF hp hv) (sweep_isRow hF hp hw)]
    rfl

/-- The residue agrees with the row at all values that the basis is zero at. -/
theorem dot_residue (hb : ∀ p ∈ basis, IsRow F n p.2) {x : Nat → Nat} (hx : ∀ c, x c < F.size)
    (h0 : ∀ p ∈ basis, dot F p.2 x = 0) {v : Vec} (hv : IsRow F n v) : dot F (residue F basis v) x = dot F v x := by
  induction basis generalizing v with
  | nil => rfl
  | cons p basis ih =>
    obtain ⟨hp, hb⟩ := List.forall_mem_cons.1 hb
    obtain ⟨hp0, h0⟩ := List.forall_mem_cons.1 h0
    rw [residue_cons, ih hb h0 (sweep_isRow hF hp hv), sweep]
    split
    · rfl
    · rw [dot_plusTimes hF (hv.2.getD _) hv hp hx, hp0, gfMul_zero_right, Nat.xor_zero]

/-- A column that is zero in a row and in the basis stays zero. -/
theorem residue_getD_of_zero (hb : ∀ p ∈ basis, IsRow F n p.2) {c : Nat} (hc : ∀ p ∈ basis, p.2.getD c 0 = 0)
    {v : Vec} (hv : IsRow F n v) (h : v.getD c 0 = 0) : (residue F basis v).getD c 0 = 0 := by
  induction basis generalizing v with
  | nil => exact h
  | cons p basis ih =>
    obtain ⟨hp, hb⟩ := List.forall_mem_cons.1 hb
    obtain ⟨hpc, hc⟩ := List.forall_mem_cons.1 hc
    have hsweep : (sweep F p v).getD c 0 = 0 := by rw [sweep_getD hp hv, hpc, gfMul_zero_right, h, Nat.xor_zero]
    exact ih hb hc (sweep_isRow hF hp hv) hsweep

end

/-! ### The echelon form -/

theorem leadColumn_eq_none_iff (v : Vec) : leadColumn v = none ↔ ∀ t, v.getD t 0 = 0 := by
  rw [leadColumn, List.findIdx?_eq_none_iff]
  constructor
  · intro h t
    by_cases ht : t < v.length
    · rw [List.getD_eq_getElem _ _ ht]
      simpa using h _ (List.getElem_mem ht)
    · exact List.getD_eq_default _ _ (by omega)
  · intro h x hx
    obtain ⟨t, ht, rfl⟩ := List.getElem_of_mem hx
    simpa [ht] using h t

theorem leadColumn_some {v : Vec} {c : Nat} (h : leadColumn v = some c) : c < v.length ∧ v.getD c 0 ≠ 0 := by
  obtain ⟨hc, hne, -⟩ := List.findIdx?_eq_some_iff_getElem.1 h
  exact ⟨hc, by simpa [hc] using hne⟩

/-- A basis entry with its lead: a row that is 1 in its lead column. -/
structure LeadRow (F : Gf) (n : Nat) (p : Nat × Vec) : Prop where
  column : p.1 < n
  row : IsRow F n p.2
  one : p.2.getD p.1 0 = 1

/-- `basis` is an echelon form of `rows` (log 13): each entry is 0 in the lead columns before its own, the residue
vanishes exactly on the span of the rows, and the entries are zero wherever the rows are. -/
structure Echelon (F : Gf) (n : Nat) (rows : List Vec) (basis : List (Nat × Vec)) : Prop where
  leads : ∀ p ∈ basis, LeadRow F n p
  cleared : basis.Pairwise (fun p q => q.2.getD p.1 0 = 0)
  spans : ∀ v, IsRow F n v → (leadColumn (residue F basis v) = none ↔ InSpan F n rows v)
  kernel : ∀ x : Nat → Nat, (∀ c, x c < F.size) → (∀ r ∈ rows, dot F r x = 0) → ∀ p ∈ basis, dot F p.2 x = 0

theorem Echelon.isRow {F : Gf} {n : Nat} {rows : List Vec} {basis : List (Nat × Vec)} (h : Echelon F n rows basis) :
    ∀ p ∈ basis, IsRow F n p.2 := fun p hp => (h.leads p hp).row

theorem IsRow.getD_eq_zero_iff {F : Gf} {n : Nat} {v : Vec} (hv : IsRow F n v) :
    (∀ t, v.getD t 0 = 0) ↔ ∀ t, t < n → v.getD t 0 = 0 := by
  refine ⟨fun h t _ => h t, fun h t => ?_⟩
  by_cases ht : t < n
  · exact h t ht
  · exact List.getD_eq_default _ _ (by rw [hv.1]; omega)

theorem echelon_nil (F : Gf) (n : Nat) : Echelon F n [] [] where
  leads := List.forall_mem_nil _
  cleared := .nil
  spans := fun v hv => by rw [leadColumn_eq_none_iff, inSpan_nil]; exact hv.getD_eq_zero_iff
  kernel := fun _ _ _ => List.forall_mem_nil _

/-- What is left of a row, multiplied to have a 1 in its lead column. -/
def normalized (F : Gf) (basis : List (Nat × Vec)) (r : Vec) (c : Nat) : Vec :=
  vecScale F (gfInv F ((residue F basis r).getD c 0)) (residue F basis r)

section
variable {F : Gf} (hF : F.Good) {n : Nat}
include hF

/-- The residue is zero in every lead column. -/
theorem residue_getD_lead {basis : List (Nat × Vec)} (hl : ∀ p ∈ basis, LeadRow F n p)
    (hc : basis.Pairwise (fun p q => q.2.getD p.1 0 = 0)) {v : Vec} (hv : IsRow F n v) :
    ∀ p ∈ basis, (residue F basis v).getD p.1 0 = 0 := by
  induction basis generalizing v with
  | nil => exact List.forall_mem_nil _
  | cons p basis ih =>
    obtain ⟨hp, hl⟩ := List.forall_mem_cons.1 hl
    obtain ⟨hpc, hc⟩ := List.pairwise_cons.1 hc
    have hrow := sweep_isRow hF hp.row hv
    have hcleared : (sweep F p v).getD p.1 0 = 0 := by
      rw [sweep_getD hp.row hv, hp.one, gfMul_one_right hF (hv.2.getD _), Nat.xor_self]
    exact List.forall_mem_cons.2
      ⟨residue_getD_of_zero hF (fun q hq => (hl q hq).row) hpc hrow hcleared, ih hl hc hrow⟩

variable {rows : List Vec} {basis : List (Nat × Vec)} {r : Vec} {c : Nat}

theorem Echelon.leadRow_normalized (h : Echelon F n rows basis) (hr : IsRow F n r)
    (hc : leadColumn (residue F basis r) = some c) : LeadRow F n (c, normalized F basis r c) := by
  have hrow := residue_isRow hF h.isRow hr
  obtain ⟨hlt, hne⟩ := leadColumn_some hc
  have hu := hrow.2.getD c
  exact {
    column := hrow.1 ▸ hlt
    row := hrow.scale hF (gfInv_lt hF hne hu)
    one := by rw [normalized, vecScale_getD, gfMul_gfInv hF hne hu] }

/-- With one more entry the residue vanishes exactly on the span with one more row: a row that the old basis leaves a
multiple of what it leaves of the new one. -/
theorem Echelon.spans_concat (h : Echelon F n rows basis) (hr : IsRow F n r)
    (hc : leadColumn (residue F basis r) = some c) {w : Vec} (hw : IsRow F n w) :
    leadColumn (residue F (basis ++ [(c, normalized F basis r c)]) w) = none ↔ InSpan F n (rows ++ [r]) w := by
  obtain ⟨-, hne⟩ := leadColumn_some hc
  have hu := residue_isRow hF h.isRow hr
  have hg := residue_isRow hF h.isRow hw
  have huc := hu.2.getD c
  have hgc := hg.2.getD c
  have hinv := gfInv_lt hF hne huc
  have hlead := h.leadRow_normalized hF hr hc
  have hone : gfMul F (gfInv F ((residue F basis r).getD c 0)) ((residue F basis r).getD c 0) = 1 :=
    gfMul_gfInv hF hne huc
  have hleft : ∀ t, (residue F (basis ++ [(c, normalized F basis r c)]) w).getD t 0 =
      (residue F basis w).getD t 0 ^^^ gfMul F (gfMul F ((residue F basis w).getD c 0)
        (gfInv F ((residue F basis r).getD c 0))) ((residue F basis r).getD t 0) := by
    intro t
    rw [residue_append, residue_cons, residue, sweep_getD hlead.row hg, normalized, vecScale_getD,
      gfMul_assoc hF hgc hinv (hu.2.getD t)]
  rw [leadColumn_eq_none_iff, inSpan_concat rows hr hw]
  constructor
  · intro hzero
    have hf : gfMul F ((residue F basis w).getD c 0) (gfInv F ((residue F basis r).getD c 0)) < F.size :=
      gfMul_lt hF hgc _
    refine ⟨_, hf, (h.spans _ (hw.plusTimes hF hf hr)).1 ((leadColumn_eq_none_iff _).2 fun t => ?_)⟩
    rw [residue_plusTimes hF h.isRow hf hw hr, plusTimes_getD hg hu, ← hleft, hzero t]
  · rintro ⟨f, hf, hspan⟩ t
    have hzero := (leadColumn_eq_none_iff _).1 ((h.spans _ (hw.plusTimes hF hf hr)).2 hspan)
    rw [residue_plusTimes hF h.isRow hf hw hr] at hzero
    have hmul : ∀ t, (residue F basis w).getD t 0 = gfMul F f ((residue F basis r).getD t 0) := fun t =>
      Nat.xor_eq_zero_iff.1 ((plusTimes_getD hg hu f t).symm.trans (hzero t))
    rw [hleft, hmul c, gfMul_assoc hF hf huc hinv, gfMul_comm hF huc hinv, hone, gfMul_one_right hF hf,
      ← hmul t, Nat.xor_self]

/-- The echelon form of one more row, which is not in the span of the others. -/
theorem Echelon.concat (h : Echelon F n rows basis) (hr : IsRow F n r)
    (hc : leadColumn (residue F basis r) = some c) :
    Echelon F n (rows ++ [r]) (basis ++ [(c, normalized F basis r c)]) where
  leads := List.forall_mem_append.2 ⟨h.leads, by simpa using h.leadRow_normalized hF hr hc⟩
  cleared := by
    refine List.pairwise_append.2 ⟨h.cleared, List.pairwise_singleton .., fun p hp q hq => ?_⟩
    obtain rfl := List.mem_singleton.1 hq
    rw [normalized, vecScale_getD, residue_getD_lead hF h.leads h.cleared hr p hp, gfMul_zero_right]
  spans := fun w hw => h.spans_concat hF hr hc hw
  kernel := by
    intro x hx hrows
    have hb := h.kernel x hx fun r hr => hrows r (List.mem_append_left _ hr)
    have hlast := hrows r (List.mem_append_right _ (List.mem_singleton_self r))
    obtain ⟨-, hne⟩ := leadColumn_some hc
    have hu := residue_isRow hF h.isRow hr
    refine List.forall_mem_append.2 ⟨hb, List.forall_mem_singleton.2 ?_⟩
    dsimp only
    rw [normalized, dot_vecScale hF (gfInv_lt hF hne (hu.2.getD c)) hu.2 hx, dot_residue hF h.isRow hx hb hr, hlast,
      gfMul_zero_right]

end

/-! ### Rank of an echelon form -/

/-- Values at which all entries of an echelon form are zero, and which are zero outside the lead columns, are zero: the
last entry is 0 in all other lead columns, so it gives the value in its own. -/
theorem eq_zero_of_leadRows {F : Gf} {n : Nat} {x : Nat → Nat} (hx : ∀ c, x c < F.size)
    (basis : List (Nat × Vec)) (hl : ∀ p ∈ basis, LeadRow F n p)
    (hc : basis.Pairwise (fun p q => q.2.getD p.1 0 = 0)) (hdot : ∀ p ∈ basis, dot F p.2 x = 0)
    (hout : ∀ c, c < n → c ∉ basis.map Prod.fst → x c = 0) : ∀ c, c < n → x c = 0 := by
  induction basis using List.reverseRecOn with
  | nil => exact fun c hc => hout c hc (List.not_mem_nil)
  | append_singleton basis p ih =>
    obtain ⟨hl, hp⟩ := List.forall_mem_append.1 hl
    obtain ⟨hc, -, hcross⟩ := List.pairwise_append.1 hc
    obtain ⟨hdot, hpdot⟩ := List.forall_mem_append.1 hdot
    have hp := hp p (List.mem_singleton_self p)
    have hother : ∀ d, d ≠ p.1 → p.2.getD d 0 = 0 ∨ x d = 0 := by
      intro d hd
      by_cases hmem : d ∈ basis.map Prod.fst
      · obtain ⟨q, hq, rfl⟩ := List.mem_map.1 hmem
        exact .inl (hcross q hq p (List.mem_singleton_self p))
      · by_cases hdn : d < n
        · exact .inr (hout d hdn (by simpa [hd] using hmem))
        · exact .inl (List.getD_eq_default _ _ (by rw [hp.row.1]; omega))
    have hxp : x p.1 = 0 := by
      rw [← dot_unit (hx p.1) hp.one hother]
      exact hpdot p (List.mem_singleton_self p)
    refine ih hl hc hdot fun d hdn hd => ?_
    by_cases hdp : d = p.1
    · rw [hdp, hxp]
    · exact hout d hdn (by simpa [hdp] using hd)

theorem Echelon.nodup_leads {F : Gf} {n : Nat} {rows : List Vec} {basis : List (Nat × Vec)}
    (h : Echelon F n rows basis) : (basis.map Prod.fst).Nodup := by
  refine List.pairwise_map.2 (h.cleared.imp_of_mem fun {p q} _ hq h0 e => ?_)
  have hone := (h.leads q hq).one
  rw [← e, h0] at hone
  exact absurd hone (by decide)

/-- n rows with an echelon form of n entries have full rank: every column is a lead column. -/
theorem Echelon.fullRank {F : Gf} {n : Nat} {rows : List Vec} {basis : List (Nat × Vec)}
    (h : Echelon F n rows basis) (hrows : ∀ r ∈ rows, r.length = n) (hlen : basis.length = n) : FullRank F n rows := by
  intro x hx hzero
  have hdot : ∀ p ∈ basis, dot F p.2 x = 0 :=
    h.kernel x hx fun r hr => (rowValue_eq_dot (hrows r hr) x).symm.trans (hzero r hr)
  have hsub : basis.map Prod.fst ⊆ List.range n := by
    intro c hc
    obtain ⟨p, hp, rfl⟩ := List.mem_map.1 hc
    exact List.mem_range.2 (h.leads p hp).column
  have hperm : (basis.map Prod.fst).Perm (List.range n) :=
    (h.nodup_leads.subperm hsub).perm_of_length_le (by simp [hlen])
  exact eq_zero_of_leadRows hx basis h.leads h.cleared hdot fun c hc hout =>
    absurd (hperm.mem_iff.2 (List.mem_range.2 hc)) hout

/-! ### The greedy selection -/

theorem rsSelect_nil (F : Gf) (row : Nat → Vec) (need : Nat) (basis : List (Nat × Vec)) :
    rsSelect F row need basis [] = [] := by
  cases need <;> rfl

theorem rsSelect_zero (F : Gf) (row : Nat → Vec) (basis : List (Nat × Vec)) (js : List Nat) :
    rsSelect F row 0 basis js = [] := by
  cases js <;> rfl

theorem rsSelect_sublist (F : Gf) (row : Nat → Vec) (need : Nat) (basis : List (Nat × Vec)) (js : List Nat) :
    (rsSelect F row need basis js).Sublist js := by
  induction js generalizing need basis with
  | nil => rw [rsSelect_nil]
  | cons j js ih =>
    cases need with
    | zero =>
      rw [rsSelect_zero]
      exact List.nil_sublist _
    | succ need =>
      rw [rsSelect]
      split
      · exact (ih _ _).cons j
      · exact (ih _ _).cons_cons j

theorem rsSelect_length_le (F : Gf) (row : Nat → Vec) (need : Nat) (basis : List (Nat × Vec)) (js : List Nat) :
    (rsSelect F row need basis js).length ≤ need := by
  induction js generalizing need basis with
  | nil => rw [rsSelect_nil]; exact Nat.zero_le _
  | cons j js ih =>
    cases need with
    | zero => rw [rsSelect_zero]; rfl
    | succ need =>
      rw [rsSelect]
      split
      · exact ih _ _
      · exact Nat.succ_le_succ (ih _ _)

section
variable {F : Gf} (hF : F.Good) {n : Nat} {row : Nat → Vec} (hrow : ∀ j, IsRow F n (row j))
include hrow

variable {rows : List Vec} {basis : List (Nat × Vec)} {need j : Nat} {js : List Nat}

/-- A row in the span of those chosen is passed over. -/
theorem Echelon.rsSelect_skip (h : Echelon F n rows basis) (hspan : InSpan F n rows (row j)) :
    rsSelect F row (need + 1) basis (j :: js) = rsSelect F row (need + 1) basis js := by
  rw [rsSelect]
  simp only [(h.spans _ (hrow j)).2 hspan]

include hF

/-- A row outside the span is taken while one is needed, and the echelon form grows by one entry. -/
theorem Echelon.rsSelect_take (h : Echelon F n rows basis) (hspan : ¬InSpan F n rows (row j)) :
    ∃ basis', Echelon F n (rows ++ [row j]) basis' ∧ basis'.length = basis.length + 1 ∧
      ∀ (need : Nat) (js : List Nat),
        rsSelect F row (need + 1) basis (j :: js) = j :: rsSelect F row need basis' js := by
  cases hc : leadColumn (residue F basis (row j)) with
  | none => exact absurd ((h.spans _ (hrow j)).1 hc) hspan
  | some c =>
    refine ⟨_, h.concat hF (hrow j) hc, List.length_append, fun need js => ?_⟩
    rw [rsSelect]
    simp only [hc]
    rfl

/-- The rows chosen have an echelon form with one entry for each. -/
theorem Echelon.rsSelect (h : Echelon F n rows basis) (need : Nat) (js : List Nat) :
    ∃ basis', Echelon F n (rows ++ (rsSelect F row need basis js).map row) basis' ∧
      basis'.length = basis.length + (Machine.rsSelect F row need basis js).length := by
  induction js generalizing need rows basis with
  | nil =>
    rw [rsSelect_nil]
    exact ⟨basis, by simpa using h, rfl⟩
  | cons j js ih =>
    cases need with
    | zero =>
      rw [rsSelect_zero]
      exact ⟨basis, by simpa using h, rfl⟩
    | succ need =>
      by_cases hspan : InSpan F n rows (row j)
      · rw [h.rsSelect_skip hrow hspan]
        exact ih h _
      · obtain ⟨basis₁, h₁, hlen₁, htake⟩ := h.rsSelect_take hF hrow hspan
        obtain ⟨basis₂, h₂, hlen₂⟩ := ih h₁ need
        rw [htake]
        refine ⟨basis₂, by simpa using h₂, ?_⟩
        rw [hlen₂, hlen₁, List.length_cons]
        omega

/-- Where no row is in the span of those before it the first rows are chosen. -/
theorem Echelon.rsSelect_eq_take (h : Echelon F n rows basis) {need : Nat} {js : List Nat}
    (hind : ∀ before j after, js = before ++ j :: after → before.length < need →
      ¬InSpan F n (rows ++ before.map row) (row j)) : Machine.rsSelect F row need basis js = js.take need := by
  induction js generalizing need rows basis with
  | nil => rw [rsSelect_nil, List.take_nil]
  | cons j js ih =>
    cases need with
    | zero => rw [rsSelect_zero, List.take_zero]
    | succ need =>
      have hspan : ¬InSpan F n rows (row j) := by simpa using hind [] j js rfl (Nat.succ_pos need)
      obtain ⟨basis₁, h₁, -, htake⟩ := h.rsSelect_take hF hrow hspan
      rw [htake, List.take_succ_cons, ih h₁ fun before i after hsplit hlt => ?_]
      have hnext := hind (j :: before) i after (by rw [hsplit, List.cons_append]) (Nat.succ_lt_succ hlt)
      simpa using hnext

/-- The greedy rule of R164: an index is chosen exactly when fewer than `need` before it are and its row is not in the
span of theirs. -/
theorem Echelon.mem_rsSelect_iff (h : Echelon F n rows basis) {need : Nat} {js : List Nat} (hnd : js.Nodup)
    (before : List Nat) (j : Nat) (after : List Nat) (hsplit : js = before ++ j :: after) :
    j ∈ Machine.rsSelect F row need basis js ↔
      (before.filter (fun x => (Machine.rsSelect F row need basis js).contains x)).length < need ∧
        ¬InSpan F n (rows ++ (before.filter (fun x => (Machine.rsSelect F row need basis js).contains x)).map row)
          (row j) := by
  induction js generalizing need rows basis before with
  | nil => simp at hsplit
  | cons j₀ js ih =>
    cases need with
    | zero => simp [rsSelect_zero]
    | succ need =>
      obtain ⟨hj₀, hnd⟩ := List.nodup_cons.1 hnd
      by_cases hspan : InSpan F n rows (row j₀)
      · have hnot : j₀ ∉ Machine.rsSelect F row (need + 1) basis js := fun hm => hj₀ ((rsSelect_sublist ..).subset hm)
        rw [h.rsSelect_skip hrow hspan]
        cases before with
        | nil =>
          obtain ⟨rfl, rfl⟩ := List.cons.inj hsplit
          simp [hnot, hspan]
        | cons b before =>
          obtain ⟨rfl, hjs⟩ := List.cons.inj hsplit
          rw [List.filter_cons_of_neg (by simpa using hnot)]
          exact ih h hnd before hjs
      · obtain ⟨basis₁, h₁, -, htake⟩ := h.rsSelect_take hF hrow hspan
        rw [htake]
        cases before with
        | nil =>
          obtain ⟨rfl, rfl⟩ := List.cons.inj hsplit
          simp [hspan]
        | cons b before =>
          obtain ⟨rfl, hjs⟩ := List.cons.inj hsplit
          have hne : ∀ x ∈ before ++ j :: after, x ≠ j₀ := fun x hx e => hj₀ (by rw [hjs]; exact e ▸ hx)
          have hfilter : (before.filter fun x => (j₀ :: Machine.rsSelect F row need basis₁ js).contains x) =
              before.filter fun x => (Machine.rsSelect F row need basis₁ js).contains x :=
            List.filter_congr fun x hx => by
              simp [hne x (List.mem_append_left _ hx)]
          rw [List.filter_cons_of_pos (by simp), hfilter, List.mem_cons,
            or_iff_right (hne j (by simp)), ih h₁ hnd before hjs]
          simp

end

/-! ### The rows that `RS.DEC` chooses -/

theorem rsReducedRow_isRow {F : Gf} (hF : F.Good) {k : Nat} {E : List Nat} (hE : ∀ i ∈ E, i < k) (hk : k < F.size)
    (j : Nat) : IsRow F E.length (rsReducedRow F k E j) :=
  ⟨List.length_map .., List.forall_mem_map.2 fun i hi => rsCoeff_lt hF (hE i hi) hk j⟩

theorem State.lt_of_mem_erased (s : State) (k : Nat) : ∀ i ∈ s.erased k, i < k := fun i hi =>
  ((s.mem_erased k i).1 hi).1

/-- On the general path the source indices are elements of the field: with 65536 source blocks every slot is a source
slot, and none can be missing. -/
theorem State.GeneralPath.kVal_lt_size {s : State} (h : s.GeneralPath) (hs : s.Wf) (hfit : s.DecodeFits) :
    s.kVal < (rsField s.kVal).size := by
  have hparity : 1 ≤ (s.presentParity s.kVal).length := by
    obtain ⟨i, hi, hp⟩ := h.someErased
    exact (List.length_pos_of_mem ((s.mem_erased _ _).2 ⟨hi, hp⟩)).trans_le (s.erased_le_presentParity h.kLe h.enough)
  obtain ⟨j, hj⟩ := List.exists_mem_of_length_pos hparity
  have hlt := ((s.mem_presentParity _ _).1 hj).1
  have hslots := hfit.slotsFit
  have hmax := hs.nslot_le
  exact lt_rsField_size (by omega)

/-- The reduced rows of an operation, on the general path. -/
theorem State.GeneralPath.isRow {s : State} (h : s.GeneralPath) (hs : s.Wf) (hfit : s.DecodeFits) (j : Nat) :
    IsRow (rsField s.kVal) (s.erased s.kVal).length (rsReducedRow (rsField s.kVal) s.kVal (s.erased s.kVal) j) :=
  rsReducedRow_isRow (rsField_good s.kVal) (s.lt_of_mem_erased s.kVal) (h.kVal_lt_size hs hfit) j

/-- Settles O36: the residue by the echelon form vanishes exactly on the span of the rows chosen before. -/
theorem rowSelectionIsGreedy : Obligations.RowSelectionIsGreedy := by
  unfold Obligations.RowSelectionIsGreedy
  intro s hs hfit hgen
  refine ⟨rsSelect_sublist .., fun before j after hsplit => ?_⟩
  have hnd : (s.presentParity s.kVal).Nodup := (s.sorted_presentParity s.kVal).imp Nat.ne_of_lt
  exact (echelon_nil _ _).mem_rsSelect_iff (rsField_good s.kVal) (hgen.isRow hs hfit) hnd before j after hsplit

/-- The rows chosen, when they are e, have full rank (R164). -/
theorem State.GeneralPath.fullRank_rsChosen {s : State} (h : s.GeneralPath) (hs : s.Wf) (hfit : s.DecodeFits)
    (hlen : (s.rsChosen (rsField s.kVal) s.kVal).length = (s.erased s.kVal).length) :
    FullRank (rsField s.kVal) (s.erased s.kVal).length
      ((s.rsChosen (rsField s.kVal) s.kVal).map (rsReducedRow (rsField s.kVal) s.kVal (s.erased s.kVal))) := by
  obtain ⟨basis, hbasis, hcount⟩ := (echelon_nil _ _).rsSelect (rsField_good s.kVal) (h.isRow hs hfit)
    (s.erased s.kVal).length (s.presentParity s.kVal)
  exact hbasis.fullRank (List.forall_mem_map.2 fun j _ => (h.isRow hs hfit j).1)
    (hcount.trans (by rw [List.length_nil, Nat.zero_add]; exact hlen))

/-! ### Rows inside the MDS domain -/

/-- A row in the span of others gives a combination of them all that is zero, with a 1 at the row. -/
theorem exists_dependency_of_inSpan {F : Gf} (hF : F.Good) {n : Nat} {row : Nat → Vec} {J : List Nat} {j : Nat}
    (hr : IsRow F n (row j)) (h : InSpan F n (J.map row) (row j)) :
    ∃ z : Nat → Nat, (∀ m, z m < F.size) ∧ z J.length = 1 ∧ ∀ c, c < n →
      xorOver (List.range (J ++ [j]).length) (fun m => gfMul F (z m) ((row ((J ++ [j]).getD m 0)).getD c 0)) = 0 := by
  obtain ⟨y, hy, h⟩ := h
  refine ⟨Function.update y J.length 1, fun m => ?_, Function.update_self .., fun c hc => ?_⟩
  · rw [Function.update_apply]
    split
    · exact one_lt_size hF
    · exact hy m
  · have hrows : xorOver (List.range J.length) (fun m =>
        gfMul F (Function.update y J.length 1 m) ((row ((J ++ [j]).getD m 0)).getD c 0)) = (row j).getD c 0 := by
      rw [h c hc, List.length_map]
      refine xorOver_congr fun m hm => ?_
      have hm := List.mem_range.1 hm
      have hmap : (J.map row).getD m [] = row (J.getD m 0) := by simp [hm]
      rw [Function.update_of_ne hm.ne, List.getD_append _ _ _ _ hm, hmap]
    have hlast : (J ++ [j]).getD J.length 0 = j := by simp
    rw [List.length_append, List.length_singleton, List.range_succ, xorOver_append, hrows, xorOver_cons, xorOver_nil,
      hlast, Function.update_self, gfMul_one_left (hr.2.getD c), Nat.xor_zero, Nat.xor_self]

theorem CauchyPoints.symm {F : Gf} {A B : List Nat} (h : CauchyPoints F A B) : CauchyPoints F B A where
  columns := h.rows
  rows := h.columns
  columnsIn := h.rowsIn
  rowsIn := h.columnsIn
  apart := fun b hb a ha => (h.apart a ha b hb).symm

/-- In the MDS domain a reduced row is in the span of no fewer than e other ones: the combination of them all that is
zero would be in the kernel of the Cauchy matrix whose columns are their points (R155, R164). -/
theorem not_inSpan_rsReducedRow {F : Gf} (hF : F.Good) {k : Nat} {E J : List Nat} {j : Nat} (hE : E.Nodup)
    (hJ : (J ++ [j]).Nodup) (hlt : J.length < E.length) (hEk : ∀ i ∈ E, i < k) (hk : k < F.size)
    (hJq : ∀ i ∈ J ++ [j], k + i < F.size) :
    ¬InSpan F E.length (J.map (rsReducedRow F k E)) (rsReducedRow F k E j) := by
  intro hspan
  obtain ⟨z, hz, hone, hzero⟩ := exists_dependency_of_inSpan hF (rsReducedRow_isRow hF hEk hk j) hspan
  have hpoints := (cauchyPoints_rsPoint hE hJ hEk hk hJq).symm
  have hlen : ((J ++ [j]).map (rsPoint F k)).length = (J ++ [j]).length := List.length_map ..
  have hlast : J.length < ((J ++ [j]).map (rsPoint F k)).length := by simp
  have hrows : ∀ i ∈ E, xorOver ((J ++ [j]).map (rsPoint F k))
      (overDiff F i fun a => z (((J ++ [j]).map (rsPoint F k)).idxOf a)) = 0 := by
    intro i hi
    obtain ⟨c, hc, rfl⟩ := List.getElem_of_mem hi
    rw [← hzero c hc, ← hlen]
    refine (xorOver_range_getD hpoints.columns (fun m a => gfMul F (gfInv F (a ^^^ E[c])) (z m))).symm.trans
      (xorOver_congr fun m hm => ?_)
    have hm : m < (J ++ [j]).length := hlen ▸ List.mem_range.1 hm
    have hcoef : rsCoeff F k E[c] ((J ++ [j]).getD m 0) < F.size := rsCoeff_lt hF (hEk _ hi) hk _
    have hpoint : ((J ++ [j]).map (rsPoint F k)).getD m 0 = rsPoint F k ((J ++ [j]).getD m 0) := by
      rw [List.getD_eq_getElem _ _ (by rwa [hlen]), List.getD_eq_getElem _ _ hm, List.getElem_map]
    rw [hpoint, rsReducedRow_getD F k _ hc, List.getD_eq_getElem E _ hc, gfMul_comm hF (hz m) hcoef, rsCoeff,
      Nat.xor_comm E[c]]
  have hker := cauchy_kernel hF hpoints (by simpa using hlt) (fun _ _ => hz _) hrows _ (List.getElem_mem hlast)
  rw [hpoints.columns.idxOf_getElem, hone] at hker
  exact absurd hker (by decide)

/-- In the MDS domain the first e present parity rows are chosen (R164). -/
theorem State.GeneralPath.rsChosen_eq_take {s : State} (h : s.GeneralPath) (hs : s.Wf) (hfit : s.DecodeFits)
    (hmds : s.nVal ≤ (rsField s.kVal).size) :
    s.rsChosen (rsField s.kVal) s.kVal = (s.presentParity s.kVal).take (s.erased s.kVal).length := by
  have hF := rsField_good s.kVal
  refine (echelon_nil _ _).rsSelect_eq_take hF (h.isRow hs hfit) fun before j after hsplit hlt => ?_
  have hsub : (before ++ [j]).Sublist (s.presentParity s.kVal) := by
    rw [hsplit]
    exact (List.singleton_sublist.2 List.mem_cons_self).append_left before
  have hnd : (s.presentParity s.kVal).Nodup := (s.sorted_presentParity s.kVal).imp Nat.ne_of_lt
  refine not_inSpan_rsReducedRow hF (s.nodup_erased _) (hnd.sublist hsub) hlt (s.lt_of_mem_erased _)
    (h.kVal_lt_size hs hfit) fun i hi => ?_
  have hi := ((s.mem_presentParity _ i).1 (hsub.subset hi)).1
  omega

end Sys2Proof.Machine
end

section
/-! `RS.DEC`: the fast path of the decode commands (O34), the recovered blocks as the only solution of the syndrome
equations (O37, O38), and the errors in line order (O35). -/

namespace Sys2Proof.Machine

/-! ### The decode commands -/

theorem exec_rsDec (s : State) : exec .rsDec s = conclude s (rsDecode s) := rfl

theorem exec_rqDec (s : State) : exec .rqDec s = conclude s.constructRq (rqDecode s.constructRq) := rfl

/-- `DEC` is `RS.DEC` in the modes 0 and 1 (R282). -/
theorem exec_dec_of_le_one {s : State} (h : s.mode.toNat ≤ 1) : exec .dec s = exec .rsDec s := by
  have hexec : exec .dec s = execDec s := rfl
  rw [hexec, execDec, unsignedWord, if_neg (by omega), if_neg (by omega)]
  rfl

/-- `DEC` is `RQ.DEC` in mode 2 (R282). -/
theorem exec_dec_of_eq_two {s : State} (h : s.mode = 2) : exec .dec s = exec .rqDec s := by
  have hexec : exec .dec s = execDec s := rfl
  have htwo : s.mode.toNat = 2 := by rw [h]; rfl
  rw [hexec, execDec, unsignedWord, if_neg (by omega), if_pos htwo]
  rfl

section
variable {s : State}

/-- Past its first two lines `RS.DEC` does what the contract checks say (R166). -/
theorem rsDecode_of_contract_error (hfit : s.DecodeFits) (heven : 256 ≤ s.kVal → s.blenVal % 2 = 0) {c : ErrCode}
    (h : decodeContract s = .error c) : rsDecode s = .error c := by
  have hblen := hfit.blenFits
  have hslots := hfit.slotsFit
  rw [rsDecode, if_neg (by omega), if_neg (by rw [s.rsOddLen_iff]; omega), h]

theorem rsDecode_of_direct (hfit : s.DecodeFits) (heven : 256 ≤ s.kVal → s.blenVal % 2 = 0)
    (h : decodeContract s = .ok .direct) : rsDecode s = .ok (s.publish s.kVal) := by
  have hblen := hfit.blenFits
  have hslots := hfit.slotsFit
  rw [rsDecode, if_neg (by omega), if_neg (by rw [s.rsOddLen_iff]; omega), h]

theorem rsDecode_of_recover (hfit : s.DecodeFits) (heven : 256 ≤ s.kVal → s.blenVal % 2 = 0)
    (h : decodeContract s = .ok .general) {X : List Vec} (hX : s.rsRecover (rsField s.kVal) s.kVal = some X) :
    rsDecode s = .ok ((s.setSymbols (rsField s.kVal) (List.zip (s.erased s.kVal) X)).publish s.kVal) := by
  have hblen := hfit.blenFits
  have hslots := hfit.slotsFit
  rw [rsDecode, if_neg (by omega), if_neg (by rw [s.rsOddLen_iff]; omega), h]
  simp only [hX]

theorem rsDecode_of_short (hfit : s.DecodeFits) (heven : 256 ≤ s.kVal → s.blenVal % 2 = 0)
    (h : decodeContract s = .ok .general) (hX : s.rsRecover (rsField s.kVal) s.kVal = none) :
    rsDecode s = .error .decodingFailed := by
  have hblen := hfit.blenFits
  have hslots := hfit.slotsFit
  rw [rsDecode, if_neg (by omega), if_neg (by rw [s.rsOddLen_iff]; omega), h]
  simp only [hX]

theorem rqDecode_of_direct (hfit : s.DecodeFits) (h : decodeContract s = .ok .direct) :
    rqDecode s = .ok (s.publish s.kVal) := by
  have hblen := hfit.blenFits
  have hslots := hfit.slotsFit
  rw [rqDecode, if_neg (by omega), h]

/-! ### The contract checks -/

theorem State.le_presentBelow {k n : Nat} (hkn : k ≤ n) (h : ∀ i, i < k → s.presAt i = true) : k ≤ s.presentBelow n := by
  have hsub := ((List.range_sublist.2 hkn).filter (fun i => s.presAt i)).length_le
  rwa [List.filter_eq_self.2 fun i hi => h i (List.mem_range.1 hi), List.length_range] at hsub

theorem State.presentBelow_le (s : State) (n : Nat) : s.presentBelow n ≤ n :=
  (List.length_filter_le ..).trans List.length_range.le

theorem decodeContract_of_allPresent (h : s.kVal = 0 ∨ (s.kVal ≤ s.nVal ∧ ∀ i, i < s.kVal → s.presAt i = true)) :
    decodeContract s = .ok .direct := by
  have hbelow : s.kVal = 0 ∨ (s.kVal ≤ s.nVal ∧ s.kVal ≤ s.presentBelow s.nVal) :=
    h.imp_right fun ⟨hkn, hpres⟩ => ⟨hkn, State.le_presentBelow hkn hpres⟩
  rcases decodeContract_cases s with ⟨hc, -⟩ | ⟨-, hk, hbad⟩ | ⟨-, hk, -, hbad⟩ | ⟨-, hgen⟩
  · exact hc
  · omega
  · omega
  · obtain ⟨i, hi, hp⟩ := hgen.someErased
    rcases h with hk | ⟨-, hpres⟩
    · omega
    · exact absurd (hpres i hi) (by simp [hp])

theorem State.GeneralPath.contract (h : s.GeneralPath) : decodeContract s = .ok .general := by
  obtain ⟨hk, hkn, henough, i, hi, hp⟩ := h
  rcases decodeContract_cases s with ⟨-, hk0 | ⟨-, -, -, herased⟩⟩ | ⟨-, -, hbad⟩ | ⟨-, -, -, hbad⟩ | ⟨hc, -⟩
  · omega
  · exact absurd ((s.erased_eq_nil _).1 herased i hi) (by simp [hp])
  · omega
  · omega
  · exact hc

/-- Too few entries present: the error of R161 c or d. -/
theorem decodeContract_of_tooFew (hk : 1 ≤ s.kVal) (hkn : s.kVal ≤ s.nVal) (h : s.presentBelow s.nVal < s.kVal) :
    decodeContract s = .error (if s.presentBelow s.nVal = 0 then .decodingFailed else .insufficientBlocks) := by
  rcases decodeContract_cases s with ⟨-, hk0 | ⟨-, -, henough, -⟩⟩ | ⟨hc, -, hn | ⟨hpos, -⟩⟩ | ⟨hc, -, -, hzero⟩ |
    ⟨-, hgen⟩
  · omega
  · omega
  · omega
  · rw [hc, if_neg (by omega)]
  · rw [hc, if_pos hzero]
  · have := hgen.enough
    omega

end

theorem exec_rsDec_of_allPresent {s : State} (hfit : s.DecodeFits) (heven : 256 ≤ s.kVal → s.blenVal % 2 = 0)
    (h : s.kVal = 0 ∨ (s.kVal ≤ s.nVal ∧ ∀ i, i < s.kVal → s.presAt i = true)) :
    exec .rsDec s = .next (s.coded s.kVal s.buf) := by
  rw [exec_rsDec, rsDecode_of_direct hfit heven (decodeContract_of_allPresent h)]
  rfl

/-- Settles O34: the contract checks end before a block is read, and `publish` writes none. -/
theorem decodeFastPath : Obligations.DecodeFastPath := by
  unfold Obligations.DecodeFastPath
  intro s hfit h
  have hrq : exec .rqDec s = .next (s.rqReady.coded s.kVal s.buf) := by
    rw [exec_rqDec, rqDecode_of_direct (s := s.constructRq) ⟨hfit.blenFits, hfit.slotsFit⟩
      (decodeContract_of_allPresent (s := s.constructRq) h)]
    rfl
  refine ⟨fun heven => ?_, hrq, fun hmode => (exec_dec_of_eq_two hmode).trans hrq⟩
  have hrs := exec_rsDec_of_allPresent hfit heven h
  exact ⟨hrs, fun hmode => (exec_dec_of_le_one hmode).trans hrs⟩

/-! ### The syndrome equations -/

theorem State.symbolAt_lt {F : Gf} (hF : EceField F) (s : State) (i t : Nat) : s.symbolAt F i t < F.size := by
  rcases hF with rfl | rfl
  · exact (s.slotByte i t).isLt
  · have hlo := (s.slotByte i (2 * t)).isLt
    have hhi := (s.slotByte i (2 * t + 1)).isLt
    show (s.slotByte i (2 * t)).toNat + 256 * (s.slotByte i (2 * t + 1)).toNat < 65536
    omega

theorem inField_of_getD {F : Gf} {v : Vec} (h : ∀ t, t < v.length → v.getD t 0 < F.size) : InField F v := by
  intro x hx
  obtain ⟨t, ht, rfl⟩ := List.getElem_of_mem hx
  simpa [ht] using h t ht

section
variable (s : State) {F : Gf} (hF : EceField F) (k j : Nat)
include hF

theorem State.rsSyndrome_length : (s.rsSyndrome F k j).length = symbolCount F s.blenVal := by
  rw [State.rsSyndrome, vecAdd_length, s.symbols_length hF, s.rsCombine_length hF, Nat.min_self]

theorem State.rsSyndrome_getD {t : Nat} (ht : t < symbolCount F s.blenVal) :
    (s.rsSyndrome F k j).getD t 0 = s.symbolAt F (k + j) t ^^^
      xorOver ((List.range k).filter (fun i => s.presAt i))
        (fun i => gfMul F (rsCoeff F k i j) (s.symbolAt F i t)) := by
  rw [State.rsSyndrome, vecAdd_getD (by rw [s.symbols_length hF, s.rsCombine_length hF]), s.symbols_getD hF _ ht,
    s.rsCombine_getD hF k j _ ht]

theorem State.rsSyndrome_inField (hk : k < F.size) : InField F (s.rsSyndrome F k j) := by
  refine inField_of_getD fun t ht => ?_
  rw [s.rsSyndrome_length hF] at ht
  rw [s.rsSyndrome_getD hF k j ht]
  exact xor_lt_size (s.symbolAt_lt hF _ t)
    (rsTerms_lt hF.good hk j (fun i hi => List.mem_range.1 (List.mem_filter.1 hi).1) _)

end

/-- The equation of R165 is the reduced row of its parity index with the syndrome on the right. -/
theorem State.syndromeEq_iff (s : State) (j : Nat) {t : Nat} (ht : t < symbolCount (rsField s.kVal) s.blenVal)
    (x : Nat → Nat) :
    s.SyndromeEq j t x ↔
      rowValue (rsField s.kVal) (s.erased s.kVal).length
        (rsReducedRow (rsField s.kVal) s.kVal (s.erased s.kVal) j) x =
        (s.rsSyndrome (rsField s.kVal) s.kVal j).getD t 0 := by
  have hrow : rowValue (rsField s.kVal) (s.erased s.kVal).length
      (rsReducedRow (rsField s.kVal) s.kVal (s.erased s.kVal) j) x =
      xorOver (List.range (s.erased s.kVal).length) (fun c =>
        gfMul (rsField s.kVal) (rsCoeff (rsField s.kVal) s.kVal ((s.erased s.kVal).getD c 0) j) (x c)) :=
    xorOver_congr fun c hc => by rw [rsReducedRow_getD _ _ j (List.mem_range.1 hc)]
  rw [s.rsSyndrome_getD (rsField_eceField s.kVal) s.kVal j ht, hrow, State.SyndromeEq]

/-! ### Systems of full rank -/

theorem rowValue_congr {F : Gf} {n : Nat} (v : Vec) {x y : Nat → Nat} (h : ∀ c, c < n → x c = y c) :
    rowValue F n v x = rowValue F n v y := xorOver_congr fun c hc => by rw [h c (List.mem_range.1 hc)]

/-- Rows of full rank tell values apart. -/
theorem FullRank.eq_of_rowValue_eq {F : Gf} (hF : F.Good) {n : Nat} {rows : List Vec} (h : FullRank F n rows)
    (hrows : ∀ v ∈ rows, InField F v) {x y : Nat → Nat} (hx : ∀ c, x c < F.size) (hy : ∀ c, y c < F.size)
    (heq : ∀ v ∈ rows, rowValue F n v x = rowValue F n v y) : ∀ c, c < n → x c = y c := by
  intro c hc
  refine Nat.xor_eq_zero_iff.1 (h (fun c => x c ^^^ y c) (fun c => xor_lt_size (hx c) (hy c)) (fun v hv => ?_) c hc)
  have hsplit : rowValue F n v (fun c => x c ^^^ y c) = rowValue F n v x ^^^ rowValue F n v y := by
    rw [rowValue, rowValue, rowValue, ← xorOver_xor]
    exact xorOver_congr fun c _ => gfMul_xor_right hF ((hrows v hv).getD c) _ _
  rw [hsplit, heq v hv, Nat.xor_self]

theorem valueAt_range {X : List Vec} {n c : Nat} (hc : c < n) (t : Nat) :
    valueAt (List.range n) X c t = (X.getD c []).getD t 0 := by
  have hidx : (List.range n).idxOf c = c := by
    have h := idxOf_getD (l := List.range n) List.nodup_range (m := c) (by simpa using hc)
    simpa [hc] using h
  rw [valueAt, if_pos (List.mem_range.2 hc), hidx]

/-- A square system of full rank has exactly one solution, and elimination finds it (R165). -/
theorem solveSystem_of_fullRank {F : Gf} (hF : F.Good) {n m : Nat} {rows : List EqRow} (hok : ∀ r ∈ rows, r.Ok F n m)
    (hsq : rows.length = n) (hrank : FullRank F n (rows.map EqRow.coef)) :
    ∃ X, solveSystem F (List.range n) rows = some X ∧ X.length = n ∧
      (∀ c, c < n → ∀ t, (X.getD c []).getD t 0 < F.size) ∧
      ∀ t, t < m → ∀ x : Nat → Nat, (∀ c, x c < F.size) →
        ((∀ r ∈ rows, rowValue F n r.coef x = r.rhs.getD t 0) ↔ ∀ c, c < n → x c = (X.getD c []).getD t 0) := by
  obtain ⟨X, hX⟩ := Option.isSome_iff_exists.1 ((solveSystem_isSome_iff_fullRank hF hok).2 hrank)
  obtain ⟨hlt, hholds⟩ := solveSystem_holds_square hF hok List.nodup_range (by simpa using hsq) hX
  obtain ⟨hlen, -, -⟩ := solveSystem_unique hF hlt hok List.nodup_range hholds
    (fun c hc t => if_neg hc) hX
  have hsolves : ∀ t, t < m → ∀ r ∈ rows, rowValue F n r.coef (fun c => valueAt (List.range n) X c t) =
      r.rhs.getD t 0 := fun t ht r hr =>
    (rowValue_eq_dot (hok r hr).coefLength _).trans (hholds r hr t (by rwa [(hok r hr).rhsLength]))
  refine ⟨X, hX, by simpa using hlen, fun c hc t => valueAt_range hc t ▸ hlt c t, fun t ht x hx => ?_⟩
  constructor
  · intro h c hc
    rw [← valueAt_range hc t]
    refine hrank.eq_of_rowValue_eq hF (List.forall_mem_map.2 fun r hr => (hok r hr).coefIn) hx (fun c => hlt c t)
      (List.forall_mem_map.2 fun r hr => ?_) c hc
    rw [h r hr, hsolves t ht r hr]
  · intro h r hr
    rw [← hsolves t ht r hr]
    exact rowValue_congr r.coef fun c hc => by rw [h c hc, valueAt_range hc t]

/-! ### The recovered blocks -/

/-- The equations that `RS.DEC` solves (R165). -/
def State.rsRows (s : State) (F : Gf) (k : Nat) : List EqRow :=
  (s.rsChosen F k).map (fun j => ⟨rsReducedRow F k (s.erased k) j, s.rsSyndrome F k j⟩)

theorem State.rsRecover_of_short {s : State} {F : Gf} {k : Nat} (h : (s.rsChosen F k).length < (s.erased k).length) :
    s.rsRecover F k = none := if_pos h

theorem State.rsRecover_of_enough {s : State} {F : Gf} {k : Nat} (h : (s.rsChosen F k).length = (s.erased k).length) :
    s.rsRecover F k = solveSystem F (List.range (s.erased k).length) (s.rsRows F k) := if_neg h.not_lt

section
variable {s : State} (hs : s.Wf) (hfit : s.DecodeFits) (hgen : s.GeneralPath)
  (hlen : (s.rsChosen (rsField s.kVal) s.kVal).length = (s.erased s.kVal).length)
include hs hfit hgen hlen

/-- With e rows chosen the recovered symbols exist and are the only solution of the syndrome equations (R165). -/
theorem State.rsRecover_solves : ∃ X, s.rsRecover (rsField s.kVal) s.kVal = some X ∧
    X.length = (s.erased s.kVal).length ∧
    (∀ c, c < (s.erased s.kVal).length → ∀ t, (X.getD c []).getD t 0 < (rsField s.kVal).size) ∧
    ∀ t, t < symbolCount (rsField s.kVal) s.blenVal → ∀ x : Nat → Nat, (∀ c, x c < (rsField s.kVal).size) →
      ((∀ j ∈ s.rsChosen (rsField s.kVal) s.kVal, s.SyndromeEq j t x) ↔
        ∀ c, c < (s.erased s.kVal).length → x c = (X.getD c []).getD t 0) := by
  have hF := rsField_eceField s.kVal
  have hok : ∀ r ∈ s.rsRows (rsField s.kVal) s.kVal,
      r.Ok (rsField s.kVal) (s.erased s.kVal).length (symbolCount (rsField s.kVal) s.blenVal) :=
    List.forall_mem_map.2 fun j _ => {
      coefLength := (hgen.isRow hs hfit j).1
      rhsLength := s.rsSyndrome_length hF s.kVal j
      coefIn := (hgen.isRow hs hfit j).2
      rhsIn := s.rsSyndrome_inField hF s.kVal j (hgen.kVal_lt_size hs hfit) }
  have hrank : FullRank (rsField s.kVal) (s.erased s.kVal).length
      ((s.rsRows (rsField s.kVal) s.kVal).map EqRow.coef) := by
    rw [State.rsRows, List.map_map]
    exact hgen.fullRank_rsChosen hs hfit hlen
  obtain ⟨X, hX, hcount, hlt, hsol⟩ :=
    solveSystem_of_fullRank hF.good hok (by rw [State.rsRows, List.length_map, hlen]) hrank
  refine ⟨X, (State.rsRecover_of_enough hlen).trans hX, hcount, hlt, fun t ht x hx => ?_⟩
  rw [← hsol t ht x hx]
  refine ⟨fun h => List.forall_mem_map.2 fun j hj => (s.syndromeEq_iff j ht x).1 (h j hj), fun h j hj => ?_⟩
  exact (s.syndromeEq_iff j ht x).2 (List.forall_mem_map.1 h j hj)

/-- With e rows chosen `RS.DEC` completes, and writes the solution of the syndrome equations to the erased slots. -/
theorem exec_rsDec_general (heven : 256 ≤ s.kVal → s.blenVal % 2 = 0) :
    ∃ m, exec .rsDec s = .next (s.coded s.kVal m) ∧ SameBytesOutside s (s.withBuf m) s.erasedSlot ∧
      ∀ t, t < symbolCount (rsField s.kVal) s.blenVal → ∀ x : Nat → Nat, (∀ c, x c < (rsField s.kVal).size) →
        ((∀ j ∈ s.rsChosen (rsField s.kVal) s.kVal, s.SyndromeEq j t x) ↔
          ∀ c, c < (s.erased s.kVal).length →
            x c = (s.withBuf m).symbolAt (rsField s.kVal) ((s.erased s.kVal).getD c 0) t) := by
  obtain ⟨X, hX, hcount, hlt, hsol⟩ := State.rsRecover_solves hs hfit hgen hlen
  have hslots : ((List.zip (s.erased s.kVal) X).map Prod.fst) = s.erased s.kVal :=
    List.map_fst_zip hcount.ge
  refine ⟨_, ?_, State.sameBytesOutside_setSymbols (F := rsField s.kVal) (bs := List.zip (s.erased s.kVal) X)
    fun b hb => (s.mem_erased _ _).1 (List.of_mem_zip hb).1, fun t ht x hx => ?_⟩
  · rw [exec_rsDec, rsDecode_of_recover hfit heven hgen.contract hX, conclude_ok, State.setSymbols_publish_done]
  · rw [hsol t ht x hx]
    refine forall₂_congr fun c hc => ?_
    have hmem : ((s.erased s.kVal).getD c 0, X.getD c []) ∈ List.zip (s.erased s.kVal) X := by
      have hcX : c < X.length := hcount ▸ hc
      rw [List.getD_eq_getElem _ _ hc, List.getD_eq_getElem _ _ hcX, ← List.getElem_zip (h := by simp [hc, hcX])]
      exact List.getElem_mem _
    rw [State.symbolAt_setSymbols_of_mem (rsField_eceField s.kVal) hmem (by rw [hslots]; exact s.nodup_erased _)
      hfit.blenFits ht (hlt c hc t)]

end

/-- Settles O37: a square system of full rank. -/
theorem rsDecSolvesTheSyndromes : Obligations.RsDecSolvesTheSyndromes := by
  unfold Obligations.RsDecSolvesTheSyndromes
  intro s hs hfit hgen heven hlen
  obtain ⟨m, hexec, hbytes, hsol⟩ := exec_rsDec_general hs hfit hgen hlen heven
  exact ⟨m, hexec, fun hmode => (exec_dec_of_le_one hmode).trans hexec, hbytes, hsol⟩

theorem State.GeneralPath.rsChosen_length {s : State} (hgen : s.GeneralPath) (hs : s.Wf) (hfit : s.DecodeFits)
    (hmds : s.nVal ≤ (rsField s.kVal).size) :
    (s.rsChosen (rsField s.kVal) s.kVal).length = (s.erased s.kVal).length := by
  rw [hgen.rsChosen_eq_take hs hfit hmds, List.length_take]
  exact min_eq_left (s.erased_le_presentParity hgen.kLe hgen.enough)

/-- Settles O38: inside the MDS domain the rows are independent as they come, and enough are present. -/
theorem rsDecSucceedsInTheMdsDomain : Obligations.RsDecSucceedsInTheMdsDomain := by
  unfold Obligations.RsDecSucceedsInTheMdsDomain
  intro s hs hfit hgen heven hmds
  obtain ⟨m, hexec, -⟩ := exec_rsDec_general hs hfit hgen (hgen.rsChosen_length hs hfit hmds) heven
  exact ⟨hgen.rsChosen_eq_take hs hfit hmds, m, hexec, fun hmode => (exec_dec_of_le_one hmode).trans hexec⟩

/-! ### The errors of RS.DEC -/

/-- On the general path the row selection decides (R164): e rows chosen can be solved. -/
theorem State.GeneralPath.outcomeOf_rsDecode {s : State} (hgen : s.GeneralPath) (hs : s.Wf) (hfit : s.DecodeFits)
    (heven : 256 ≤ s.kVal → s.blenVal % 2 = 0) :
    outcomeOf (rsDecode s) =
      if (s.rsChosen (rsField s.kVal) s.kVal).length < (s.erased s.kVal).length then .decodingFailed else .ok := by
  by_cases hshort : (s.rsChosen (rsField s.kVal) s.kVal).length < (s.erased s.kVal).length
  · rw [rsDecode_of_short hfit heven hgen.contract (State.rsRecover_of_short hshort), if_pos hshort]
    rfl
  · have hlen : (s.rsChosen (rsField s.kVal) s.kVal).length = (s.erased s.kVal).length :=
      (rsSelect_length_le ..).antisymm (Nat.le_of_not_lt hshort)
    obtain ⟨X, hX, -⟩ := State.rsRecover_solves hs hfit hgen hlen
    rw [rsDecode_of_recover hfit heven hgen.contract hX, if_neg hshort]
    rfl

/-- The outcome of `RS.DEC`, line by line (R166). -/
theorem outcomeOf_rsDecode {s : State} (hs : s.Wf) :
    outcomeOf (rsDecode s) =
      if s.nVal > s.nslot ∨ s.blenVal > s.slotb then .capacity
      else if 256 ≤ s.kVal ∧ s.blenVal % 2 = 1 then .oddLen
      else if s.kVal = 0 then .ok
      else if s.nVal = 0 then .insufficientBlocks
      else if s.presentBelow s.nVal = 0 then .decodingFailed
      else if s.kVal > s.nVal ∨ s.presentBelow s.nVal < s.kVal then .insufficientBlocks
      else if s.erased s.kVal = [] then .ok
      else if (s.rsChosen (rsField s.kVal) s.kVal).length < (s.erased s.kVal).length then .decodingFailed
      else .ok := by
  by_cases hcap : s.nVal > s.nslot ∨ s.blenVal > s.slotb
  · rw [rsDecode, if_pos hcap, if_pos hcap]
    rfl
  by_cases hodd : 256 ≤ s.kVal ∧ s.blenVal % 2 = 1
  · rw [rsDecode, if_neg hcap, if_pos (s.rsOddLen_iff.2 hodd), if_neg hcap, if_pos hodd]
    rfl
  have hfit : s.DecodeFits := ⟨by omega, by omega⟩
  have heven : 256 ≤ s.kVal → s.blenVal % 2 = 0 := by omega
  rw [if_neg hcap, if_neg hodd]
  rcases decodeContract_cases s with ⟨hc, hk0 | ⟨hk, hkn, henough, herased⟩⟩ | ⟨hc, hk, hbad⟩ | ⟨hc, hk, hn, hzero⟩ |
    ⟨hc, hgen⟩
  · rw [rsDecode_of_direct hfit heven hc, if_pos hk0]
    rfl
  · rw [rsDecode_of_direct hfit heven hc, if_neg (by omega), if_neg (by omega), if_neg (by omega), if_neg (by omega),
      if_pos herased]
    rfl
  · rw [rsDecode_of_contract_error hfit heven hc, if_neg (by omega)]
    rcases hbad with hn | ⟨hpos, hfew⟩
    · rw [if_pos hn]
      rfl
    · have hle := s.presentBelow_le s.nVal
      rw [if_neg (by omega), if_neg (by omega), if_pos hfew]
      rfl
  · rw [rsDecode_of_contract_error hfit heven hc, if_neg (by omega), if_neg (by omega), if_pos hzero]
    rfl
  · have herased : s.erased s.kVal ≠ [] := fun h => by
      obtain ⟨i, hi, hp⟩ := hgen.someErased
      exact absurd ((s.erased_eq_nil _).1 h i hi) (by simp [hp])
    have hk := hgen.kPos
    have hkn := hgen.kLe
    have henough := hgen.enough
    rw [if_neg (by omega), if_neg (by omega), if_neg (by omega), if_neg (by omega), if_neg herased]
    exact hgen.outcomeOf_rsDecode hs hfit heven

/-- Settles O35: the last line raises exactly when too few rows were chosen, since e rows chosen can be solved. -/
theorem rsDecErrorsComeInOrder : Obligations.RsDecErrorsComeInOrder := by
  unfold Obligations.RsDecErrorsComeInOrder
  intro s hs
  rw [← outcomeOf_rsDecode hs]
  exact conclude_outcomeOf s (rsDecode s)

end Sys2Proof.Machine
end

section
/-! The Reed–Solomon round trip (O39): blocks of one codeword, as many as there are source blocks, give the source blocks
back. -/

namespace Sys2Proof.Machine

theorem xorOver_filter_xor_filter_not {α : Type} (l : List α) (p : α → Bool) (f : α → Nat) :
    xorOver (l.filter p) f ^^^ xorOver (l.filter fun i => !p i) f = xorOver l f := by
  rw [← xorOver_append]
  exact xorOver_perm (List.filter_append_perm p l) f

/-- The blocks present in `u` are those of the codeword with the source blocks of `s`, inside the MDS domain (R155,
R157), and the operands of `u` fit. -/
structure State.Received (s u : State) : Prop where
  wf : u.Wf
  fits : u.DecodeFits
  even : 256 ≤ u.kVal → u.blenVal % 2 = 0
  mds : u.nVal ≤ (rsField u.kVal).size
  kLe : u.kVal ≤ u.nVal
  source : ∀ i, i < u.kVal → u.presAt i = true → ∀ o, o < u.blenVal → u.slotByte i o = s.slotByte i o
  parity : ∀ j, u.kVal + j < u.nVal → u.presAt (u.kVal + j) = true →
    ∀ t, t < symbolCount (rsField u.kVal) u.blenVal → u.symbolAt (rsField u.kVal) (u.kVal + j) t =
      xorOver (List.range u.kVal) (fun i =>
        gfMul (rsField u.kVal) (rsCoeff (rsField u.kVal) u.kVal i j) (s.symbolAt (rsField u.kVal) i t))

section
variable {s u : State} (h : s.Received u)
include h

/-- The source symbols satisfy the syndrome equation of every present parity index (R165). -/
theorem State.Received.syndromeEq {j t : Nat} (hj : j ∈ u.presentParity u.kVal)
    (ht : t < symbolCount (rsField u.kVal) u.blenVal) :
    u.SyndromeEq j t (fun c => s.symbolAt (rsField u.kVal) ((u.erased u.kVal).getD c 0) t) := by
  obtain ⟨hlt, hp⟩ := (u.mem_presentParity _ j).1 hj
  have hpresent : xorOver ((List.range u.kVal).filter (fun i => u.presAt i)) (fun i =>
        gfMul (rsField u.kVal) (rsCoeff (rsField u.kVal) u.kVal i j) (u.symbolAt (rsField u.kVal) i t)) =
      xorOver ((List.range u.kVal).filter (fun i => u.presAt i)) (fun i =>
        gfMul (rsField u.kVal) (rsCoeff (rsField u.kVal) u.kVal i j) (s.symbolAt (rsField u.kVal) i t)) := by
    refine xorOver_congr fun i hi => ?_
    obtain ⟨hik, hpi⟩ := List.mem_filter.1 hi
    rw [State.symbolAt_congr (rsField_eceField u.kVal) (h.source i (List.mem_range.1 hik) hpi) ht]
  rw [State.SyndromeEq, h.parity j (by omega) hp t ht, hpresent, ← xorOver_eq_range (l := u.erased u.kVal)
    (fun i => gfMul (rsField u.kVal) (rsCoeff (rsField u.kVal) u.kVal i j) (s.symbolAt (rsField u.kVal) i t)),
    ← xorOver_filter_xor_filter_not (List.range u.kVal) (fun i => u.presAt i), Nat.xor_comm, ← Nat.xor_assoc,
    Nat.xor_self, Nat.zero_xor]
  rfl

/-- On the general path the recovered blocks are the source blocks: both solve the syndrome equations. -/
theorem State.Received.recovers_general (hgen : u.GeneralPath) :
    ∃ m, exec .rsDec u = .next (u.coded u.kVal m) ∧
      ∀ i o, i < u.kVal → o < u.blenVal → (u.withBuf m).slotByte i o = s.slotByte i o := by
  have hF := rsField_eceField u.kVal
  obtain ⟨m, hexec, hbytes, hsol⟩ :=
    exec_rsDec_general h.wf h.fits hgen (hgen.rsChosen_length h.wf h.fits h.mds) h.even
  refine ⟨m, hexec, fun i o hi ho => ?_⟩
  by_cases hp : u.presAt i = true
  · have hkept : ¬u.erasedSlot i := fun he => by simp [he.2] at hp
    rw [hbytes.slotByte_eq h.fits.blenFits hkept (ho.trans_le h.fits.blenFits), h.source i hi hp o ho]
  · obtain ⟨c, hc, rfl⟩ := List.getElem_of_mem ((u.mem_erased u.kVal i).2 ⟨hi, by simpa using hp⟩)
    refine State.slotByte_eq_of_symbolAt hF (fun hgf => h.even (le_of_rsField_eq_gf16 hgf)) (fun t ht => ?_) ho
    have hsyn : ∀ j ∈ u.rsChosen (rsField u.kVal) u.kVal,
        u.SyndromeEq j t (fun c => s.symbolAt (rsField u.kVal) ((u.erased u.kVal).getD c 0) t) := fun j hj =>
      h.syndromeEq ((rsSelect_sublist ..).subset hj) ht
    have hval := (hsol t ht _ (fun _ => s.symbolAt_lt hF _ t)).1 hsyn c hc
    rw [List.getD_eq_getElem _ _ hc] at hval
    exact hval.symm

/-- With at least k entries present `RS.DEC` gives the source blocks back (R167). -/
theorem State.Received.recovers (henough : u.kVal ≤ u.presentBelow u.nVal) :
    ∃ m, exec .rsDec u = .next (u.coded u.kVal m) ∧
      ∀ i o, i < u.kVal → o < u.blenVal → (u.withBuf m).slotByte i o = s.slotByte i o := by
  by_cases hall : ∀ i, i < u.kVal → u.presAt i = true
  · exact ⟨u.buf, exec_rsDec_of_allPresent h.fits h.even (.inr ⟨h.kLe, hall⟩),
      fun i o hi ho => h.source i hi (hall i hi) o ho⟩
  · push Not at hall
    obtain ⟨i, hi, hp⟩ := hall
    exact h.recovers_general ⟨by omega, h.kLe, henough, i, hi, by simpa using hp⟩

/-- With fewer than k entries present `RS.DEC` raises (R161, R167). -/
theorem State.Received.fails (hfew : u.presentBelow u.nVal < u.kVal) :
    exec .rsDec u =
      .next (u.failed (if u.presentBelow u.nVal = 0 then .decodingFailed else .insufficientBlocks)) := by
  rw [exec_rsDec, rsDecode_of_contract_error h.fits h.even (decodeContract_of_tooFew (by omega) h.kLe hfew)]
  rfl

/-- `DecodingFailed` is raised only when no entry is present (R167). -/
theorem State.Received.decodingFailed_only {v : State} (hexec : exec .rsDec u = .next v)
    (herr : v.err = .decodingFailed) : u.presentBelow u.nVal = 0 := by
  by_contra hpos
  rcases Nat.lt_or_ge (u.presentBelow u.nVal) u.kVal with hfew | henough
  · rw [h.fails hfew, if_neg hpos] at hexec
    obtain rfl : u.failed .insufficientBlocks = v := by simpa using hexec
    exact absurd herr nofun
  · obtain ⟨m, hdec, -⟩ := h.recovers henough
    obtain rfl : u.coded u.kVal m = v := by simpa [hdec] using hexec
    exact absurd herr nofun

end

/-- After `RS.ENC`, with any presence bits and any buffer that keeps the blocks still present, the blocks are those of
the codeword. -/
theorem State.RsParityIn.received {s : State} {m₀ : Memory} (h : s.RsParityIn m₀) (hs : s.Wf) (hfits : s.RsEncodeFits)
    (hmds : s.kVal + parityCountRs s.kVal s.redunVal ≤ (rsField s.kVal).size) {u : State} {pres : List Nat} {m : Memory}
    (hu : u = { s.coded (s.kVal + parityCountRs s.kVal s.redunVal) m₀ with pres := pres, buf := m }) (hwf : u.Wf)
    (hkeep : ∀ i ∈ pres, i < s.kVal + parityCountRs s.kVal s.redunVal → ∀ o, o < s.blenVal →
      u.slotByte i o = (s.withBuf m₀).slotByte i o) : s.Received u := by
  subst hu
  have hn := s.coded_nVal m₀ (hfits.slotsFit.trans hs.nslot_le)
  exact {
    wf := hwf
    fits := ⟨hfits.blenFits, hn.le.trans hfits.slotsFit⟩
    even := hfits.evenLength
    mds := hn.le.trans hmds
    kLe := (Nat.le_add_right _ _).trans hn.ge
    source := by
      intro i hi hp o ho
      have hik : i < s.kVal := hi
      rw [hkeep i (of_decide_eq_true hp) (by omega) o ho]
      exact h.elsewhere.slotByte_eq hfits.blenFits (by omega) (Nat.lt_of_lt_of_le ho hfits.blenFits)
    parity := by
      intro j hj hp t ht
      have hjn := Nat.lt_of_lt_of_le hj hn.le
      exact (State.symbolAt_congr (rsField_eceField s.kVal) (hkeep _ (of_decide_eq_true hp) hjn) ht).trans
        (h.parity j (Nat.lt_of_add_lt_add_left hjn) t ht) }

/-- Settles O39: what is left of the encode are blocks of one codeword. -/
theorem rsRoundTrip : Obligations.RsRoundTrip := by
  unfold Obligations.RsRoundTrip
  intro s t hs hfits hmds hexec pres m hwf hkeep u
  obtain rfl : _ = t := by simpa [exec_rsEnc_of_fits hfits] using hexec
  have hn := s.coded_nVal (s.setSymbols (rsField s.kVal) s.rsBlocks).buf (hfits.slotsFit.trans hs.nslot_le)
  rw [hn] at hkeep
  have hrec : s.Received u := (rsParityIn_rsBlocks hs hfits).received hs hfits hmds rfl hwf hkeep
  exact ⟨hrec.recovers, hrec.fails, fun v => hrec.decodingFailed_only⟩

end Sys2Proof.Machine
end

section
/-! The parameters of the RaptorQ coder (O41): each bounded search reaches the number that its rule asks for, the primes
by Bertrand's postulate. -/

namespace Sys2Proof.Machine

/-! ### Bounded searches -/

/-- The search finds the least number with the property, where one comes within its turns. -/
theorem leastFrom_isLeast {p : Nat → Bool} {fuel n x : Nat} (hn : n ≤ x) (hx : x < n + fuel) (hp : p x = true) :
    IsLeast {y | n ≤ y ∧ p y = true} (leastFrom p fuel n) := by
  induction fuel generalizing n with
  | zero => omega
  | succ fuel ih =>
    by_cases h : p n = true
    · rw [leastFrom, if_pos h]
      exact ⟨⟨le_rfl, h⟩, fun y hy => hy.1⟩
    · have later : ∀ y, n ≤ y → p y = true → n + 1 ≤ y := fun y hy hpy =>
        hy.lt_of_ne fun e => h (e ▸ hpy)
      obtain ⟨⟨hge, hpm⟩, hleast⟩ := ih (later x hn hp) (by omega)
      rw [leastFrom, if_neg h]
      exact ⟨⟨by omega, hpm⟩, fun y hy => hleast ⟨later y hy.1 hy.2, hy.2⟩⟩

/-! ### Primes -/

theorem noDivisorFrom_iff (n fuel d : Nat) :
    noDivisorFrom n fuel d = true ↔ ∀ e, d ≤ e → e < d + fuel → e * e ≤ n → ¬e ∣ n := by
  induction fuel generalizing d with
  | zero => exact iff_of_true rfl fun e h1 h2 => by omega
  | succ fuel ih =>
    rw [noDivisorFrom]
    by_cases hsq : d * d > n
    · rw [if_pos hsq]
      refine iff_of_true rfl fun e hde _ he => ?_
      have := Nat.mul_le_mul hde hde
      omega
    · rw [if_neg hsq]
      by_cases hd : n % d = 0
      · rw [if_pos hd]
        exact iff_of_false (by simp) fun h => h d le_rfl (by omega) (by omega) (Nat.dvd_of_mod_eq_zero hd)
      · rw [if_neg hd, ih]
        refine ⟨fun h e hde hlt he => ?_, fun h e hde hlt => h e (by omega) (by omega)⟩
        rcases hde.eq_or_lt with rfl | hgt
        · exact fun hdvd => hd (Nat.mod_eq_zero_of_dvd hdvd)
        · exact h e hgt (by omega) he

/-- Trial division up to the square root tells the primes. -/
theorem primeTest_iff (n : Nat) : primeTest n = true ↔ n.Prime := by
  rw [Nat.prime_def_le_sqrt, primeTest]
  by_cases hn : n < 2
  · rw [if_pos hn]
    exact iff_of_false (by simp) fun h => by omega
  · rw [if_neg hn, noDivisorFrom_iff]
    constructor
    · intro h
      refine ⟨by omega, fun m hm hsqrt => ?_⟩
      have hsq := Nat.le_sqrt.1 hsqrt
      have hle : m ≤ m * m := Nat.le_mul_self m
      exact h m hm (by omega) hsq
    · exact fun h e he _ hsq => h.2 e he (Nat.le_sqrt.2 hsq)

/-- Bertrand's postulate gives the search a prime within its turns. -/
theorem nextPrime_isLeast {n : Nat} (hn : 1 ≤ n) : IsLeast {q | n ≤ q ∧ q.Prime} (nextPrime n) := by
  obtain ⟨p, hp, hlt, hle⟩ := Nat.exists_prime_lt_and_le_two_mul n (by omega)
  have hleast := leastFrom_isLeast (fuel := n + 2) hlt.le (by omega) ((primeTest_iff p).2 hp)
  simp only [primeTest_iff] at hleast
  exact hleast

/-! ### Binomial coefficients -/

theorem binomial_eq_choose (n r : Nat) : binomial n r = n.choose r := by
  induction r with
  | zero => exact n.choose_zero_right.symm
  | succ r ih =>
    rw [binomial, ih, ← Nat.choose_succ_right_eq]
    exact Nat.mul_div_cancel _ r.succ_pos

/-- The middle coefficient of a row is at least the row's number. -/
theorem le_choose_half (n : Nat) : n ≤ n.choose ((n + 1) / 2) :=
  calc n = n.choose 1 := n.choose_one_right.symm
    _ ≤ n.choose (n / 2) := Nat.choose_le_middle 1 n
    _ = n.choose ((n + 1) / 2) := by
      rw [← Nat.choose_symm (by omega : (n + 1) / 2 ≤ n)]
      congr 1
      omega

/-! ### The parameters -/

/-- `T` is the least as R192 asks: `k + 1` is large enough. -/
theorem rqT_isLeast {k : Nat} (hk : 1 ≤ k) : IsLeast {t | 1 ≤ t ∧ 2 * k ≤ t * (t - 1)} (rqT k) := by
  have hbound : 2 * k ≤ (k + 1) * (k + 1 - 1) := Nat.mul_le_mul_right k (by omega)
  have hleast := leastFrom_isLeast (n := 1) (fuel := k + 2) (by omega) (by omega)
    (p := fun t => decide (t * (t - 1) ≥ 2 * k)) (decide_eq_true hbound)
  simp only [decide_eq_true_iff] at hleast
  exact hleast

theorem two_le_rqT {k : Nat} (hk : 1 ≤ k) : 2 ≤ rqT k := by
  obtain ⟨⟨hpos, hprop⟩, -⟩ := rqT_isLeast hk
  by_contra hlt
  have hone : rqT k = 1 := by omega
  rw [hone] at hprop
  omega

theorem rqS_isLeast {k : Nat} (hk : 1 ≤ k) : IsLeast {q | (k + 99) / 100 + rqT k ≤ q ∧ q.Prime} (rqS k) :=
  nextPrime_isLeast (by have := two_le_rqT hk; omega)

theorem rqS_prime {k : Nat} (hk : 1 ≤ k) : (rqS k).Prime := (rqS_isLeast hk).1.2

theorem three_le_rqS {k : Nat} (hk : 1 ≤ k) : 3 ≤ rqS k := by
  have hT := two_le_rqT hk
  have hS := (rqS_isLeast hk).1.1
  omega

/-- `H` is the least as R194 asks: `k + S` is large enough. -/
theorem rqH_isLeast {k : Nat} (hk : 1 ≤ k) :
    IsLeast {h | 1 ≤ h ∧ k + rqS k ≤ h.choose ((h + 1) / 2)} (rqH k) := by
  have hbound := le_choose_half (k + rqS k)
  rw [← binomial_eq_choose] at hbound
  have hleast := leastFrom_isLeast (n := 1) (fuel := k + rqS k) (by omega) (by omega)
    (p := fun h => decide (binomial h ((h + 1) / 2) ≥ k + rqS k)) (decide_eq_true hbound)
  simp only [decide_eq_true_iff, binomial_eq_choose] at hleast
  simpa only [rqH, binomial_eq_choose] using hleast

/-- The middle coefficients of the rows below the fourth are at most 3, and `k + S` is at least 4 (R194). -/
theorem four_le_rqH {k : Nat} (hk : 1 ≤ k) : 4 ≤ rqH k := by
  obtain ⟨⟨-, hprop⟩, -⟩ := rqH_isLeast hk
  have hS := three_le_rqS hk
  have hsmall : ∀ h : Nat, h < 4 → h.choose ((h + 1) / 2) < 4 := by decide
  by_contra hlt
  have := hsmall (rqH k) (by omega)
  omega

theorem rqWPrime_isLeast {k : Nat} (hk : 1 ≤ k) : IsLeast {q | rqW k ≤ q ∧ q.Prime} (rqWPrime k) :=
  nextPrime_isLeast (Nat.le_add_right_of_le hk)

theorem rqP1_isLeast {k : Nat} (hk : 1 ≤ k) : IsLeast {q | rqH k ≤ q ∧ q.Prime} (rqP1 k) :=
  nextPrime_isLeast (rqH_isLeast hk).1.1

theorem rqWPrime_prime {k : Nat} (hk : 1 ≤ k) : (rqWPrime k).Prime := (rqWPrime_isLeast hk).1.2

theorem rqW_le_rqWPrime {k : Nat} (hk : 1 ≤ k) : rqW k ≤ rqWPrime k := (rqWPrime_isLeast hk).1.1

theorem rqP1_prime {k : Nat} (hk : 1 ≤ k) : (rqP1 k).Prime := (rqP1_isLeast hk).1.2

theorem rqH_le_rqP1 {k : Nat} (hk : 1 ≤ k) : rqH k ≤ rqP1 k := (rqP1_isLeast hk).1.1

/-- Settles O41: every search comes to its number within its turns. -/
theorem rqParametersAreLeast : Obligations.RqParametersAreLeast := by
  unfold Obligations.RqParametersAreLeast
  intro k hk
  obtain ⟨⟨hTge, hTprop⟩, hTleast⟩ := rqT_isLeast hk
  obtain ⟨⟨hSge, hSprime⟩, hSleast⟩ := rqS_isLeast hk
  obtain ⟨⟨hHge, hHprop⟩, hHleast⟩ := rqH_isLeast hk
  obtain ⟨⟨hWge, hWprime⟩, hWleast⟩ := rqWPrime_isLeast hk
  obtain ⟨⟨hPge, hPprime⟩, hPleast⟩ := rqP1_isLeast hk
  exact ⟨⟨hTge, hTprop, fun T hge hT => hTleast ⟨hge, hT⟩⟩,
    ⟨hSprime, hSge, fun q hq hge => hSleast ⟨hge, hq⟩, three_le_rqS hk⟩,
    ⟨hHge, hHprop, fun H hge hH => hHleast ⟨hge, hH⟩, four_le_rqH hk⟩, ⟨rfl, rfl⟩,
    ⟨hWprime, hWge, fun q hq hge => hWleast ⟨hge, hq⟩⟩, hPprime, hPge, fun q hq hge => hPleast ⟨hge, hq⟩⟩

end Sys2Proof.Machine
end

section
/-! The hash, the degree table and the tuple of a symbol (O60). -/

namespace Sys2Proof.Machine

theorem toNat_mul_ofNat (x : Word) (n : Nat) : (x * BitVec.ofNat 32 n).toNat = x.toNat * n % 2 ^ 32 := by
  rw [BitVec.toNat_mul, BitVec.toNat_ofNat, Nat.mul_mod_mod]

/-- The hash on bit vectors is the five lines of R190 on numbers. -/
theorem fmix32_toNat (x : Word) : (fmix32 x).toNat = fmixRule x.toNat := by
  simp only [fmix32, fmixRule, BitVec.toNat_xor, BitVec.toNat_ushiftRight, BitVec.ofNat_eq_ofNat, toNat_mul_ofNat,
    Nat.shiftRight_eq_div_pow]
theorem rqMix_eq_mixRule {u v w : Nat} (hv : v < 2 ^ 32) (hw : w < 2 ^ 32) : rqMix u v w = mixRule u v w := by
  have hadd : (BitVec.ofNat 32 u + 0x9E3779B9).toNat = (u + 0x9E3779B9) % 2 ^ 32 := by
    rw [BitVec.toNat_add, BitVec.toNat_ofNat, Nat.mod_add_mod]
    rfl
  have hlow : ∀ n, n < 2 ^ 32 → (BitVec.ofNat 32 n).toNat = n := fun n hn => by
    rw [BitVec.toNat_ofNat, Nat.mod_eq_of_lt hn]
  rw [rqMix, mixRule, fmix32_toNat, BitVec.toNat_xor, fmix32_toNat, BitVec.toNat_xor, fmix32_toNat, hadd,
    hlow v hv, hlow w hw]

theorem rqMix_lt (u v w : Nat) : rqMix u v w < 2 ^ 32 := (fmix32 _).isLt

/-- `Deg` reads the degree off the row of the table R201 that its argument lies in. -/
theorem rqDeg_mem_degreeTable {v : Nat} (hv : v < 2 ^ 20) :
    ∃ row ∈ degreeTable, row.1 ≤ v ∧ v ≤ row.2.1 ∧ rqDeg v = row.2.2 := by
  simp only [degreeTable, List.exists_mem_cons_iff, List.not_mem_nil, false_and, exists_false, or_false]
  unfold rqDeg
  split_ifs <;> omega

theorem one_le_rqDeg (v : Nat) : 1 ≤ rqDeg v := by
  unfold rqDeg
  split_ifs <;> decide

/-- A number drawn from 1 to m - 1, as R202 draws the steps of the walks. -/
theorem one_add_mod_lt {m : Nat} (hm : 2 ≤ m) (x : Nat) : 1 + x % (m - 1) < m := by
  have := Nat.mod_lt x (by omega : 0 < m - 1)
  omega

theorem two_le_rqWPrime {k : Nat} (hk : 1 ≤ k) : 2 ≤ rqWPrime k := (rqWPrime_prime hk).two_le

theorem two_le_rqP1 {k : Nat} (hk : 1 ≤ k) : 2 ≤ rqP1 k := (rqP1_prime hk).two_le

/-- The ranges of the numbers of a tuple (R202). -/
structure RqTuple.Ranged (k : Nat) (u : RqTuple) : Prop where
  dPos : 1 ≤ u.d
  aPos : 1 ≤ u.a
  aLt : u.a < rqWPrime k
  bLt : u.b < rqWPrime k
  d1Cases : u.d1 = 2 ∨ u.d1 = 3
  a1Pos : 1 ≤ u.a1
  a1Lt : u.a1 < rqP1 k
  b1Lt : u.b1 < rqP1 k

theorem rqTuple_ranged {k : Nat} (hk : 1 ≤ k) (J sid : Nat) : (rqTuple k J sid).Ranged k where
  dPos := one_le_rqDeg _
  aPos := Nat.le_add_right 1 _
  aLt := one_add_mod_lt (two_le_rqWPrime hk) _
  bLt := Nat.mod_lt _ (by have := two_le_rqWPrime hk; omega)
  d1Cases := by
    have hd1 : (rqTuple k J sid).d1 = 2 + rqMix k sid (8 * J + 3) % 2 := rfl
    omega
  a1Pos := Nat.le_add_right 1 _
  a1Lt := one_add_mod_lt (two_le_rqP1 hk) _
  b1Lt := Nat.mod_lt _ (by have := two_le_rqP1 hk; omega)

/-- Settles O60: the tuple is drawn as R202 says by definition, and the moduli give the ranges. -/
theorem symbolTuplesFollowTheRules : Obligations.SymbolTuplesFollowTheRules := by
  unfold Obligations.SymbolTuplesFollowTheRules
  refine ⟨fmix32_toNat, fun u v w _ hv hw => ⟨rqMix_eq_mixRule hv hw, rqMix_lt u v w⟩, by decide,
    fun v => rqDeg_mem_degreeTable, fun k J sid hk => ?_⟩
  have hu := rqTuple_ranged hk J sid
  exact ⟨⟨rfl, hu.dPos⟩, ⟨rfl, hu.aPos, hu.aLt⟩, ⟨rfl, hu.bLt⟩, ⟨rfl, hu.d1Cases⟩, ⟨rfl, hu.a1Pos, hu.a1Lt⟩,
    rfl, hu.b1Lt⟩

end Sys2Proof.Machine
end

section
/-! The LDPC and HDPC rows (O42, O43): their coefficients, and their places in every system. -/

namespace Sys2Proof.Machine

/-! ### Places in a system -/

theorem rqSystem_getElem_ldpc {k r : Nat} (hr : r < rqS k) (blen J : Nat) (symbols : List (Nat × Vec)) :
    (rqSystem blen k J symbols)[r]? = some ⟨ldpcRow k r, List.replicate blen 0⟩ := by
  have hrow : (constraintRows k)[r]? = some (ldpcRow k r) := by
    rw [constraintRows, List.getElem?_append_left (by simpa using hr)]
    simp [hr]
  have hlt := (List.getElem?_eq_some_iff.1 hrow).1
  rw [rqSystem, List.getElem?_append_left (by simpa using hlt), List.getElem?_map, hrow]
  rfl

theorem rqSystem_getElem_hdpc {k h : Nat} (hh : h < rqH k) (blen J : Nat) (symbols : List (Nat × Vec)) :
    (rqSystem blen k J symbols)[rqS k + h]? = some ⟨hdpcRow k h, List.replicate blen 0⟩ := by
  have hrow : (constraintRows k)[rqS k + h]? = some (hdpcRow k h) := by
    rw [constraintRows, List.getElem?_append_right (by simp)]
    simp [hh]
  have hlt := (List.getElem?_eq_some_iff.1 hrow).1
  rw [rqSystem, List.getElem?_append_left (by simpa using hlt), List.getElem?_map, hrow]
  rfl

/-! ### Coefficients -/

theorem getD_map_range {n c : Nat} (hc : c < n) (f : Nat → Nat) : ((List.range n).map f).getD c 0 = f c := by
  simp [hc]

theorem ldpcRow_getD {k c : Nat} (hc : c < rqL k) (r : Nat) : (ldpcRow k r).getD c 0 = ldpcCoef k (rqS k) r c :=
  getD_map_range hc _

theorem hdpcRow_getD {k c : Nat} (hc : c < rqL k) (h : Nat) : (hdpcRow k h).getD c 0 = hdpcCoef (rqW k) h c :=
  getD_map_range hc _

theorem ldpcCoef_of_lt {k c : Nat} (hc : c < k) (S r : Nat) :
    let a := 1 + (c / S) % (S - 1)
    let b := c % S
    ldpcCoef k S r c = if r = b ∨ r = (b + a) % S ∨ r = (b + 2 * a) % S then 1 else 0 := by
  intro a b
  have htwice : ((b + a) % S + a) % S = (b + 2 * a) % S := by
    rw [Nat.mod_add_mod, Nat.add_assoc, ← two_mul]
  rw [ldpcCoef, if_pos hc, ← htwice]

theorem ldpcCoef_of_le {k c : Nat} (hc : k ≤ c) (S r : Nat) : ldpcCoef k S r c = if c = k + r then 1 else 0 :=
  if_neg (by omega)

/-- A step that the modulus does not divide leads to another residue. -/
theorem add_mod_ne {m x d : Nat} (hd : ¬m ∣ d) : (x + d) % m ≠ x % m := by
  intro h
  have hmod : x + 0 ≡ x + d [MOD m] := h.symm
  exact hd ((Nat.modEq_zero_iff_dvd).1 (Nat.ModEq.add_left_cancel' x hmod).symm)

/-- The three rows of a K column differ: S is an odd prime and the step is below it (R197). -/
theorem ldpc_rows_distinct {S a b : Nat} (hS : S.Prime) (h3 : 3 ≤ S) (ha : 1 ≤ a) (haS : a < S) (hb : b < S) :
    b ≠ (b + a) % S ∧ b ≠ (b + 2 * a) % S ∧ (b + a) % S ≠ (b + 2 * a) % S := by
  have hda : ¬S ∣ a := Nat.not_dvd_of_pos_of_lt ha haS
  have hd2 : ¬S ∣ 2 := Nat.not_dvd_of_pos_of_lt (by omega) h3
  have hd2a : ¬S ∣ 2 * a := hS.not_dvd_mul hd2 hda
  have hbmod : b = b % S := (Nat.mod_eq_of_lt hb).symm
  refine ⟨fun h => add_mod_ne hda (h.symm.trans hbmod), fun h => add_mod_ne hd2a (h.symm.trans hbmod), fun h => ?_⟩
  refine add_mod_ne (x := b + a) hda ?_
  rw [h, Nat.add_assoc, ← two_mul]

/-- Settles O42: the coefficients by the definition of the row, the three rows of a K column by `S` an odd prime. -/
theorem ldpcRowsAreSparse : Obligations.LdpcRowsAreSparse := by
  unfold Obligations.LdpcRowsAreSparse
  intro k c r hk hr hc
  have h3 := three_le_rqS hk
  refine ⟨by simp [ldpcRow], fun hck => ?_, ?_, fun hkc => ?_, rqSystem_getElem_ldpc hr⟩
  · rw [ldpcRow_getD hc, ldpcCoef_of_lt hck]
  · exact ldpc_rows_distinct (rqS_prime hk) h3 (Nat.le_add_right 1 _) (one_add_mod_lt (by omega) _)
      (Nat.mod_lt _ (by omega))
  · rw [ldpcRow_getD hc, ldpcCoef_of_le hkc]

theorem hdCoef_eq_tableExp (h c : Nat) : hdCoef h c = tableExp gf8 (rqMix 0x48445043 h c % 255) :=
  gfExp_mod_eq_tableExp gf8_good _

/-- A dense coefficient is a power of x, so it is not zero (R199). -/
theorem hdCoef_pos_and_lt (h c : Nat) : 1 ≤ hdCoef h c ∧ hdCoef h c < 256 :=
  gfExp_pos_and_lt gf8_good (Nat.mod_lt _ (order_pos gf8_good))

/-- Settles O43: the coefficients by the definition of the row, the entry of `EXP` by the loop of R112. -/
theorem hdpcRowsAreDense : Obligations.HdpcRowsAreDense := by
  unfold Obligations.HdpcRowsAreDense
  intro k h c _ hh hc
  refine ⟨by simp [hdpcRow], fun hcW => ?_, fun hWc => ?_, rqSystem_getElem_hdpc hh⟩
  · have hcoef : (hdpcRow k h).getD c 0 = hdCoef h c := (hdpcRow_getD hc h).trans (if_pos hcW)
    rw [hcoef]
    exact ⟨hdCoef_eq_tableExp h c, hdCoef_pos_and_lt h c⟩
  · rw [hdpcRow_getD hc, hdpcCoef, if_neg (by omega)]

end Sys2Proof.Machine
end

section
/-! The column list of a symbol (O44): a walk by a step below a prime modulus visits every residue once, so it passes
every value below the bound. -/

namespace Sys2Proof.Machine

/-! ### Walks -/

/-- The first `n` values below `bound` that a walk passes (R203). -/
def firstBelow (start a m bound n : Nat) : List Nat :=
  ((walkFrom start a m).filter (fun b => decide (b < bound))).take n

theorem lt_of_mem_firstBelow {start a m bound n c : Nat} (h : c ∈ firstBelow start a m bound n) : c < bound :=
  of_decide_eq_true (List.mem_filter.1 (List.mem_of_mem_take h)).2

section
variable {start a m : Nat} (hm : m.Prime) (ha : 1 ≤ a) (ham : a < m)
include hm ha ham

theorem walkFrom_nodup : (walkFrom start a m).Nodup := by
  refine List.nodup_range.map_on fun i hi j hj h => ?_
  have hcoprime : m.Coprime a := hm.coprime_iff_not_dvd.2 (Nat.not_dvd_of_pos_of_lt ha ham)
  have hmod : i * a ≡ j * a [MOD m] := Nat.ModEq.add_left_cancel' start h
  exact (hmod.cancel_right_of_coprime hcoprime).eq_of_lt_of_lt (List.mem_range.1 hi) (List.mem_range.1 hj)

/-- The m turns of such a walk visit every residue. -/
theorem walkFrom_perm : (walkFrom start a m).Perm (List.range m) := by
  have hsub : walkFrom start a m ⊆ List.range m := fun c hc => by
    obtain ⟨n, -, rfl⟩ := List.mem_map.1 hc
    exact List.mem_range.2 (Nat.mod_lt _ hm.pos)
  exact (List.subperm_of_subset (walkFrom_nodup hm ha ham) hsub).perm_of_length_le (by simp [walkFrom])

/-- It passes as many values below a bound as there are. -/
theorem walkFrom_below_length {bound : Nat} (hbound : bound ≤ m) :
    ((walkFrom start a m).filter (fun b => decide (b < bound))).length = bound := by
  have hperm : ((walkFrom start a m).filter (fun b => decide (b < bound))).Perm (List.range bound) := by
    refine (List.perm_ext_iff_of_nodup ((walkFrom_nodup hm ha ham).filter _) List.nodup_range).2 fun c => ?_
    rw [List.mem_filter, (walkFrom_perm hm ha ham).mem_iff, List.mem_range, List.mem_range, decide_eq_true_iff]
    omega
  rw [hperm.length_eq, List.length_range]

theorem firstBelow_nodup (bound n : Nat) : (firstBelow start a m bound n).Nodup :=
  ((walkFrom_nodup hm ha ham).filter _).sublist (List.take_sublist _ _)

theorem firstBelow_length {bound n : Nat} (hbound : bound ≤ m) (hn : n ≤ bound) :
    (firstBelow start a m bound n).length = n := by
  rw [firstBelow, List.length_take, walkFrom_below_length hm ha ham hbound, min_eq_left hn]

/-- The columns that the pseudocode of R203 collects on one walk. -/
theorem walkColumns_eq_firstBelow {bound n : Nat} (hs : start < m) (hbound : bound ≤ m) (h1 : 1 ≤ n)
    (hn : n ≤ bound) :
    walkColumns bound a m (n - 1) (skipTo bound a m m start) = firstBelow start a m bound n := by
  have hcount : n - 1 + 1 = n := by omega
  rw [walk_eq hs (by rw [walkFrom_below_length hm ha ham hbound]; omega), hcount, firstBelow]

end

/-! ### The columns of a symbol -/

/-- The LT columns of a symbol (R203). -/
def ltColumns (k J sid : Nat) : List Nat :=
  firstBelow (rqTuple k J sid).b (rqTuple k J sid).a (rqWPrime k) (rqW k) (min (rqTuple k J sid).d (rqW k))

/-- The HDPC columns of a symbol, counted from the first (R203). -/
def hdpcColumns (k J sid : Nat) : List Nat :=
  firstBelow (rqTuple k J sid).b1 (rqTuple k J sid).a1 (rqP1 k) (rqH k) (rqTuple k J sid).d1

theorem rqW_add_lt_rqL {k b : Nat} (hb : b < rqH k) : rqW k + b < rqL k := Nat.add_lt_add_left hb _

/-- What holds of the elements of two lists, by position in the whole. -/
theorem getD_append_cases {P Q : Nat → Prop} {l l' : List Nat} (hl : ∀ c ∈ l, P c) (hl' : ∀ c ∈ l', Q c) {i : Nat}
    (hi : i < (l ++ l').length) :
    if i < l.length then P ((l ++ l').getD i 0) else Q ((l ++ l').getD i 0) := by
  rw [List.getD_eq_getElem _ _ hi]
  split
  · rename_i hlt
    rw [List.getElem_append_left hlt]
    exact hl _ (List.getElem_mem hlt)
  · rename_i hge
    rw [List.getElem_append_right (by omega)]
    exact hl' _ (List.getElem_mem _)

theorem lt_of_mem_ltColumns {k J sid c : Nat} (h : c ∈ ltColumns k J sid) : c < rqW k := lt_of_mem_firstBelow h

theorem lt_of_mem_hdpcColumns {k J sid c : Nat} (h : c ∈ hdpcColumns k J sid) : c < rqH k := lt_of_mem_firstBelow h

section
variable {k : Nat} (hk : 1 ≤ k) (J sid : Nat)
include hk

theorem ltColumns_nodup : (ltColumns k J sid).Nodup :=
  have hu := rqTuple_ranged hk J sid
  firstBelow_nodup (rqWPrime_prime hk) hu.aPos hu.aLt _ _

theorem hdpcColumns_nodup : (hdpcColumns k J sid).Nodup :=
  have hu := rqTuple_ranged hk J sid
  firstBelow_nodup (rqP1_prime hk) hu.a1Pos hu.a1Lt _ _

theorem ltColumns_length : (ltColumns k J sid).length = min (rqTuple k J sid).d (rqW k) :=
  have hu := rqTuple_ranged hk J sid
  firstBelow_length (rqWPrime_prime hk) hu.aPos hu.aLt (rqW_le_rqWPrime hk) (min_le_right _ _)

theorem d1_le_three : (rqTuple k J sid).d1 ≤ 3 := by
  have := (rqTuple_ranged hk J sid).d1Cases
  omega

theorem d1_le_rqH : (rqTuple k J sid).d1 ≤ rqH k := by
  have hd1 := d1_le_three hk J sid
  have hH := four_le_rqH hk
  omega

theorem hdpcColumns_length : (hdpcColumns k J sid).length = (rqTuple k J sid).d1 :=
  have hu := rqTuple_ranged hk J sid
  firstBelow_length (rqP1_prime hk) hu.a1Pos hu.a1Lt (rqH_le_rqP1 hk) (d1_le_rqH hk J sid)

/-- The walk of R203 over the LT columns. -/
theorem ltColumns_eq_walkColumns : ltColumns k J sid =
    walkColumns (rqW k) (rqTuple k J sid).a (rqWPrime k) (min (rqTuple k J sid).d (rqW k) - 1)
      (skipTo (rqW k) (rqTuple k J sid).a (rqWPrime k) (rqWPrime k) (rqTuple k J sid).b) :=
  have hu := rqTuple_ranged hk J sid
  (walkColumns_eq_firstBelow (rqWPrime_prime hk) hu.aPos hu.aLt hu.bLt (rqW_le_rqWPrime hk)
    (le_min hu.dPos (Nat.le_add_right_of_le hk)) (min_le_right _ _)).symm

/-- The walk of R203 over the HDPC columns. -/
theorem hdpcColumns_eq_walkColumns : hdpcColumns k J sid =
    walkColumns (rqH k) (rqTuple k J sid).a1 (rqP1 k) ((rqTuple k J sid).d1 - 1)
      (skipTo (rqH k) (rqTuple k J sid).a1 (rqP1 k) (rqP1 k) (rqTuple k J sid).b1) := by
  have hu := rqTuple_ranged hk J sid
  have hd1 : 1 ≤ (rqTuple k J sid).d1 := by
    have := hu.d1Cases
    omega
  exact (walkColumns_eq_firstBelow (rqP1_prime hk) hu.a1Pos hu.a1Lt hu.b1Lt (rqH_le_rqP1 hk) hd1
    (d1_le_rqH hk J sid)).symm

/-- The column list is the LT columns and then the HDPC columns, each in the order of its walk. -/
theorem rqCols_eq : rqCols k J sid = ltColumns k J sid ++ (hdpcColumns k J sid).map (fun b => rqW k + b) := by
  rw [ltColumns_eq_walkColumns hk, hdpcColumns_eq_walkColumns hk, rqCols]

theorem rqCols_nodup : (rqCols k J sid).Nodup := by
  rw [rqCols_eq hk]
  refine List.nodup_append.2 ⟨ltColumns_nodup hk J sid,
    (hdpcColumns_nodup hk J sid).map fun _ _ => Nat.add_left_cancel, fun c hc c' hc' => ?_⟩
  obtain ⟨b, -, rfl⟩ := List.mem_map.1 hc'
  have := lt_of_mem_ltColumns hc
  omega

theorem rqCols_length : (rqCols k J sid).length = min (rqTuple k J sid).d (rqW k) + (rqTuple k J sid).d1 := by
  rw [rqCols_eq hk, List.length_append, List.length_map, ltColumns_length hk, hdpcColumns_length hk]

theorem rqCols_getD {i : Nat} (hi : i < (rqCols k J sid).length) :
    if i < min (rqTuple k J sid).d (rqW k) then (rqCols k J sid).getD i 0 < rqW k
    else rqW k ≤ (rqCols k J sid).getD i 0 ∧ (rqCols k J sid).getD i 0 < rqL k := by
  rw [← ltColumns_length hk]
  rw [rqCols_eq hk] at hi ⊢
  have hhdpc : ∀ c ∈ (hdpcColumns k J sid).map (fun b => rqW k + b), rqW k ≤ c ∧ c < rqL k :=
    List.forall_mem_map.2 fun b hb => ⟨Nat.le_add_right _ b, rqW_add_lt_rqL (lt_of_mem_hdpcColumns hb)⟩
  exact getD_append_cases (fun _ => lt_of_mem_ltColumns) hhdpc hi

theorem lt_of_mem_rqCols {c : Nat} (h : c ∈ rqCols k J sid) : c < rqL k := by
  rw [rqCols_eq hk] at h
  rcases List.mem_append.1 h with h | h
  · exact (lt_of_mem_ltColumns h).trans_le (Nat.le_add_right _ _)
  · obtain ⟨b, hb, rfl⟩ := List.mem_map.1 h
    exact rqW_add_lt_rqL (lt_of_mem_hdpcColumns hb)

/-! ### The symbol -/

section
variable {C : List Vec} {blen : Nat} (hC : C.length = rqL k) (hlen : ∀ v ∈ C, v.length = blen)
include hC hlen

theorem rqSym_lengths : ∀ v ∈ (rqCols k J sid).map (fun c => C.getD c []), v.length = blen := by
  refine List.forall_mem_map.2 fun c hc => ?_
  have hcC : c < C.length := hC ▸ lt_of_mem_rqCols hk J sid hc
  rw [List.getD_eq_getElem _ _ hcC]
  exact hlen _ (List.getElem_mem hcC)

theorem rqSym_length : (rqSym blen C k J sid).length = blen := vecSum_length (rqSym_lengths hk J sid hC hlen)

theorem rqSym_getD (t : Nat) : (rqSym blen C k J sid).getD t 0 = symValue C k J sid t := by
  rw [rqSym, vecSum_getD_xorOver (rqSym_lengths hk J sid hC hlen), xorOver_map]
  rfl

end

end

/-! ### The row -/

theorem rqRow_getD {k c : Nat} (hc : c < rqL k) (J sid : Nat) :
    (rqRow k J sid).getD c 0 = if c ∈ rqCols k J sid then 1 else 0 := getD_map_range hc _

/-- Settles O44: both walks go by a step below a prime modulus, and each passes enough values below its bound. -/
theorem symbolColumnsAreDistinct : Obligations.SymbolColumnsAreDistinct := by
  unfold Obligations.SymbolColumnsAreDistinct
  intro k J sid hk
  have hu := rqTuple_ranged hk J sid
  exact ⟨⟨walkFrom_nodup (rqWPrime_prime hk) hu.aPos hu.aLt,
      walkFrom_nodup (rqP1_prime hk) hu.a1Pos hu.a1Lt⟩,
    rqCols_eq hk J sid, rqCols_nodup hk J sid, ⟨rqCols_length hk J sid, d1_le_three hk J sid, four_le_rqH hk⟩,
    fun i => rqCols_getD hk J sid, ⟨(rqRow_ok k J sid).1, fun c hc => rqRow_getD hc J sid⟩,
    fun blen C hC hlen => ⟨rqSym_length hk J sid hC hlen, fun t _ => rqSym_getD hk J sid hC hlen t⟩⟩

end Sys2Proof.Machine
end

section
/-! The precode (O45, O46): the systematic index tells the least non-singular matrix, and a non-singular matrix gives
the intermediate symbols as the only solution. -/

namespace Sys2Proof.Machine

/-! ### The precode matrix -/

theorem precodeMatrix_length (k J : Nat) : (precodeMatrix k J).length = rqL k := by
  simp only [precodeMatrix, constraintRows, List.length_append, List.length_map, List.length_range, rqL]
  omega

theorem precodeMatrix_ok {k J : Nat} {v : Vec} (h : v ∈ precodeMatrix k J) : v.length = rqL k ∧ InField gf8 v := by
  rcases List.mem_append.1 h with h | h
  · exact constraintRows_ok h
  · obtain ⟨sid, -, rfl⟩ := List.mem_map.1 h
    exact rqRow_ok k J sid

/-- Elimination finds a pivot in every column exactly where the matrix has full rank (R205). -/
theorem nonSingular_precodeMatrix (k J : Nat) :
    nonSingular gf8 (rqL k) (precodeMatrix k J) = true ↔ FullRank gf8 (rqL k) (precodeMatrix k J) := by
  have hok : ∀ r ∈ (precodeMatrix k J).map (fun v => (⟨v, []⟩ : EqRow)), r.Ok gf8 (rqL k) 0 :=
    List.forall_mem_map.2 fun v hv => ⟨(precodeMatrix_ok hv).1, rfl, (precodeMatrix_ok hv).2, List.forall_mem_nil _⟩
  rw [nonSingular, solveSystem_isSome_iff_fullRank gf8_good hok, List.map_map]
  simp [Function.comp_def]

theorem systematicIndex_eq_some (k J : Nat) :
    systematicIndex k = some J ↔ J < 256 ∧ FullRank gf8 (rqL k) (precodeMatrix k J) ∧
      ∀ J', J' < J → ¬FullRank gf8 (rqL k) (precodeMatrix k J') := by
  rw [systematicIndex, List.find?_range_eq_some]
  simp only [Bool.not_eq_true', ← Bool.not_eq_true, nonSingular_precodeMatrix, List.mem_range]
  tauto

theorem systematicIndex_eq_none (k : Nat) :
    systematicIndex k = none ↔ ∀ J, J < 256 → ¬FullRank gf8 (rqL k) (precodeMatrix k J) := by
  simp only [systematicIndex, List.find?_eq_none, List.mem_range, nonSingular_precodeMatrix]

/-- Settles O45: the search goes up from 0, and its test is the rank of the matrix. -/
theorem systematicIndexIsLeast : Obligations.SystematicIndexIsLeast := by
  unfold Obligations.SystematicIndexIsLeast
  exact fun k _ => ⟨fun J => ⟨precodeMatrix_length k J, fun v hv => (precodeMatrix_ok hv).1⟩,
    systematicIndex_eq_some k, systematicIndex_eq_none k⟩

/-! ### The equations of the intermediate symbols -/

/-- The row of a symbol sums the values of its columns (R203). -/
theorem rowValue_rqRow {k : Nat} (hk : 1 ≤ k) (J sid : Nat) {x : Nat → Nat} (hx : ∀ c, x c < gf8.size) :
    rowValue gf8 (rqL k) (rqRow k J sid) x = xorOver (rqCols k J sid) x := by
  have hperm : ((List.range (rqL k)).filter (fun c => decide (c ∈ rqCols k J sid))).Perm (rqCols k J sid) := by
    refine (List.perm_ext_iff_of_nodup (List.nodup_range.filter _) (rqCols_nodup hk J sid)).2 fun c => ?_
    rw [List.mem_filter, List.mem_range, decide_eq_true_iff]
    exact and_iff_right_of_imp (lt_of_mem_rqCols hk J sid)
  rw [← xorOver_perm hperm, xorOver_filter, rowValue]
  refine xorOver_congr fun c hc => ?_
  rw [rqRow_getD (List.mem_range.1 hc)]
  by_cases hmem : c ∈ rqCols k J sid
  · simp [hmem, gfMul_one_left (hx c)]
  · simp [hmem]

theorem blockValue_lt {C : List Vec} (hC : ∀ v ∈ C, InField gf8 v) (t c : Nat) : blockValue C t c < gf8.size := by
  by_cases hc : c < C.length
  · rw [blockValue, List.getD_eq_getElem _ _ hc]
    exact (hC _ (List.getElem_mem hc)).getD t
  · have hnil : C.getD c [] = [] := List.getD_eq_default _ _ (by omega)
    rw [blockValue, hnil]
    exact gf8.size_pos

/-- The equations of R206: the constraint rows with zero, and a row for each source block with its bytes. -/
def State.rqEquations (s : State) (J : Nat) : List EqRow :=
  rqSystem s.blenVal s.kVal J ((List.range s.kVal).map (fun i => (i, s.symbols gf8 i)))

section
variable (s : State) (J : Nat)

theorem State.rqEquations_ok : ∀ r ∈ s.rqEquations J, r.Ok gf8 (rqL s.kVal) s.blenVal :=
  rqSystem_ok (List.forall_mem_map.2 fun i _ => s.symbols_gf8_ok i)

theorem State.rqEquations_coef : (s.rqEquations J).map EqRow.coef = precodeMatrix s.kVal J := by
  rw [State.rqEquations, rqSystem_coef, List.map_map, precodeMatrix]
  rfl

theorem State.rqEquations_length : (s.rqEquations J).length = rqL s.kVal := by
  rw [← precodeMatrix_length s.kVal J, ← s.rqEquations_coef J, List.length_map]

/-- Values satisfy the equations at byte t exactly when they meet the constraints there and give the source bytes. -/
theorem State.rqEquations_iff (hk : 1 ≤ s.kVal) {x : Nat → Nat} (hx : ∀ c, x c < gf8.size) {t : Nat}
    (ht : t < s.blenVal) :
    (∀ r ∈ s.rqEquations J, rowValue gf8 (rqL s.kVal) r.coef x = r.rhs.getD t 0) ↔
      (∀ r, r < rqS s.kVal → rowValue gf8 (rqL s.kVal) (ldpcRow s.kVal r) x = 0) ∧
      (∀ h, h < rqH s.kVal → rowValue gf8 (rqL s.kVal) (hdpcRow s.kVal h) x = 0) ∧
      ∀ i, i < s.kVal → xorOver (rqCols s.kVal J i) x = (s.slotByte i t).toNat := by
  have hzero : (List.replicate s.blenVal 0).getD t 0 = 0 := by simp [ht]
  have hsource : ∀ i, (s.symbols gf8 i).getD t 0 = (s.slotByte i t).toNat := fun i =>
    s.symbols_getD (.inl rfl) i ht
  simp only [State.rqEquations, rqSystem, constraintRows, List.map_append, List.map_map, List.forall_mem_append,
    List.forall_mem_map, Function.comp_apply, List.mem_range, hzero, rowValue_rqRow hk J _ hx, hsource, and_assoc]

end

/-- The intermediate symbols are blocks that satisfy the equations of R206. -/
theorem State.intermediate_iff {s : State} (hk : 1 ≤ s.kVal) (J : Nat) (C : List Vec) :
    s.Intermediate J C ↔ C.length = rqL s.kVal ∧ (∀ v ∈ C, v.length = s.blenVal ∧ InField gf8 v) ∧
      ∀ t, t < s.blenVal → ∀ r ∈ s.rqEquations J,
        rowValue gf8 (rqL s.kVal) r.coef (blockValue C t) = r.rhs.getD t 0 := by
  constructor
  · intro h
    have hin : ∀ v ∈ C, InField gf8 v := h.constraints.bytes
    refine ⟨h.constraints.count, fun v hv => ⟨h.constraints.lengths v hv, hin v hv⟩, fun t ht => ?_⟩
    rw [s.rqEquations_iff J hk (blockValue_lt hin t) ht]
    exact ⟨fun r hr => h.constraints.ldpc r hr t ht, fun r hr => h.constraints.hdpc r hr t ht,
      fun i hi => h.sources i hi t ht⟩
  · rintro ⟨hcount, hblocks, hsol⟩
    have hx := blockValue_lt fun v hv => (hblocks v hv).2
    have hparts := fun t (ht : t < s.blenVal) => (s.rqEquations_iff J hk (hx t) ht).1 (hsol t ht)
    simp only [forall_and] at hparts
    obtain ⟨hldpc, hhdpc, hsources⟩ := hparts
    exact {
      constraints := {
        count := hcount
        lengths := fun v hv => (hblocks v hv).1
        bytes := fun v hv => (hblocks v hv).2
        ldpc := fun r hr t ht => hldpc t ht r hr
        hdpc := fun h hh t ht => hhdpc t ht h hh }
      sources := fun i hi t ht => hsources t ht i hi }

/-! ### Their only solution -/

/-- The blocks that elimination returns have the length of the right-hand sides. -/
theorem solveSystem_ok {F : Gf} (hF : F.Good) {L m : Nat} {cols : List Nat} {rows : List EqRow} {X : List Vec}
    (hr : ∀ r ∈ rows, r.Ok F L m) (h : solveSystem F cols rows = some X) : ∀ v ∈ X, v.length = m ∧ InField F v := by
  obtain ⟨out, hout, rfl⟩ := Option.map_eq_some_iff.1 h
  have hok := gaussJordan_ok hF cols (by simp) hr hout
  exact List.forall_mem_map.2 fun r hr => ⟨(hok r hr).rhsLength, (hok r hr).rhsIn⟩

/-- Lists of blocks of one length are equal when their values are. -/
theorem blocks_ext {C C' : List Vec} {n m : Nat} (hC : C.length = n) (hC' : C'.length = n)
    (hlen : ∀ v ∈ C, v.length = m) (hlen' : ∀ v ∈ C', v.length = m)
    (h : ∀ c, c < n → ∀ t, t < m → blockValue C t c = blockValue C' t c) : C = C' := by
  refine List.ext_getElem (hC.trans hC'.symm) fun c hc hc' => ?_
  have hv := hlen _ (List.getElem_mem hc)
  have hv' := hlen' _ (List.getElem_mem hc')
  refine List.ext_getElem (hv.trans hv'.symm) fun t ht ht' => ?_
  have hvalue := h c (by omega) t (by omega)
  rwa [blockValue, blockValue, List.getD_eq_getElem _ _ hc, List.getD_eq_getElem _ _ hc', List.getD_eq_getElem _ _ ht,
    List.getD_eq_getElem _ _ ht'] at hvalue

/-- Where the systematic index exists the encoder finds the intermediate symbols, and there are no others (R206). -/
theorem State.rqIntermediate_unique {s : State} {J : Nat} (hk : 1 ≤ s.kVal) (hJ : systematicIndex s.kVal = some J) :
    ∃ C, s.rqIntermediate s.kVal J = some C ∧ s.Intermediate J C ∧ ∀ C', s.Intermediate J C' → C' = C := by
  obtain ⟨-, hrank, -⟩ := (systematicIndex_eq_some s.kVal J).1 hJ
  rw [← s.rqEquations_coef J] at hrank
  obtain ⟨X, hX, hcount, -, hsol⟩ :=
    solveSystem_of_fullRank gf8_good (s.rqEquations_ok J) (s.rqEquations_length J) hrank
  have hblocks := solveSystem_ok gf8_good (s.rqEquations_ok J) hX
  have hx := blockValue_lt fun v hv => (hblocks v hv).2
  refine ⟨X, hX, (State.intermediate_iff hk J X).2 ⟨hcount, hblocks, fun t ht => (hsol t ht _ (hx t)).2 fun c _ => rfl⟩,
    fun C' hC' => ?_⟩
  obtain ⟨hcount', hblocks', hsol'⟩ := (State.intermediate_iff hk J C').1 hC'
  have hx' := blockValue_lt fun v hv => (hblocks' v hv).2
  exact blocks_ext hcount' hcount (fun v hv => (hblocks' v hv).1) (fun v hv => (hblocks v hv).1)
    fun c hc t ht => (hsol t ht _ (hx' t)).1 (hsol' t ht) c hc

/-- Settles O46: the equations of R206 are a square system whose matrix is the non-singular precode matrix. -/
theorem intermediateSymbolsAreTheOnlySolution : Obligations.IntermediateSymbolsAreTheOnlySolution := by
  unfold Obligations.IntermediateSymbolsAreTheOnlySolution
  exact fun _ _ => State.rqIntermediate_unique

end Sys2Proof.Machine
end

section
/-! `RQ.ENC` (O47): where its operands fit it succeeds, and each repair block reads back as its symbol. -/

namespace Sys2Proof.Machine

/-- The blocks `RQ.ENC` writes (line 9 of R208). -/
def State.rqBlocks (s : State) (J : Nat) (C : List Vec) : List (Nat × Vec) :=
  (List.range (parityCountRq s.kVal s.redunVal)).map (fun j => (s.kVal + j, rqSym s.blenVal C s.kVal J (s.kVal + j)))

theorem State.nodup_rqBlocks_slots (s : State) (J : Nat) (C : List Vec) : ((s.rqBlocks J C).map Prod.fst).Nodup := by
  have hslots : (s.rqBlocks J C).map Prod.fst = (List.range (parityCountRq s.kVal s.redunVal)).map (s.kVal + ·) := by
    simp [State.rqBlocks, Function.comp_def]
  rw [hslots]
  exact List.nodup_range.map fun _ _ => Nat.add_left_cancel

theorem exec_rqEnc (s : State) : exec .rqEnc s = conclude s.constructRq (rqEncode s.constructRq) := rfl

theorem outcomeOf_rqEncode_of_fits {s : State} (h : s.RqEncodeFits) : outcomeOf (rqEncode s) = .ok := by
  have hblen := h.blenFits
  have hslots := h.slotsFit
  have hindex : parityCountRq s.kVal s.redunVal ≠ 0 → systematicIndex s.kVal ≠ none := fun hp =>
    Option.isSome_iff_ne_none.1 (h.indexExists hp)
  rw [outcomeOf_rqEncode, if_neg (by omega), if_neg (by omega : ¬s.kVal + parityCountRq s.kVal s.redunVal > s.nslot)]
  split_ifs with hk hp hJ
  · rfl
  · rfl
  · exact absurd hJ (hindex hp)
  · rfl

/-- Where the operands fit `RQ.ENC` succeeds: without repair blocks it only publishes, otherwise it writes them. -/
theorem rqEncode_of_fits {s : State} (h : s.RqEncodeFits) :
    (parityCountRq s.kVal s.redunVal = 0 ∧ rqEncode s = .ok (s.publish s.kVal)) ∨
    ∃ J C, 1 ≤ s.kVal ∧ systematicIndex s.kVal = some J ∧ s.rqIntermediate s.kVal J = some C ∧
      rqEncode s = .ok ((s.setSymbols gf8 (s.rqBlocks J C)).publish (s.kVal + parityCountRq s.kVal s.redunVal)) := by
  have hok := outcomeOf_rqEncode_of_fits h
  cases hr : rqEncode s with
  | error c =>
    rw [hr] at hok
    rw [rqEncode_error hr] at hok
    exact absurd hok (by decide)
  | ok u =>
    obtain ⟨-, -, ⟨hp, rfl⟩ | ⟨J, C, hk, hJ, hC, rfl⟩⟩ := rqEncode_ok hr
    · exact .inl ⟨hp, rfl⟩
    · exact .inr ⟨J, C, hk, hJ, hC, rfl⟩

theorem rqSym_lt {k : Nat} (hk : 1 ≤ k) {C : List Vec} {blen : Nat} (hC : MeetsConstraints k blen C) (J sid t : Nat) :
    (rqSym blen C k J sid).getD t 0 < gf8.size := by
  rw [rqSym_getD hk J sid hC.count hC.lengths]
  exact xorOver_lt fun c _ => blockValue_lt hC.bytes t c

/-- Without repair blocks the buffer stays as it is (R204). -/
theorem rqRepairIn_of_no_parity {s : State} (hp : parityCountRq s.kVal s.redunVal = 0) : s.RqRepairIn s.buf where
  repair := fun h => absurd hp h
  elsewhere := fun _ _ => rfl

/-- Each repair block reads back as the symbol it was computed as (R207). -/
theorem rqRepairIn_rqBlocks {s : State} {J : Nat} {C : List Vec} (hfit : s.blenVal ≤ s.slotb) (hk : 1 ≤ s.kVal)
    (hJ : systematicIndex s.kVal = some J) (hC : s.rqIntermediate s.kVal J = some C) :
    s.RqRepairIn (s.setSymbols gf8 (s.rqBlocks J C)).buf where
  repair := by
    obtain ⟨C', hC', hinter, -⟩ := State.rqIntermediate_unique hk hJ
    obtain rfl : C' = C := Option.some.inj (hC'.symm.trans hC)
    refine fun _ => ⟨J, C', hJ, hinter, fun j hj t ht => ?_⟩
    have hmem : (s.kVal + j, rqSym s.blenVal C' s.kVal J (s.kVal + j)) ∈ s.rqBlocks J C' :=
      List.mem_map_of_mem (List.mem_range.2 hj)
    have hread := State.symbolAt_setSymbols_of_mem (.inl rfl) hmem (s.nodup_rqBlocks_slots J C') hfit ht
      (rqSym_lt hk hinter.constraints J (s.kVal + j) t)
    exact hread.trans (rqSym_getD hk J (s.kVal + j) hinter.constraints.count hinter.constraints.lengths t)
  elsewhere := State.sameBytesOutside_setSymbols (List.forall_mem_map.2 fun j hj =>
    ⟨Nat.le_add_right _ _, Nat.add_lt_add_left (List.mem_range.1 hj) _⟩)

/-- Where the operands fit `RQ.ENC` ends with `done`, and its buffer holds the repair blocks. -/
theorem conclude_rqEncode_of_fits {s : State} (h : s.RqEncodeFits) :
    ∃ m, conclude s (rqEncode s) = .next (s.coded (s.kVal + parityCountRq s.kVal s.redunVal) m) ∧ s.RqRepairIn m := by
  rcases rqEncode_of_fits h with ⟨hp, hr⟩ | ⟨J, C, hk, hJ, hC, hr⟩
  · exact ⟨s.buf, by rw [hr, hp, conclude_ok, State.publish_done]; rfl, rqRepairIn_of_no_parity hp⟩
  · exact ⟨_, by rw [hr, conclude_ok, State.setSymbols_publish_done], rqRepairIn_rqBlocks h.blenFits hk hJ hC⟩

theorem State.RqEncodeFits.constructRq {s : State} (h : s.RqEncodeFits) : s.constructRq.RqEncodeFits where
  blenFits := h.blenFits
  slotsFit := h.slotsFit
  indexExists := h.indexExists

theorem State.RqRepairIn.of_constructRq {s : State} {m : Memory} (h : s.constructRq.RqRepairIn m) : s.RqRepairIn m where
  repair := fun hp =>
    have ⟨J, C, hJ, hC, hrepair⟩ := h.repair hp
    ⟨J, C, hJ, ⟨hC.constraints, hC.sources⟩, hrepair⟩
  elsewhere := h.elsewhere

/-- Settles O47: `RQ_RDY`, set at the dispatch, is nothing the encoder reads. -/
theorem rqEncWritesTheRepairSymbols : Obligations.RqEncWritesTheRepairSymbols := by
  unfold Obligations.RqEncWritesTheRepairSymbols
  intro s _ h
  obtain ⟨m, hexec, hm⟩ := conclude_rqEncode_of_fits h.constructRq
  exact ⟨m, hexec, hm.of_constructRq⟩

end Sys2Proof.Machine
end

section
/-! Phase 1 of the RaptorQ decoder (O53): between its turns the used rows are solved for their pivot columns, and no other
row has a coefficient there. -/

namespace Sys2Proof.Machine

/-- What holds of a working state of L columns and M rows between the turns of phase 1 (R240 to R244). -/
structure Work.Reduced (S H L M : Nat) (w : Work) : Prop where
  rowCount : w.rows.length = M
  usedRows : w.used = w.pivots.map Prod.snd
  usedNodup : w.used.Nodup
  usedSparse : ∀ r ∈ w.used, r < M ∧ (r < S ∨ S + H ≤ r)
  columnsNodup : (w.pivots.map Prod.fst).Nodup
  pivotColumn : ∀ p ∈ w.pivots, p.1 < L ∧ w.classOf p.1 = .pivot
  pivotRow : ∀ p ∈ w.pivots, (w.row p.2).at p.1 ≠ 0 ∧
    ∀ c, c ≠ p.1 → (w.row p.2).at c ≠ 0 → w.classOf c = .inactive
  columnPivot : ∀ c, w.classOf c = .pivot → ∃ r, (c, r) ∈ w.pivots
  cleared : ∀ r, r < M → r ∉ w.used → ∀ p ∈ w.pivots, (w.row r).at p.1 = 0

/-! ### The start (R234, R240) -/

theorem Work.start_classOf {W L : Nat} (rows : List EqRow) {c : Nat} (hc : c < L) :
    (Work.start W L rows).classOf c = if c < W then .unresolved else .inactive := by
  simp [Work.classOf, Work.start, hc]

theorem Work.start_classOf_ne_pivot (W L : Nat) (rows : List EqRow) (c : Nat) :
    (Work.start W L rows).classOf c ≠ .pivot := by
  rcases Nat.lt_or_ge c L with hc | hc
  · rw [Work.start_classOf rows hc]
    split <;> decide
  · rw [Work.classOf_of_le (by simpa [Work.start] using hc)]
    decide

theorem Work.start_reduced (S H W L : Nat) (rows : List EqRow) :
    (Work.start W L rows).Reduced S H L rows.length where
  rowCount := rfl
  usedRows := rfl
  usedNodup := List.nodup_nil
  usedSparse := List.forall_mem_nil _
  columnsNodup := List.nodup_nil
  pivotColumn := List.forall_mem_nil _
  pivotRow := List.forall_mem_nil _
  columnPivot := fun c hc => absurd hc (Work.start_classOf_ne_pivot W L rows c)
  cleared := fun _ _ _ => List.forall_mem_nil _

/-! ### One turn (R241 to R243) -/

section
variable {w t : Work} {r c0 : Nat} (hp : w.Pivoted r c0 t)
include hp

/-- A turn gives a class only to columns that were unresolved. -/
theorem Work.Pivoted.classOf_resolved (hc : w.LowestOpen r c0) {c : Nat} (h : w.classOf c ≠ .unresolved) :
    t.classOf c = w.classOf c := by
  have hclosed : ¬w.openAt r c = true := fun ho => h ((Work.openAt_iff _ _ _).1 ho).1
  have hne : c ≠ c0 := fun e => hclosed (e ▸ hc.isOpen)
  rw [hp.classes, if_neg hne, if_neg hclosed]

/-- The pivot column is zero in every row not in `used` (R243). -/
theorem Work.Pivoted.cleared_pivot {B : Nat} (hB : B < w.rows.length) (hused : B ∉ t.used) : (t.row B).at c0 = 0 := by
  rw [hp.used, List.mem_cons, not_or] at hused
  by_cases hzero : (w.row B).at c0 = 0
  · rw [hp.untouched B (.inr (.inr hzero)), hzero]
  · exact (hp.added B hB hused.1 hused.2 hzero).2.2

/-- A column in which the chosen row is zero keeps its zeros. -/
theorem Work.Pivoted.keeps_zero {B c : Nat} (hB : B < w.rows.length) (hr : (w.row r).at c = 0)
    (hzero : (w.row B).at c = 0) : (t.row B).at c = 0 := by
  by_cases huntouched : B = r ∨ B ∈ w.used ∨ (w.row B).at c0 = 0
  · rw [hp.untouched B huntouched, hzero]
  · obtain ⟨hne, hused, hnz⟩ : B ≠ r ∧ B ∉ w.used ∧ (w.row B).at c0 ≠ 0 := by tauto
    rw [(hp.added B hB hne hused hnz).1, hr, hzero, gfMul_zero_right, Nat.xor_zero]

end

/-- The chosen row, which is not in `used`, is not zero in its pivot column and otherwise only in columns that become or
are inactive (R242). -/
theorem Work.Reduced.chosen_row {S H L M : Nat} {w t : Work} {r c0 : Nat} (h : w.Reduced S H L M)
    (hr : w.Candidate S H r) (hp : w.Pivoted r c0 t) {c : Nat} (hne : c ≠ c0)
    (hnz : (w.row r).at c ≠ 0) : t.classOf c = .inactive := by
  rw [hp.classes, if_neg hne]
  by_cases hopen : w.openAt r c = true
  · rw [if_pos hopen]
  · rw [if_neg hopen]
    cases hcls : w.classOf c with
    | inactive => rfl
    | unresolved => exact absurd ((Work.openAt_iff _ _ _).2 ⟨hcls, hnz⟩) hopen
    | pivot =>
      obtain ⟨q, hq⟩ := h.columnPivot c hcls
      exact absurd (h.cleared r (h.rowCount ▸ hr.isRow) hr.unused _ hq) hnz

/-- Every turn of phase 1 keeps the working state reduced. -/
theorem Work.Reduced.usePivot {S H L M m : Nat} {w : Work} {r : Nat} (h : w.Reduced S H L M) (hw : w.Shaped L m)
    (hr : w.Candidate S H r) : (w.usePivot r).Reduced S H L M := by
  obtain ⟨c0, hc⟩ := Work.exists_lowestOpen hr.weight
  have hp := Work.usePivot_pivoted hw hc
  generalize w.usePivot r = t at hp
  obtain ⟨hunresolved, hnz⟩ := (Work.openAt_iff _ _ _).1 hc.isOpen
  have hc0L : c0 < L := hw.classes ▸ Work.lt_of_openAt hc.isOpen
  have hresolved : ∀ p ∈ w.pivots, p.1 ≠ c0 := fun p hpm e => by
    have := (h.pivotColumn p hpm).2
    rw [e, hunresolved] at this
    exact absurd this (by decide)
  have hchosen : t.classOf c0 = .pivot := by rw [hp.classes, if_pos rfl]
  have hkept : ∀ p ∈ w.pivots, t.classOf p.1 = .pivot := fun p hpm => by
    have hcls := (h.pivotColumn p hpm).2
    rw [hp.classOf_resolved hc (by rw [hcls]; decide), hcls]
  have husedRow : ∀ p ∈ w.pivots, t.row p.2 = w.row p.2 := fun p hpm =>
    hp.untouched p.2 (.inr (.inl (h.usedRows ▸ List.mem_map_of_mem hpm)))
  have hrM : r < M := h.rowCount ▸ hr.isRow
  refine {
    rowCount := hp.rowCount.trans h.rowCount
    usedRows := by rw [hp.used, hp.pivots, h.usedRows]; rfl
    usedNodup := by rw [hp.used]; exact List.nodup_cons.2 ⟨hr.unused, h.usedNodup⟩
    usedSparse := by rw [hp.used]; exact List.forall_mem_cons.2 ⟨⟨hrM, hr.sparse⟩, h.usedSparse⟩
    columnsNodup := ?columnsNodup
    pivotColumn := ?pivotColumn
    pivotRow := ?pivotRow
    columnPivot := ?columnPivot
    cleared := ?cleared }
  case columnsNodup =>
    rw [hp.pivots, List.map_cons, List.nodup_cons]
    refine ⟨fun hmem => ?_, h.columnsNodup⟩
    obtain ⟨p, hpm, e⟩ := List.mem_map.1 hmem
    exact hresolved p hpm e
  case pivotColumn =>
    rw [hp.pivots]
    exact List.forall_mem_cons.2 ⟨⟨hc0L, hchosen⟩, fun p hpm => ⟨(h.pivotColumn p hpm).1, hkept p hpm⟩⟩
  case pivotRow =>
    rw [hp.pivots]
    refine List.forall_mem_cons.2 ⟨?_, fun p hpm => ?_⟩
    · rw [hp.untouched r (.inl rfl)]
      exact ⟨hnz, fun c hne => h.chosen_row hr hp hne⟩
    · rw [husedRow p hpm]
      refine ⟨(h.pivotRow p hpm).1, fun c hne hcz => ?_⟩
      have hcls := (h.pivotRow p hpm).2 c hne hcz
      rw [hp.classOf_resolved hc (by rw [hcls]; decide), hcls]
  case columnPivot =>
    intro c hcls
    rw [hp.pivots]
    rw [hp.classes] at hcls
    split_ifs at hcls with hc0 hopen
    · exact ⟨r, by simp [hc0]⟩
    · obtain ⟨q, hq⟩ := h.columnPivot c hcls
      exact ⟨q, List.mem_cons_of_mem _ hq⟩
  case cleared =>
    intro B hB hused
    have hBw : B < w.rows.length := h.rowCount ▸ hB
    have hold : B ∉ w.used := fun hmem => hused (hp.used ▸ List.mem_cons_of_mem _ hmem)
    rw [hp.pivots]
    exact List.forall_mem_cons.2 ⟨hp.cleared_pivot hBw hused, fun p hpm =>
      hp.keeps_zero hBw (h.cleared r hrM hr.unused p hpm) (h.cleared B hB hold p hpm)⟩

/-- Phase 1 leaves a reduced working state. -/
theorem Work.phase1_reduced {S H W L m : Nat} {rows : List EqRow} (hstart : (Work.start W L rows).Shaped L m)
    (fuel : Nat) :
    (Work.phase1 S H fuel (Work.start W L rows)).Shaped L m ∧
      (Work.phase1 S H fuel (Work.start W L rows)).Reduced S H L rows.length :=
  Work.phase1_induction (P := fun w => w.Shaped L m ∧ w.Reduced S H L rows.length)
    ⟨hstart, Work.start_reduced S H W L rows⟩
    fun _ r h hr => ⟨Work.usePivot_shaped h.1 r, h.2.usePivot h.1 hr.candidate⟩

/-! ### The columns after phase 1 (R244) -/

section
variable {S H L M : Nat} {w : Work} (h : w.Reduced S H L M) (hL : w.cls.length = L)
include h hL

theorem Work.Reduced.mem_inactiveColumns (c : Nat) :
    c ∈ w.inactiveColumns ↔ c < L ∧ ∀ r, (c, r) ∉ w.pivots := by
  rw [Work.mem_inactiveColumns, hL]
  refine and_congr_right fun _ => ⟨fun hne r hr => hne (h.pivotColumn _ hr).2, fun hno hcls => ?_⟩
  obtain ⟨r, hr⟩ := h.columnPivot c hcls
  exact hno r hr

/-- Every column is a pivot column or inactive, and none is both. -/
theorem Work.Reduced.columns_perm : (w.pivots.map Prod.fst ++ w.inactiveColumns).Perm (List.range L) := by
  have hapart : ∀ c ∈ w.pivots.map Prod.fst, ∀ d ∈ w.inactiveColumns, c ≠ d := by
    rintro c hc _ hd rfl
    obtain ⟨p, hp, rfl⟩ := List.mem_map.1 hc
    exact ((h.mem_inactiveColumns hL p.1).1 hd).2 p.2 hp
  refine (List.perm_ext_iff_of_nodup (List.nodup_append.2 ⟨h.columnsNodup, w.inactiveColumns_nodup, hapart⟩)
    List.nodup_range).2 fun c => ?_
  rw [List.mem_append, h.mem_inactiveColumns hL, List.mem_range]
  constructor
  · rintro (hc | hc)
    · obtain ⟨p, hp, rfl⟩ := List.mem_map.1 hc
      exact (h.pivotColumn p hp).1
    · exact hc.1
  · intro hc
    by_cases hpiv : ∃ r, (c, r) ∈ w.pivots
    · obtain ⟨r, hr⟩ := hpiv
      exact .inl (List.mem_map_of_mem hr)
    · exact .inr ⟨hc, fun r hr => hpiv ⟨r, hr⟩⟩

theorem Work.Reduced.columns_length : w.pivots.length + w.inactiveColumns.length = L := by
  simpa using (h.columns_perm hL).length_eq

end

/-- An unused sparse row that is not a candidate is zero in every unresolved column (R241). -/
theorem Work.at_unresolved_of_not_candidate {S H : Nat} {w : Work} {r c : Nat} (hnone : ¬w.Candidate S H r)
    (hr : r < w.rows.length) (hsparse : r < S ∨ S + H ≤ r) (hunused : r ∉ w.used)
    (hc : w.classOf c = .unresolved) : (w.row r).at c = 0 := by
  by_contra hnz
  exact hnone ⟨hr, hsparse, hunused, Work.openCount_pos.2 ⟨c, (Work.openAt_iff _ _ _).2 ⟨hc, hnz⟩⟩⟩

theorem Work.unusedCount_le (w : Work) : w.unusedCount ≤ w.rows.length :=
  List.countP_le_length.trans_eq List.length_range

/-- Settles O53: each turn keeps the working state reduced, and there are turns enough for every row. -/
theorem phaseOneLeavesTheShapeOfTheRule : Obligations.PhaseOneLeavesTheShapeOfTheRule := by
  unfold Obligations.PhaseOneLeavesTheShapeOfTheRule
  intro S H L m
  refine ⟨fun w r => Work.chooseRow_some, fun w => Work.chooseRow_none, fun w r hw hcount => ?_,
    fun W rows _ hstart => ?_⟩
  · obtain ⟨c0, hc⟩ := Work.exists_lowestOpen hcount
    exact ⟨c0, hc, Work.usePivot_pivoted hw hc, Work.usePivot_shaped hw r⟩
  · intro start w
    obtain ⟨hw, h⟩ : w.Shaped L m ∧ w.Reduced S H L rows.length := Work.phase1_reduced hstart rows.length
    obtain ⟨n, turn, -, hfirst, hlast, hturns⟩ := Work.phase1_turns S H rows.length start
    have hends : ∀ r, ¬w.Candidate S H r := Work.phase1_ends start.unusedCount_le
    exact ⟨⟨rfl, rfl, rfl, fun c => Work.start_classOf rows⟩, ⟨n, turn, hfirst, hlast, hturns⟩, hends,
      ⟨h.usedRows, h.usedNodup, h.usedSparse⟩,
      fun p hp => ⟨(h.pivotColumn p hp).1, (h.pivotColumn p hp).2, (h.pivotRow p hp).1,
        fun c _ => (h.pivotRow p hp).2 c⟩,
      h.cleared, ⟨h.columnsNodup, fun c _ => h.columnPivot c⟩,
      fun r hr hsparse hunused c _ =>
        Work.at_unresolved_of_not_candidate (hends r) (h.rowCount ▸ hr) hsparse hunused,
      h.mem_inactiveColumns hw.classes, w.inactiveColumns_sorted, h.columns_length hw.classes⟩

end Sys2Proof.Machine
end

section
/-! The two phases of the RaptorQ decoder as a solution of the system (O49, O50): phase 1 keeps the solutions, and after
it the dense system and the rows of the pivots say together what the whole system says. -/

namespace Sys2Proof.Machine

/-! ### Equations and their kernels -/

/-- What is left of the equation of a row at byte t, with the values x in its columns and the factor b on the right:
b = 1 stands for the equation, b = 0 for its kernel. -/
def EqRow.residual (b t : Nat) (x : Nat → Nat) (r : EqRow) : Nat :=
  dot gf8 r.coef x ^^^ gfMul gf8 b (r.rhs.getD t 0)

/-- Every row of the working state holds at byte t, for the values x and the factor b on the right. -/
def Work.SolvedBy (b t : Nat) (x : Nat → Nat) (w : Work) : Prop :=
  ∀ r, r < w.rows.length → (w.row r).residual b t x = 0

theorem EqRow.residual_zero (t : Nat) (x : Nat → Nat) (r : EqRow) : r.residual 0 t x = dot gf8 r.coef x := by
  rw [EqRow.residual, gfMul_zero_left, Nat.xor_zero]

theorem EqRow.residual_one_eq_zero {L m : Nat} {r : EqRow} (hr : r.Ok gf8 L m) (t : Nat) (x : Nat → Nat) :
    r.residual 1 t x = 0 ↔ dot gf8 r.coef x = r.rhs.getD t 0 := by
  rw [EqRow.residual, gfMul_one_left (hr.rhsIn.getD t), Nat.xor_eq_zero_iff]

theorem gfMul_left_comm {F : Gf} (hF : F.Good) {a b c : Nat} (ha : a < F.size) (hb : b < F.size) (hc : c < F.size) :
    gfMul F a (gfMul F b c) = gfMul F b (gfMul F a c) := by
  rw [← gfMul_assoc hF ha hb hc, gfMul_comm hF ha hb, gfMul_assoc hF hb ha hc]

/-- A factor moves to the other side as its inverse. -/
theorem gfMul_eq_iff {F : Gf} (hF : F.Good) {a y z : Nat} (h0 : a ≠ 0) (ha : a < F.size) (hy : y < F.size)
    (hz : z < F.size) : gfMul F a y = z ↔ y = gfMul F (gfInv F a) z := by
  have hinv := gfInv_lt hF h0 ha
  have hone := gfMul_gfInv hF h0 ha
  constructor
  · rintro rfl
    rw [← gfMul_assoc hF hinv ha hy, hone, gfMul_one_left hy]
  · rintro rfl
    rw [← gfMul_assoc hF ha hinv hz, gfMul_comm hF ha hinv, hone, gfMul_one_left hz]

/-- The product with a row depends only on the values in its non-zero columns. -/
theorem dot_congr {F : Gf} (v : Vec) {x y : Nat → Nat} (h : ∀ c, v.getD c 0 = 0 ∨ x c = y c) :
    dot F v x = dot F v y := by
  rw [← rowValue_eq_dot rfl, ← rowValue_eq_dot rfl, rowValue, rowValue]
  refine xorOver_congr fun c _ => ?_
  rcases h c with h | h
  · rw [h, gfMul_zero_left, gfMul_zero_left]
  · rw [h]

/-! ### Phase 1 keeps the solutions (R243) -/

section
variable {b t : Nat} {x : Nat → Nat} (hb : b < gf8.size) (hx : ∀ c, x c < gf8.size)
include hb hx

theorem EqRow.residual_addMul {L m f : Nat} {a r : EqRow} (hf : f < gf8.size) (ha : a.Ok gf8 L m)
    (hr : r.Ok gf8 L m) :
    (EqRow.addMul gf8 f a r).residual b t x = r.residual b t x ^^^ gfMul gf8 f (a.residual b t x) := by
  have hF := gf8_good
  have hlen : r.coef.length = (vecScale gf8 f a.coef).length := by
    rw [vecScale_length, hr.coefLength, ha.coefLength]
  have hdot : dot gf8 (EqRow.addMul gf8 f a r).coef x = dot gf8 r.coef x ^^^ gfMul gf8 f (dot gf8 a.coef x) := by
    rw [← dot_vecScale hF hf ha.coefIn hx]
    exact dot_vecAdd hF hr.coefIn (InField.vecScale hF hf _) hlen x
  rw [EqRow.residual, hdot, EqRow.addMul_rhs ha hr, gfMul_xor_right hF hb, EqRow.residual, EqRow.residual,
    gfMul_xor_right hF hf, gfMul_left_comm hF hb hf (ha.rhsIn.getD t)]
  ac_rfl

/-- Using a pivot keeps the solutions: it adds multiples of a row that stays. -/
theorem Work.usePivot_solvedBy {L m : Nat} {w : Work} (hw : w.Shaped L m) {r c0 : Nat} (hc : w.LowestOpen r c0) :
    (w.usePivot r).SolvedBy b t x ↔ w.SolvedBy b t x := by
  have hr := Work.isRow_of_openAt hc.isOpen
  have hp := Work.usePivot_pivoted hw hc
  have hrow : (w.usePivot r).row r = w.row r := hp.untouched r (.inl rfl)
  have hkeep : (w.row r).residual b t x = 0 → ∀ B, B < w.rows.length →
      ((w.usePivot r).row B).residual b t x = (w.row B).residual b t x := by
    intro h0 B hB
    have hf := gfMul_lt gf8_good (EqRow.at_lt (hw.row_ok hB) c0) (gfInv gf8 ((w.row r).at c0))
    rw [Work.usePivot_row hc hB]
    split
    · rfl
    · rw [EqRow.residual_addMul hb hx hf (hw.row_ok hr) (hw.row_ok hB), h0, gfMul_zero_right, Nat.xor_zero]
  unfold Work.SolvedBy
  rw [hp.rowCount]
  constructor
  · intro h B hB
    rw [← hkeep (hrow ▸ h r hr) B hB]
    exact h B hB
  · intro h B hB
    rw [hkeep (h r hr) B hB]
    exact h B hB

theorem Work.phase1_solvedBy {S H L m : Nat} {w : Work} (hw : w.Shaped L m) (fuel : Nat) :
    (Work.phase1 S H fuel w).SolvedBy b t x ↔ w.SolvedBy b t x := by
  refine (Work.phase1_induction (P := fun v => v.Shaped L m ∧ (v.SolvedBy b t x ↔ w.SolvedBy b t x))
    ⟨hw, Iff.rfl⟩ fun v r h hr => ⟨Work.usePivot_shaped h.1 r, ?_⟩).2
  obtain ⟨c0, hc⟩ := Work.exists_lowestOpen hr.candidate.weight
  exact (Work.usePivot_solvedBy hb hx h.1 hc).trans h.2

end

/-! ### The system after phase 1 (R245, R248) -/

/-- The part of a row in the inactive columns. -/
def Work.inactiveSum (w : Work) (A : EqRow) (x : Nat → Nat) : Nat :=
  xorOver w.inactiveColumns (fun c => gfMul gf8 (A.at c) (x c))

/-- The value that R248 gives the column of a pivot. -/
def Work.pivotValue (w : Work) (b t : Nat) (x : Nat → Nat) (p : Nat × Nat) : Nat :=
  gfMul gf8 (gfInv gf8 ((w.row p.2).at p.1)) (gfMul gf8 b ((w.row p.2).rhs.getD t 0) ^^^ w.inactiveSum (w.row p.2) x)

theorem Work.inactiveSum_congr {w : Work} (A : EqRow) {x y : Nat → Nat} (h : ∀ c ∈ w.inactiveColumns, x c = y c) :
    w.inactiveSum A x = w.inactiveSum A y :=
  xorOver_congr fun c hc => by rw [h c hc]

theorem Work.pivotValue_congr {w : Work} (b t : Nat) (p : Nat × Nat) {x y : Nat → Nat}
    (h : ∀ c ∈ w.inactiveColumns, x c = y c) : w.pivotValue b t x p = w.pivotValue b t y p := by
  rw [Work.pivotValue, Work.pivotValue, Work.inactiveSum_congr _ h]

section
variable {S H L M m : Nat} {w : Work} (h : w.Reduced S H L M) (hw : w.Shaped L m)
include h

theorem Work.Reduced.mem_used {p : Nat × Nat} (hp : p ∈ w.pivots) : p.2 ∈ w.used :=
  h.usedRows ▸ List.mem_map_of_mem hp

theorem Work.Reduced.isRow {p : Nat × Nat} (hp : p ∈ w.pivots) : p.2 < w.rows.length :=
  h.rowCount ▸ (h.usedSparse _ (h.mem_used hp)).1

/-- The dense system is the rows not in `used`: a dense row is never used. -/
theorem Work.Reduced.mem_denseSystem {r : EqRow} :
    r ∈ w.denseSystem S H ↔ ∃ i, i < M ∧ i ∉ w.used ∧ w.row i = r := by
  have hunused : ∀ i, (decide (S ≤ i ∧ i < S + H) || decide (i ∉ w.used)) = true ↔ i ∉ w.used := by
    intro i
    rw [Bool.or_eq_true, decide_eq_true_iff, decide_eq_true_iff]
    refine ⟨fun hi hused => ?_, .inr⟩
    have := (h.usedSparse i hused).2
    exact hi.elim (fun hd => by omega) (fun hn => hn hused)
  rw [Work.denseSystem_eq]
  simp only [List.mem_map, List.mem_filter, List.mem_range, hunused, h.rowCount, and_assoc]

/-- The row of a pivot is zero in the columns of the other pivots. -/
theorem Work.Reduced.pivotRow_at_other {p q : Nat × Nat} (hp : p ∈ w.pivots) (hq : q ∈ w.pivots) (hne : q.1 ≠ p.1) :
    (w.row p.2).at q.1 = 0 := by
  by_contra hnz
  have hcls := (h.pivotRow p hp).2 q.1 hne hnz
  rw [(h.pivotColumn q hq).2] at hcls
  exact absurd hcls (by decide)

include hw

theorem Work.Reduced.denseSystem_ok : ∀ r ∈ w.denseSystem S H, r.Ok gf8 L m := by
  intro r hr
  obtain ⟨i, hi, -, rfl⟩ := h.mem_denseSystem.1 hr
  exact hw.row_ok (h.rowCount ▸ hi)

/-- The rows of the dense system have their non-zero coefficients in the inactive columns. -/
theorem Work.Reduced.denseSystem_at {r : EqRow} (hr : r ∈ w.denseSystem S H) {c : Nat} (hc : c ∉ w.inactiveColumns) :
    r.at c = 0 := by
  obtain ⟨i, hi, hunused, rfl⟩ := h.mem_denseSystem.1 hr
  rw [h.mem_inactiveColumns hw.classes, not_and_or, not_forall] at hc
  rcases hc with hc | ⟨q, hq⟩
  · have hok := hw.row_ok (h.rowCount ▸ hi)
    exact List.getD_eq_default _ _ (by rw [hok.coefLength]; omega)
  · exact h.cleared i hi hunused _ (not_not.1 hq)

/-- A row of the dense system sees the values in the inactive columns only. -/
theorem Work.Reduced.dot_denseSystem_congr {r : EqRow} (hr : r ∈ w.denseSystem S H) {x y : Nat → Nat}
    (hxy : ∀ c ∈ w.inactiveColumns, x c = y c) : dot gf8 r.coef x = dot gf8 r.coef y := by
  refine dot_congr r.coef fun c => ?_
  by_cases hc : c ∈ w.inactiveColumns
  · exact .inr (hxy c hc)
  · exact .inl (h.denseSystem_at hw hr hc)

/-- A row that sees no value in the pivot columns has its part in the inactive columns only. -/
theorem Work.Reduced.dot_eq_inactiveSum {A : EqRow} (hA : A.coef.length = L) {x : Nat → Nat}
    (hpivots : ∀ q ∈ w.pivots, gfMul gf8 (A.at q.1) (x q.1) = 0) : dot gf8 A.coef x = w.inactiveSum A x :=
  calc dot gf8 A.coef x
      = xorOver (List.range L) (fun c => gfMul gf8 (A.at c) (x c)) := (rowValue_eq_dot hA x).symm
    _ = xorOver (w.pivots.map Prod.fst ++ w.inactiveColumns) (fun c => gfMul gf8 (A.at c) (x c)) :=
        (xorOver_perm (h.columns_perm hw.classes) _).symm
    _ = w.inactiveSum A x := by
        rw [xorOver_append, xorOver_zero (List.forall_mem_map.2 hpivots), Nat.zero_xor, Work.inactiveSum]

/-- The row of a pivot has its own column and inactive ones. -/
theorem Work.Reduced.dot_pivot {p : Nat × Nat} (hp : p ∈ w.pivots) (x : Nat → Nat) :
    dot gf8 (w.row p.2).coef x = gfMul gf8 ((w.row p.2).at p.1) (x p.1) ^^^ w.inactiveSum (w.row p.2) x := by
  have hother : ∀ q ∈ w.pivots, gfMul gf8 ((w.row p.2).at q.1) (if q.1 = p.1 then 0 else x q.1) = 0 := by
    intro q hq
    by_cases hqp : q.1 = p.1
    · rw [if_pos hqp, gfMul_zero_right]
    · rw [h.pivotRow_at_other hp hq hqp, gfMul_zero_left]
  have hinactive : ∀ c ∈ w.inactiveColumns, (if c = p.1 then 0 else x c) = x c := by
    intro c hc
    have hne : c ≠ p.1 := fun e => ((h.mem_inactiveColumns hw.classes c).1 hc).2 p.2 (e ▸ hp)
    rw [if_neg hne]
  rw [dot_take _ x p.1, h.dot_eq_inactiveSum hw (hw.row_ok (h.isRow hp)).coefLength hother,
    w.inactiveSum_congr _ hinactive, Nat.xor_comm]
  rfl

theorem Work.Reduced.inactiveSum_lt {p : Nat × Nat} (hp : p ∈ w.pivots) (x : Nat → Nat) :
    w.inactiveSum (w.row p.2) x < gf8.size :=
  xorOver_lt fun c _ => gfMul_lt gf8_good (EqRow.at_lt (hw.row_ok (h.isRow hp)) c) _

theorem Work.Reduced.pivotValue_lt {p : Nat × Nat} (hp : p ∈ w.pivots) (b t : Nat) (x : Nat → Nat) :
    w.pivotValue b t x p < gf8.size :=
  gfMul_lt gf8_good (gfInv_lt gf8_good (h.pivotRow p hp).1 (EqRow.at_lt (hw.row_ok (h.isRow hp)) p.1)) _

section
variable {b t : Nat} {x : Nat → Nat} (hb : b < gf8.size) (hx : ∀ c, x c < gf8.size)
include hb hx

/-- The row of a pivot says what its column is, given the inactive columns (R248). -/
theorem Work.Reduced.residual_pivot {p : Nat × Nat} (hp : p ∈ w.pivots) :
    (w.row p.2).residual b t x = 0 ↔ x p.1 = w.pivotValue b t x p := by
  have hlt := EqRow.at_lt (hw.row_ok (h.isRow hp)) p.1
  rw [Work.pivotValue, ← gfMul_eq_iff gf8_good (h.pivotRow p hp).1 hlt (hx p.1)
    (xor_lt_size (gfMul_lt gf8_good hb _) (h.inactiveSum_lt hw hp x)), EqRow.residual, h.dot_pivot hw hp,
    Nat.xor_eq_zero_iff]
  constructor
  · intro e
    rw [← e, Nat.xor_assoc, Nat.xor_self, Nat.xor_zero]
  · intro e
    rw [e, Nat.xor_assoc, Nat.xor_self, Nat.xor_zero]

/-- The whole system says what the dense system and the rows of the pivots say. -/
theorem Work.Reduced.solvedBy_iff :
    w.SolvedBy b t x ↔ (∀ r ∈ w.denseSystem S H, r.residual b t x = 0) ∧
      ∀ p ∈ w.pivots, x p.1 = w.pivotValue b t x p := by
  constructor
  · intro hsol
    refine ⟨fun r hr => ?_, fun p hp => (h.residual_pivot hw hb hx hp).1 (hsol _ (h.isRow hp))⟩
    obtain ⟨i, hi, -, rfl⟩ := h.mem_denseSystem.1 hr
    exact hsol i (h.rowCount ▸ hi)
  · rintro ⟨hdense, hpivots⟩ i hi
    by_cases hused : i ∈ w.used
    · rw [h.usedRows] at hused
      obtain ⟨p, hp, rfl⟩ := List.mem_map.1 hused
      exact (h.residual_pivot hw hb hx hp).2 (hpivots p hp)
    · exact hdense _ (h.mem_denseSystem.2 ⟨i, h.rowCount ▸ hi, hused, rfl⟩)

end

/-- What holds of the inactive columns and of the columns of the pivots holds of all. -/
theorem Work.Reduced.forall_columns {P : Nat → Prop} (hinactive : ∀ c ∈ w.inactiveColumns, P c)
    (hpivots : ∀ p ∈ w.pivots, P p.1) : ∀ c, c < L → P c := by
  intro c hc
  rcases List.mem_append.1 ((h.columns_perm hw.classes).mem_iff.2 (List.mem_range.2 hc)) with hc | hc
  · exact List.forall_mem_map.2 hpivots c hc
  · exact hinactive c hc

end

/-! ### Rank (R235, R247) -/

/-- Elimination over the columns outside which the rows are zero succeeds exactly when the rows have no kernel there. -/
theorem solveSystem_isSome_iff_kernel {F : Gf} (hF : F.Good) {L m : Nat} {cols : List Nat} {rows : List EqRow}
    (hr : ∀ r ∈ rows, r.Ok F L m) (hnd : cols.Nodup) (hsupp : ∀ r ∈ rows, ∀ c, c ∉ cols → r.at c = 0) :
    (solveSystem F cols rows).isSome = true ↔
      ∀ x : Nat → Nat, (∀ c, x c < F.size) → (∀ r ∈ rows, dot F r.coef x = 0) → ∀ c ∈ cols, x c = 0 := by
  rw [solveSystem_isSome_coef F cols (homogeneous_coef rows).symm]
  have hok := homogeneous_ok hr
  constructor
  · intro hs x hx hker c hc
    obtain ⟨X, hX⟩ := Option.isSome_iff_exists.1 hs
    obtain ⟨i, hi, rfl⟩ := List.getElem_of_mem hc
    have hvalue : ∀ y : Nat → Nat, (∀ c, y c < F.size) → (∀ c, c ∉ cols → y c = 0) →
        (∀ r ∈ rows, dot F r.coef y = 0) → (X.getD i []).getD 0 0 = y cols[i] := by
      intro y hy hzero hrows
      have huniq := (solveSystem_unique hF (x := fun c _ => y c) (fun c _ => hy c) hok hnd
        (List.forall_mem_map.2 fun r hrm => (holds_homogeneous _ _).2 (hrows r hrm))
        (fun c hc _ => hzero c hc) hX).2.2 i hi 0 Nat.one_pos
      rwa [List.getD_eq_getElem _ _ hi] at huniq
    have hrestricted := hvalue (fun c => if c ∈ cols then x c else 0)
      (fun c => by split; exacts [hx c, F.size_pos]) (fun c hc => if_neg hc) fun r hrm => by
        rw [← hker r hrm]
        refine dot_congr r.coef fun c => ?_
        by_cases hcm : c ∈ cols
        · exact .inr (if_pos hcm)
        · exact .inl (hsupp r hrm c hcm)
    have hnull := hvalue (fun _ => 0) (fun _ => F.size_pos) (fun _ _ => rfl) fun r _ =>
      dot_zero _ _ fun _ => .inr rfl
    rw [hnull, if_pos hc] at hrestricted
    exact hrestricted.symm
  · intro hker
    rw [← Option.ne_none_iff_isSome]
    intro hn
    have hg : gaussJordan F cols [] (homogeneous rows) = none := by simpa [solveSystem] using hn
    obtain ⟨x, hx, ⟨c, hc, hne⟩, -, hrows⟩ := gaussJordan_none hF cols [] (by simp) hok (by simpa using hnd) (by simp)
      (List.forall_mem_map.2 fun _ _ => rfl) ⟨rfl, by simp⟩ (by simp) hg
    exact hne (hker x hx (fun r hrm => (holds_homogeneous _ _).1 (hrows _ (List.mem_map_of_mem hrm))) c hc)

/-- Values with given ones at the keys of a list without repetition. -/
theorem exists_values {l : List (Nat × Nat)} (hl : (l.map Prod.fst).Nodup) (g : Nat × Nat → Nat) (x : Nat → Nat) :
    ∃ y : Nat → Nat, (∀ p ∈ l, y p.1 = g p) ∧ ∀ c, c ∉ l.map Prod.fst → y c = x c := by
  induction l with
  | nil => exact ⟨x, List.forall_mem_nil _, fun _ _ => rfl⟩
  | cons q l ih =>
    rw [List.map_cons, List.nodup_cons] at hl
    obtain ⟨y, hy, hrest⟩ := ih hl.2
    refine ⟨Function.update y q.1 (g q), List.forall_mem_cons.2 ⟨Function.update_self .., fun p hp => ?_⟩,
      fun c hc => ?_⟩
    · have hne : p.1 ≠ q.1 := fun e => hl.1 (e ▸ List.mem_map_of_mem hp)
      rw [Function.update_of_ne hne, hy p hp]
    · rw [List.map_cons, List.mem_cons, not_or] at hc
      rw [Function.update_of_ne hc.1, hrest c hc.2]

/-- Phase 2 succeeds exactly when the whole system has no kernel. -/
theorem Work.Reduced.finish_isSome_iff {S H L M m : Nat} {w : Work} (h : w.Reduced S H L M) (hw : w.Shaped L m) :
    (w.finish S H m).isSome = true ↔
      ∀ x : Nat → Nat, (∀ c, x c < gf8.size) → w.SolvedBy 0 0 x → ∀ c, c < L → x c = 0 := by
  have hfinish : (w.finish S H m).isSome = (solveSystem gf8 w.inactiveColumns (w.denseSystem S H)).isSome := by
    cases hX : solveSystem gf8 w.inactiveColumns (w.denseSystem S H) with
    | none => simp [Work.finish, hX]
    | some X => simp [Work.finish, hX]
  have hb := gf8.size_pos
  rw [hfinish, solveSystem_isSome_iff_kernel gf8_good (h.denseSystem_ok hw) w.inactiveColumns_nodup
    fun r hr c hc => h.denseSystem_at hw hr hc]
  constructor
  · intro hker x hx hsol
    obtain ⟨hdense, hpivots⟩ := (h.solvedBy_iff hw hb hx).1 hsol
    have hzero : ∀ c ∈ w.inactiveColumns, x c = 0 :=
      hker x hx fun r hr => (EqRow.residual_zero 0 x r).symm.trans (hdense r hr)
    refine h.forall_columns hw hzero fun p hp => ?_
    have hsum : w.inactiveSum (w.row p.2) x = 0 := xorOver_zero fun c hc => by rw [hzero c hc, gfMul_zero_right]
    rw [hpivots p hp, Work.pivotValue, hsum, gfMul_zero_left, Nat.xor_self, gfMul_zero_right]
  · intro hker x hx hdense c hc
    obtain ⟨y, hyp, hyi⟩ := exists_values h.columnsNodup (w.pivotValue 0 0 x) x
    have hyx : ∀ c ∈ w.inactiveColumns, y c = x c := fun c hc => hyi c fun hmem => by
      obtain ⟨p, hp, rfl⟩ := List.mem_map.1 hmem
      exact ((h.mem_inactiveColumns hw.classes p.1).1 hc).2 p.2 hp
    have hy : ∀ c, y c < gf8.size := fun c => by
      by_cases hmem : c ∈ w.pivots.map Prod.fst
      · obtain ⟨p, hp, rfl⟩ := List.mem_map.1 hmem
        rw [hyp p hp]
        exact h.pivotValue_lt hw hp 0 0 x
      · rw [hyi c hmem]
        exact hx c
    rw [← hyx c hc]
    refine hker y hy ((h.solvedBy_iff hw hb hy).2 ⟨fun r hr => ?_, fun p hp => ?_⟩) c
      ((h.mem_inactiveColumns hw.classes c).1 hc).1
    · rw [EqRow.residual_zero, h.dot_denseSystem_congr hw hr hyx]
      exact hdense r hr
    · rw [hyp p hp, Work.pivotValue_congr 0 0 p hyx]

/-! ### The blocks found (R246, R248) -/

theorem solveSystem_length {cols : List Nat} {rows : List EqRow} {X : List Vec}
    (h : solveSystem gf8 cols rows = some X) : X.length = cols.length := by
  obtain ⟨result, hresult, rfl⟩ := Option.map_eq_some_iff.1 h
  obtain ⟨-, -, -, hlen, -⟩ := gaussJordan_turns hresult
  simpa using hlen

theorem backSubstitute_ok {L m c0 : Nat} {A : EqRow} {inactive : List (Nat × Vec)} (hA : A.Ok gf8 L m)
    (hnz : A.at c0 ≠ 0) (hblocks : ∀ x ∈ inactive, x.2.length = m) :
    (backSubstitute m inactive c0 A).length = m ∧ InField gf8 (backSubstitute m inactive c0 A) := by
  have hsum : ∀ v ∈ (inactive.filter (fun x => A.at x.1 ≠ 0)).map (fun x => vecScale gf8 (A.at x.1) x.2),
      v.length = m :=
    List.forall_mem_map.2 fun x hx => (vecScale_length ..).trans (hblocks x (List.mem_filter.1 hx).1)
  refine ⟨?_, InField.vecScale gf8_good (gfInv_lt gf8_good hnz (EqRow.at_lt hA c0)) _⟩
  rw [backSubstitute, vecScale_length, vecAdd_length, hA.rhsLength, vecSum_length hsum, Nat.min_self]

section
variable {S H L M m : Nat} {w : Work} {C : List Vec} (h : w.Reduced S H L M) (hw : w.Shaped L m)
  (hC : w.finish S H m = some C)
include h hw hC

/-- The blocks of the inactive columns are those that the elimination finds, and the other columns follow from the rows
of their pivots. -/
theorem Work.Reduced.finish_blocks : ∃ X, solveSystem gf8 w.inactiveColumns (w.denseSystem S H) = some X ∧
    C.length = L ∧
    (∀ i, i < w.inactiveColumns.length → C.getD (w.inactiveColumns.getD i 0) [] = X.getD i []) ∧
    ∀ p ∈ w.pivots, C.getD p.1 [] = backSubstitute m (List.zip w.inactiveColumns X) p.1 (w.row p.2) := by
  unfold Work.finish at hC
  cases hX : solveSystem gf8 w.inactiveColumns (w.denseSystem S H) with
  | none => simp [hX] at hC
  | some X =>
    simp only [hX, Option.some.injEq] at hC
    have hlen := solveSystem_length hX
    have hkeys : (w.pivots.map fun p =>
        (p.1, backSubstitute m (List.zip w.inactiveColumns X) p.1 (w.row p.2))).map Prod.fst =
        w.pivots.map Prod.fst := by simp [Function.comp_def]
    have hget : ∀ c, c < L → C.getD c [] = solvedAt (w.pivots.map (fun p =>
        (p.1, backSubstitute m (List.zip w.inactiveColumns X) p.1 (w.row p.2))) ++
          List.zip w.inactiveColumns X) c := fun c hc => by
      rw [← hC, hw.classes]
      simp [hc]
    refine ⟨X, rfl, by rw [← hC, List.length_map, List.length_range, hw.classes], fun i hi => ?_, fun p hp => ?_⟩
    · have hmem : w.inactiveColumns.getD i 0 ∈ w.inactiveColumns := by
        rw [List.getD_eq_getElem _ _ hi]
        exact List.getElem_mem hi
      obtain ⟨hcL, hno⟩ := (h.mem_inactiveColumns hw.classes _).1 hmem
      rw [hget _ hcL, solvedAt, lookup_append_of_not_mem, lookup_zip w.inactiveColumns_nodup hlen hi]
      · rfl
      · rw [hkeys]
        intro hpiv
        obtain ⟨p, hp, e⟩ := List.mem_map.1 hpiv
        exact hno p.2 (e ▸ hp)
    · rw [hget _ (h.pivotColumn p hp).1, solvedAt, lookup_append_of_mem (hkeys ▸ h.columnsNodup)
        (List.mem_map_of_mem (f := fun p : Nat × Nat => (p.1, _)) hp)]
      rfl

/-- The answer is L blocks of m elements. -/
theorem Work.Reduced.finish_ok : C.length = L ∧ ∀ v ∈ C, v.length = m ∧ InField gf8 v := by
  obtain ⟨X, hX, hlen, hinactive, hpivots⟩ := h.finish_blocks hw hC
  have hXlen := solveSystem_length hX
  have hXok := solveSystem_ok gf8_good (h.denseSystem_ok hw) hX
  refine ⟨hlen, fun v hv => ?_⟩
  obtain ⟨c, hc, rfl⟩ := List.getElem_of_mem hv
  rw [← List.getD_eq_getElem C [] hc]
  refine h.forall_columns hw (P := fun c => (C.getD c []).length = m ∧ InField gf8 (C.getD c []))
    (fun c hc => ?_) (fun p hp => ?_) c (hlen ▸ hc)
  · obtain ⟨i, hi, rfl⟩ := List.getElem_of_mem hc
    have hiX : i < X.length := hXlen ▸ hi
    rw [← List.getD_eq_getElem _ 0 hi, hinactive i hi, List.getD_eq_getElem _ _ hiX]
    exact hXok _ (List.getElem_mem hiX)
  · rw [hpivots p hp]
    exact backSubstitute_ok (hw.row_ok (h.isRow hp)) (h.pivotRow p hp).1 fun x hx =>
      (hXok _ (List.of_mem_zip hx).2).1

theorem Work.Reduced.finish_isPhaseTwo : w.PhaseTwo S H m C :=
  Work.finish_phaseTwo hw h.columnsNodup (fun p hp => ⟨hw.classes ▸ (h.pivotColumn p hp).1, (h.pivotColumn p hp).2,
    h.isRow hp⟩) hC

/-- A solution of the whole system is the answer (R239). -/
theorem Work.Reduced.finish_unique {x : Nat → Nat → Nat} (hx : ∀ t c, x t c < gf8.size)
    (hsol : ∀ t, t < m → w.SolvedBy 1 t (x t)) : ∀ c, c < L → ∀ t, t < m → blockValue C t c = x t c := by
  obtain ⟨X, hX, -, hinactive, -⟩ := h.finish_blocks hw hC
  have hone := one_lt_size gf8_good
  have hok := h.denseSystem_ok hw
  have hparts := fun t (ht : t < m) => (h.solvedBy_iff hw hone (hx t)).1 (hsol t ht)
  have hdense : ∀ r ∈ w.denseSystem S H, r.Holds gf8 (fun c t => if c ∈ w.inactiveColumns then x t c else 0) := by
    intro r hr t ht
    rw [(hok r hr).rhsLength] at ht
    rw [h.dot_denseSystem_congr hw hr (y := x t) fun c hc => if_pos hc]
    exact (EqRow.residual_one_eq_zero (hok r hr) t (x t)).1 ((hparts t ht).1 r hr)
  have huniq := (solveSystem_unique gf8_good (fun c t => by split; exacts [hx t c, gf8.size_pos]) hok
    w.inactiveColumns_nodup hdense (fun c hc _ => if_neg hc) hX).2.2
  have hfound : ∀ c ∈ w.inactiveColumns, ∀ t, t < m → blockValue C t c = x t c := by
    intro c hc t ht
    obtain ⟨i, hi, rfl⟩ := List.getElem_of_mem hc
    have hvalue := huniq i hi t ht
    rw [← hinactive i hi, List.getD_eq_getElem _ _ hi, if_pos hc] at hvalue
    exact hvalue
  refine h.forall_columns hw hfound fun p hp t ht => ?_
  have hrhs := (hw.row_ok (h.isRow hp)).rhsIn.getD t
  rw [(h.finish_isPhaseTwo hw hC).pivotColumns p hp t ht, (hparts t ht).2 p hp, Work.pivotValue, gfMul_one_left hrhs,
    ← w.inactiveSum_congr _ fun c hc => hfound c hc t ht, Work.inactiveSum]

end

/-! ### Both phases -/

theorem Work.start_solvedBy (W L : Nat) (rows : List EqRow) (b t : Nat) (x : Nat → Nat) :
    (Work.start W L rows).SolvedBy b t x ↔ ∀ r ∈ rows, r.residual b t x = 0 := by
  constructor
  · intro h r hr
    obtain ⟨i, hi, rfl⟩ := List.getElem_of_mem hr
    rw [← List.getD_eq_getElem rows ⟨[], []⟩ hi]
    exact h i hi
  · exact fun h i hi => h _ (Work.row_mem (w := Work.start W L rows) hi)

section
variable {S H W L m : Nat} {rows : List EqRow} (hok : ∀ r ∈ rows, r.Ok gf8 L m)
include hok

theorem Work.start_shaped (W : Nat) : (Work.start W L rows).Shaped L m where
  classes := by simp [Work.start]
  rows := fun r hr => ⟨(hok r hr).coefLength, (hok r hr).rhsLength, (hok r hr).coefIn, (hok r hr).rhsIn⟩

/-- The two phases succeed exactly at rank L (R235, R247). -/
theorem twoPhase_isSome_iff : (twoPhase S H W L m rows).isSome = true ↔ FullRank gf8 L (rows.map EqRow.coef) := by
  have hstart := Work.start_shaped hok W
  obtain ⟨hw, h⟩ := Work.phase1_reduced (S := S) (H := H) hstart rows.length
  rw [twoPhase, h.finish_isSome_iff hw]
  refine forall₂_congr fun x hx => ?_
  rw [Work.phase1_solvedBy gf8.size_pos hx hstart, Work.start_solvedBy, List.forall_mem_map]
  refine imp_congr (forall₂_congr fun r hr => ?_) Iff.rfl
  rw [EqRow.residual_zero, rowValue_eq_dot (hok r hr).coefLength]

section
variable {C : List Vec} (hC : twoPhase S H W L m rows = some C)
include hC

theorem twoPhase_ok : C.length = L ∧ ∀ v ∈ C, v.length = m ∧ InField gf8 v :=
  have ⟨hw, h⟩ := Work.phase1_reduced (S := S) (H := H) (Work.start_shaped hok W) rows.length
  h.finish_ok hw hC

theorem twoPhase_phaseTwo : (Work.phase1 S H rows.length (Work.start W L rows)).PhaseTwo S H m C :=
  have ⟨hw, h⟩ := Work.phase1_reduced (S := S) (H := H) (Work.start_shaped hok W) rows.length
  h.finish_isPhaseTwo hw hC

/-- Blocks that satisfy every equation are the ones found (R239). -/
theorem twoPhase_unique {C' : List Vec} (hcount : C'.length = L) (hblocks : ∀ v ∈ C', v.length = m ∧ InField gf8 v)
    (hsol : ∀ t, t < m → ∀ r ∈ rows, rowValue gf8 L r.coef (blockValue C' t) = r.rhs.getD t 0) : C = C' := by
  have hstart := Work.start_shaped hok W
  obtain ⟨hw, h⟩ := Work.phase1_reduced (S := S) (H := H) hstart rows.length
  obtain ⟨hlen, hok'⟩ := twoPhase_ok hok hC
  have hx : ∀ t c, blockValue C' t c < gf8.size := blockValue_lt fun v hv => (hblocks v hv).2
  have hsolved : ∀ t, t < m →
      (Work.phase1 S H rows.length (Work.start W L rows)).SolvedBy 1 t (blockValue C' t) := fun t ht => by
    rw [Work.phase1_solvedBy (one_lt_size gf8_good) (hx t) hstart, Work.start_solvedBy]
    intro r hr
    rw [EqRow.residual_one_eq_zero (hok r hr), ← rowValue_eq_dot (hok r hr).coefLength]
    exact hsol t ht r hr
  exact blocks_ext hlen hcount (fun v hv => (hok' v hv).1) (fun v hv => (hblocks v hv).1)
    (h.finish_unique hw hC hx hsolved)

end

end

end Sys2Proof.Machine
end

section
/-! `RQ.DEC`: its errors in line order (O48), its failure exactly below rank L (O49), the intermediate symbols it finds
(O50), the RaptorQ round trip (O51), and what further present symbols do (O52). -/

namespace Sys2Proof.Machine

/-! ### The decoding system (R233, R235) -/

theorem State.rqReceived_ok (s : State) (k J : Nat) : ∀ r ∈ s.rqReceived k J, r.Ok gf8 (rqL k) s.blenVal :=
  rqSystem_ok (List.forall_mem_map.2 fun i _ => s.symbols_gf8_ok i)

theorem State.rqReceived_coef (s : State) (k J : Nat) : (s.rqReceived k J).map EqRow.coef = s.receivedRows k J := by
  rw [State.rqReceived, rqSystem_coef, List.map_map, State.receivedRows]
  rfl

/-- The two phases find blocks exactly where the system has rank L. -/
theorem State.rqSolve_isSome_iff (s : State) (k J : Nat) :
    (s.rqSolve k J).isSome = true ↔ FullRank gf8 (rqL k) (s.receivedRows k J) := by
  rw [State.rqSolve, twoPhase_isSome_iff (s.rqReceived_ok k J), s.rqReceived_coef]

theorem FullRank.mono {F : Gf} {n : Nat} {rows rows' : List Vec} (h : FullRank F n rows) (hsub : rows ⊆ rows') :
    FullRank F n rows' := fun x hx hrows => h x hx fun v hv => hrows v (hsub hv)

/-- `C` are intermediate symbols whose symbols the present blocks are (R236). -/
structure State.Consistent (s : State) (J : Nat) (C : List Vec) : Prop where
  constraints : MeetsConstraints s.kVal s.blenVal C
  present : ∀ i, i < s.nVal → s.presAt i = true → ∀ t, t < s.blenVal →
    symValue C s.kVal J i t = (s.slotByte i t).toNat

/-- Such symbols satisfy every equation of the decoding system. -/
theorem State.Consistent.solves {s : State} {J : Nat} {C : List Vec} (h : s.Consistent J C) (hk : 1 ≤ s.kVal) {t : Nat}
    (ht : t < s.blenVal) : ∀ r ∈ s.rqReceived s.kVal J,
      rowValue gf8 (rqL s.kVal) r.coef (blockValue C t) = r.rhs.getD t 0 := by
  have hx := blockValue_lt h.constraints.bytes t
  have hzero : (List.replicate s.blenVal 0).getD t 0 = 0 := by simp [ht]
  have hsymbol : ∀ i, (s.symbols gf8 i).getD t 0 = (s.slotByte i t).toNat := fun i => s.symbols_getD (.inl rfl) i ht
  simp only [State.rqReceived, rqSystem, constraintRows, List.map_append, List.map_map, List.forall_mem_append,
    List.forall_mem_map, Function.comp_apply, List.mem_range, List.mem_filter, hzero, rowValue_rqRow hk J _ hx, hsymbol]
  exact ⟨⟨fun r hr => h.constraints.ldpc r hr t ht, fun r hr => h.constraints.hdpc r hr t ht⟩,
    fun i hi => h.present i hi.1 hi.2 t ht⟩

/-- At rank L the two phases find them (R239). -/
theorem State.Consistent.rqSolve_eq {s : State} {J : Nat} {C : List Vec} (h : s.Consistent J C) (hk : 1 ≤ s.kVal)
    (hrank : FullRank gf8 (rqL s.kVal) (s.receivedRows s.kVal J)) : s.rqSolve s.kVal J = some C := by
  obtain ⟨C', hC'⟩ := Option.isSome_iff_exists.1 ((s.rqSolve_isSome_iff s.kVal J).2 hrank)
  rw [hC', twoPhase_unique (s.rqReceived_ok s.kVal J) hC' h.constraints.count
    (fun v hv => ⟨h.constraints.lengths v hv, h.constraints.bytes v hv⟩) fun t ht => h.solves hk ht]

/-! ### The lines of RQ.DEC (R252) -/

section
variable {s : State}

theorem State.DecodeFits.not_over (h : s.DecodeFits) : ¬(s.nVal > s.nslot ∨ s.blenVal > s.slotb) :=
  not_or.2 ⟨h.slotsFit.not_gt, h.blenFits.not_gt⟩

theorem State.DecodeFits.constructRq (h : s.DecodeFits) : s.constructRq.DecodeFits := ⟨h.blenFits, h.slotsFit⟩

/-- The blocks `RQ.DEC` writes (line 11 of R252). -/
def State.rqRecovered (s : State) (J : Nat) (C : List Vec) : List (Nat × Vec) :=
  (s.erased s.kVal).map (fun i => (i, rqSym s.blenVal C s.kVal J i))

section
variable (hfit : s.DecodeFits) (h : decodeContract s = .ok .general) {J : Nat} (hJ : systematicIndex s.kVal = some J)
include hfit h hJ

theorem rqDecode_of_unsolved (hC : s.rqSolve s.kVal J = none) : rqDecode s = .error .decodingFailed := by
  rw [rqDecode, if_neg hfit.not_over, h]
  simp only [hJ, hC]

theorem rqDecode_of_solved {C : List Vec} (hC : s.rqSolve s.kVal J = some C) :
    rqDecode s = .ok ((s.setSymbols gf8 (s.rqRecovered J C)).publish s.kVal) := by
  rw [rqDecode, if_neg hfit.not_over, h]
  simp only [hJ, hC]
  rfl

end

end

/-! ### The errors -/

/-- The outcome of `RQ.DEC`, line by line (R252). -/
theorem outcomeOf_rqDecode (s : State) :
    outcomeOf (rqDecode s) =
      if s.nVal > s.nslot ∨ s.blenVal > s.slotb then .capacity
      else if s.kVal = 0 then .ok
      else if s.nVal = 0 then .insufficientBlocks
      else if s.presentBelow s.nVal = 0 then .decodingFailed
      else if s.kVal > s.nVal ∨ s.presentBelow s.nVal < s.kVal then .insufficientBlocks
      else if ∀ i, i < s.kVal → s.presAt i = true then .ok
      else match systematicIndex s.kVal with
        | none => .capacity
        | some J => if (s.rqSolve s.kVal J).isNone then .decodingFailed else .ok := by
  simp only [rqDecode, decodeContract, s.erased_eq_nil]
  split_ifs
  case neg =>
    cases systematicIndex s.kVal with
    | none => rfl
    | some J =>
      dsimp only
      cases s.rqSolve s.kVal J <;> rfl
  all_goals rfl

/-- Settles O48: `RQ_RDY` is set at the dispatch, and the outcome is that of the lines after it. -/
theorem rqDecErrorsComeInOrder : Obligations.RqDecErrorsComeInOrder := by
  unfold Obligations.RqDecErrorsComeInOrder
  intro s
  obtain ⟨t, hexec, hframe, herr⟩ := conclude_outcomeOf s.constructRq (rqDecode s.constructRq)
  exact ⟨t, hexec, (exec_rqRdy (i := .rqDec) hexec).trans (Bool.or_true _), hframe,
    herr.trans (outcomeOf_rqDecode s.constructRq)⟩

/-! ### Success and failure on the general path -/

theorem rqSym_getD_lt {k : Nat} (hk : 1 ≤ k) {C : List Vec} {blen : Nat} (hcount : C.length = rqL k)
    (hblocks : ∀ v ∈ C, v.length = blen ∧ InField gf8 v) (J sid t : Nat) :
    (rqSym blen C k J sid).getD t 0 < gf8.size := by
  rw [rqSym_getD hk J sid hcount fun v hv => (hblocks v hv).1]
  exact xorOver_lt fun c _ => blockValue_lt (fun v hv => (hblocks v hv).2) t c

/-- The buffer contents `m` hold the symbols of `C` in the erased source slots, and are those of `s` elsewhere (R249). -/
structure State.RqRecoveredIn (s : State) (J : Nat) (C : List Vec) (m : Memory) : Prop where
  elsewhere : SameBytesOutside s (s.withBuf m) s.erasedSlot
  recovered : ∀ i, s.erasedSlot i → ∀ t, t < s.blenVal →
    ((s.withBuf m).slotByte i t).toNat = symValue C s.kVal J i t

theorem State.rqRecoveredIn_rqRecovered {s : State} (hfit : s.DecodeFits) (hk : 1 ≤ s.kVal) {J : Nat} {C : List Vec}
    (hC : s.rqSolve s.kVal J = some C) : s.RqRecoveredIn J C (s.setSymbols gf8 (s.rqRecovered J C)).buf where
  elsewhere := State.sameBytesOutside_setSymbols (List.forall_mem_map.2 fun i hi => (s.mem_erased _ i).1 hi)
  recovered := by
    intro i hi t ht
    obtain ⟨hcount, hblocks⟩ := twoPhase_ok (s.rqReceived_ok s.kVal J) hC
    have hmem : (i, rqSym s.blenVal C s.kVal J i) ∈ s.rqRecovered J C :=
      List.mem_map_of_mem ((s.mem_erased _ i).2 hi)
    have hslots : ((s.rqRecovered J C).map Prod.fst).Nodup := by
      rw [State.rqRecovered, List.map_map]
      exact (s.nodup_erased _).map fun _ _ => id
    have hread := State.symbolAt_setSymbols_of_mem (.inl rfl) hmem hslots hfit.blenFits ht
      (rqSym_getD_lt hk hcount hblocks J i t)
    exact hread.trans (rqSym_getD hk J i hcount (fun v hv => (hblocks v hv).1) t)

section
variable {s : State} (hfit : s.DecodeFits) (hgen : s.GeneralPath) {J : Nat} (hJ : systematicIndex s.kVal = some J)
include hfit hgen hJ

/-- Where the two phases find blocks `RQ.DEC` completes, and the erased blocks are their symbols. -/
theorem exec_rqDec_of_solved {C : List Vec} (hC : s.rqSolve s.kVal J = some C) :
    ∃ m, exec .rqDec s = .next (s.rqReady.coded s.kVal m) ∧ s.RqRecoveredIn J C m := by
  have hdec := rqDecode_of_solved (s := s.constructRq) hfit.constructRq hgen.contract hJ hC
  have hrec := State.rqRecoveredIn_rqRecovered (s := s.constructRq) hfit.constructRq hgen.kPos hC
  refine ⟨_, ?_, hrec.elsewhere, hrec.recovered⟩
  rw [exec_rqDec, hdec, conclude_ok, State.setSymbols_publish_done]
  rfl

theorem exec_rqDec_of_unsolved (hC : s.rqSolve s.kVal J = none) :
    exec .rqDec s = .next (s.rqReady.failed .decodingFailed) := by
  rw [exec_rqDec, rqDecode_of_unsolved (s := s.constructRq) hfit.constructRq hgen.contract hJ hC]
  rfl

end

/-- Settles O49: the two phases find blocks exactly at rank L. -/
theorem rqDecFailsExactlyWhenTheRankIsShort : Obligations.RqDecFailsExactlyWhenTheRankIsShort := by
  unfold Obligations.RqDecFailsExactlyWhenTheRankIsShort
  intro s J hfit hgen hJ
  rw [← s.rqSolve_isSome_iff s.kVal J]
  refine ⟨fun hshort => ?_, fun hrank => ?_⟩
  · have hexec := exec_rqDec_of_unsolved hfit hgen hJ (Option.not_isSome_iff_eq_none.1 hshort)
    exact ⟨hexec, fun hmode => (exec_dec_of_eq_two hmode).trans hexec⟩
  · obtain ⟨C, hC⟩ := Option.isSome_iff_exists.1 hrank
    obtain ⟨m, hexec, hrec⟩ := exec_rqDec_of_solved hfit hgen hJ hC
    exact ⟨C, m, hC, twoPhase_phaseTwo (s.rqReceived_ok s.kVal J) hC, hexec,
      fun hmode => (exec_dec_of_eq_two hmode).trans hexec, hrec.elsewhere, hrec.recovered⟩

/-! ### Consistent blocks (R239, R249) -/

/-- On consistent present blocks of rank L every source block ends as the symbol of the intermediate symbols. -/
theorem State.Consistent.exec_rqDec {s : State} {J : Nat} {C : List Vec} (h : s.Consistent J C) (hfit : s.DecodeFits)
    (hgen : s.GeneralPath) (hJ : systematicIndex s.kVal = some J)
    (hrank : FullRank gf8 (rqL s.kVal) (s.receivedRows s.kVal J)) :
    ∃ m, exec .rqDec s = .next (s.rqReady.coded s.kVal m) ∧
      ∀ i, i < s.kVal → ∀ o, o < s.blenVal → ((s.withBuf m).slotByte i o).toNat = symValue C s.kVal J i o := by
  obtain ⟨m, hexec, hrec⟩ := exec_rqDec_of_solved hfit hgen hJ (h.rqSolve_eq hgen.kPos hrank)
  refine ⟨m, hexec, fun i hi o ho => ?_⟩
  by_cases hp : s.presAt i = true
  · have hkept : ¬s.erasedSlot i := fun he => absurd hp (by simp [he.2])
    rw [hrec.elsewhere.slotByte_eq hfit.blenFits hkept (ho.trans_le hfit.blenFits),
      h.present i (hi.trans_le hgen.kLe) hp o ho]
  · exact hrec.recovered i ⟨hi, by simpa using hp⟩ o ho

/-- Settles O50: the symbols satisfy every equation of a system that has only one solution. -/
theorem rqDecFindsTheIntermediateSymbols : Obligations.RqDecFindsTheIntermediateSymbols := by
  unfold Obligations.RqDecFindsTheIntermediateSymbols
  intro s J C hfit hgen hJ hrank hconstraints hpresent
  have hcons : s.Consistent J C := ⟨hconstraints, hpresent⟩
  obtain ⟨m, hexec, hbytes⟩ := hcons.exec_rqDec hfit hgen hJ hrank
  exact ⟨hcons.rqSolve_eq hgen.kPos hrank, _, hexec, rfl, hbytes⟩

/-! ### What a success says -/

theorem generalPath_of_contract {s : State} (h : decodeContract s = .ok .general) : s.GeneralPath := by
  rcases decodeContract_cases s with ⟨hc, -⟩ | ⟨hc, -⟩ | ⟨hc, -⟩ | ⟨-, hgen⟩
  · simp [h] at hc
  · simp [h] at hc
  · simp [h] at hc
  · exact hgen

theorem allPresent_of_contract {s : State} (h : decodeContract s = .ok .direct) :
    s.kVal = 0 ∨ ∀ i, i < s.kVal → s.presAt i = true := by
  rcases decodeContract_cases s with ⟨-, hk0 | ⟨-, -, -, herased⟩⟩ | ⟨hc, -⟩ | ⟨hc, -⟩ | ⟨hc, -⟩
  · exact .inl hk0
  · exact .inr ((s.erased_eq_nil _).1 herased)
  · simp [h] at hc
  · simp [h] at hc
  · simp [h] at hc

theorem rqDecode_error_ne_ok {s : State} {c : ErrCode} (h : rqDecode s = .error c) : c ≠ .ok := by
  rcases rqDecode_error h with rfl | rfl | rfl <;> decide

/-- A success of `RQ.DEC` is one of the fast path or one at rank L. -/
theorem rqDec_success {s t : State} (h : exec .rqDec s = .next t) (herr : t.err = .ok) :
    s.DecodeFits ∧
      ((decodeContract s = .ok .direct ∧ t = s.rqReady.coded s.kVal s.buf) ∨
        s.GeneralPath ∧ ∃ J, systematicIndex s.kVal = some J ∧
          FullRank gf8 (rqL s.kVal) (s.receivedRows s.kVal J)) := by
  rcases conclude_cases h with ⟨u, hu, rfl⟩ | ⟨c, hc, rfl⟩
  · obtain ⟨hfit, ⟨hdirect, rfl⟩ | ⟨J, C, hgeneral, hJ, hC, -⟩⟩ := rqDecode_ok hu
    · exact ⟨⟨hfit.blenFits, hfit.slotsFit⟩, .inl ⟨hdirect, rfl⟩⟩
    · exact ⟨⟨hfit.blenFits, hfit.slotsFit⟩, .inr ⟨generalPath_of_contract hgeneral, J, hJ,
        (s.rqSolve_isSome_iff s.kVal J).1 (Option.isSome_iff_exists.2 ⟨C, hC⟩)⟩⟩
  · exact absurd herr (rqDecode_error_ne_ok hc)

/-! ### More present symbols -/

theorem exec_rqDec_of_allPresent {s : State} (hfit : s.DecodeFits)
    (h : s.kVal = 0 ∨ (s.kVal ≤ s.nVal ∧ ∀ i, i < s.kVal → s.presAt i = true)) :
    exec .rqDec s = .next (s.rqReady.coded s.kVal s.buf) := by
  rw [exec_rqDec, rqDecode_of_direct (s := s.constructRq) hfit.constructRq
    (decodeContract_of_allPresent (s := s.constructRq) h)]
  rfl

section
variable {s u : State} (hpres : ∀ i, s.presAt i = true → u.presAt i = true)
include hpres

theorem State.presentBelow_mono (n : Nat) : s.presentBelow n ≤ u.presentBelow n :=
  (List.monotone_filter_right _ hpres).length_le

/-- Further present entries add rows to the decoding system. -/
theorem State.receivedRows_subset (hn : u.nVal = s.nVal) (k J : Nat) : s.receivedRows k J ⊆ u.receivedRows k J := by
  rw [State.receivedRows, State.receivedRows, hn]
  exact ((List.monotone_filter_right _ hpres).map _).append_left _ |>.subset

/-- With further entries present a general path stays one, unless no source block is erased any more. -/
theorem State.GeneralPath.mono (h : s.GeneralPath) (hk : u.kVal = s.kVal) (hn : u.nVal = s.nVal) :
    (∀ i, i < u.kVal → u.presAt i = true) ∨ u.GeneralPath := by
  by_cases hall : ∀ i, i < u.kVal → u.presAt i = true
  · exact .inl hall
  · push Not at hall
    obtain ⟨i, hi, hp⟩ := hall
    refine .inr ⟨hk ▸ h.kPos, hk ▸ hn ▸ h.kLe, ?_, i, hi, by simpa using hp⟩
    rw [hk, hn]
    exact h.enough.trans (State.presentBelow_mono hpres _)

end

/-- Settles O52: further rows keep rank L, and without an erased source block nothing has to be solved. -/
theorem moreSymbolsNeverHurt : Obligations.MoreSymbolsNeverHurt := by
  unfold Obligations.MoreSymbolsNeverHurt
  intro s t pres hgen hexec herr hpres
  have hmono : ∀ i, s.presAt i = true → ({ s with pres := pres } : State).presAt i = true := fun i hi =>
    decide_eq_true (hpres i hi)
  obtain ⟨hfit, ⟨hdirect, -⟩ | ⟨-, J, hJ, hrank⟩⟩ := rqDec_success hexec herr
  · simp [hgen.contract] at hdirect
  have hfit' : ({ s with pres := pres } : State).DecodeFits := ⟨hfit.blenFits, hfit.slotsFit⟩
  rcases hgen.mono hmono rfl rfl with hall | hgen'
  · exact ⟨_, exec_rqDec_of_allPresent hfit' (.inr ⟨hgen.kLe, hall⟩), rfl⟩
  · have hrank' := hrank.mono (State.receivedRows_subset hmono rfl s.kVal J)
    obtain ⟨C, hC⟩ := Option.isSome_iff_exists.1 ((State.rqSolve_isSome_iff _ _ J).2 hrank')
    obtain ⟨m, hdec, -⟩ := exec_rqDec_of_solved hfit' hgen' hJ hC
    exact ⟨_, hdec, rfl⟩

/-! ### The round trip -/

/-- After `RQ.ENC`, with any presence bits and any buffer that keeps the blocks still present: the present source blocks
are those of `s`, and where there are repair blocks the present blocks are symbols of the intermediate symbols of `s`. -/
structure State.RqReceivedFrom (s u : State) : Prop where
  source : ∀ i, i < s.kVal → u.presAt i = true → ∀ o, o < s.blenVal → u.slotByte i o = s.slotByte i o
  count : u.nVal = s.kVal + parityCountRq s.kVal s.redunVal
  consistent : parityCountRq s.kVal s.redunVal ≠ 0 →
    ∃ J C, systematicIndex s.kVal = some J ∧ s.Intermediate J C ∧ u.Consistent J C

theorem State.RqRepairIn.receivedFrom {s : State} {m₀ : Memory} (h : s.RqRepairIn m₀) (hs : s.Wf)
    (hfits : s.RqEncodeFits) {u : State} {pres : List Nat} {m : Memory}
    (hu : u = { s.rqReady.coded (s.kVal + parityCountRq s.kVal s.redunVal) m₀ with pres := pres, buf := m })
    (hkeep : ∀ i ∈ pres, i < s.kVal + parityCountRq s.kVal s.redunVal → ∀ o, o < s.blenVal →
      u.slotByte i o = (s.withBuf m₀).slotByte i o) : s.RqReceivedFrom u := by
  subst hu
  have hn := s.rqReady.coded_nVal m₀ (hfits.slotsFit.trans hs.nslot_le)
  have hsource : ∀ i, i < s.kVal → ∀ o, o < s.blenVal → (s.withBuf m₀).slotByte i o = s.slotByte i o :=
    fun i hi o ho => h.elsewhere.slotByte_eq hfits.blenFits (by omega) (ho.trans_le hfits.blenFits)
  refine ⟨fun i hi hp o ho => ?_, hn, fun hp => ?_⟩
  · rw [hkeep i (of_decide_eq_true hp) (by omega) o ho, hsource i hi o ho]
  · obtain ⟨J, C, hJ, hC, hrepair⟩ := h.repair hp
    refine ⟨J, C, hJ, hC, hC.constraints, fun i hi hpi o ho => ?_⟩
    have hin := hi.trans_le hn.le
    rw [hkeep i (of_decide_eq_true hpi) hin o ho]
    rcases Nat.lt_or_ge i s.kVal with hik | hki
    · rw [hsource i hik o ho]
      exact hC.sources i hik o ho
    · obtain ⟨j, rfl⟩ := Nat.exists_eq_add_of_le hki
      exact (hrepair j (by omega) o ho).symm

/-- On the general path there are entries past the source blocks: as many as are erased must be present among them. -/
theorem State.GeneralPath.nVal_ne_kVal {s : State} (h : s.GeneralPath) : s.nVal ≠ s.kVal := by
  intro hn
  obtain ⟨i, hi, hp⟩ := h.someErased
  have hmem := (s.mem_erased s.kVal i).2 ⟨hi, hp⟩
  have hnone : s.presentParity s.kVal = [] := by simp [State.presentParity, hn]
  have hfew := s.erased_le_presentParity h.kLe h.enough
  rw [hnone, List.length_nil, Nat.le_zero, List.length_eq_zero_iff] at hfew
  exact absurd hmem (by simp [hfew])

/-- A success of `RQ.DEC` on what is left of an encode gives the source blocks back (R253). -/
theorem State.RqReceivedFrom.recovers {s u v : State} (h : s.RqReceivedFrom u) (hk : u.kVal = s.kVal)
    (hblen : u.blenVal = s.blenVal) (hexec : exec .rqDec u = .next v) (herr : v.err = .ok) :
    ∀ i o, i < s.kVal → o < s.blenVal → v.slotByte i o = s.slotByte i o := by
  intro i o hi ho
  obtain ⟨hfit, ⟨hdirect, rfl⟩ | ⟨hgen, J, hJ, hrank⟩⟩ := rqDec_success hexec herr
  · rcases allPresent_of_contract hdirect with hk0 | hall
    · omega
    · exact h.source i hi (hall i (hk ▸ hi)) o ho
  · by_cases hp : parityCountRq s.kVal s.redunVal = 0
    · have hn : u.nVal = u.kVal := by rw [h.count, hp, hk, Nat.add_zero]
      exact absurd hn hgen.nVal_ne_kVal
    · obtain ⟨J', C, hJ', hC, hcons⟩ := h.consistent hp
      obtain rfl : J' = J := by
        rw [hk, hJ'] at hJ
        exact Option.some.inj hJ
      obtain ⟨m, hdec, hbytes⟩ := hcons.exec_rqDec hfit hgen hJ hrank
      obtain rfl : u.rqReady.coded u.kVal m = v := by simpa [hdec] using hexec
      refine BitVec.eq_of_toNat_eq ((hbytes i (hk ▸ hi) o (hblen ▸ ho)).trans ?_)
      rw [hk]
      exact hC.sources i hi o ho

/-- Settles O51: what is left of the encode are symbols of the intermediate symbols. -/
theorem rqRoundTrip : Obligations.RqRoundTrip := by
  unfold Obligations.RqRoundTrip
  intro s t hs hfits hexec pres m v _ hkeep hdec herr
  obtain ⟨m₀, henc, hrepair⟩ := conclude_rqEncode_of_fits hfits.constructRq
  obtain rfl : s.rqReady.coded (s.kVal + parityCountRq s.kVal s.redunVal) m₀ = t := by
    rw [exec_rqEnc, henc] at hexec
    exact Host.Outcome.next.inj hexec
  have hn := s.rqReady.coded_nVal m₀ (hfits.slotsFit.trans hs.nslot_le)
  rw [hn] at hkeep
  exact (hrepair.of_constructRq.receivedFrom hs hfits rfl hkeep).recovers rfl rfl hdec herr

end Sys2Proof.Machine
end

section
/-! The selector and the engine facade: the mode that `Select` chooses (O54), and `SEL`, `NOP`, `DEC` and `ENC.AUTO`
as the operations they name (O55 to O59). -/

namespace Sys2Proof.Machine

/-! ### The selector -/

theorem clampLoss_mono {x y : Int} (h : x ≤ y) : clampLoss x ≤ clampLoss y :=
  min_le_min_right _ (max_le_max_right _ h)

/-- Clamping to 0 .. 1000000 passes no ceiling that stands inside the range (R271). -/
theorem le_clampLoss_iff {c : Int} (hpos : 0 < c) (hle : c ≤ 1000000) (x : Int) : c ≤ clampLoss x ↔ c ≤ x := by
  have hppm : c ≤ (Config.ppm : Int) := hle
  simp [clampLoss, hppm, not_le.2 hpos]

/-- Without chunks the selector names GF(256) (R275). -/
theorem selectMode_of_nonpos {cnt : Int} (h : cnt ≤ 0) (loss t8 t16 : Int) : selectMode cnt loss t8 t16 = .rs8 :=
  if_pos h

/-- From one chunk on the count chooses the ceiling, and the field where the loss rate stays below it (R275). -/
theorem selectMode_of_pos {cnt : Int} (h : 1 ≤ cnt) (loss t8 t16 : Int) :
    selectMode cnt loss t8 t16 =
      if (if cnt ≤ 255 then t8 else t16) ≤ clampLoss loss then .rq else if cnt ≤ 255 then .rs8 else .rs16 := by
  rw [selectMode, if_neg (by omega)]
  by_cases h255 : cnt ≤ 255 <;> simp only [h255, if_true, if_false, ge_iff_le]

theorem selectMode_eq_rq_iff (cnt loss t8 t16 : Int) :
    selectMode cnt loss t8 t16 = .rq ↔ 1 ≤ cnt ∧ (if cnt ≤ 255 then t8 else t16) ≤ clampLoss loss := by
  by_cases hcnt : 1 ≤ cnt
  · rw [selectMode_of_pos hcnt, and_iff_right hcnt]
    split_ifs <;> simp [*]
  · simp [selectMode_of_nonpos (Int.not_lt.1 hcnt), hcnt]

/-- Where the loss rate does not reach the ceiling, the count alone chooses the field (R275). -/
theorem selectMode_of_ne_rq {cnt loss t8 t16 : Int} (h : selectMode cnt loss t8 t16 ≠ .rq) :
    selectMode cnt loss t8 t16 = if cnt ≤ 255 then .rs8 else .rs16 := by
  by_cases hcnt : 1 ≤ cnt
  · rw [selectMode_of_pos hcnt, if_neg fun hceil => h ((selectMode_eq_rq_iff ..).2 ⟨hcnt, hceil⟩)]
  · rw [selectMode_of_nonpos (Int.not_lt.1 hcnt), if_pos (by omega)]

theorem selectMode_value (cnt loss t8 t16 : Int) :
    (selectMode cnt loss t8 t16).value =
      if cnt ≤ 0 then 0
      else if cnt ≤ 255 then (if min (max loss 0) 1000000 ≥ t8 then 2 else 0)
      else if min (max loss 0) 1000000 ≥ t16 then 2 else 1 := by
  simp only [selectMode, apply_ite CodingMode.value]
  rfl

/-- Settles O54: RaptorQ is chosen from the ceiling on, and clamping keeps the order and the ceilings in range. -/
theorem selectorHasOneThreshold : Obligations.SelectorHasOneThreshold := by
  unfold Obligations.SelectorHasOneThreshold
  refine ⟨selectMode_value, fun cnt x y t8 t16 hxy hx => ?_, fun cnt x t8 t16 hcnt hpos hle => ?_, by decide⟩
  · obtain ⟨hcnt, hceil⟩ := (selectMode_eq_rq_iff cnt x t8 t16).1 hx
    exact (selectMode_eq_rq_iff cnt y t8 t16).2 ⟨hcnt, hceil.trans (clampLoss_mono hxy)⟩
  · rw [selectMode_eq_rq_iff, le_clampLoss_iff hpos hle, and_iff_right hcnt]

/-! ### SEL, NOP and DEC -/

theorem exec_sel (s : State) : exec .sel s =
    .next (s.answered (selectMode s.opa.toInt s.opb.toInt s.thr8.toInt s.thr16.toInt).value) := rfl

/-- Settles O55: `SEL` answers the value of the selector on its four signed operands. -/
theorem selAnswersTheSelectedMode : Obligations.SelAnswersTheSelectedMode := by
  unfold Obligations.SelAnswersTheSelectedMode
  intro s
  rw [exec_sel, selectMode_value]

theorem exec_nop (s : State) : exec .nop s = .next s.done := rfl

/-- Settles O59: all that `NOP` does is `done`. -/
theorem nopOnlyClearsTheError : Obligations.NopOnlyClearsTheError := by
  unfold Obligations.NopOnlyClearsTheError
  exact exec_nop

/-- `DEC` raises `E_BADMODE` in the modes above 2 (R282). -/
theorem exec_dec_of_two_lt {s : State} (h : 2 < s.mode.toNat) : exec .dec s = .next (s.failed .badMode) := by
  have hexec : exec .dec s = execDec s := rfl
  rw [hexec, execDec, unsignedWord, if_pos h, conclude_error, State.raise_eq_failed]

/-- Settles O58: the three cases of the dispatch. -/
theorem decDispatchesByMode : Obligations.DecDispatchesByMode := by
  unfold Obligations.DecDispatchesByMode
  exact fun s => ⟨exec_dec_of_two_lt, fun h => exec_dec_of_eq_two (BitVec.eq_of_toNat_eq h),
    fun h => exec_dec_of_le_one (Nat.le_of_lt_succ h)⟩

/-! ### ENC.AUTO -/

/-- The encode command that a mode names (R280). -/
def CodingMode.encoder (m : CodingMode) : Instr := if m = .rq then .rqEnc else .rsEnc

/-- `ENC.AUTO` and the encode command it dispatches to run the same pseudocode from the same state (R280). -/
theorem exec_encoder (s : State) : exec s.autoMode.encoder s =
    conclude (s.dispatched .encAuto) (encodeBy s.autoMode (s.dispatched .encAuto)) := by
  rw [State.dispatched, dispatchesRq_encAuto]
  cases s.autoMode <;> rfl

theorem encodeBy_error {m : CodingMode} {s : State} {c : ErrCode} (h : encodeBy m s = .error c) : c ≠ .ok := by
  cases m with
  | rs8 | rs16 => rcases rsEncode_error h with rfl | rfl <;> decide
  | rq => rw [rqEncode_error h]; decide

/-- After a success of the selected encoder `ENC.AUTO` has written `MODE` besides (R280). -/
theorem exec_encAuto_of_success {s t : State} (h : exec s.autoMode.encoder s = .next t) (hok : t.err = .ok) :
    exec .encAuto s = .next { t with mode := BitVec.ofNat 32 s.autoMode.value } := by
  rw [exec_encoder] at h
  rw [exec_encAuto]
  rcases conclude_cases h with ⟨u, hr, rfl⟩ | ⟨c, hr, rfl⟩
  · rw [hr]; rfl
  · exact absurd hok (encodeBy_error hr)

/-- An error of the selected encoder is the error of `ENC.AUTO`, and `MODE` stays (R280). -/
theorem exec_encAuto_of_error {s t : State} (h : exec s.autoMode.encoder s = .next t) (herr : t.err ≠ .ok) :
    exec .encAuto s = .next t := by
  rw [exec_encoder] at h
  rw [exec_encAuto]
  rcases conclude_cases h with ⟨u, hr, rfl⟩ | ⟨c, hr, rfl⟩
  · exact absurd rfl herr
  · rw [hr]; rfl

theorem rsField_eq_gf8_iff (k : Nat) : rsField k = gf8 ↔ k ≤ 255 := by
  have hne : gf16 ≠ gf8 := by decide
  simp [rsField, hne]

/-- The selector and the coder split at the same 255 (R280). -/
theorem State.autoMode_eq_rs8_iff {s : State} (h : s.autoMode ≠ .rq) : s.autoMode = .rs8 ↔ rsField s.kVal = gf8 := by
  have hmode : s.autoMode = if (s.kVal : Int) ≤ 255 then .rs8 else .rs16 := selectMode_of_ne_rq h
  rw [hmode, rsField_eq_gf8_iff]
  simp

theorem State.autoMode_of_k_zero {s : State} (h : s.k = 0) : s.autoMode = .rs8 := by
  have hk : (s.kVal : Int) ≤ 0 := by simp [State.kVal, unsignedWord, h]
  exact selectMode_of_nonpos hk _ _ _

/-- Settles O56: `ENC.AUTO` is the encoder of its mode, with `MODE` written after a success. -/
theorem encAutoDispatchesToTheSelectedEncoder : Obligations.EncAutoDispatchesToTheSelectedEncoder := by
  unfold Obligations.EncAutoDispatchesToTheSelectedEncoder
  intro s
  obtain ⟨t, hexec⟩ : ∃ t, exec s.autoMode.encoder s = .next t := exec_encoder s ▸ conclude_next _ _
  exact ⟨⟨t, hexec, exec_encAuto_of_success hexec, exec_encAuto_of_error hexec⟩,
    State.autoMode_of_k_zero, State.autoMode_eq_rs8_iff⟩

theorem exec_encAuto_of_rsFits {s : State} (hs : s.Wf) (hmode : s.autoMode ≠ .rq) (h : s.RsEncodeFits) :
    ∃ m, s.RsParityIn m ∧ exec .encAuto s = .next
      { s.coded (s.kVal + parityCountRs s.kVal s.redunVal) m with mode := BitVec.ofNat 32 s.autoMode.value } := by
  have hencoder : s.autoMode.encoder = .rsEnc := if_neg hmode
  obtain ⟨m, hexec, hparity⟩ := rsEncWritesTheParity s hs h
  exact ⟨m, hparity, exec_encAuto_of_success (hencoder ▸ hexec) rfl⟩

theorem exec_encAuto_of_rqFits {s : State} (hs : s.Wf) (hmode : s.autoMode = .rq) (h : s.RqEncodeFits) :
    ∃ m, s.RqRepairIn m ∧ exec .encAuto s = .next
      { s.rqReady.coded (s.kVal + parityCountRq s.kVal s.redunVal) m with mode := 2 } := by
  have hencoder : s.autoMode.encoder = .rqEnc := if_pos hmode
  obtain ⟨m, hexec, hrepair⟩ := rqEncWritesTheRepairSymbols s hs h
  have hauto := exec_encAuto_of_success (hencoder ▸ hexec) rfl
  rw [hmode] at hauto
  exact ⟨m, hrepair, hauto⟩

/-- Settles O57: the selected encoder completes (O31, O47), and `MODE` is written after it. -/
theorem encAutoCompletes : Obligations.EncAutoCompletes := by
  unfold Obligations.EncAutoCompletes
  exact fun s hs => ⟨exec_encAuto_of_rsFits hs, exec_encAuto_of_rqFits hs⟩

end Sys2Proof.Machine
end

section
/-! The outcomes of the table R300 (O20), what an error leaves (O15), and that no command reads `ERR` or `ERRF`
(O19). -/

namespace Sys2Proof.Machine

/-! ### The outcomes of the table -/

/-- A command leaves in `ERR` an outcome the table R300 gives it, and `ERRF` says whether it is an error (R29). -/
theorem exec_outcome {i : Instr} {s t : State} (h : exec i s = .next t) :
    t.err ∈ outcomesOf s i ∧ t.errf = decide (t.err ≠ .ok) := by
  obtain ⟨r, hexec, hends⟩ := exec_concludes i s
  obtain ⟨u, hu, houtcome⟩ := conclude_endsIn hends (s.dispatched i)
  obtain rfl : t = u := by simpa [hexec, hu, eq_comm] using h
  exact houtcome

theorem exec_err_ne_invalidRedundancy {i : Instr} {s t : State} (h : exec i s = .next t) :
    t.err ≠ .invalidRedundancy :=
  fun hres => invalidRedundancy_notMem_outcomesOf s i (hres ▸ (exec_outcome h).1)

/-- A word that is no command ends with E_ILLEGAL (R96). -/
theorem State.command_err_of_illegal {s t : State} {w : Word} (hillegal : ∀ i, decode w ≠ .ok i)
    (h : s.command w = .next t) : t.err = .illegal := by
  rcases State.command_cases h with ⟨i, hi, -⟩ | ⟨-, rfl⟩
  · exact absurd hi (hillegal i)
  · rfl

/-- Settles O20: every command ends in an outcome of its row of the table, and no row has the reserved code. -/
theorem outcomesAreThoseOfTheTable : Obligations.OutcomesAreThoseOfTheTable := by
  unfold Obligations.OutcomesAreThoseOfTheTable
  exact ⟨by decide, fun _ => rfl,
    fun i s t h => ⟨(exec_outcome h).1, exec_err_ne_invalidRedundancy h⟩,
    fun s t w => State.command_err_of_illegal⟩

/-! ### What an error leaves -/

/-- An error of a command is a `raise` on the dispatched state, which differs from `s` in `RQ_RDY` at most (R305). -/
theorem exec_eq_of_error {i : Instr} {s t : State} (h : exec i s = .next t) (herr : t.err ≠ .ok) :
    t = { s with err := t.err, errf := true, rqRdy := t.rqRdy } := by
  rcases exec_cases h with ⟨u, -, rfl⟩ | ⟨c, -, -, rfl⟩
  · exact absurd rfl herr
  · rw [State.dispatched_eq]
    rfl

/-- Settles O15: neither a command's `raise` nor that of an illegal word writes more than the error, and the dispatch
only sets `RQ_RDY`. -/
theorem anErrorChangesNothingElse : Obligations.AnErrorChangesNothingElse := by
  unfold Obligations.AnErrorChangesNothingElse
  intro s t w h
  rcases State.command_cases h with ⟨i, -, hexec⟩ | ⟨-, rfl⟩
  · refine ⟨fun herr => ⟨exec_eq_of_error hexec herr, fun hready => ?_⟩, fun hok => ?_⟩
    · rw [exec_rqRdy hexec, hready, Bool.true_or]
    · simpa [hok] using (exec_outcome hexec).2
  · exact ⟨fun _ => ⟨rfl, id⟩, nofun⟩

/-! ### The error of the command before

A state with another error has the same operands, blocks and presence bits, so each pseudocode takes the same branch
in both; `done` and `raise` then overwrite the error. -/

/-- The state with `e` in `ERR` and `f` in `ERRF`. -/
def State.withError (s : State) (e : ErrCode) (f : Bool) : State := { s with err := e, errf := f }

section
variable (s : State) (e : ErrCode) (f : Bool)

/-- Both ends of a command overwrite the error it found (R309). -/
theorem conclude_withError {r r' : Except ErrCode State} (h : r' = r.map (·.withError e f)) :
    conclude (s.withError e f) r' = conclude s r := by
  subst h
  cases r with
  | ok u => rfl
  | error c => rfl

theorem State.setBlks_withError (bs : List (Nat × List Byte)) :
    (s.withError e f).setBlks bs = (s.setBlks bs).withError e f := by
  induction bs generalizing s with
  | nil => rfl
  | cons b bs ih => exact ih (s.setBlk b.1 b.2)

/-- The blocks and the block count a coder leaves are those it leaves after any other error. -/
theorem State.setSymbols_publish_withError (F : Gf) (bs : List (Nat × Vec)) (n : Nat) :
    ((s.withError e f).setSymbols F bs).publish n = ((s.setSymbols F bs).publish n).withError e f :=
  congrArg (·.publish n) (s.setBlks_withError e f _)

theorem decodeContract_withError : decodeContract (s.withError e f) = decodeContract s := rfl

theorem State.kVal_withError : (s.withError e f).kVal = s.kVal := rfl

theorem State.rqIntermediate_withError (k J : Nat) :
    (s.withError e f).rqIntermediate k J = s.rqIntermediate k J := rfl

theorem State.rsRecover_withError (F : Gf) (k : Nat) : (s.withError e f).rsRecover F k = s.rsRecover F k := rfl

theorem State.rqSolve_withError (k J : Nat) : (s.withError e f).rqSolve k J = s.rqSolve k J := rfl

theorem rsEncode_withError : rsEncode (s.withError e f) = (rsEncode s).map (·.withError e f) := by
  simp only [rsEncode, apply_ite (Except.map _)]
  refine ite_congr rfl (fun _ => rfl) fun _ => ite_congr rfl (fun _ => rfl) fun _ =>
    ite_congr rfl (fun _ => rfl) fun _ => ite_congr rfl (fun _ => rfl) fun _ => ?_
  exact congrArg Except.ok (s.setSymbols_publish_withError ..)

theorem rqEncode_withError : rqEncode (s.withError e f) = (rqEncode s).map (·.withError e f) := by
  simp only [rqEncode, apply_ite (Except.map _)]
  refine ite_congr rfl (fun _ => rfl) fun _ => ite_congr rfl (fun _ => rfl) fun _ =>
    ite_congr rfl (fun _ => rfl) fun _ => ite_congr rfl (fun _ => rfl) fun _ => ?_
  rw [s.kVal_withError]
  cases systematicIndex s.kVal with
  | none => rfl
  | some J =>
    dsimp only
    rw [s.rqIntermediate_withError]
    cases s.rqIntermediate s.kVal J with
    | none => rfl
    | some C => exact congrArg Except.ok (s.setSymbols_publish_withError ..)

theorem rsDecode_withError : rsDecode (s.withError e f) = (rsDecode s).map (·.withError e f) := by
  simp only [rsDecode, apply_ite (Except.map _)]
  refine ite_congr rfl (fun _ => rfl) fun _ => ite_congr rfl (fun _ => rfl) fun _ => ?_
  rw [decodeContract_withError, s.kVal_withError, s.rsRecover_withError]
  cases decodeContract s with
  | error c => rfl
  | ok path =>
    cases path with
    | direct => rfl
    | general =>
      cases s.rsRecover (rsField s.kVal) s.kVal with
      | none => rfl
      | some X => exact congrArg Except.ok (s.setSymbols_publish_withError ..)

theorem rqDecode_withError : rqDecode (s.withError e f) = (rqDecode s).map (·.withError e f) := by
  simp only [rqDecode, apply_ite (Except.map _)]
  refine ite_congr rfl (fun _ => rfl) fun _ => ?_
  rw [decodeContract_withError, s.kVal_withError]
  cases decodeContract s with
  | error c => rfl
  | ok path =>
    cases path with
    | direct => rfl
    | general =>
      cases systematicIndex s.kVal with
      | none => rfl
      | some J =>
        dsimp only
        rw [s.rqSolve_withError]
        cases s.rqSolve s.kVal J with
        | none => rfl
        | some C => exact congrArg Except.ok (s.setSymbols_publish_withError ..)

theorem fieldPartial_withError (x v : Nat) : fieldPartial (s.withError e f) x v = fieldPartial s x v := by
  rw [fieldPartial_eq, fieldPartial_eq]
  split <;> rfl

theorem exec_rqEnc_withError : exec .rqEnc (s.withError e f) = exec .rqEnc s :=
  conclude_withError s.constructRq e f (rqEncode_withError s.constructRq e f)

theorem exec_rsEnc_withError : exec .rsEnc (s.withError e f) = exec .rsEnc s :=
  conclude_withError s e f (rsEncode_withError s e f)

theorem exec_rqDec_withError : exec .rqDec (s.withError e f) = exec .rqDec s :=
  conclude_withError s.constructRq e f (rqDecode_withError s.constructRq e f)

theorem exec_rsDec_withError : exec .rsDec (s.withError e f) = exec .rsDec s :=
  conclude_withError s e f (rsDecode_withError s e f)

/-- `ENC.AUTO` does what its encoder does, and `MODE` depends on how that ended (R280). -/
theorem exec_encAuto_withError : exec .encAuto (s.withError e f) = exec .encAuto s := by
  have hmode : (s.withError e f).autoMode = s.autoMode := rfl
  obtain ⟨t, h⟩ : ∃ t, exec s.autoMode.encoder s = .next t := exec_encoder s ▸ conclude_next _ _
  have h' : exec (s.withError e f).autoMode.encoder (s.withError e f) = .next t := by
    rw [hmode, ← h]
    cases s.autoMode with
    | rs8 | rs16 => exact exec_rsEnc_withError s e f
    | rq => exact exec_rqEnc_withError s e f
  by_cases hok : t.err = .ok
  · rw [exec_encAuto_of_success h' hok, exec_encAuto_of_success h hok, hmode]
  · rw [exec_encAuto_of_error h' hok, exec_encAuto_of_error h hok]

/-- `DEC` does what the decoder of its mode does, and raises E_BADMODE without one (R282). -/
theorem exec_dec_withError : exec .dec (s.withError e f) = exec .dec s := by
  rcases lt_trichotomy s.mode.toNat 2 with hm | hm | hm
  · have hle : s.mode.toNat ≤ 1 := Nat.le_of_lt_succ hm
    rw [exec_dec_of_le_one hle, exec_dec_of_le_one (s := s.withError e f) hle, exec_rsDec_withError]
  · have heq : s.mode = 2 := BitVec.eq_of_toNat_eq hm
    rw [exec_dec_of_eq_two heq, exec_dec_of_eq_two (s := s.withError e f) heq, exec_rqDec_withError]
  · rw [exec_dec_of_two_lt hm, exec_dec_of_two_lt (s := s.withError e f) hm]
    rfl

end

/-- Settles O19: no pseudocode reads the error, and both its ends overwrite it. -/
theorem commandsDoNotReadTheError : Obligations.CommandsDoNotReadTheError := by
  unfold Obligations.CommandsDoNotReadTheError
  intro i s e f
  cases i with
  | nop | sel | gf8Add | gf8Mul | gf8Exp | gf16Add | gf16Mul | gf16Exp => rfl
  | gf8Div | gf8Inv | gf8Log | gf16Div | gf16Inv | gf16Log => exact fieldPartial_withError s e f _ _
  | rsEnc => exact exec_rsEnc_withError s e f
  | rsDec => exact exec_rsDec_withError s e f
  | rqEnc => exact exec_rqEnc_withError s e f
  | rqDec => exact exec_rqDec_withError s e f
  | encAuto => exact exec_encAuto_withError s e f
  | dec => exact exec_dec_withError s e f

end Sys2Proof.Machine
end

section
/-! A platform reset (O4): the registers, the presence bits and the buffer read as after the first reset. -/

namespace Sys2Proof.Machine

theorem step_of_reset {s : State} {rest : List HostInput} (h : s.script = .reset :: rest) :
    step s = .next { s with script := rest }.applyReset := by
  rw [step, h]
  rfl

/-- A register shows the capacities, the other registers and the presence bits, and a reset gives all of them the values
of the first reset (R330); the counter, the script and the replies are in no register. -/
theorem State.readReg_applyReset (s : State) (off : Nat) :
    s.applyReset.readReg off = (State.resetOf s.nslot s.slotb).readReg off := by
  have hnslot : s.applyReset.nslot = (State.resetOf s.nslot s.slotb).nslot := rfl
  rw [State.readReg, State.readReg, hnslot]
  cases regAt (State.resetOf s.nslot s.slotb).nslot off with
  | named r => cases r <;> rfl
  | presWord w => rfl
  | reserved => rfl

/-- Settles O4: the next input is the reset, and nothing it leaves in a register or in the buffer is of `s`. -/
theorem platformResetRestoresResetValues : Obligations.PlatformResetRestoresResetValues := by
  unfold Obligations.PlatformResetRestoresResetValues
  intro s rest h
  exact ⟨_, step_of_reset h, rfl, rfl, rfl, State.readReg_applyReset { s with script := rest }, fun _ => rfl,
    fun _ => rfl⟩

end Sys2Proof.Machine
end

section
/-! A decode never reads an erased block (O40). Two states with the same operands, presence bits and present blocks give
both decoders the same equations, so the decoders raise the same error or write the same blocks to the erased slots. -/

namespace Sys2Proof.Machine

/-! ### What a decode may read (R335) -/

/-- `s'` has the instance, the operands, the presence bits and the blocks of the present entries of `s`. -/
structure State.SameReceived (s s' : State) : Prop where
  nslot : s'.nslot = s.nslot
  slotb : s'.slotb = s.slotb
  k : s'.k = s.k
  n : s'.n = s.n
  blen : s'.blen = s.blen
  pres : s'.pres = s.pres
  blocks : ∀ x o, x < s.nVal → s.presAt x = true → o < s.blenVal → s'.slotByte x o = s.slotByte x o

section
variable {s s' : State} (h : s.SameReceived s')
include h

/-- The dispatch to the RaptorQ unit changes nothing that a decode reads. -/
theorem State.SameReceived.constructRq : s.constructRq.SameReceived s'.constructRq :=
  ⟨h.nslot, h.slotb, h.k, h.n, h.blen, h.pres, h.blocks⟩

/-! ### Operands and presence bits -/

theorem State.SameReceived.kVal : s'.kVal = s.kVal := congrArg unsignedWord h.k

theorem State.SameReceived.nVal : s'.nVal = s.nVal := congrArg unsignedWord h.n

theorem State.SameReceived.blenVal : s'.blenVal = s.blenVal := congrArg unsignedWord h.blen

theorem State.SameReceived.rsOddLen : s'.rsOddLen = s.rsOddLen := by
  rw [State.rsOddLen, State.rsOddLen, h.kVal, h.blenVal]

theorem State.SameReceived.presAt (i : Nat) : s'.presAt i = s.presAt i := by rw [State.presAt, State.presAt, h.pres]

theorem State.SameReceived.presentBelow (n : Nat) : s'.presentBelow n = s.presentBelow n := by
  simp only [State.presentBelow, h.presAt]

theorem State.SameReceived.erased (k : Nat) : s'.erased k = s.erased k := by
  simp only [State.erased, h.presAt]

theorem State.SameReceived.presentParity (k : Nat) : s'.presentParity k = s.presentParity k := by
  simp only [State.presentParity, h.presAt, h.nVal]

theorem State.SameReceived.contract : decodeContract s' = decodeContract s := by
  simp only [decodeContract, h.kVal, h.nVal, h.presentBelow, h.erased]

/-! ### Present blocks -/

theorem State.SameReceived.symbols (F : Gf) {x : Nat} (hx : x < s.nVal) (hp : s.presAt x = true) :
    s'.symbols F x = s.symbols F x := by
  refine congrArg (symbolsOf F) ?_
  rw [State.blk, State.blk, State.memRead, State.memRead, h.blen]
  refine List.map_congr_left fun o ho => ?_
  exact h.blocks x o hx hp (List.mem_range.1 ho)

/-! ### The equations of `RS.DEC` (R163 to R165) -/

theorem State.SameReceived.rsChosen (F : Gf) (k : Nat) : s'.rsChosen F k = s.rsChosen F k := by
  rw [State.rsChosen, State.rsChosen, h.erased, h.presentParity]

/-- The syndrome of a present parity block is made of that block and of present source blocks. -/
theorem State.SameReceived.rsSyndrome (F : Gf) {k j : Nat} (hkn : k ≤ s.nVal) (hj : j ∈ s.presentParity k) :
    s'.rsSyndrome F k j = s.rsSyndrome F k j := by
  obtain ⟨hlt, hp⟩ := (s.mem_presentParity k j).1 hj
  have hsources : s'.rsCombine F k j ((List.range k).filter (fun i => s.presAt i)) =
      s.rsCombine F k j ((List.range k).filter (fun i => s.presAt i)) := by
    rw [State.rsCombine, State.rsCombine, h.blenVal]
    refine congrArg (vecSum _) (List.map_congr_left fun i hi => ?_)
    obtain ⟨hik, hpi⟩ := List.mem_filter.1 hi
    rw [h.symbols F ((List.mem_range.1 hik).trans_le hkn) hpi]
  simp only [State.rsSyndrome, h.presAt, hsources, h.symbols F (show k + j < s.nVal by omega) hp]

theorem State.SameReceived.rsRecover (F : Gf) {k : Nat} (hkn : k ≤ s.nVal) :
    s'.rsRecover F k = s.rsRecover F k := by
  have hrows : (s.rsChosen F k).map (fun j => (⟨rsReducedRow F k (s.erased k) j, s'.rsSyndrome F k j⟩ : EqRow)) =
      (s.rsChosen F k).map (fun j => ⟨rsReducedRow F k (s.erased k) j, s.rsSyndrome F k j⟩) :=
    List.map_congr_left fun j hj => by rw [h.rsSyndrome F hkn ((rsSelect_sublist ..).subset hj)]
  simp only [State.rsRecover, h.erased, h.rsChosen, hrows]

/-! ### The equations of `RQ.DEC` (R233) -/

theorem State.SameReceived.rqReceived (k J : Nat) : s'.rqReceived k J = s.rqReceived k J := by
  have hpresent : ((List.range s.nVal).filter (fun i => s.presAt i)).map (fun i => (i, s'.symbols gf8 i)) =
      ((List.range s.nVal).filter (fun i => s.presAt i)).map (fun i => (i, s.symbols gf8 i)) :=
    List.map_congr_left fun i hi => by
      obtain ⟨hin, hp⟩ := List.mem_filter.1 hi
      rw [h.symbols gf8 (List.mem_range.1 hin) hp]
  simp only [State.rqReceived, h.blenVal, h.nVal, h.presAt, hpresent]

theorem State.SameReceived.rqSolve (k J : Nat) : s'.rqSolve k J = s.rqSolve k J := by
  rw [State.rqSolve, State.rqSolve, h.blenVal, h.rqReceived]

end

/-! ### Two decodes that answer alike -/

/-- The answers of a decoder in `s` and in `s'`: the same error, or the same blocks written to the erased slots, each
block fitting its slot. -/
inductive AnswersAlike (s s' : State) : Except ErrCode State → Except ErrCode State → Prop
  | error {c : ErrCode} (hc : c ≠ .ok) : AnswersAlike s s' (.error c) (.error c)
  | written (F : Gf) (bs : List (Nat × Vec)) (hslots : bs.map Prod.fst = s.erased s.kVal)
      (hfit : s.blenVal ≤ s.slotb) :
      AnswersAlike s s' (.ok ((s.setSymbols F bs).publish s.kVal)) (.ok ((s'.setSymbols F bs).publish s.kVal))

theorem decodeContract_error_ne_ok {s : State} {c : ErrCode} (h : decodeContract s = .error c) : c ≠ .ok := by
  rintro rfl
  rcases decodeContract_cases s with ⟨hc, -⟩ | ⟨hc, -⟩ | ⟨hc, -⟩ | ⟨hc, -⟩ <;> simp [h] at hc

/-- On the direct path no source block is erased, and none is written. -/
theorem AnswersAlike.direct {s : State} (s' : State) (hc : decodeContract s = .ok .direct)
    (hfit : s.blenVal ≤ s.slotb) :
    AnswersAlike s s' (.ok (s.publish s.kVal)) (.ok (s'.publish s.kVal)) := by
  refine .written gf8 [] ((s.erased_eq_nil _).2 ?_).symm hfit
  rcases allPresent_of_contract hc with hk | hall
  · exact fun i hi => absurd hi (by omega)
  · exact hall

/-- `RS.DEC` recovers one block for each erased source block. -/
theorem State.rsRecover_length {s : State} (hs : s.Wf) (hfit : s.DecodeFits) (hgen : s.GeneralPath) {X : List Vec}
    (hX : s.rsRecover (rsField s.kVal) s.kVal = some X) : X.length = (s.erased s.kVal).length := by
  have hlen : (s.rsChosen (rsField s.kVal) s.kVal).length = (s.erased s.kVal).length := by
    refine (rsSelect_length_le ..).antisymm (not_lt.1 fun hshort => ?_)
    simp [State.rsRecover_of_short hshort] at hX
  obtain ⟨Y, hY, hcount, -⟩ := State.rsRecover_solves hs hfit hgen hlen
  obtain rfl : Y = X := Option.some.inj (hY.symm.trans hX)
  exact hcount

section
variable {s s' : State} (h : s.SameReceived s')
include h

theorem State.SameReceived.rsDecode_alike (hs : s.Wf) : AnswersAlike s s' (rsDecode s) (rsDecode s') := by
  simp only [rsDecode, h.kVal, h.nVal, h.blenVal, h.nslot, h.slotb, h.rsOddLen, h.contract]
  split_ifs with hover hodd
  · exact .error (by decide)
  · exact .error (by decide)
  · have hfit : s.DecodeFits := ⟨by omega, by omega⟩
    cases hc : decodeContract s with
    | error c => exact .error (decodeContract_error_ne_ok hc)
    | ok path =>
      cases path with
      | direct => exact .direct s' hc hfit.blenFits
      | general =>
        have hgen := generalPath_of_contract hc
        dsimp only
        rw [h.rsRecover _ hgen.kLe, h.erased]
        cases hX : s.rsRecover (rsField s.kVal) s.kVal with
        | none => exact .error (by decide)
        | some X =>
          exact .written _ _ (List.map_fst_zip (State.rsRecover_length hs hfit hgen hX).ge) hfit.blenFits

theorem State.SameReceived.rqDecode_alike : AnswersAlike s s' (rqDecode s) (rqDecode s') := by
  simp only [rqDecode, h.kVal, h.nVal, h.blenVal, h.nslot, h.slotb, h.contract]
  split_ifs with hover
  · exact .error (by decide)
  · cases hc : decodeContract s with
    | error c => exact .error (decodeContract_error_ne_ok hc)
    | ok path =>
      cases path with
      | direct => exact .direct s' hc (by omega)
      | general =>
        cases systematicIndex s.kVal with
        | none => exact .error (by decide)
        | some J =>
          dsimp only
          rw [h.rqSolve, h.erased]
          cases s.rqSolve s.kVal J with
          | none => exact .error (by decide)
          | some C => exact .written gf8 (s.rqRecovered J C) (by simp [State.rqRecovered, Function.comp_def]) (by omega)

end

/-! ### Two decodes that end alike -/

/-- The states `t` and `t'` that a decode leads to from `s` and from another state: the same outcome and presence bits,
and after a success the same source blocks. -/
structure State.EndsAlike (s t t' : State) : Prop where
  err : t'.err = t.err
  n : t'.n = t.n
  pres : t'.pres = t.pres
  source : t.err = .ok → ∀ x o, x < s.kVal → o < s.blenVal → s.kVal ≤ s.nVal → t'.slotByte x o = t.slotByte x o

/-- A byte of a slot after a coder has written blocks and ended with `done`. -/
theorem State.slotByte_setSymbols_publish_done (s : State) (F : Gf) (bs : List (Nat × Vec)) (n x o : Nat) :
    ((s.setSymbols F bs).publish n).done.slotByte x o = (s.setSymbols F bs).byteAt (s.slotAddr x + o) := by
  rw [s.setSymbols_publish_done]
  exact s.byteAt_withBuf_setSymbols F bs _

/-- A slot to which no block is written reads as before. -/
theorem State.byteAt_setSymbols_of_other {s : State} (F : Gf) {bs : List (Nat × Vec)} {x o : Nat}
    (hother : ∀ b ∈ bs, b.1 ≠ x) (hfit : s.blenVal ≤ s.slotb) (ho : o < s.blenVal) :
    (s.setSymbols F bs).byteAt (s.slotAddr x + o) = s.slotByte x o :=
  s.byteAt_setSymbols_of_outside F bs _ fun b hb =>
    State.not_inBlock_of_ne (hother b hb) hfit (ho.trans_le hfit)

section
variable {s s' : State} (h : s.SameReceived s')
include h

/-- After the same blocks have been written to the erased slots, a source slot holds one of them or a present block. -/
theorem State.SameReceived.source_alike {F : Gf} {bs : List (Nat × Vec)} (hslots : bs.map Prod.fst = s.erased s.kVal)
    (hfit : s.blenVal ≤ s.slotb) {x o : Nat} (hx : x < s.kVal) (ho : o < s.blenVal) (hkn : s.kVal ≤ s.nVal) :
    (s'.setSymbols F bs).byteAt (s'.slotAddr x + o) = (s.setSymbols F bs).byteAt (s.slotAddr x + o) := by
  have hfit' : s'.blenVal ≤ s'.slotb := by rwa [h.blenVal, h.slotb]
  have ho' : o < s'.blenVal := by rwa [h.blenVal]
  by_cases hp : s.presAt x = true
  · have hother : ∀ b ∈ bs, b.1 ≠ x := by
      rintro b hb rfl
      have herased := (s.mem_erased _ _).1 (hslots ▸ List.mem_map_of_mem hb)
      simp [herased.2] at hp
    rw [State.byteAt_setSymbols_of_other F hother hfit' ho', State.byteAt_setSymbols_of_other F hother hfit ho,
      h.blocks x o (hx.trans_le hkn) hp ho]
  · have hnd : (bs.map Prod.fst).Nodup := hslots ▸ s.nodup_erased _
    obtain ⟨b, hb, rfl⟩ := List.mem_map.1 (hslots ▸ (s.mem_erased _ x).2 ⟨hx, by simpa using hp⟩)
    rw [s'.byteAt_setSymbols_of_mem F bs b o hb hnd hfit' ho', s.byteAt_setSymbols_of_mem F bs b o hb hnd hfit ho]

/-- Commands conclude answers that are alike with ends that are alike. -/
theorem AnswersAlike.endsAlike {r r' : Except ErrCode State} (hr : AnswersAlike s s' r r') {t t' : State}
    (ht : conclude s r = .next t) (ht' : conclude s' r' = .next t') : s.EndsAlike t t' := by
  cases hr with
  | error hc =>
    obtain rfl := Host.Outcome.next.inj ht
    obtain rfl := Host.Outcome.next.inj ht'
    exact ⟨rfl, h.n, h.pres, fun hok => absurd hok hc⟩
  | written F bs hslots hfit =>
    obtain rfl := Host.Outcome.next.inj ht
    obtain rfl := Host.Outcome.next.inj ht'
    refine ⟨rfl, rfl, rfl, fun _ x o hx ho hkn => ?_⟩
    rw [State.slotByte_setSymbols_publish_done, State.slotByte_setSymbols_publish_done]
    exact h.source_alike hslots hfit hx ho hkn

/-! ### The decode commands -/

variable {t t' : State}

theorem State.SameReceived.rsDec_endsAlike (hs : s.Wf) (ht : exec .rsDec s = .next t)
    (ht' : exec .rsDec s' = .next t') : s.EndsAlike t t' := (h.rsDecode_alike hs).endsAlike h ht ht'

theorem State.SameReceived.rqDec_endsAlike (ht : exec .rqDec s = .next t) (ht' : exec .rqDec s' = .next t') :
    s.EndsAlike t t' := by
  obtain ⟨herr, hn, hpres, hsource⟩ := h.constructRq.rqDecode_alike.endsAlike h.constructRq ht ht'
  exact ⟨herr, hn, hpres, hsource⟩

/-- `DEC` is one of the two decoders or raises E_BADMODE, by a mode that both states have (R282). -/
theorem State.SameReceived.dec_endsAlike (hs : s.Wf) (hmode : s'.mode = s.mode) (ht : exec .dec s = .next t)
    (ht' : exec .dec s' = .next t') : s.EndsAlike t t' := by
  rcases lt_trichotomy s.mode.toNat 2 with hm | hm | hm
  · rw [exec_dec_of_le_one (by omega)] at ht
    rw [exec_dec_of_le_one (by rw [hmode]; omega)] at ht'
    exact h.rsDec_endsAlike hs ht ht'
  · have htwo : s.mode = 2 := BitVec.eq_of_toNat_eq hm
    rw [exec_dec_of_eq_two htwo] at ht
    rw [exec_dec_of_eq_two (hmode.trans htwo)] at ht'
    exact h.rqDec_endsAlike ht ht'
  · rw [exec_dec_of_two_lt hm] at ht
    rw [exec_dec_of_two_lt (hmode ▸ hm)] at ht'
    exact AnswersAlike.endsAlike h (.error (c := .badMode) (by decide)) ht ht'

end

/-- Settles O40: each decoder answers alike in both states, and `publish` and `done` leave the rest alike. -/
theorem decodeNeverReadsErasedBlocks : Obligations.DecodeNeverReadsErasedBlocks := by
  unfold Obligations.DecodeNeverReadsErasedBlocks
  intro i s s' t t' hi hs _ hnslot hslotb hk hn hblen hmode hpres hblocks ht ht'
  have hsame : s.SameReceived s' := ⟨hnslot, hslotb, hk, hn, hblen, hpres, hblocks⟩
  obtain ⟨herr, hn', hpres', hsource⟩ : s.EndsAlike t t' := by
    cases i with
    | rsDec => exact hsame.rsDec_endsAlike hs ht ht'
    | rqDec => exact hsame.rqDec_endsAlike ht ht'
    | dec => exact hsame.dec_endsAlike hs hmode ht ht'
    | _ => exact absurd hi (by decide)
  exact ⟨herr, hn', hpres', hsource⟩

end Sys2Proof.Machine
end
